-- ==== Sys2Proof/Word.lean ====
section
/-! DEFINITION. The word types of the block: every register, sample, parameter, coefficient and piece of
numeric state is 32 bits wide (10_state.md R32, 00_scope.md R10, 20_memory.md R61); the byte is the unit in which
the host's address space is numbered (20_memory.md R60, R66). -/

namespace Sys2Proof

/-- A 32-bit word: a host-visible register, a command word, a bus datum (10_state.md R32). -/
abbrev Word := BitVec 32

/-- A byte of the host's byte-addressed space (20_memory.md R60, R66). -/
abbrev Byte := BitVec 8

/-- A 32-bit word read as an IEEE 754 binary32 number (00_scope.md R10). -/
abbrev F32 := BitVec 32

end Sys2Proof
end

