-- ==== Sys2Proof/Syntax.lean ====
section
/-! DEFINITION. The instructions: one constructor per row of spec/opcode_table.json (30_encoding.md R91, R95). -/

namespace Sys2Proof

/-- The three formats of the opcode table (30_encoding.md R95): what a word is matched against depends on where it
stands. -/
inductive Format where
  /-- a command word written to `CMD` (R90) -/
  | cmd
  /-- the snapshot's `P.type` of `PROC.D`, from `D_TYPE` (R96) -/
  | dtype
  /-- the snapshot's `P.type` of `PROC.R`, from `R_TYPE` (R97) -/
  | rtype
deriving DecidableEq, Repr

/-- The instructions of the opcode table. `nch`, `maxblk` and `n` are the unsigned fields `NCH` and `LEN` of the
command word (30_encoding.md R90, R93). The selector rows have no field. -/
inductive Instr where
  /-- `NOP` (R295) -/
  | nop
  /-- `CFG.D nch, maxblk` (R203) -/
  | cfgD (nch maxblk : Nat)
  /-- `CFG.R nch, maxblk` (R290) -/
  | cfgR (nch maxblk : Nat)
  /-- `PROC.D nch, n` (R204) -/
  | procD (nch n : Nat)
  /-- `PROC.R nch, n` (R283) -/
  | procR (nch n : Nat)
  /-- `WS.SOFT` (R121) -/
  | wsSoft
  /-- `WS.HARD` (R122) -/
  | wsHard
  /-- `WS.TUBE` (R123) -/
  | wsTube
  /-- `WS.FOLD` (R125) -/
  | wsFold
  /-- `WS.SINE` (R126) -/
  | wsSine
  /-- `MAP.ROOM` (R234) -/
  | mapRoom
  /-- `MAP.HALL` (R234) -/
  | mapHall
  /-- `MAP.PLATE` (R234) -/
  | mapPlate
  /-- `MAP.SPRING` (R234) -/
  | mapSpring
  /-- `MAP.SHIMMER` (R234) -/
  | mapShimmer
deriving DecidableEq, Repr

/-- The format of an instruction's row in the opcode table (30_encoding.md R95). -/
def Instr.format : Instr → Format
  | .nop => .cmd
  | .cfgD _ _ => .cmd
  | .cfgR _ _ => .cmd
  | .procD _ _ => .cmd
  | .procR _ _ => .cmd
  | .wsSoft => .dtype
  | .wsHard => .dtype
  | .wsTube => .dtype
  | .wsFold => .dtype
  | .wsSine => .dtype
  | .mapRoom => .rtype
  | .mapHall => .rtype
  | .mapPlate => .rtype
  | .mapSpring => .rtype
  | .mapShimmer => .rtype

end Sys2Proof
end

