-- ==== Sys2Proof/WellFormed.lean ====
section
/-! DEFINITION. Which instruction terms an encoding can hold: the widths of the fields `NCH` and `LEN`
(30_encoding.md R90, R93). Whether a value is legal for a command is no part of this: "The checks on the values of
`nch`, `maxblk` and `n` belong to the commands' own rules" (R92). -/

namespace Sys2Proof

/-- `NCH` is bits 23:20, range 0 to 15 (30_encoding.md R93). -/
def fitsNch (nch : Nat) : Bool := decide (nch < 16)

/-- `LEN` is bits 15:0, range 0 to 65535 (30_encoding.md R93). -/
def fitsLen (len : Nat) : Bool := decide (len < 65536)

/-- The instruction's operands fit the fields of its encoding (30_encoding.md R90, R93). -/
def Instr.wellFormed : Instr → Bool
  | .nop => true
  | .cfgD nch maxblk => fitsNch nch && fitsLen maxblk
  | .cfgR nch maxblk => fitsNch nch && fitsLen maxblk
  | .procD nch n => fitsNch nch && fitsLen n
  | .procR nch n => fitsNch nch && fitsLen n
  | .wsSoft => true
  | .wsHard => true
  | .wsTube => true
  | .wsFold => true
  | .wsSine => true
  | .mapRoom => true
  | .mapHall => true
  | .mapPlate => true
  | .mapSpring => true
  | .mapShimmer => true

end Sys2Proof
end

