-- ==== Sys2Proof/Decode.lean ====
section
/-! DEFINITION. The decoder of each format, total on every word and rejecting by name, and the encoder
(30_encoding.md R90 to R101). -/

namespace Sys2Proof

/-- Why a word is no instruction of a format. For `CMD` the first three are the branches of 30_encoding.md R92 that
raise `ILLEGAL_CMD`; `reservedType` is a selector value of 5 or more (R96, R97), which raises `BAD_TYPE`. -/
inductive Reject where
  /-- `OP = 0` with another bit set (R92, R99) -/
  | nopField
  /-- `OP` in 3 to 15 (R92, R99) -/
  | reservedOp
  /-- `OP` in 1 to 2 with `Z1` or `Z2` not zero (R92, R99) -/
  | reservedBits
  /-- a type selector of 5 or more (R96, R97, R99) -/
  | reservedType
  /-- fewer than the four bytes of the one command length (R90, R100) -/
  | truncated
deriving DecidableEq, Repr

/-- Field `OP`, bits 31:28 (30_encoding.md R90). -/
def opField (w : Word) : Nat := (w.extractLsb' 28 4).toNat
/-- Field `E`, bit 27: 0 distortion, 1 reverb (30_encoding.md R90). -/
def engineField (w : Word) : Bool := w.getLsbD 27
/-- Field `Z1`, bits 26:24 (30_encoding.md R90). -/
def z1Field (w : Word) : Nat := (w.extractLsb' 24 3).toNat
/-- Field `NCH`, bits 23:20 (30_encoding.md R90). -/
def nchField (w : Word) : Nat := (w.extractLsb' 20 4).toNat
/-- Field `Z2`, bits 19:16 (30_encoding.md R90). -/
def z2Field (w : Word) : Nat := (w.extractLsb' 16 4).toNat
/-- Field `LEN`, bits 15:0 (30_encoding.md R90). -/
def lenField (w : Word) : Nat := (w.extractLsb' 0 16).toNat

/-- The decoding algorithm of 30_encoding.md R92, branch by branch. -/
def decodeCmd (w : Word) : Except Reject Instr :=
  if w = 0 then .ok .nop
  else if opField w = 0 then .error .nopField
  else if opField w ≥ 3 then .error .reservedOp
  else if z1Field w ≠ 0 ∨ z2Field w ≠ 0 then .error .reservedBits
  else if opField w = 1 then
    if engineField w then .ok (.cfgR (nchField w) (lenField w)) else .ok (.cfgD (nchField w) (lenField w))
  else
    if engineField w then .ok (.procR (nchField w) (lenField w)) else .ok (.procD (nchField w) (lenField w))

/-- The distortion type selector: the whole register is compared (30_encoding.md R95, R96). -/
def decodeDType (w : Word) : Except Reject Instr :=
  match w.toNat with
  | 0 => .ok .wsSoft
  | 1 => .ok .wsHard
  | 2 => .ok .wsTube
  | 3 => .ok .wsFold
  | 4 => .ok .wsSine
  | _ => .error .reservedType

/-- The reverb type selector: the whole register is compared (30_encoding.md R95, R97). -/
def decodeRType (w : Word) : Except Reject Instr :=
  match w.toNat with
  | 0 => .ok .mapRoom
  | 1 => .ok .mapHall
  | 2 => .ok .mapPlate
  | 3 => .ok .mapSpring
  | 4 => .ok .mapShimmer
  | _ => .error .reservedType

/-- Decode a word by the format of the place it stands in (30_encoding.md R95). -/
def decode (f : Format) (w : Word) : Except Reject Instr :=
  match f with
  | .cmd => decodeCmd w
  | .dtype => decodeDType w
  | .rtype => decodeRType w

/-- The word whose byte at `addr + k` holds bits `8k+7 : 8k` (20_memory.md R66: little-endian). -/
def wordOfBytes (b0 b1 b2 b3 : Byte) : Word :=
  ((b3 ++ b2) ++ (b1 ++ b0) : BitVec 32)

/-- Byte `k` of a word: bits `8k+7 : 8k` (20_memory.md R66). -/
def byteOfWord (w : Word) (k : Nat) : Byte := w.extractLsb' (8 * k) 8

/-- Decode a command from its bytes, first byte at the lowest address; the rest of the list is handed back. There is one
command length, 32 bits (30_encoding.md R90, R100). -/
def decodeBytes : List Byte → Except Reject (Instr × List Byte)
  | b0 :: b1 :: b2 :: b3 :: rest =>
    match decodeCmd (wordOfBytes b0 b1 b2 b3) with
    | .ok i => .ok (i, rest)
    | .error e => .error e
  | _ => .error .truncated

/-! ### The encoder -/

/-- A command word: `OP` and `E` in the leading byte, `nch * 2^20 + len` below it (30_encoding.md R101). -/
def cmdWord (lead nch len : Nat) : Word := BitVec.ofNat 32 (lead * 2 ^ 24 + nch * 2 ^ 20 + len)

/-- The word of an instruction: the command word of R91 and R101, or the selector value of R96 and R97. -/
def encode : Instr → Word
  | .nop => 0x00000000
  | .cfgD nch maxblk => cmdWord 0x10 nch maxblk
  | .cfgR nch maxblk => cmdWord 0x18 nch maxblk
  | .procD nch n => cmdWord 0x20 nch n
  | .procR nch n => cmdWord 0x28 nch n
  | .wsSoft => 0
  | .wsHard => 1
  | .wsTube => 2
  | .wsFold => 3
  | .wsSine => 4
  | .mapRoom => 0
  | .mapHall => 1
  | .mapPlate => 2
  | .mapSpring => 3
  | .mapShimmer => 4

/-- The bytes of a command as the hardware stores a word: little-endian (20_memory.md R66). -/
def encodeBytes (i : Instr) : List Byte :=
  [byteOfWord (encode i) 0, byteOfWord (encode i) 1, byteOfWord (encode i) 2, byteOfWord (encode i) 3]

/-- The 32-bit word whose low `nbits` bits are those of `w` and whose other bits are 0. -/
def tableWord (nbits w : Nat) : Word := BitVec.ofNat 32 (w % 2 ^ nbits)

/-- The instruction that the block's command decoder reads from a table word. What a host can issue is a command word
(R90), so this is the `CMD` format; the selector rows' words stand in the registers `D_TYPE` and `R_TYPE` and are read by
`decodeDType` and `decodeRType`, and as command words they are `NOP` or illegal (R92, R99, V123; log 5). -/
def decodeTableWord (nbits w : Nat) : Option Instr :=
  let v := tableWord nbits w
  match decodeBytes [byteOfWord v 0, byteOfWord v 1, byteOfWord v 2, byteOfWord v 3] with
  | .ok (i, _) => some i
  | .error _ => none

end Sys2Proof
end

