-- ==== Sys2Proof/Config.lean ====
section
/-! DEFINITION. The configuration record `CFGREC` of 00_scope.md R8: the parameters fixed per instance of the
block, the numeric literals of 46_parameter_mapper.md R221, and the open parameters and free values, which are opaque
constants: nothing can be proved of what they are. -/

namespace Sys2Proof.Config

/-! ### Instance parameters with a value (00_scope.md R8) -/

/-- `NCH_MAX`: the largest channel count a `CFG` accepts (R8, D13). -/
abbrev nchMax : Nat := 2

/-- `BLK_CAP`: the largest `maxBlockSize`, and the channel stride of the sample buffers in words (R8, D14). -/
abbrev blkCap : Nat := 8192

/-- `FS_MIN` in Hz (R8, D15). -/
abbrev fsMin : Nat := 44100

/-- `FS_MAX` in Hz (R8, D15). -/
abbrev fsMax : Nat := 192000

/-- `DELAY_CAP`: words per channel in the predelay memory, 2^19 (R8, D16). -/
abbrev delayCap : Nat := 524288

/-- `FOLD_ITER_MAX`: the largest number of reflections of one foldback evaluation (R8, D22). -/
abbrev foldIterMax : Nat := 64

/-- `FTZ`: subnormal operands and results are replaced by zero (R8, R11, D3). -/
abbrev ftz : Bool := true

/-! ### The numeric literals (46_parameter_mapper.md R221) -/

/-- The numeric constants of the block in one record, each the binary32 pattern that R221 prints for the document's
decimal (00_scope.md R4, R10; log 28). The whole numbers 1 and -1, -2 and 0.5 of the rules' formulas stand beside them. -/
structure Literals where
  /-- +0.0 -/
  zero : F32 := 0x00000000
  /-- 1.0 -/
  one : F32 := 0x3F800000
  /-- -1.0 -/
  negOne : F32 := 0xBF800000
  /-- 2.0: pre-emphasis slope, saturation factor, ghost tanh pre-scale, `2t` of `FOLD`, `2Q` of `BQCOEF` -/
  two : F32 := 0x40000000
  /-- -2.0 -/
  negTwo : F32 := 0xC0000000
  /-- 0.5: transfer fold threshold, half of `BQCOEF` -/
  half : F32 := 0x3F000000
  /-- tone scale 0.99 (R222) -/
  toneScale : F32 := 0x3F7D70A4
  /-- destroy divisor 100 (R223) -/
  destroyDivisor : F32 := 0x42C80000
  /-- input gain slope 12 (R225 `k_in`) -/
  inSlope : F32 := 0x41400000
  /-- low-branch pre-scale 0.8 (R172) -/
  lowPreScale : F32 := 0x3F4CCCCD
  /-- low-branch gain slope 2.5 (R225 `k_low`) -/
  lowSlope : F32 := 0x40200000
  /-- resonant centre base 150 Hz (R224) -/
  centreBase : F32 := 0x43160000
  /-- resonant centre slope 200 Hz (R224) -/
  centreSlope : F32 := 0x43480000
  /-- resonant Q base 15 (R224) -/
  qBase : F32 := 0x41700000
  /-- resonant Q slope 35 (R224) -/
  qSlope : F32 := 0x420C0000
  /-- resonant boost slope 15 (R225 `k_res`) -/
  resSlope : F32 := 0x41700000
  /-- pre-emphasis slope 2 (R225 `k_pre`) -/
  preSlope : F32 := 0x40000000
  /-- tanh pre-scale of the resonant branch 2.5 (R172) -/
  resTanhScale : F32 := 0x40200000
  /-- `PI_2`, the quarter turn (R126, R172) -/
  pi2 : F32 := 0x3FC90FDB
  /-- destroy fold threshold 0.6 (R172) -/
  destroyFold : F32 := 0x3F19999A
  /-- transfer fold threshold 0.5 (R125) -/
  transferFold : F32 := 0x3F000000
  /-- mix low base 0.6 (R225 `k_mixlow`) -/
  mixLowBase : F32 := 0x3F19999A
  /-- mix low slope 0.4 (R225 `k_mixlow`) -/
  mixLowSlope : F32 := 0x3ECCCCCD
  /-- mix resonant slope 1.5 (R225 `k_mixres`) -/
  mixResSlope : F32 := 0x3FC00000
  /-- saturation slope 3 (R225 `k_sat`) -/
  satSlope : F32 := 0x40400000
  /-- saturation factor 2 (R172) -/
  satFactor : F32 := 0x40000000
  /-- ghost centre base 1000 Hz (R226) -/
  ghostBase : F32 := 0x447A0000
  /-- ghost centre depth 500 Hz (R226) -/
  ghostDepth : F32 := 0x43FA0000
  /-- `GHOST_Q`, 5 (R227) -/
  ghostQ : F32 := 0x40A00000
  /-- ghost tanh pre-scale 2 (R188) -/
  ghostTanhScale : F32 := 0x40000000
  /-- ghost blend, filtered part 0.8 (R188) -/
  ghostWet : F32 := 0x3F4CCCCD
  /-- ghost blend, dry part 0.2 (R188) -/
  ghostDry : F32 := 0x3E4CCCCD
  /-- Room size multiplier 0.4 (R234) -/
  roomSize : F32 := 0x3ECCCCCD
  /-- Room damping multiplier 0.9 (R234) -/
  roomDamping : F32 := 0x3F666666
  /-- Room width 0.5 (R234) -/
  roomWidth : F32 := 0x3F000000
  /-- Hall size multiplier 1.0 (R234) -/
  hallSize : F32 := 0x3F800000
  /-- Hall damping multiplier 0.2 (R234) -/
  hallDamping : F32 := 0x3E4CCCCD
  /-- Hall width 1.0 (R234) -/
  hallWidth : F32 := 0x3F800000
  /-- modulation depth 0.002 (R267) -/
  modDepth : F32 := 0x3B03126F
  /-- modulation rate 3 Hz (R233) -/
  modRate : F32 := 0x40400000
  /-- `TWO_PI`, the full turn (R229) -/
  twoPi : F32 := 0x40C90FDB
  /-- `PI`, the half turn (R227) -/
  pi : F32 := 0x40490FDB
  /-- milliseconds per second, 1000 (R232) -/
  msPerSecond : F32 := 0x447A0000
  /-- `CUT_Q`, 1/sqrt(2) (R230, R231) -/
  cutQ : F32 := 0x3F3504F3
deriving DecidableEq, Repr

/-- The block's literals (R221). -/
def lit : Literals := {}

/-! ### Open parameters (92_eei_decisions.md section 5) and free values

Each is an opaque constant without a body. What the spec requires of it beyond its type is imposed where it is read:
Machine/Tables.lean (R13), Machine/Mapper.lean (R234), Machine/Ghost.lean (R190), Machine/Float.lean (NaN). -/

/-- The raw table behind `TANH` (R13; log 11). -/
opaque tanhTable : F32 → F32
/-- The raw table behind `EXPN` (R13; log 11). -/
opaque expnTable : F32 → F32
/-- The raw table behind `SIN` (R13; log 11). -/
opaque sinTable : F32 → F32
/-- The raw table behind `COS` (R13; log 11). -/
opaque cosTable : F32 → F32
/-- The raw table behind `TAN` (R13; log 11). -/
opaque tanTable : F32 → F32
/-- The raw table behind `NCOSIN` (R13; log 11). -/
opaque ncoSinTable : F32 → F32

/-- The raw `GHOST_RATE_HZ` (R190, R228, U8; log 19, which also names a rate of -0.0). -/
opaque ghostRate : F32

/-- The ghost phase after a block whose step is an infinity, from the phase before it and that step: a free value, for which
R266 gives no wrap (10_state.md R25; log 19). -/
opaque freePhase : (phase step : F32) → F32

/-- One row of the ReverbTypeMapper table (46_parameter_mapper.md R234): size multiplier, damping multiplier, width. -/
structure MapRow where
  /-- size multiplier `ms` -/
  size : F32
  /-- damping multiplier `md` -/
  damping : F32
  /-- `wd`, the width -/
  width : F32
deriving DecidableEq, Repr, Inhabited

/-- The raw `MAP_PLATE` (R234, U9; log 19). -/
opaque mapPlate : MapRow
/-- The raw `MAP_SPRING` (R234, U9; log 19). -/
opaque mapSpring : MapRow
/-- The raw `MAP_SHIMMER` (R234, U9; log 19). -/
opaque mapShimmer : MapRow

/-- `ReverbAlgorithmParameters` (10_state.md R27, R38): the six words on the reverb capability's port. -/
structure ReverbParams where
  /-- `roomSize` -/
  roomSize : F32
  /-- `damping` -/
  damping : F32
  /-- `wetLevel` -/
  wetLevel : F32
  /-- `dryLevel` -/
  dryLevel : F32
  /-- `width` -/
  width : F32
  /-- `freeze` -/
  freeze : F32
deriving DecidableEq, Repr, Inhabited

/-- The type of `RS.rvb`, the opaque state of the external ReverbAlgorithm (10_state.md R28). Any state that a
digital unit can hold is a finite list of words; `unspecified d` is the content it has when nothing has initialised it
since the reset that took draw `d` (10_state.md R42; log 9). -/
inductive ReverbState where
  /-- not initialised since the reset that took this draw -/
  | unspecified (draw : Nat)
  /-- a state that `init` or `run` returned, as words -/
  | words (ws : List Word)
deriving DecidableEq, Repr, Inhabited

/-- `ReverbAlg.init(fs, nch, maxblk)` (R286; log 10). -/
opaque reverbInit : (fs : F32) → (nch maxblk : Nat) → ReverbState
/-- The word of channel `c`, sample `n` of the wet block that `ReverbAlg.run(ra, nch, N, wet, st)` returns; `wet` is
the old block, channel-major, `nch * N` words (R286; log 10). -/
opaque reverbRunWet : (ra : ReverbParams) → (nch len : Nat) → (wet : List F32) → (st : ReverbState) → (c n : Nat) → F32
/-- The new state that `ReverbAlg.run(ra, nch, N, wet, st)` returns (R286; log 10). -/
opaque reverbRunState : (ra : ReverbParams) → (nch len : Nat) → (wet : List F32) → (st : ReverbState) → ReverbState

/-- The operation that gave a NaN (00_scope.md R11, R13, 43_destroy_stage.md R171). -/
inductive NanSource where
  | fadd | fsub | fmul | fdiv | ffloor | tanh | expn | sin | cos | destroy
deriving DecidableEq, Repr

/-- The free bits of a NaN result: R11 and R13 say that the result is a NaN and not which one (log 12). -/
opaque nanBits : NanSource → F32 → F32 → F32

/-- The byte at an address that nothing has written since the reset that took draw `draw` (10_state.md R42, U4; log 7). -/
opaque freeByte : (draw address : Nat) → Byte
/-- A word that the spec declares unspecified (U2, U3, U6): word `index` of draw `draw` (log 15, log 17). -/
opaque freeWord : (draw index : Nat) → Word

end Sys2Proof.Config
end

