-- ==== Sys2Proof/Machine/State.lean ====
section
/-! DEFINITION. The state of the block (10_state.md R20): the host-visible registers, the snapshots, the engine states
`DS` and `RS` with their derived constants `DK` and `RK`, the sequencer, the memories, and the model's own fields. -/

namespace Sys2Proof.Machine

open Sys2Proof.Config

/-- A step of this hardware never ends in a model fault: a fault of the spec is an entry that the block survives
(60_exceptions.md R316, R318), so it is a next state. The type is closed and has no constructor. -/
inductive Fault where
deriving DecidableEq, Repr

/-- Why the model gives an instruction no meaning. -/
inductive Refusal where
  /-- raised by an arm of `exec` whose instruction has no meaning yet; safe. No arm of this model raises it. -/
  | notModelled (mnemonic : String)
deriving DecidableEq, Repr

/-- The fault causes of 60_exceptions.md R311, in the order of their codes 1 to 9. -/
inductive Cause where
  /-- code 1: the command word decodes to no command (R319) -/
  | illegalCmd
  /-- code 2: `PROC` on an engine whose `configured` bit is 0 (R312) -/
  | notConfigured
  /-- code 3: `CFG` with a channel count, block size or sample rate out of range (R314) -/
  | badConfig
  /-- code 4: `PROC` with another channel count or a longer block than configured (R315) -/
  | badBlock
  /-- code 5: the snapshot's `type` is 5 or more (R313) -/
  | badType
  /-- code 6: a predelay of `DELAY_CAP` samples or more (R322) -/
  | badDelay
  /-- code 7: a foldback evaluation that needs more than `FOLD_ITER_MAX` reflections (R323) -/
  | foldDiverge
  /-- code 8: a write of `CMD` while `BUSY` (R320) -/
  | cmdWhileBusy
  /-- code 9: a misaligned, wrong-size, unmapped or reserved access (R321) -/
  | badAccess
deriving DecidableEq, Repr

/-- The four taps of a second-order section, `taps[0..3]` of 42_biquad_iir_cascade.md R150. -/
structure Taps where
  /-- `taps[0]`, x[n-1] -/
  x1 : F32
  /-- `taps[1]`, x[n-2] -/
  x2 : F32
  /-- `taps[2]`, y[n-1] -/
  y1 : F32
  /-- `taps[3]`, y[n-2] -/
  y2 : F32
deriving DecidableEq, Repr

/-- The five coefficients of a second-order section, divided by `a0` (R150, R153). -/
structure Coefs where
  /-- coefficient of x[n] -/
  b0 : F32
  /-- coefficient of x[n-1] -/
  b1 : F32
  /-- coefficient of x[n-2] -/
  b2 : F32
  /-- coefficient of y[n-1], subtracted -/
  a1 : F32
  /-- coefficient of y[n-2], subtracted -/
  a2 : F32
deriving DecidableEq, Repr

/-- One value per channel, `NCH_MAX` entries (10_state.md R21). -/
abbrev PerChannel (α : Type) := Vector α nchMax

/-- A channel index `c` (10_state.md R21, R30). -/
abbrev Channel := Fin nchMax

/-- Distortion-engine state `DS` (10_state.md R23). -/
structure DistState where
  /-- `DS.configured`, visible as `STATUS.CFG_D` -/
  configured : Bool
  /-- `DS.fs`, the sample rate -/
  fs : F32
  /-- `DS.nch`, the negotiated channel count -/
  nch : Nat
  /-- `DS.maxblk` -/
  maxblk : Nat
  /-- `DS.tone_y1[c]` -/
  toneY1 : PerChannel F32
  /-- `DS.dtap[c][0..3]` -/
  dtap : PerChannel Taps
  /-- `DS.gs1[c]` -/
  gs1 : PerChannel F32
  /-- `DS.gs2[c]` -/
  gs2 : PerChannel F32
  /-- `DS.gphase` -/
  gphase : F32
deriving DecidableEq, Repr

/-- Distortion derived constants `DK` (10_state.md R24). -/
structure DistConsts where
  /-- `DK.amount` -/
  amount : F32
  /-- `DK.alpha` -/
  alpha : F32
  /-- `DK.beta` -/
  beta : F32
  /-- `DK.dcoef` -/
  dcoef : Coefs
  /-- `DK.k_in` -/
  kIn : F32
  /-- `DK.k_low` -/
  kLow : F32
  /-- `DK.k_res` -/
  kRes : F32
  /-- `DK.k_pre` -/
  kPre : F32
  /-- `DK.k_mixlow` -/
  kMixlow : F32
  /-- `DK.k_mixres` -/
  kMixres : F32
  /-- `DK.k_sat` -/
  kSat : F32
  /-- `DK.k_resc` -/
  kResc : F32
  /-- `DK.gfc` -/
  gfc : F32
  /-- `DK.gg` -/
  gg : F32
  /-- `DK.gR2` -/
  gR2 : F32
  /-- `DK.gh` -/
  gh : F32
  /-- `DK.ginc` -/
  ginc : F32
deriving DecidableEq, Repr

/-- Reverb-engine state `RS` (10_state.md R26); its predelay memory is `State.dly`. -/
structure RevState where
  /-- `RS.configured`, visible as `STATUS.CFG_R` -/
  configured : Bool
  /-- `RS.fs` -/
  fs : F32
  /-- `RS.nch` -/
  nch : Nat
  /-- `RS.maxblk` -/
  maxblk : Nat
  /-- `RS.lc[c][0..3]` -/
  lc : PerChannel Taps
  /-- `RS.hc[c][0..3]` -/
  hc : PerChannel Taps
  /-- `RS.wcur[c]`, an unsigned integer in `0..DELAY_CAP-1` (47_circular_delay_buffer.md R252) -/
  wcur : PerChannel Nat
  /-- `RS.mphase` -/
  mphase : F32
  /-- `RS.inc` -/
  inc : F32
  /-- `RS.rvb` (R28) -/
  rvb : ReverbState
deriving DecidableEq, Repr

/-- Reverb derived constants `RK` (10_state.md R27). -/
structure RevConsts where
  /-- `RK.lccoef` -/
  lccoef : Coefs
  /-- `RK.hccoef` -/
  hccoef : Coefs
  /-- `RK.dly_on` -/
  dlyOn : Bool
  /-- `RK.dly_d` -/
  dlyD : Nat
  /-- `RK.ra` -/
  ra : ReverbParams
deriving DecidableEq, Repr

/-- The stored host-visible registers (10_state.md R33, R34, R35, R38). `CMD` stores nothing and `STATUS` is a view. -/
structure Regs where
  /-- `FS_D` -/
  fsD : Word
  /-- `FS_R` -/
  fsR : Word
  /-- `D_GHOST` -/
  dGhost : Word
  /-- `D_DRIVE` -/
  dDrive : Word
  /-- `D_OUTPUT` -/
  dOutput : Word
  /-- `D_TYPE` -/
  dType : Word
  /-- `D_TONE` -/
  dTone : Word
  /-- `D_MIX` -/
  dMix : Word
  /-- `D_DESTROY` -/
  dDestroy : Word
  /-- `R_SIZE` -/
  rSize : Word
  /-- `R_DAMPING` -/
  rDamping : Word
  /-- `R_TYPE` -/
  rType : Word
  /-- `R_PREDELAY` -/
  rPredelay : Word
  /-- `R_MIX` -/
  rMix : Word
  /-- `R_MOD` -/
  rMod : Word
  /-- `R_LOWCUT` -/
  rLowcut : Word
  /-- `R_HIGHCUT` -/
  rHighcut : Word
  /-- `RA_ROOMSIZE`, `RA_DAMPING`, `RA_WETLEVEL`, `RA_DRYLEVEL`, `RA_WIDTH`, `RA_FREEZE` -/
  ra : ReverbParams
deriving DecidableEq, Repr

/-- The names of the registers of the register page (10_state.md R33, R34, R35, R38). -/
inductive RegName where
  | cmd | status | fsD | fsR
  | dGhost | dDrive | dOutput | dType | dTone | dMix | dDestroy
  | rSize | rDamping | rType | rPredelay | rMix | rMod | rLowcut | rHighcut
  | raRoomsize | raDamping | raWetlevel | raDrylevel | raWidth | raFreeze
deriving DecidableEq, Repr

/-- The active parameter snapshot of the distortion engine (10_state.md R40). -/
structure SnapD where
  /-- `P.ghost` -/
  ghost : Bool
  /-- `P.drive` -/
  drive : F32
  /-- `P.output` -/
  output : F32
  /-- `P.type` -/
  type : Word
  /-- `P.tone` -/
  tone : F32
  /-- `P.mix` -/
  mix : F32
  /-- `P.destroy` -/
  destroy : F32
deriving DecidableEq, Repr

/-- The active parameter snapshot of the reverb engine (10_state.md R40, 49_reverb_pipeline_and_system.md R282). -/
structure SnapR where
  /-- `P.size` -/
  size : F32
  /-- `P.damping` -/
  damping : F32
  /-- `P.type` -/
  type : Word
  /-- `P.predelay` -/
  predelay : F32
  /-- `P.mix` -/
  mix : F32
  /-- `P.mod` -/
  mod : F32
  /-- `P.lowcut` -/
  lowcut : F32
  /-- `P.highcut` -/
  highcut : F32
deriving DecidableEq, Repr

/-- `phase_of_command` (10_state.md R30); `idle` is the model's name for "no command" (log 16). -/
inductive Phase where
  | idle
  | ghostPass | mainPass
  | filterPass | predelayPass | externalCall | modulationPass | mixPass
deriving DecidableEq, Repr

/-- The sequencer `SEQ` (10_state.md R30). -/
structure Seq where
  /-- `SEQ.busy`, visible as `STATUS.BUSY` -/
  busy : Bool
  /-- `SEQ.n`, the sample index -/
  n : Nat
  /-- `SEQ.c`, the channel index -/
  c : Nat
  /-- `SEQ.phase_of_command` -/
  phase : Phase
deriving DecidableEq, Repr

/-- What an address that a memory does not list holds: a known byte, or the unspecified content of draw `draw`
(10_state.md R42; log 7, log 8). -/
inductive Fill where
  /-- unspecified since the reset that took this draw -/
  | unspecified (draw : Nat)
  /-- this byte -/
  | byte (b : Byte)
deriving DecidableEq, Repr

/-- A memory: the bytes that have been written, by address, and what every other address holds. `Memory.wf` is its
canonical form. -/
structure Memory where
  /-- what an unlisted address holds -/
  fill : Fill
  /-- the listed bytes, addresses rising -/
  cells : List Host.Cell
deriving DecidableEq, Repr

/-- One action of the host (00_scope.md R15; log 1). -/
inductive HostAction where
  /-- `MemRead(addr, size)` (20_memory.md R66) -/
  | read (addr : Word) (size : Nat)
  /-- `MemWrite(addr, size, v)` (20_memory.md R66) -/
  | write (addr : Word) (size : Nat) (v : Word)
  /-- the hardware reset, `rst_n` low (70_reset_and_hazards.md R340) -/
  | resetPin
deriving DecidableEq, Repr

/-- The state of the block (10_state.md R20) and the model's own fields `x`, `host`, `draws`. -/
structure State where
  /-- the host-visible registers -/
  regs : Regs
  /-- `STATUS.FAULT` and `STATUS.CAUSE`: `none` is `FAULT = 0`, `CAUSE = 0` (log 20) -/
  trap : Option Cause
  /-- the sequencer `SEQ` -/
  seq : Seq
  /-- the snapshot `P` of the distortion engine -/
  pd : SnapD
  /-- the snapshot `P` of the reverb engine -/
  pr : SnapR
  /-- `DS` -/
  ds : DistState
  /-- `DK` -/
  dk : DistConsts
  /-- `RS` -/
  rs : RevState
  /-- `RK` -/
  rk : RevConsts
  /-- `BUF_D` and `BUF_R` in the host's address space (20_memory.md R60, R62) -/
  mem : Memory
  /-- `WET_R` (20_memory.md R63) -/
  wet : Memory
  /-- `DLY` (20_memory.md R64) -/
  dly : Memory
  /-- the read data of the last host read (70_reset_and_hazards.md R341; log 3) -/
  rdata : Word
  /-- the model's own: the sample that a selector's waveshaper operation acts on (log 6) -/
  x : F32
  /-- the model's own: the host actions not yet performed (log 1) -/
  host : List HostAction
  /-- the model's own: the number of draws of unspecified values so far (log 25) -/
  draws : Nat
deriving DecidableEq, Repr

/-- Four taps of +0.0 (10_state.md R22). -/
def zeroTaps : Taps := ⟨0, 0, 0, 0⟩

/-- Coefficients of +0.0, the reset value of `DK.dcoef`, `RK.lccoef`, `RK.hccoef` (10_state.md R24, R27). -/
def zeroCoefs : Coefs := ⟨0, 0, 0, 0, 0⟩

/-- Reverb parameters of +0.0, the reset value of `RK.ra` and the `RA_*` registers (10_state.md R27, R38). -/
def zeroReverbParams : ReverbParams := ⟨0, 0, 0, 0, 0, 0⟩

/-- The machine right after the hardware reset that takes the draws `d`, `d+1`, `d+2`, `d+3` for the contents of the
buffers, `WET_R`, `DLY` and `RS.rvb` (10_state.md R42, 70_reset_and_hazards.md R340). -/
def State.afterReset (d : Nat) : State where
  regs := ⟨0, 0, 0, 0, 0, 0, 0, 0, 0, 0, 0, 0, 0, 0, 0, 0, 0, zeroReverbParams⟩
  trap := none
  seq := ⟨false, 0, 0, .idle⟩
  pd := ⟨false, 0, 0, 0, 0, 0, 0⟩
  pr := ⟨0, 0, 0, 0, 0, 0, 0, 0⟩
  ds :=
    { configured := false, fs := 0, nch := 0, maxblk := 0, toneY1 := .replicate _ 0, dtap := .replicate _ zeroTaps,
      gs1 := .replicate _ 0, gs2 := .replicate _ 0, gphase := 0 }
  dk :=
    { amount := 0, alpha := 0, beta := 0, dcoef := zeroCoefs, kIn := 0, kLow := 0, kRes := 0, kPre := 0, kMixlow := 0,
      kMixres := 0, kSat := 0, kResc := 0, gfc := 0, gg := 0, gR2 := 0, gh := 0, ginc := 0 }
  rs :=
    { configured := false, fs := 0, nch := 0, maxblk := 0, lc := .replicate _ zeroTaps, hc := .replicate _ zeroTaps,
      wcur := .replicate _ 0, mphase := 0, inc := 0, rvb := .unspecified (d + 3) }
  rk := { lccoef := zeroCoefs, hccoef := zeroCoefs, dlyOn := false, dlyD := 0, ra := zeroReverbParams }
  mem := ⟨.unspecified d, []⟩
  wet := ⟨.unspecified (d + 1), []⟩
  dly := ⟨.unspecified (d + 2), []⟩
  rdata := 0
  x := 0
  host := []
  draws := d + 4

/-- The machine right after the first hardware reset (10_state.md R42). -/
def State.reset : State := State.afterReset 0

end Sys2Proof.Machine
end

