-- ==== Sys2Proof/Machine/Ops.lean ====
section
/-! DEFINITION. The named operations every instruction is written over: memory, the sweep over a block's samples, fault
entry (60_exceptions.md R316), the unspecified states the spec leaves behind some faults, and the hardware reset
(70_reset_and_hazards.md R340), which is the only way out of a fault (60_exceptions.md R325). -/

namespace Sys2Proof.Machine

open Sys2Proof.Config

/-! ### Memory (20_memory.md R60 to R66) -/

/-- The listed byte at an address, if any. -/
def findCell : List Host.Cell → Nat → Option Byte
  | [], _ => none
  | (k, v) :: t, a => if k = a then some v else findCell t a

/-- List the byte `b` at the address `a`, keeping the addresses rising. -/
def insertCell (a : Nat) (b : Byte) : List Host.Cell → List Host.Cell
  | [] => [(a, b)]
  | (k, v) :: t => if a < k then (a, b) :: (k, v) :: t else if a = k then (a, b) :: t else (k, v) :: insertCell a b t

/-- List nothing at the address `a`. -/
def eraseCell (a : Nat) (l : List Host.Cell) : List Host.Cell := l.filter fun c => decide (c.1 ≠ a)

/-- What an unlisted address reads as: the fill byte, or the free byte of the draw (10_state.md R42; log 7). -/
def fillByte (f : Fill) (a : Nat) : Byte :=
  match f with
  | .byte b => b
  | .unspecified d => freeByte d a

/-- The byte at an address. -/
def memByte (m : Memory) (a : Nat) : Byte := (findCell m.cells a).getD (fillByte m.fill a)

/-- Put a byte at an address; the byte that an unlisted address is known to hold is not listed. -/
def setByte (m : Memory) (a : Nat) (b : Byte) : Memory :=
  if m.fill = .byte b then { m with cells := eraseCell a m.cells } else { m with cells := insertCell a b m.cells }

/-- The word at a byte address, little-endian (20_memory.md R66). -/
def memWord (m : Memory) (a : Nat) : Word :=
  (memByte m (a + 3) ++ memByte m (a + 2)) ++ (memByte m (a + 1) ++ memByte m a)

/-- Put a word at a byte address, little-endian (20_memory.md R66). -/
def setWord (m : Memory) (a : Nat) (w : Word) : Memory :=
  setByte (setByte (setByte (setByte m a (w.extractLsb' 0 8)) (a + 1) (w.extractLsb' 8 8)) (a + 2) (w.extractLsb' 16 8))
    (a + 3) (w.extractLsb' 24 8)

/-- Addresses strictly rising. -/
def risingCells : List Host.Cell → Bool
  | [] => true
  | [_] => true
  | (a, _) :: (b, y) :: t => decide (a < b) && risingCells ((b, y) :: t)

/-- The canonical form of a memory: addresses strictly rising, and no listed byte that an unlisted address is known to
hold. -/
def Memory.wf (m : Memory) : Bool := risingCells m.cells && m.cells.all fun c => decide (m.fill ≠ .byte c.2)

/-! ### Addresses (20_memory.md R60 to R64, 47_circular_delay_buffer.md R253) -/

/-- Bytes of one sample buffer window, `4 * NCH_MAX * BLK_CAP` (20_memory.md R60). -/
def bufBytes : Nat := 4 * nchMax * blkCap

/-- First byte of `BUF_D`: the next multiple of the window size at or above 0x10000 (20_memory.md R60). -/
def bufDBase : Nat := (0x10000 + bufBytes - 1) / bufBytes * bufBytes

/-- First byte of `BUF_R`, the window after `BUF_D` (20_memory.md R60). -/
def bufRBase : Nat := bufDBase + bufBytes

/-- Byte address of `BUF_D[c][n]` (20_memory.md R62). -/
def bufDAddr (c : Channel) (n : Nat) : Nat := bufDBase + 4 * (c.val * blkCap + n)

/-- Byte address of `BUF_R[c][n]` (20_memory.md R62). -/
def bufRAddr (c : Channel) (n : Nat) : Nat := bufRBase + 4 * (c.val * blkCap + n)

/-- Where `WET_R[c][n]` stands in its internal memory (20_memory.md R63). -/
def wetAddr (c : Channel) (n : Nat) : Nat := 4 * (c.val * blkCap + n)

/-- Where `DLY[c][i]` stands in its internal memory: word index `c * DELAY_CAP + i` (47_circular_delay_buffer.md R253). -/
def dlyAddr (c : Channel) (i : Nat) : Nat := 4 * (c.val * delayCap + i)

/-! ### The sweep over a block -/

/-- The live channels `0..nch-1`, ascending (10_state.md R21, 00_scope.md R14; log 27). -/
def channels (nch : Nat) : List Channel := (List.finRange nchMax).filter fun c => decide (c.val < nch)

/-- The samples `(n, c)` of a block in the order of the rules' loops: sample-major, channels ascending inside a frame
(45_distortion_pipeline.md R204, 49_reverb_pipeline_and_system.md R283, D43). -/
def positions (nch len : Nat) : List (Nat × Channel) :=
  (List.range len).flatMap fun n => (channels nch).map fun c => (n, c)

/-- Rewrite the words at the listed positions in place, threading the state `σ` of the stage. -/
def sweep {σ : Type} (addr : Channel → Nat → Nat) (f : Nat → Channel → F32 → σ → F32 × σ) :
    List (Nat × Channel) → Memory → σ → Memory × σ
  | [], m, st => (m, st)
  | (n, c) :: t, m, st =>
    let r := f n c (memWord m (addr c n)) st
    sweep addr f t (setWord m (addr c n) r.1) r.2

/-- A sweep whose stage can fault: `none` at the first position that does (60_exceptions.md R317 point 6). -/
def sweepFault {σ : Type} (addr : Channel → Nat → Nat) (f : Nat → Channel → F32 → σ → Option (F32 × σ)) :
    List (Nat × Channel) → Memory → σ → Option (Memory × σ)
  | [], m, st => some (m, st)
  | (n, c) :: t, m, st =>
    match f n c (memWord m (addr c n)) st with
    | none => none
    | some r => sweepFault addr f t (setWord m (addr c n) r.1) r.2

/-! ### Fault entry (60_exceptions.md R316) -/

/-- `raise Fault(cause)`: the first cause is kept, `SEQ.busy` becomes 0, and the command or access ends (60_exceptions.md
R316). Nothing else is saved and control goes nowhere. -/
def raiseFault (cause : Cause) (s : State) : State :=
  { s with trap := some (s.trap.getD cause), seq := { s.seq with busy := false } }

/-! ### What the spec leaves unspecified (93_implementation_defined.md U2, U3, U6) -/

/-- Free taps: words `i` to `i+3` of draw `d`. -/
def freeTaps (d i : Nat) : Taps := ⟨freeWord d i, freeWord d (i + 1), freeWord d (i + 2), freeWord d (i + 3)⟩

/-- Free coefficients: words `i` to `i+4` of draw `d`. -/
def freeCoefs (d i : Nat) : Coefs :=
  ⟨freeWord d i, freeWord d (i + 1), freeWord d (i + 2), freeWord d (i + 3), freeWord d (i + 4)⟩

/-- A free integer in `0..bound`: word `i` of draw `d`, kept to the range of the field. -/
def freeUpTo (bound d i : Nat) : Nat := (freeWord d i).toNat % (bound + 1)

/-- Any value in every word of `DS`; `configured` is set by `CFG` and cleared only by the hardware reset
(60_exceptions.md R312), so it stays (U2, V131; log 15). -/
def freeDistState (d : Nat) (ds : DistState) : DistState :=
  { configured := ds.configured
    fs := freeWord d 0
    nch := freeUpTo nchMax d 1
    maxblk := freeUpTo blkCap d 2
    toneY1 := Vector.ofFn fun c => freeWord d (8 + c.val)
    dtap := Vector.ofFn fun c => freeTaps d (16 + 4 * c.val)
    gs1 := Vector.ofFn fun c => freeWord d (32 + c.val)
    gs2 := Vector.ofFn fun c => freeWord d (40 + c.val)
    gphase := freeWord d 3 }

/-- Any value in every word of `DK` (U2; log 15). -/
def freeDistConsts (d : Nat) : DistConsts :=
  { amount := freeWord d 48, alpha := freeWord d 49, beta := freeWord d 50, dcoef := freeCoefs d 51
    kIn := freeWord d 56, kLow := freeWord d 57, kRes := freeWord d 58, kPre := freeWord d 59
    kMixlow := freeWord d 60, kMixres := freeWord d 61, kSat := freeWord d 62, kResc := freeWord d 63
    gfc := freeWord d 64, gg := freeWord d 65, gR2 := freeWord d 66, gh := freeWord d 67, ginc := freeWord d 68 }

/-- Any value in every word of `RS`; `configured` stays, as in `freeDistState` (U3, U6; log 17). -/
def freeRevState (d : Nat) (rs : RevState) : RevState :=
  { configured := rs.configured
    fs := freeWord d 0
    nch := freeUpTo nchMax d 1
    maxblk := freeUpTo blkCap d 2
    lc := Vector.ofFn fun c => freeTaps d (8 + 4 * c.val)
    hc := Vector.ofFn fun c => freeTaps d (16 + 4 * c.val)
    wcur := Vector.ofFn fun c => freeUpTo (delayCap - 1) d (24 + c.val)
    mphase := freeWord d 3
    inc := freeWord d 4
    rvb := .unspecified d }

/-- Any value in every word of `RK` (U3, U6; log 17). -/
def freeRevConsts (d : Nat) : RevConsts :=
  { lccoef := freeCoefs d 32, hccoef := freeCoefs d 40
    dlyOn := (freeWord d 48).getLsbD 0
    dlyD := freeUpTo (delayCap - 1) d 49
    ra := ⟨freeWord d 50, freeWord d 51, freeWord d 52, freeWord d 53, freeWord d 54, freeWord d 55⟩ }

/-- Any value in the words of a buffer with `c < nch`, `n < len` (U2; log 15). -/
def freeBlock (addr : Channel → Nat → Nat) (d nch len : Nat) (m : Memory) : Memory :=
  (sweep addr (fun n c _ (_ : Unit) => (freeWord d (addr c n), ())) (positions nch len) m ()).1

/-- The distortion engine and `len` frames of its buffer left unspecified (U2, U3, U6). -/
def losesDist (nch len : Nat) (s : State) : State :=
  { s with
    ds := freeDistState s.draws s.ds
    dk := freeDistConsts s.draws
    mem := freeBlock bufDAddr (s.draws + 1) nch len s.mem
    draws := s.draws + 2 }

/-- The reverb engine with its internal memories, and `BUF_R`, left unspecified (U3, U6). -/
def losesRev (s : State) : State :=
  { s with
    rs := freeRevState s.draws s.rs
    rk := freeRevConsts s.draws
    mem := freeBlock bufRAddr (s.draws + 1) nchMax blkCap s.mem
    wet := ⟨.unspecified (s.draws + 2), []⟩
    dly := ⟨.unspecified (s.draws + 3), []⟩
    draws := s.draws + 4 }

/-- `raise Fault(FOLD_DIVERGE)` inside a block of `nch` channels and `len` frames: the fault is recorded, and `DS`, `DK`
and the block's words of `BUF_D` are unspecified from then on (60_exceptions.md R323, U2; log 15). -/
def foldDiverge (nch len : Nat) (s : State) : State := raiseFault .foldDiverge (losesDist nch len s)

/-! ### The hardware reset (70_reset_and_hazards.md R340) -/

/-- The hardware reset: the state of 10_state.md R42, with new draws for what it leaves unspecified; the only event that
clears a fault (R340, 60_exceptions.md R325). The host's pending actions are not the block's and stay (log 18). -/
def hardwareReset (s : State) : State := { State.afterReset s.draws with host := s.host }

end Sys2Proof.Machine
end

