-- ==== Sys2Proof/Machine/Flags.lean ====
section
/-! DEFINITION. The flags: `REG.STATUS` and its cause codes (10_state.md R31, R33, 60_exceptions.md R311). There are no
arithmetic condition codes (R31). -/

namespace Sys2Proof.Machine

/-- The cause codes of 60_exceptions.md R311. -/
def causeCode : Cause → BitVec 8
  | .illegalCmd => 1
  | .notConfigured => 2
  | .badConfig => 3
  | .badBlock => 4
  | .badType => 5
  | .badDelay => 6
  | .foldDiverge => 7
  | .cmdWhileBusy => 8
  | .badAccess => 9

/-- `STATUS.CAUSE`: the code of the first fault since the hardware reset, 0 when `FAULT = 0` (10_state.md R33). -/
def statusCause (s : State) : BitVec 8 :=
  match s.trap with
  | none => 0
  | some c => causeCode c

/-- The value of `REG.STATUS`: bit 0 `CFG_D`, bit 1 `CFG_R`, bit 2 `BUSY`, bit 3 `FAULT`, bits 15:8 `CAUSE`, the rest 0
(10_state.md R33). -/
def statusWord (s : State) : Word :=
  (0#16 ++ statusCause s) ++
    (0#4 ++ BitVec.ofBool s.trap.isSome ++ BitVec.ofBool s.seq.busy ++ BitVec.ofBool s.rs.configured ++
      BitVec.ofBool s.ds.configured)

end Sys2Proof.Machine
end

