-- ==== Sys2Proof/Machine/Float.lean ====
section
/-! DEFINITION. Binary32 arithmetic: the primitives of 00_scope.md R11, correctly rounded to nearest with ties to even,
with flush-to-zero on operands and results, and the two conversions the rules use. A finite F32 is a whole number of
units of 2^-149, so every exact result is a fraction of whole numbers and is rounded once. -/

namespace Sys2Proof.Machine

open Sys2Proof.Config

/-! ### The layout (00_scope.md R10) -/

/-- Bit 31, the sign (R10). -/
def signBit (w : F32) : Bool := w.getLsbD 31
/-- Bits 30:23, the biased exponent (R10). -/
def expField (w : F32) : Nat := w.toNat / 2 ^ 23 % 2 ^ 8
/-- Bits 22:0, the fraction (R10). -/
def fracField (w : F32) : Nat := w.toNat % 2 ^ 23

/-- `val(w)` is a NaN (R10). -/
def isNaN (w : F32) : Bool := expField w == 255 && fracField w != 0
/-- `val(w)` is an infinity (R10). -/
def isInf (w : F32) : Bool := expField w == 255 && fracField w == 0
/-- `val(w)` is a real number (R10). -/
def isFinite (w : F32) : Bool := expField w != 255
/-- `val(w)` is a zero of either sign (R10). -/
def isZero (w : F32) : Bool := expField w == 0 && fracField w == 0
/-- `w` is subnormal: exponent field 0, fraction not 0 (R11). -/
def isSubnormal (w : F32) : Bool := expField w == 0 && fracField w != 0

/-- The word with bit 31 flipped. -/
def flipSign (w : F32) : F32 := w ^^^ 0x80000000#32

/-- A zero of the sign `neg`. -/
def signedZero (neg : Bool) : F32 := if neg then 0x80000000#32 else 0#32
/-- An infinity of the sign `neg`. -/
def signedInf (neg : Bool) : F32 := if neg then 0xFF800000#32 else 0x7F800000#32

/-- Flush-to-zero: a subnormal is replaced by a zero of the same sign (R11, D3). -/
def flush (w : F32) : F32 := if ftz && isSubnormal w then signedZero (signBit w) else w

/-- A NaN whose other bits are free: R11 and R13 say that a result is a NaN, not which one (log 12). -/
def someNaN (src : NanSource) (a b : F32) : F32 :=
  let w := nanBits src a b
  if isNaN w then w else 0x7FC00000#32

/-! ### Values and rounding -/

/-- `abs(val(w))` in units of 2^-149, for finite `w`; an infinity counts as 2^277 units, above every finite value (R10). -/
def magUnits (w : F32) : Nat :=
  if expField w = 0 then fracField w else (2 ^ 23 + fracField w) * 2 ^ (expField w - 1)

/-- `val(w)` in units of 2^-149 (R10). -/
def units (w : F32) : Int := if signBit w then -(magUnits w : Int) else magUnits w

/-- `num / den` rounded to a whole number, ties to even. -/
def roundDiv (num den : Nat) : Nat :=
  let q := num / den
  let r := num % den
  if 2 * r < den then q else if 2 * r = den then q + q % 2 else q + 1

/-- The binary32 magnitude bits nearest to `num / den` units of 2^-149, ties to even; too large a value is an infinity
(R11). The exponent is raised by `k` where the value needs more than 24 significant bits; a significand that rounds up to
2^24 carries into the exponent. -/
def roundUnits (num den : Nat) : Nat :=
  let k := Nat.log2 (num / den) - 23
  min (k * 2 ^ 23 + roundDiv num (den * 2 ^ k)) 0x7F800000

/-- The word with the sign `neg` and the magnitude bits `mag`. -/
def packBits (neg : Bool) (mag : Nat) : F32 := BitVec.ofNat 32 ((if neg then 2 ^ 31 else 0) + mag)

/-- The correctly rounded, flushed binary32 of `num / den` units of 2^-149, with the sign `neg` (R11). -/
def roundTo (neg : Bool) (num den : Nat) : F32 := flush (packBits neg (roundUnits num den))

/-! ### The primitives (00_scope.md R11) -/

/-- The sum of flushed operands; `src` is the primitive that a NaN result comes from. -/
def sumFlushed (src : NanSource) (a b : F32) : F32 :=
  if isNaN a || isNaN b then someNaN src a b
  else if isInf a then (if isInf b && signBit a != signBit b then someNaN src a b else a)
  else if isInf b then b
  else
    let z := units a + units b
    if z = 0 then signedZero (signBit a && signBit b) else roundTo (decide (z < 0)) z.natAbs 1

/-- `fadd(a, b)` (R11). -/
def fadd (a b : F32) : F32 := sumFlushed .fadd (flush a) (flush b)

/-- `fsub(a, b)` (R11): the exact operation is the sum of `a` and `-b`. -/
def fsub (a b : F32) : F32 := sumFlushed .fsub (flush a) (flipSign (flush b))

/-- `fmul` on flushed operands. -/
def fmulFlushed (a b : F32) : F32 :=
  let neg := signBit a != signBit b
  if isNaN a || isNaN b then someNaN .fmul a b
  else if isInf a || isInf b then (if isZero a || isZero b then someNaN .fmul a b else signedInf neg)
  else roundTo neg (magUnits a * magUnits b) (2 ^ 149)

/-- `fmul(a, b)` (R11). -/
def fmul (a b : F32) : F32 := fmulFlushed (flush a) (flush b)

/-- `fdiv` on flushed operands. -/
def fdivFlushed (a b : F32) : F32 :=
  let neg := signBit a != signBit b
  if isNaN a || isNaN b then someNaN .fdiv a b
  else if isInf a then (if isInf b then someNaN .fdiv a b else signedInf neg)
  else if isInf b then signedZero neg
  else if isZero b then (if isZero a then someNaN .fdiv a b else signedInf neg)
  else roundTo neg (magUnits a * 2 ^ 149) (magUnits b)

/-- `fdiv(a, b)` (R11). -/
def fdiv (a b : F32) : F32 := fdivFlushed (flush a) (flush b)

/-- `fneg(a)` flips bit 31, after the operand flush of every primitive (R11; log 13). -/
def fneg (a : F32) : F32 := flipSign (flush a)

/-- `fabs(a)` clears bit 31, after the operand flush of every primitive (R11; log 13). -/
def fabs (a : F32) : F32 := flush a &&& 0x7FFFFFFF#32

/-- `a < b`; false with a NaN operand (R11). -/
def flt (a b : F32) : Bool := !isNaN a && !isNaN b && decide (units (flush a) < units (flush b))
/-- `a <= b`; false with a NaN operand (R11). -/
def fle (a b : F32) : Bool := !isNaN a && !isNaN b && decide (units (flush a) ≤ units (flush b))
/-- `a > b` (R11). -/
def fgt (a b : F32) : Bool := flt b a
/-- `a >= b` (R11). -/
def fge (a b : F32) : Bool := fle b a
/-- `a == b`; false with a NaN operand, and `+0 == -0` (R11). -/
def feq (a b : F32) : Bool := !isNaN a && !isNaN b && decide (units (flush a) = units (flush b))

/-! ### Integral values -/

/-- `ffloor(v)`: the largest F32 with an integral value not above `v`, exact (48_nco_modulation_lut.md R266; log 28). -/
def ffloor (v : F32) : F32 :=
  let w := flush v
  if isNaN w then someNaN .ffloor w w
  else if isInf w then w
  else
    let z := units w / 2 ^ 149
    if z = 0 then signedZero (signBit w) else roundTo (decide (z < 0)) (z.natAbs * 2 ^ 149) 1

/-- `floor(val(u))` of a value known to be finite and not negative (46_parameter_mapper.md R232, 47_circular_delay_buffer.md
R252). -/
def floorNat (u : F32) : Nat := (units (flush u) / 2 ^ 149).toNat

/-- A whole number converted to F32; exact below 2^24 (46_parameter_mapper.md R228). -/
def f32OfNat (n : Nat) : F32 := roundTo false (n * 2 ^ 149) 1

end Sys2Proof.Machine
end

