-- ==== Sys2Proof/Machine/Operands.lean ====
section
/-! DEFINITION. Operands: the register page by address and by name (10_state.md R33 to R39), the parameter snapshots
(30_encoding.md R94, 10_state.md R40, 49_reverb_pipeline_and_system.md R282), and the legal ranges of a command's operands
(30_encoding.md R93). -/

namespace Sys2Proof.Machine

open Sys2Proof.Config

/-- The register at a byte address of the register page; every other address of the page is reserved (10_state.md R33,
R34, R35, R38, R39). -/
def regAt (a : Nat) : Option RegName :=
  match a with
  | 0x000 => some .cmd
  | 0x004 => some .status
  | 0x008 => some .fsD
  | 0x00C => some .fsR
  | 0x040 => some .dGhost
  | 0x044 => some .dDrive
  | 0x048 => some .dOutput
  | 0x04C => some .dType
  | 0x050 => some .dTone
  | 0x054 => some .dMix
  | 0x058 => some .dDestroy
  | 0x080 => some .rSize
  | 0x084 => some .rDamping
  | 0x088 => some .rType
  | 0x08C => some .rPredelay
  | 0x090 => some .rMix
  | 0x094 => some .rMod
  | 0x098 => some .rLowcut
  | 0x09C => some .rHighcut
  | 0x0C0 => some .raRoomsize
  | 0x0C4 => some .raDamping
  | 0x0C8 => some .raWetlevel
  | 0x0CC => some .raDrylevel
  | 0x0D0 => some .raWidth
  | 0x0D4 => some .raFreeze
  | _ => none

/-- A host read of a register: `CMD` is write-only and reads 0; `STATUS` is the view of its fields (10_state.md R32 to
R38). -/
def readReg (r : RegName) (s : State) : Word :=
  match r with
  | .cmd => 0
  | .status => statusWord s
  | .fsD => s.regs.fsD
  | .fsR => s.regs.fsR
  | .dGhost => s.regs.dGhost
  | .dDrive => s.regs.dDrive
  | .dOutput => s.regs.dOutput
  | .dType => s.regs.dType
  | .dTone => s.regs.dTone
  | .dMix => s.regs.dMix
  | .dDestroy => s.regs.dDestroy
  | .rSize => s.regs.rSize
  | .rDamping => s.regs.rDamping
  | .rType => s.regs.rType
  | .rPredelay => s.regs.rPredelay
  | .rMix => s.regs.rMix
  | .rMod => s.regs.rMod
  | .rLowcut => s.regs.rLowcut
  | .rHighcut => s.regs.rHighcut
  | .raRoomsize => s.regs.ra.roomSize
  | .raDamping => s.regs.ra.damping
  | .raWetlevel => s.regs.ra.wetLevel
  | .raDrylevel => s.regs.ra.dryLevel
  | .raWidth => s.regs.ra.width
  | .raFreeze => s.regs.ra.freeze

/-- What a host write stores: a read-write register takes the pattern written (R37), a read-only register ignores the
write without a fault (R32). `CMD` stores nothing; the command it issues is `issueCommand` of Machine/Bus.lean. -/
def writeRegs (r : RegName) (v : Word) (g : Regs) : Regs :=
  match r with
  | .cmd => g
  | .status => g
  | .fsD => { g with fsD := v }
  | .fsR => { g with fsR := v }
  | .dGhost => { g with dGhost := v }
  | .dDrive => { g with dDrive := v }
  | .dOutput => { g with dOutput := v }
  | .dType => { g with dType := v }
  | .dTone => { g with dTone := v }
  | .dMix => { g with dMix := v }
  | .dDestroy => { g with dDestroy := v }
  | .rSize => { g with rSize := v }
  | .rDamping => { g with rDamping := v }
  | .rType => { g with rType := v }
  | .rPredelay => { g with rPredelay := v }
  | .rMix => { g with rMix := v }
  | .rMod => { g with rMod := v }
  | .rLowcut => { g with rLowcut := v }
  | .rHighcut => { g with rHighcut := v }
  | .raRoomsize => g
  | .raDamping => g
  | .raWetlevel => g
  | .raDrylevel => g
  | .raWidth => g
  | .raFreeze => g

/-- The snapshot of `PROC.D` (45_distortion_pipeline.md R204 step 1, 30_encoding.md R94). -/
def snapshotD (g : Regs) : SnapD :=
  { ghost := g.dGhost.getLsbD 0
    drive := g.dDrive
    output := g.dOutput
    type := g.dType
    tone := g.dTone
    mix := g.dMix
    destroy := g.dDestroy }

/-- The snapshot of `PROC.R` (49_reverb_pipeline_and_system.md R282). -/
def snapshotR (g : Regs) : SnapR :=
  { size := g.rSize
    damping := g.rDamping
    type := g.rType
    predelay := g.rPredelay
    mix := g.rMix
    mod := g.rMod
    lowcut := g.rLowcut
    highcut := g.rHighcut }

/-- A sample rate in `[FS_MIN, FS_MAX]`, as F32 comparisons; a NaN fails both (45_distortion_pipeline.md R201). -/
def rateOk (fs : F32) : Bool := fge fs (f32OfNat fsMin) && fle fs (f32OfNat fsMax)

/-- The checks of a `CFG` command (45_distortion_pipeline.md R201, 49_reverb_pipeline_and_system.md R290): each failing one
is `BAD_CONFIG`, so their order cannot be seen. -/
def configOk (nch maxblk : Nat) (fs : F32) : Bool :=
  decide (1 ≤ nch ∧ nch ≤ nchMax) && decide (1 ≤ maxblk ∧ maxblk ≤ blkCap) && rateOk fs

/-- The block check of a `PROC` command (60_exceptions.md R315). -/
def blockOk (nch len cfgNch cfgMaxblk : Nat) : Bool := decide (nch = cfgNch ∧ len ≤ cfgMaxblk)

end Sys2Proof.Machine
end

