-- ==== Sys2Proof/Machine/Bus.lean ====
section
/-! DEFINITION. The host's actions: bus reads and writes, the issue of a command, the hardware reset (20_memory.md R66 to
R73, 30_encoding.md R90, 60_exceptions.md R317, R318, 70_reset_and_hazards.md R340). -/

namespace Sys2Proof.Machine

open Sys2Proof.Config

/-- What an access reaches (20_memory.md R60). -/
inductive Target where
  /-- a register of the register page -/
  | reg (r : RegName)
  /-- a byte address of a word of `BUF_D` -/
  | bufD (a : Nat)
  /-- a byte address of a word of `BUF_R` -/
  | bufR (a : Nat)
deriving DecidableEq, Repr

/-- What an access of `size` bytes at `addr` reaches: `none` is `BAD_ACCESS`, an access that is misaligned, of a size other
than 4, outside the address space, in a reserved range or at a reserved register address (20_memory.md R60, R67, R68,
10_state.md R39; log 4). -/
def target (addr : Word) (size : Nat) : Option Target :=
  let a := addr.toNat
  if size ≠ 4 ∨ a % 4 ≠ 0 then none
  else if a < 0x100 then (regAt a).map .reg
  else if bufDBase ≤ a ∧ a < bufDBase + bufBytes then some (.bufD a)
  else if bufRBase ≤ a ∧ a < bufRBase + bufBytes then some (.bufR a)
  else none

/-- A `PROC.D` is running, so the block owns `BUF_D` (70_reset_and_hazards.md R348; log 17). -/
def runsDist (s : State) : Bool := s.seq.busy && (s.seq.phase == .ghostPass || s.seq.phase == .mainPass)

/-- A `PROC.R` is running, so the block owns `BUF_R` (70_reset_and_hazards.md R348; log 17). -/
def runsRev (s : State) : Bool :=
  s.seq.busy && (s.seq.phase == .filterPass || s.seq.phase == .predelayPass || s.seq.phase == .externalCall ||
    s.seq.phase == .modulationPass || s.seq.phase == .mixPass)

/-- A host read: the read data goes to `rdata`. A bad access reads 0 and faults (20_memory.md R68); a read of a buffer the
block owns gives any value (R73 (d), U6). -/
def busRead (addr : Word) (size : Nat) (s : State) : State :=
  match target addr size with
  | none => raiseFault .badAccess { s with rdata := 0 }
  | some (.reg r) => { s with rdata := readReg r s }
  | some (.bufD a) =>
    if runsDist s then { s with rdata := freeWord s.draws a, draws := s.draws + 1 } else { s with rdata := memWord s.mem a }
  | some (.bufR a) =>
    if runsRev s then { s with rdata := freeWord s.draws a, draws := s.draws + 1 } else { s with rdata := memWord s.mem a }

/-- The engine whose command is abandoned by `CMD_WHILE_BUSY` is left unspecified, with its buffer (60_exceptions.md R320,
U3; log 17). 10_state.md R30 names no pass for a `CFG`, so an abandoned `CFG.D` or `CFG.R` would be a busy state with the
phase `idle`, in which the model loses nothing (DESIGN CHOICE, log 17; unreachable). -/
def abandonRunning (s : State) : State :=
  if runsDist s then losesDist nchMax blkCap s else if runsRev s then losesRev s else s

/-- A write of `CMD`, in the order of 60_exceptions.md R317: ignored after a fault (R318); `CMD_WHILE_BUSY` while a command
runs (R320); `ILLEGAL_CMD` for a word that decodes to no command (R319); else the decoded command runs to completion
(30_encoding.md R90, 20_memory.md R70). `run` is the dispatch `exec`. -/
def issueCommand (run : Instr → State → Host.Outcome State Fault Refusal) (w : Word) (s : State) :
    Host.Outcome State Fault Refusal :=
  if s.trap.isSome then .next s
  else if s.seq.busy then .next (raiseFault .cmdWhileBusy (abandonRunning s))
  else
    match decodeCmd w with
    | .error _ => .next (raiseFault .illegalCmd s)
    | .ok i => run i s

/-- A host write. Only a write of `CMD` has a side effect (20_memory.md R69); a bad access is dropped and faults (R68); a
write of a buffer the block owns leaves the engine and the buffer unspecified (R73 (d), U6). -/
def busWrite (run : Instr → State → Host.Outcome State Fault Refusal) (addr : Word) (size : Nat) (v : Word) (s : State) :
    Host.Outcome State Fault Refusal :=
  match target addr size with
  | none => .next (raiseFault .badAccess s)
  | some (.reg .cmd) => issueCommand run v s
  | some (.reg r) => .next { s with regs := writeRegs r v s.regs }
  | some (.bufD a) =>
    if runsDist s then .next (losesDist nchMax blkCap s) else .next { s with mem := setWord s.mem a v }
  | some (.bufR a) =>
    if runsRev s then .next (losesRev s) else .next { s with mem := setWord s.mem a v }

/-- One host action (00_scope.md R15). -/
def hostAction (run : Instr → State → Host.Outcome State Fault Refusal) (a : HostAction) (s : State) :
    Host.Outcome State Fault Refusal :=
  match a with
  | .read addr size => .next (busRead addr size s)
  | .write addr size v => busWrite run addr size v s
  | .resetPin => .next (hardwareReset s)

/-- One step of the block: the host's next action is taken and performed (00_scope.md R15). With none pending the block is
idle and keeps all state (60_exceptions.md R331, 70_reset_and_hazards.md R343; log 2). -/
def hostStep (run : Instr → State → Host.Outcome State Fault Refusal) (s : State) : Host.Outcome State Fault Refusal :=
  match s.host with
  | [] => .next s
  | a :: rest => hostAction run a { s with host := rest }

/-- The host's next action becomes the write of the word `v` to `CMD` (30_encoding.md R90; log 1). -/
def withCommand (v : Word) (s : State) : State := { s with host := .write 0 4 v :: s.host }

end Sys2Proof.Machine
end

