-- ==== Sys2Proof/Machine/Biquad.lean ====
section
/-! DEFINITION. The biquad_iir_cascade unit: one second-order section and the LowCut, HighCut cascade
(42_biquad_iir_cascade.md). -/

namespace Sys2Proof.Machine

/-- `BQ(taps, k, x)`: direct form I, the five accumulations in the order of R150; the output and the new taps. -/
def bq (t : Taps) (k : Coefs) (x : F32) : F32 × Taps :=
  let s := fmul k.b0 x
  let s := fadd s (fmul k.b1 t.x1)
  let s := fadd s (fmul k.b2 t.x2)
  let s := fsub s (fmul k.a1 t.y1)
  let s := fsub s (fmul k.a2 t.y2)
  (s, ⟨x, t.x1, s, t.y1⟩)

/-- `CUTS(c, x)`: LowCut, then HighCut (R151). -/
def cuts (k : RevConsts) (c : Channel) (x : F32) (rs : RevState) : F32 × RevState :=
  let u := bq rs.lc[c] k.lccoef x
  let v := bq rs.hc[c] k.hccoef u.1
  (v.1, { rs with lc := rs.lc.set c u.2, hc := rs.hc.set c v.2 })

end Sys2Proof.Machine
end

