-- ==== Sys2Proof/Machine/Tables.lean ====
section
/-! DEFINITION. The six table functions of 00_scope.md R13: an opaque table each, held to the exact properties that R13
lists of it (its values at zero, infinity and NaN, its symmetry, its bounds). A table that has these properties passes
through unchanged; monotonicity and the error bound `EPS_LUT` are not imposed (log 11). Operands and results are flushed
(R8 `FTZ`; log 29). -/

namespace Sys2Proof.Machine

open Sys2Proof.Config

/-- `r` where it has the property `ok`, else `dflt`: the property holds of the result when it holds of `dflt`. -/
def held (ok : F32 → Bool) (dflt r : F32) : F32 := if ok r then r else dflt

/-- `0 <= r <= 1`. -/
def inUnit (r : F32) : Bool := fle lit.zero r && fle r lit.one
/-- `-1 <= r <= 1`. -/
def inSym (r : F32) : Bool := fle lit.negOne r && fle r lit.one

/-- `f` on the positive operands, its mirror image on the negative ones (R13: "odd"). -/
def oddOf (f : F32 → F32) (x : F32) : F32 := if signBit x then flipSign (f (flipSign x)) else f x

/-- `TANH` on a positive finite operand: between 0 and 1 (R13). -/
def tanhPos (x : F32) : F32 := held inUnit lit.zero (flush (tanhTable x))

/-- `TANH(x)` (R13). -/
def tanh (x : F32) : F32 :=
  let y := flush x
  if isNaN y then someNaN .tanh y y
  else if isZero y then y
  else if isInf y then (if signBit y then lit.negOne else lit.one)
  else oddOf tanhPos y

/-- `EXPN(x)` (R13); unspecified for `x > 0`. -/
def expn (x : F32) : F32 :=
  let y := flush x
  if isNaN y then someNaN .expn y y
  else if isZero y then lit.one
  else if signBit y then (if isInf y then lit.zero else held inUnit lit.zero (flush (expnTable y)))
  else expnTable y

/-- `SIN` on a positive finite operand: between -1 and 1, and not negative up to and including `PI` (R13; log 11). -/
def sinPos (x : F32) : F32 :=
  held (fun r => if fle x lit.pi then inUnit r else inSym r) lit.zero (flush (sinTable x))

/-- `SIN(x)` (R13). -/
def sin (x : F32) : F32 :=
  let y := flush x
  if isNaN y || isInf y then someNaN .sin y y
  else if isZero y then y
  else oddOf sinPos y

/-- `COS(x)` (R13): even. -/
def cos (x : F32) : F32 :=
  let y := flush x
  if isNaN y || isInf y then someNaN .cos y y
  else if isZero y then lit.one
  else held inSym lit.one (flush (cosTable (fabs y)))

/-- 0.25, the end of the range on which `TAN` is constrained (R13). -/
def tanRangeEnd : F32 := 0x3E800000#32

/-- `TAN(x)` (R13): positive and finite for `0 < x <= 0.25`; unspecified elsewhere. -/
def tan (x : F32) : F32 :=
  let y := flush x
  if flt lit.zero y && fle y tanRangeEnd then held (fun r => flt lit.zero r && isFinite r) y (flush (tanTable y))
  else tanTable y

/-- `NCOSIN(p)` (R13): `NCOSIN(+0) = +0`, between -1 and 1 on `[0,1)`; unspecified elsewhere. -/
def ncoSin (p : F32) : F32 :=
  let y := flush p
  if y = lit.zero then lit.zero
  else if fle lit.zero y && flt y lit.one then held inSym lit.zero (flush (ncoSinTable y))
  else ncoSinTable y

end Sys2Proof.Machine
end

