-- ==== Sys2Proof/Machine/Waveshaper.lean ====
section
/-! DEFINITION. The waveshaper_lut unit (40_waveshaper_lut.md): the transfer functions, the foldback primitive, and the
meanings of the selector rows `WS.SOFT`, `WS.HARD`, `WS.TUBE`, `WS.FOLD`, `WS.SINE`. -/

namespace Sys2Proof.Machine

open Sys2Proof.Config

/-- The loop of `FOLD` with `k` reflections left: `none` when one more would be needed (R124). -/
def foldLoop (t tt : F32) : Nat → F32 → Option F32
  | 0, v => if fgt v t || flt v (fneg t) then none else some v
  | k + 1, v =>
    if fgt v t then foldLoop t tt k (fsub tt v)
    else if flt v (fneg t) then foldLoop t tt k (fsub (fneg tt) v)
    else some v

/-- `FOLD(x, t)`: `none` is `raise Fault(FOLD_DIVERGE)` (R124). -/
def fold (x t : F32) : Option F32 := foldLoop t (fmul lit.two t) foldIterMax x

/-- `WS.SOFT(x)` (R121). -/
def wsSoft (x : F32) : F32 := tanh x

/-- `WS.HARD(x)` (R122). -/
def wsHard (x : F32) : F32 := if fgt x lit.one then lit.one else if flt x lit.negOne then lit.negOne else x

/-- `WS.TUBE(x)` (R123). -/
def wsTube (x : F32) : F32 :=
  if fge x lit.zero then fsub lit.one (expn (fneg x)) else if flt x lit.zero then fadd lit.negOne (expn x) else x

/-- `WS.FOLD(x)` (R125). -/
def wsFold (x : F32) : Option F32 := fold x lit.transferFold

/-- `WS.SINE(x)` (R126). -/
def wsSine (x : F32) : F32 := sin (fmul x lit.pi2)

/-- `WS(type, x)`, the dispatch of the TransferFunction stage (R127), on the instruction that the selector decodes to; the
other instructions are no transfer function and give their operand back (R127: "the set of types is fixed and exhaustive").
`none` is `FOLD_DIVERGE`. -/
def ws (sel : Instr) (x : F32) : Option F32 :=
  match sel with
  | .wsSoft => some (wsSoft x)
  | .wsHard => some (wsHard x)
  | .wsTube => some (wsTube x)
  | .wsFold => wsFold x
  | .wsSine => some (wsSine x)
  | .nop => some x
  | .cfgD _ _ => some x
  | .cfgR _ _ => some x
  | .procD _ _ => some x
  | .procR _ _ => some x
  | .mapRoom => some x
  | .mapHall => some x
  | .mapPlate => some x
  | .mapSpring => some x
  | .mapShimmer => some x

/-! ### The selector rows as instructions (30_encoding.md R95; log 6)

Each rewrites the sample in flight, `State.x`, and reads and writes no other state (R120). -/

/-- `WS.SOFT` (R121). -/
def execWsSoft (s : State) : Host.Outcome State Fault Refusal := .next { s with x := wsSoft s.x }

/-- `WS.HARD` (R122). -/
def execWsHard (s : State) : Host.Outcome State Fault Refusal := .next { s with x := wsHard s.x }

/-- `WS.TUBE` (R123). -/
def execWsTube (s : State) : Host.Outcome State Fault Refusal := .next { s with x := wsTube s.x }

/-- `WS.FOLD` (R125): a sample that needs more than `FOLD_ITER_MAX` reflections raises `FOLD_DIVERGE` (R124), which leaves
the distortion engine and the configured block unspecified (60_exceptions.md R323; log 15). -/
def execWsFold (s : State) : Host.Outcome State Fault Refusal :=
  match wsFold s.x with
  | some y => .next { s with x := y }
  | none => .next (foldDiverge s.ds.nch s.ds.maxblk s)

/-- `WS.SINE` (R126). -/
def execWsSine (s : State) : Host.Outcome State Fault Refusal := .next { s with x := wsSine s.x }

end Sys2Proof.Machine
end

