-- ==== Sys2Proof/Machine/Destroy.lean ====
section
/-! DEFINITION. The DestroyStage (43_destroy_stage.md). -/

namespace Sys2Proof.Machine

open Sys2Proof.Config

/-- `DESTROY_ACTIVE(c, x)`, line by line in the order of R172 (R173: normative). `none` is `FOLD_DIVERGE`. -/
def destroyActive (k : DistConsts) (c : Channel) (x : F32) (ds : DistState) : Option (F32 × DistState) :=
  let g := fmul x k.kIn
  let low := fmul (tanh (fmul g lit.lowPreScale)) k.kLow
  let b := bq ds.dtap[c] k.dcoef g
  let r := fmul b.1 k.kRes
  let r := fmul r k.kPre
  let r := tanh (fmul r lit.resTanhScale)
  let r := sin (fmul r lit.pi2)
  match fold r lit.destroyFold with
  | none => none
  | some r =>
    let o := fadd (fmul low k.kMixlow) (fmul r k.kMixres)
    let o := tanh (fmul (fmul o k.kSat) lit.satFactor)
    let o := fmul o k.kResc
    some (tanh o, { ds with dtap := ds.dtap.set c b.2 })

/-- `DESTROY(c, x)`: the operand bit for bit, taps untouched, when `DK.amount <= 0`; the active path otherwise. A NaN amount
takes the active path and yields a NaN (R171; its constants are those of an earlier block: log 14). -/
def destroy (k : DistConsts) (c : Channel) (x : F32) (ds : DistState) : Option (F32 × DistState) :=
  if fle k.amount lit.zero then some (x, ds)
  else
    match destroyActive k c x ds with
    | none => none
    | some r => some (if isNaN k.amount then someNaN .destroy k.amount x else r.1, r.2)

end Sys2Proof.Machine
end

