-- ==== Sys2Proof/Machine/Nco.lean ====
section
/-! DEFINITION. The nco_modulation_lut unit: the phase wrap and the ModulationStage (48_nco_modulation_lut.md). -/

namespace Sys2Proof.Machine

open Sys2Proof.Config

/-- `wrap01(v)` (R266). -/
def wrap01 (v : F32) : F32 := fsub v (ffloor v)

/-- A phase is in `[0, 1)` (10_state.md R25). -/
def phaseOk (p : F32) : Bool := fle lit.zero p && flt p lit.one

/-- `MODGAIN()` for the phase `mphase` and the depth `P.mod` (R267). -/
def modGain (mphase mod : F32) : F32 :=
  let s := ncoSin mphase
  let t := fmul (fmul s mod) lit.modDepth
  fadd lit.one t

/-- One frame of `MOD_PASS`: every channel by the same gain, then one phase advance (R268). -/
def modFrame (nch : Nat) (mod inc : F32) (n : Nat) (st : Memory × F32) : Memory × F32 :=
  let g := modGain st.2 mod
  let r := sweep wetAddr (fun _ _ x (_ : Unit) => (fmul x g, ())) ((channels nch).map fun c => (n, c)) st.1 ()
  (r.1, wrap01 (fadd st.2 inc))

/-- `MOD_PASS(N)` over the wet block and the phase, frames ascending (R268). -/
def modFrames (nch : Nat) (mod inc : F32) : List Nat → Memory × F32 → Memory × F32
  | [], st => st
  | n :: t, st => modFrames nch mod inc t (modFrame nch mod inc n st)

/-- The modulation pass of `PROC.R`: it runs when `P.mod > 0`; otherwise the wet buffer and the phase stay (R268, R269). -/
def modulationPass (nch len : Nat) (s : State) : State :=
  if fgt s.pr.mod lit.zero then
    let r := modFrames nch s.pr.mod s.rs.inc (List.range len) (s.wet, s.rs.mphase)
    { s with wet := r.1, rs := { s.rs with mphase := r.2 } }
  else s

end Sys2Proof.Machine
end

