-- ==== Sys2Proof/Machine/Ghost.lean ====
section
/-! DEFINITION. The GhostStage: the state-variable band-pass, the blend, and the ghost pass (44_ghost_stage.md). -/

namespace Sys2Proof.Machine

open Sys2Proof.Config

/-- `SVF(c, x)`: the band-pass output and the engine with the channel's two filter words stepped (R187). -/
def svf (k : DistConsts) (c : Channel) (x : F32) (ds : DistState) : F32 × DistState :=
  let s1 := ds.gs1[c]
  let s2 := ds.gs2[c]
  let e := fsub (fsub x (fmul s1 (fadd k.gg k.gR2))) s2
  let yHP := fmul k.gh e
  let t := fmul yHP k.gg
  let yBP := fadd t s1
  let u := fmul yBP k.gg
  let yLP := fadd u s2
  (yBP, { ds with gs1 := ds.gs1.set c (fadd t yBP), gs2 := ds.gs2.set c (fadd u yLP) })

/-- `GHOST(c, x)` (R188). -/
def ghost (k : DistConsts) (c : Channel) (x : F32) (ds : DistState) : F32 × DistState :=
  let b := svf k c x ds
  let w := tanh (fmul b.1 lit.ghostTanhScale)
  (fadd (fmul lit.ghostWet w) (fmul lit.ghostDry x), b.2)

/-- The ghost phase after a block: `wrap01(fadd(phase, step))` (R190). A finite rate can be so large that the step is an
infinity, for which 48_nco_modulation_lut.md R266 defines no wrap; 10_state.md R25 keeps the phase in `[0, 1)` all the same,
so it is then a free value in that range (DESIGN CHOICE, log 19). -/
def ghostPhaseAfter (phase step : F32) : F32 :=
  if isInf step then held phaseOk lit.zero (flush (freePhase phase step)) else wrap01 (fadd phase step)

/-- `GHOST_PASS(N)`: the stage over the whole block, then one phase advance; it runs only when `P.ghost = 1`, and otherwise
nothing of the ghost state or the buffer is touched (R189, R190, R191). -/
def ghostPass (nch len : Nat) (s : State) : State :=
  if s.pd.ghost then
    let r := sweep bufDAddr (fun _ c x ds => ghost s.dk c x ds) (positions nch len) s.mem s.ds
    { s with mem := r.1, ds := { r.2 with gphase := ghostPhaseAfter r.2.gphase s.dk.ginc } }
  else s

end Sys2Proof.Machine
end

