-- ==== Sys2Proof/Machine/Mapper.lean ====
section
/-! DEFINITION. The parameter_mapper unit: every derivation of a constant from the parameters and the sample rate
(46_parameter_mapper.md), and the meanings of the selector rows `MAP.ROOM` to `MAP.SHIMMER`. -/

namespace Sys2Proof.Machine

open Sys2Proof.Config

/-! ### The shared coefficient helper (R229) -/

/-- The kind of a second-order section (R229). -/
inductive SectionKind where
  /-- low-pass -/
  | lp
  /-- high-pass -/
  | hp
  /-- band-pass, unit peak gain -/
  | bp
deriving DecidableEq, Repr

/-- The three numerators `n0, n1, n2` of `BQCOEF` from `cw = COS(w0)` and `al` (R229). -/
def numerators (kind : SectionKind) (cw al : F32) : F32 × F32 × F32 :=
  match kind with
  | .lp =>
    let t := fsub lit.one cw
    let n0 := fmul t lit.half
    (n0, t, n0)
  | .hp =>
    let t := fadd lit.one cw
    let n0 := fmul t lit.half
    (n0, fneg t, n0)
  | .bp => (al, lit.zero, fneg al)

/-- `BQCOEF(kind, f0, Q, fs)` (R229). -/
def bqCoef (kind : SectionKind) (f0 q fs : F32) : Coefs :=
  let w0 := fdiv (fmul lit.twoPi f0) fs
  let cw := cos w0
  let sw := sin w0
  let al := fdiv sw (fmul lit.two q)
  let a0 := fadd lit.one al
  let n := numerators kind cw al
  let m1 := fmul lit.negTwo cw
  let m2 := fsub lit.one al
  { b0 := fdiv n.1 a0, b1 := fdiv n.2.1 a0, b2 := fdiv n.2.2 a0, a1 := fdiv m1 a0, a2 := fdiv m2 a0 }

/-! ### Distortion engine (R222 to R228) -/

/-- `DK.alpha`, `DK.beta` (R222). -/
def deriveTone (tone : F32) (k : DistConsts) : DistConsts :=
  let alpha := fmul tone lit.toneScale
  { k with alpha := alpha, beta := fsub lit.one alpha }

/-- `DK.amount` (R223). -/
def deriveAmount (destroy : F32) (k : DistConsts) : DistConsts := { k with amount := fdiv destroy lit.destroyDivisor }

/-- `DK.dcoef` from `DK.amount` (R224). -/
def deriveDestroyFilter (fs : F32) (k : DistConsts) : DistConsts :=
  let a := k.amount
  let f0 := fadd lit.centreBase (fmul (fmul a a) lit.centreSlope)
  let q := fadd lit.qBase (fmul a lit.qSlope)
  { k with dcoef := bqCoef .bp f0 q fs }

/-- The eight gains `DK.k_*` from `DK.amount` (R225). -/
def deriveDestroyGains (k : DistConsts) : DistConsts :=
  let a := k.amount
  { k with
    kIn := fadd lit.one (fmul a lit.inSlope)
    kLow := fadd lit.one (fmul a lit.lowSlope)
    kRes := fadd lit.one (fmul a lit.resSlope)
    kPre := fadd lit.one (fmul a lit.preSlope)
    kMixlow := fadd lit.mixLowBase (fmul a lit.mixLowSlope)
    kMixres := fmul a lit.mixResSlope
    kSat := fadd lit.one (fmul a lit.satSlope)
    kResc := fadd lit.one a }

/-- `GHOST_RATE_HZ`, finite and not negative (44_ghost_stage.md R190, U8). A rate of -0.0, or a negative subnormal, passes
`>= 0` and stays possible, so the step of an empty block may be -0 where R193 prints +0 (DESIGN CHOICE, log 19). -/
def ghostRateHz : F32 := held (fun r => isFinite r && fge r lit.zero) lit.zero ghostRate

/-- `DK.gfc` from the phase at the start of the block (R226). -/
def deriveGhostCentre (gphase : F32) (k : DistConsts) : DistConsts :=
  { k with gfc := fadd lit.ghostBase (fmul (ncoSin gphase) lit.ghostDepth) }

/-- `DK.gg`, `DK.gR2`, `DK.gh` from `DK.gfc` (R227). -/
def deriveGhostFilter (fs : F32) (k : DistConsts) : DistConsts :=
  let gg := tan (fdiv (fmul lit.pi k.gfc) fs)
  let gR2 := fdiv lit.one lit.ghostQ
  { k with
    gg := gg
    gR2 := gR2
    gh := fdiv lit.one (fadd (fadd lit.one (fmul gR2 gg)) (fmul gg gg)) }

/-- `DK.ginc` for a block of `len` frames (R228). -/
def deriveGhostStep (len : Nat) (fs : F32) (k : DistConsts) : DistConsts :=
  { k with ginc := fdiv (fmul (f32OfNat len) ghostRateHz) fs }

/-- The block constants of `PROC.D`, in the order of R236. The Destroy constants are derived only when `DK.amount > 0`, which
is false for a NaN (R224, R225, D45, D46), the ghost constants only when `P.ghost = 1` (R226 to R228). What is not derived
keeps its value (log 22). -/
def deriveDist (p : SnapD) (len : Nat) (ds : DistState) (k : DistConsts) : DistConsts :=
  let k := deriveAmount p.destroy (deriveTone p.tone k)
  let k := if fgt k.amount lit.zero then deriveDestroyGains (deriveDestroyFilter ds.fs k) else k
  if p.ghost then deriveGhostStep len ds.fs (deriveGhostFilter ds.fs (deriveGhostCentre ds.gphase k)) else k

/-! ### Reverb engine (R230 to R235) -/

/-- `RK.lccoef` (R230). -/
def lowCutCoefs (lowcut fs : F32) : Coefs := bqCoef .hp lowcut lit.cutQ fs

/-- `RK.hccoef` (R231). -/
def highCutCoefs (highcut fs : F32) : Coefs := bqCoef .lp highcut lit.cutQ fs

/-- `RK.dly_on`, `RK.dly_d`; `none` is `raise Fault(BAD_DELAY)` (R232). -/
def predelayOf (predelay fs : F32) : Option (Bool × Nat) :=
  if fgt predelay lit.zero then
    let u := fdiv (fmul predelay fs) lit.msPerSecond
    if flt u (f32OfNat delayCap) then some (true, floorNat u) else none
  else some (false, 0)

/-- `RS.inc` (R233). -/
def modInc (fs : F32) : F32 := fdiv lit.modRate fs

/-- A mapper row of finite words: `MAP_PLATE`, `MAP_SPRING`, `MAP_SHIMMER` are triples of finite F32 (R234, D21; log 19). -/
def finiteRow (r : MapRow) : MapRow :=
  ⟨held isFinite lit.zero r.size, held isFinite lit.zero r.damping, held isFinite lit.zero r.width⟩

/-- The Room row of the table (R234). -/
def rowRoom : MapRow := ⟨lit.roomSize, lit.roomDamping, lit.roomWidth⟩
/-- The Hall row of the table (R234). -/
def rowHall : MapRow := ⟨lit.hallSize, lit.hallDamping, lit.hallWidth⟩
/-- The Plate row, open (R234). -/
def rowPlate : MapRow := finiteRow mapPlate
/-- The Spring row, open (R234). -/
def rowSpring : MapRow := finiteRow mapSpring
/-- The Shimmer row, open (R234). -/
def rowShimmer : MapRow := finiteRow mapShimmer

/-- `MAP` with the row of the type: `roomSize`, `damping` and `width` are written, the other three fields stay (R234). -/
def mapRowInto (r : MapRow) (size damping : F32) (ra : ReverbParams) : ReverbParams :=
  { ra with roomSize := fmul size r.size, damping := fmul damping r.damping, width := r.width }

/-- `MAP(type, size, damping)` on the instruction that the selector decodes to (R234); an instruction that is no mapper
row leaves the parameters. -/
def mapInto (sel : Instr) (size damping : F32) (ra : ReverbParams) : ReverbParams :=
  match sel with
  | .mapRoom => mapRowInto rowRoom size damping ra
  | .mapHall => mapRowInto rowHall size damping ra
  | .mapPlate => mapRowInto rowPlate size damping ra
  | .mapSpring => mapRowInto rowSpring size damping ra
  | .mapShimmer => mapRowInto rowShimmer size damping ra
  | .nop => ra
  | .cfgD _ _ => ra
  | .cfgR _ _ => ra
  | .procD _ _ => ra
  | .procR _ _ => ra
  | .wsSoft => ra
  | .wsHard => ra
  | .wsTube => ra
  | .wsFold => ra
  | .wsSine => ra

/-- The remaining ReverbAlgorithmParameters from `P.mix` (R235). -/
def mixInto (mix : F32) (ra : ReverbParams) : ReverbParams :=
  { ra with wetLevel := mix, dryLevel := fsub lit.one mix, freeze := lit.zero }

/-! ### The selector rows as instructions (30_encoding.md R95; log 6)

Each writes `RK.ra.roomSize`, `RK.ra.damping`, `RK.ra.width` from the snapshot's `P.size` and `P.damping` (R234). -/

/-- `MAP.ROOM` (R234). -/
def execMapRoom (s : State) : Host.Outcome State Fault Refusal :=
  .next { s with rk := { s.rk with ra := mapRowInto rowRoom s.pr.size s.pr.damping s.rk.ra } }

/-- `MAP.HALL` (R234). -/
def execMapHall (s : State) : Host.Outcome State Fault Refusal :=
  .next { s with rk := { s.rk with ra := mapRowInto rowHall s.pr.size s.pr.damping s.rk.ra } }

/-- `MAP.PLATE` (R234). -/
def execMapPlate (s : State) : Host.Outcome State Fault Refusal :=
  .next { s with rk := { s.rk with ra := mapRowInto rowPlate s.pr.size s.pr.damping s.rk.ra } }

/-- `MAP.SPRING` (R234). -/
def execMapSpring (s : State) : Host.Outcome State Fault Refusal :=
  .next { s with rk := { s.rk with ra := mapRowInto rowSpring s.pr.size s.pr.damping s.rk.ra } }

/-- `MAP.SHIMMER` (R234). -/
def execMapShimmer (s : State) : Host.Outcome State Fault Refusal :=
  .next { s with rk := { s.rk with ra := mapRowInto rowShimmer s.pr.size s.pr.damping s.rk.ra } }

end Sys2Proof.Machine
end

