-- ==== Sys2Proof/Machine/Tone.lean ====
section
/-! DEFINITION. The one_pole_lowpass unit, the ToneStage (41_one_pole_lowpass.md). -/

namespace Sys2Proof.Machine

/-- `TONE(c, x)` (R140): the output, which is also the new `DS.tone_y1[c]` (R141). -/
def tone (k : DistConsts) (c : Channel) (x : F32) (ds : DistState) : F32 × DistState :=
  let p := fmul k.beta x
  let q := fmul k.alpha ds.toneY1[c]
  let y := fadd p q
  (y, { ds with toneY1 := ds.toneY1.set c y })

end Sys2Proof.Machine
end

