-- ==== Sys2Proof/Machine/Distortion.lean ====
section
/-! DEFINITION. The distortion engine's commands `CFG.D` and `PROC.D` and its pipeline order
(45_distortion_pipeline.md). -/

namespace Sys2Proof.Machine

open Sys2Proof.Config

/-- `DS` after `CFG.D` (10_state.md R23, 45_distortion_pipeline.md R203). -/
def configuredDist (fs : F32) (nch maxblk : Nat) : DistState :=
  { configured := true
    fs := fs
    nch := nch
    maxblk := maxblk
    toneY1 := .replicate _ lit.zero
    dtap := .replicate _ zeroTaps
    gs1 := .replicate _ lit.zero
    gs2 := .replicate _ lit.zero
    gphase := lit.zero }

/-- `CFG.D nch, maxblk` (R201, R203). -/
def execCfgD (nch maxblk : Nat) (s : State) : Host.Outcome State Fault Refusal :=
  if configOk nch maxblk s.regs.fsD then .next { s with ds := configuredDist s.regs.fsD nch maxblk }
  else .next (raiseFault .badConfig s)

/-- `CHAIN(c, s)` for one sample of one channel, with the transfer function of the decoded type; `none` is
`FOLD_DIVERGE` (R205). The formulas stand as printed, also where an overflow makes a result infinite or a NaN for finite
samples, against the finite results that 60_exceptions.md R330 promises (DEDUCED, log 32). -/
def chain (p : SnapD) (sel : Instr) (k : DistConsts) (c : Channel) (clean : F32) (ds : DistState) :
    Option (F32 × DistState) :=
  match ws sel (fmul clean p.drive) with
  | none => none
  | some x =>
    let y := tone k c x ds
    match destroy k c y.1 y.2 with
    | none => none
    | some z =>
      let d := fmul clean (fsub lit.one p.mix)
      let w := fmul z.1 p.mix
      some (fmul (fadd d w) p.output, z.2)

/-- The main pass of `PROC.D`, step 4: `none` when some sample raises `FOLD_DIVERGE` (R204). -/
def mainPass (sel : Instr) (nch len : Nat) (s : State) : Option State :=
  match sweepFault bufDAddr (fun _ c x ds => chain s.pd sel s.dk c x ds) (positions nch len) s.mem s.ds with
  | none => none
  | some r => some { s with mem := r.1, ds := r.2 }

/-- Steps 1 and 2 of `PROC.D` once its checks hold: the snapshot and the block constants (R204). -/
def startBlockD (len : Nat) (s : State) : State :=
  let p := snapshotD s.regs
  { s with pd := p, dk := deriveDist p len s.ds s.dk }

/-- `PROC.D nch, n` (R202, R204): the checks in their order, each before any change; then the block constants, the ghost
pass, the main pass. -/
def execProcD (nch n : Nat) (s : State) : Host.Outcome State Fault Refusal :=
  if s.ds.configured = false then .next (raiseFault .notConfigured s)
  else if blockOk nch n s.ds.nch s.ds.maxblk = false then .next (raiseFault .badBlock s)
  else
    match decodeDType s.regs.dType with
    | .error _ => .next (raiseFault .badType s)
    | .ok sel =>
      let s2 := ghostPass nch n (startBlockD n s)
      match mainPass sel nch n s2 with
      | some t => .next t
      | none => .next (foldDiverge nch n s2)

end Sys2Proof.Machine
end

