-- ==== Sys2Proof/Machine/Delay.lean ====
section
/-! DEFINITION. The circular_delay_buffer unit, the PreDelayLine (47_circular_delay_buffer.md). -/

namespace Sys2Proof.Machine

open Sys2Proof.Config

/-- The read index `(w - d) mod DELAY_CAP`, the mathematical remainder (R251, R252, 00_scope.md R9). -/
def delayIndex (w d : Nat) : Nat := (((w : Int) - (d : Int)) % (delayCap : Int)).toNat

/-- `POP(c, x)`: write at the cursor, read `RK.dly_d` behind it, advance the cursor (R251). -/
def pop (dlyD : Nat) (c : Channel) (x : F32) (st : RevState × Memory) : F32 × (RevState × Memory) :=
  let w := st.1.wcur[c]
  let m := setWord st.2 (dlyAddr c w) x
  let y := memWord m (dlyAddr c (delayIndex w dlyD))
  (y, ({ st.1 with wcur := st.1.wcur.set c ((w + 1) % delayCap) }, m))

/-- The predelay pass of `PROC.R`, step 5: it runs only when `RK.dly_on`; otherwise `DLY` and the cursors stay (R255,
49_reverb_pipeline_and_system.md R283). -/
def predelayPass (nch len : Nat) (s : State) : State :=
  if s.rk.dlyOn then
    let r := sweep wetAddr (fun _ c x st => pop s.rk.dlyD c x st) (positions nch len) s.wet (s.rs, s.dly)
    { s with wet := r.1, rs := r.2.1, dly := r.2.2 }
  else s

end Sys2Proof.Machine
end

