-- ==== Sys2Proof/Machine/Reverb.lean ====
section
/-! DEFINITION. The reverb engine's commands `CFG.R` and `PROC.R` and the port of the external ReverbAlgorithm
(49_reverb_pipeline_and_system.md). -/

namespace Sys2Proof.Machine

open Sys2Proof.Config

/-- `RS` after `CFG.R` (10_state.md R26, 49_reverb_pipeline_and_system.md R290). -/
def configuredRev (fs : F32) (nch maxblk : Nat) : RevState :=
  { configured := true
    fs := fs
    nch := nch
    maxblk := maxblk
    lc := .replicate _ zeroTaps
    hc := .replicate _ zeroTaps
    wcur := .replicate _ 0
    mphase := lit.zero
    inc := modInc fs
    rvb := reverbInit fs nch maxblk }

/-- Every word of the predelay memory +0.0 (R290; log 8). -/
def clearedDelay : Memory := ⟨.byte 0, []⟩

/-- `CFG.R nch, maxblk` (R290). -/
def execCfgR (nch maxblk : Nat) (s : State) : Host.Outcome State Fault Refusal :=
  if configOk nch maxblk s.regs.fsR then
    .next { s with rs := configuredRev s.regs.fsR nch maxblk, dly := clearedDelay }
  else .next (raiseFault .badConfig s)

/-- `RK.ra` for a snapshot: the mapper row of the decoded type, then the parameters from `P.mix` (R283 step 2,
46_parameter_mapper.md R234, R235). -/
def reverbParamsOf (sel : Instr) (p : SnapR) (ra : ReverbParams) : ReverbParams :=
  mixInto p.mix (mapInto sel p.size p.damping ra)

/-- Steps 1 and 2 of `PROC.R` once its checks hold: the snapshot, `RK` and the `RA_*` registers (R282, R283). -/
def startBlockR (sel : Instr) (dly : Bool × Nat) (s : State) : State :=
  let p := snapshotR s.regs
  let ra := reverbParamsOf sel p s.rk.ra
  { s with
    pr := p
    rk :=
      { lccoef := lowCutCoefs p.lowcut s.rs.fs
        hccoef := highCutCoefs p.highcut s.rs.fs
        dlyOn := dly.1
        dlyD := dly.2
        ra := ra }
    regs := { s.regs with ra := ra } }

/-- Step 3, the filter pass in place over `BUF_R` (R283). -/
def filterPass (nch len : Nat) (s : State) : State :=
  let r := sweep bufRAddr (fun _ c x rs => cuts s.rk c x rs) (positions nch len) s.mem s.rs
  { s with mem := r.1, rs := r.2 }

/-- Step 4, the copy of the filtered block into `WET_R` (R283). -/
def copyPass (nch len : Nat) (s : State) : State :=
  let r := sweep wetAddr (fun n c _ (_ : Unit) => (memWord s.mem (bufRAddr c n), ())) (positions nch len) s.wet ()
  { s with wet := r.1 }

/-- The wet block as the port hands it to the external algorithm: channel-major, `nch * len` words (R286). -/
def wetBlock (nch len : Nat) (wet : Memory) : List F32 :=
  (channels nch).flatMap fun c => (List.range len).map fun n => memWord wet (wetAddr c n)

/-- Step 6, `ReverbAlg.run`: its wet block replaces the first `len` words of each live channel of `WET_R`, its state
replaces `RS.rvb`; it is called once, also for an empty block, and touches nothing else (R283, R286; log 10). -/
def externalCall (nch len : Nat) (s : State) : State :=
  let wet := wetBlock nch len s.wet
  let r := sweep wetAddr (fun n c _ (_ : Unit) => (reverbRunWet s.rk.ra nch len wet s.rs.rvb c.val n, ()))
    (positions nch len) s.wet ()
  { s with wet := r.1, rs := { s.rs with rvb := reverbRunState s.rk.ra nch len wet s.rs.rvb } }

/-- One sample of step 8: `dry * (1 - mix) + wet * mix` (R283). -/
def mixSample (mix dry wet : F32) : F32 := fadd (fmul dry (fsub lit.one mix)) (fmul wet mix)

/-- Step 8, the mix in place over `BUF_R` (R283). -/
def mixPass (nch len : Nat) (s : State) : State :=
  let r := sweep bufRAddr (fun n c x (_ : Unit) => (mixSample s.pr.mix x (memWord s.wet (wetAddr c n)), ()))
    (positions nch len) s.mem ()
  { s with mem := r.1 }

/-- Steps 3 to 8 of `PROC.R`, each pass over the whole block before the next starts (R283). -/
def reverbPasses (nch len : Nat) (s : State) : State :=
  mixPass nch len (modulationPass nch len (externalCall nch len (predelayPass nch len (copyPass nch len
    (filterPass nch len s)))))

/-- `PROC.R nch, n` (R281, R283): the checks in their order, each before any change; no fault can arise after them. -/
def execProcR (nch n : Nat) (s : State) : Host.Outcome State Fault Refusal :=
  if s.rs.configured = false then .next (raiseFault .notConfigured s)
  else if blockOk nch n s.rs.nch s.rs.maxblk = false then .next (raiseFault .badBlock s)
  else
    match decodeRType s.regs.rType with
    | .error _ => .next (raiseFault .badType s)
    | .ok sel =>
      match predelayOf s.regs.rPredelay s.rs.fs with
      | none => .next (raiseFault .badDelay s)
      | some dly => .next (reverbPasses nch n (startBlockR sel dly s))

end Sys2Proof.Machine
end

