-- ==== Sys2Proof/Machine/System.lean ====
section
/-! DEFINITION. The system command `NOP` (49_reverb_pipeline_and_system.md R295). -/

namespace Sys2Proof.Machine

/-- `NOP`: no state changes (R295). -/
def execNop (s : State) : Host.Outcome State Fault Refusal := .next s

end Sys2Proof.Machine
end

