-- ==== Sys2Proof/Machine/Dispatch.lean ====
section
/-! DEFINITION. The dispatch of an instruction to its meaning: one arm per constructor of `Instr`. -/

namespace Sys2Proof.Machine

def exec (i : Instr) (s : State) : Host.Outcome State Fault Refusal :=
  match i with
  | .nop => Sys2Proof.Machine.execNop s
  | .cfgD nch maxblk => Sys2Proof.Machine.execCfgD nch maxblk s
  | .cfgR nch maxblk => Sys2Proof.Machine.execCfgR nch maxblk s
  | .procD nch n => Sys2Proof.Machine.execProcD nch n s
  | .procR nch n => Sys2Proof.Machine.execProcR nch n s
  | .wsSoft => Sys2Proof.Machine.execWsSoft s
  | .wsHard => Sys2Proof.Machine.execWsHard s
  | .wsTube => Sys2Proof.Machine.execWsTube s
  | .wsFold => Sys2Proof.Machine.execWsFold s
  | .wsSine => Sys2Proof.Machine.execWsSine s
  | .mapRoom => Sys2Proof.Machine.execMapRoom s
  | .mapHall => Sys2Proof.Machine.execMapHall s
  | .mapPlate => Sys2Proof.Machine.execMapPlate s
  | .mapSpring => Sys2Proof.Machine.execMapSpring s
  | .mapShimmer => Sys2Proof.Machine.execMapShimmer s

end Sys2Proof.Machine
end

