-- ==== Sys2Proof/Machine/Step.lean ====
section
/-! DEFINITION. The step of the machine, and where the host places an instruction. -/

namespace Sys2Proof.Machine

/-- One step: the host's next action (00_scope.md R15), a written command running by `exec`. -/
def step (s : State) : Host.Outcome State Fault Refusal := hostStep exec s

/-- `s` with the command word whose low `nbits` bits are those of `w` as the host's next write of `CMD`, which is where
the block takes its commands from (30_encoding.md R90; log 1). -/
def State.withFetchWord (s : State) (nbits w : Nat) : State := withCommand (tableWord nbits w) s

end Sys2Proof.Machine
end

