-- ==== Sys2Proof/Safety.lean ====
section
/-! DEFINITION. The terms in which claims are stated: the value of a word, the properties of the open parameters that a
claim may take as hypotheses, the legal ranges, what a command may touch, and the invariants of the machine. -/

namespace Sys2Proof.Machine

open Sys2Proof.Config

/-! ### Values (00_scope.md R10) -/

/-- `val(w)` for finite `w` (00_scope.md R10). -/
noncomputable def val (w : F32) : ℝ := (units w : ℝ) / 2 ^ 149

/-- `y` is the correctly rounded binary32 of the real `r`, round to nearest, ties to even, with subnormal results flushed
(00_scope.md R11): in the normal range no finite word is nearer, and of two nearest ones `y` has the even fraction; below it
`y` is the smallest normal magnitude where that is the nearest (from 2^-126 - 2^-150 on, the tie going to its even fraction)
and a zero where a subnormal is; from half a unit above the largest finite value on it is an infinity. -/
structure RoundsTo (r : ℝ) (y : F32) : Prop where
  normal : (1 : ℝ) / 2 ^ 126 ≤ |r| → |r| < 2 ^ 128 - 2 ^ 103 → isFinite y = true
  nearest : (1 : ℝ) / 2 ^ 126 ≤ |r| → |r| < 2 ^ 128 - 2 ^ 103 → ∀ w, isFinite w = true → |val y - r| ≤ |val w - r|
  tiesEven : (1 : ℝ) / 2 ^ 126 ≤ |r| → |r| < 2 ^ 128 - 2 ^ 103 → ∀ w, isFinite w = true → val w ≠ val y →
    |val w - r| = |val y - r| → fracField y % 2 = 0
  tiny : |r| < (1 : ℝ) / 2 ^ 126 - 1 / 2 ^ 150 → isZero y = true
  smallest : (1 : ℝ) / 2 ^ 126 - 1 / 2 ^ 150 ≤ |r| → |r| < (1 : ℝ) / 2 ^ 126 → |val y| = (1 : ℝ) / 2 ^ 126
  huge : (2 : ℝ) ^ 128 - 2 ^ 103 ≤ |r| → isInf y = true
  sign : 0 < r → signBit y = false
  signNeg : r < 0 → signBit y = true

/-! ### Hypotheses on the open parameters -/

/-- What 00_scope.md R13 requires of the table functions beyond what Machine/Tables.lean imposes: monotonicity, and the
error bound `EPS_LUT = eps` on the constrained domains (log 11). -/
structure TableProperties (eps : ℝ) : Prop where
  /-- `TANH` is monotone non-decreasing -/
  tanh_mono : ∀ x y, fle x y = true → fle (tanh x) (tanh y) = true
  /-- `TANH` is within `EPS_LUT` of tanh -/
  tanh_err : ∀ x, isFinite x = true → |val (tanh x) - Real.tanh (val x)| ≤ eps
  /-- `EXPN` is monotone non-decreasing where it is used -/
  expn_mono : ∀ x y, fle x y = true → fle y lit.zero = true → fle (expn x) (expn y) = true
  /-- `EXPN` is within `EPS_LUT` of exp where it is used -/
  expn_err : ∀ x, isFinite x = true → fle x lit.zero = true → |val (expn x) - Real.exp (val x)| ≤ eps
  /-- `SIN` is within `EPS_LUT` of sin -/
  sin_err : ∀ x, isFinite x = true → |val (sin x) - Real.sin (val x)| ≤ eps
  /-- `COS` is within `EPS_LUT` of cos -/
  cos_err : ∀ x, isFinite x = true → |val (cos x) - Real.cos (val x)| ≤ eps
  /-- `TAN` is within `EPS_LUT` of tan on `(0, 0.25]` -/
  tan_err : ∀ x, flt lit.zero x = true → fle x tanRangeEnd = true → |val (tan x) - Real.tan (val x)| ≤ eps
  /-- `NCOSIN` is within `EPS_LUT` of sin of a full turn on `[0, 1)` -/
  ncosin_err : ∀ p, fle lit.zero p = true → flt p lit.one = true →
    |val (ncoSin p) - Real.sin (2 * Real.pi * val p)| ≤ eps

/-- The six words of the capability's parameters are finite. -/
def finiteParams (ra : ReverbParams) : Bool :=
  isFinite ra.roomSize && isFinite ra.damping && isFinite ra.wetLevel && isFinite ra.dryLevel && isFinite ra.width &&
    isFinite ra.freeze

/-- The assumption a claim may take on the external ReverbAlgorithm and must name: finite in, finite out
(49_reverb_pipeline_and_system.md R289). Taken for every state and every finite `ra`, as R289 words it; U10 and D33 word it
for parameters in range, U10 also for states reached from `init` by `run` (DESIGN CHOICE, log 10). -/
def ReverbKeepsFinite : Prop :=
  ∀ ra nch len wet st c n, finiteParams ra = true → (∀ w ∈ wet, isFinite w = true) →
    isFinite (reverbRunWet ra nch len wet st c n) = true

/-! ### Ranges (10_state.md R34, R35) -/

/-- `lo <= w <= hi` as F32 comparisons. -/
def inRange (lo hi w : F32) : Bool := fle lo w && fle w hi

/-- The distortion parameters lie in their documented ranges (10_state.md R34). -/
def distParamsInRange (g : Regs) : Bool :=
  inRange lit.one (f32OfNat 25) g.dDrive && inRange lit.zero lit.one g.dOutput && decide (g.dType.toNat ≤ 4) &&
    inRange lit.zero lit.one g.dTone && inRange lit.zero lit.one g.dMix && inRange lit.zero lit.destroyDivisor g.dDestroy

/-- The reverb parameters lie in their documented ranges (10_state.md R35). -/
def revParamsInRange (g : Regs) : Bool :=
  inRange lit.zero lit.one g.rSize && inRange lit.zero lit.one g.rDamping && decide (g.rType.toNat ≤ 4) &&
    inRange lit.zero lit.ghostDepth g.rPredelay && inRange lit.zero lit.one g.rMix && inRange lit.zero lit.one g.rMod &&
    inRange (f32OfNat 20) lit.ghostBase g.rLowcut && inRange lit.ghostBase (f32OfNat 20000) g.rHighcut

/-- The addresses of the host-visible registers (10_state.md R33, R34, R35, R38). -/
def registerAddresses : List Word :=
  [0x000, 0x004, 0x008, 0x00C, 0x040, 0x044, 0x048, 0x04C, 0x050, 0x054, 0x058, 0x080, 0x084, 0x088, 0x08C, 0x090, 0x094,
    0x098, 0x09C, 0x0C0, 0x0C4, 0x0C8, 0x0CC, 0x0D0, 0x0D4]

/-- The addresses of the registers a host may write (10_state.md R33, R34, R35). -/
def writableAddresses : List Word :=
  [0x008, 0x00C, 0x040, 0x044, 0x048, 0x04C, 0x050, 0x054, 0x058, 0x080, 0x084, 0x088, 0x08C, 0x090, 0x094, 0x098, 0x09C]

/-! ### What a block touches -/

/-- The byte address `a` lies in a word `[c][n]` of a block of `nch` channels and `len` frames (20_memory.md R62). -/
def inBlock (addr : Channel → Nat → Nat) (nch len a : Nat) : Prop :=
  ∃ (c : Channel) (n : Nat), c.val < nch ∧ n < len ∧ addr c n ≤ a ∧ a < addr c n + 4

/-- The first `len` words of channel `c` of a buffer, in order (20_memory.md R62). -/
def channelWords (addr : Channel → Nat → Nat) (c : Channel) (len : Nat) (m : Memory) : List F32 :=
  (List.range len).map fun n => memWord m (addr c n)

/-- What a `PROC.D` that raises no fault leaves alone: every register, the reverb engine with its memories, the other
engine's snapshot, the configuration latched by `CFG.D`, the ports, the entries of channels that are not live, and every
byte outside the block's words of `BUF_D` (45_distortion_pipeline.md R204, 10_state.md R21, 20_memory.md R62, R65). -/
structure DistBlockFrame (nch len : Nat) (s t : State) : Prop where
  regs : t.regs = s.regs
  trap : t.trap = s.trap
  seq : t.seq = s.seq
  pr : t.pr = s.pr
  rs : t.rs = s.rs
  rk : t.rk = s.rk
  wet : t.wet = s.wet
  dly : t.dly = s.dly
  rdata : t.rdata = s.rdata
  x : t.x = s.x
  host : t.host = s.host
  draws : t.draws = s.draws
  configured : t.ds.configured = s.ds.configured
  fs : t.ds.fs = s.ds.fs
  nchEq : t.ds.nch = s.ds.nch
  maxblk : t.ds.maxblk = s.ds.maxblk
  /-- the entries of the channels that are not live (10_state.md R21) -/
  dead : ∀ c : Channel, nch ≤ c.val → t.ds.toneY1[c] = s.ds.toneY1[c] ∧ t.ds.dtap[c] = s.ds.dtap[c] ∧
    t.ds.gs1[c] = s.ds.gs1[c] ∧ t.ds.gs2[c] = s.ds.gs2[c]
  outside : ∀ a, ¬ inBlock bufDAddr nch len a → memByte t.mem a = memByte s.mem a

/-- What a `PROC.R` that raises no fault leaves alone: the parameter registers, the distortion engine, the configuration
latched by `CFG.R`, the ports, the entries and the delay memory of channels that are not live, and every byte outside the
block's words of `BUF_R` and `WET_R` (49_reverb_pipeline_and_system.md R283, 10_state.md R21, 20_memory.md R62, R65). -/
structure RevBlockFrame (nch len : Nat) (s t : State) : Prop where
  regs : t.regs = { s.regs with ra := t.regs.ra }
  trap : t.trap = s.trap
  seq : t.seq = s.seq
  pd : t.pd = s.pd
  ds : t.ds = s.ds
  dk : t.dk = s.dk
  rdata : t.rdata = s.rdata
  x : t.x = s.x
  host : t.host = s.host
  draws : t.draws = s.draws
  configured : t.rs.configured = s.rs.configured
  fs : t.rs.fs = s.rs.fs
  nchEq : t.rs.nch = s.rs.nch
  maxblk : t.rs.maxblk = s.rs.maxblk
  inc : t.rs.inc = s.rs.inc
  /-- the entries of the channels that are not live (10_state.md R21) -/
  dead : ∀ c : Channel, nch ≤ c.val → t.rs.lc[c] = s.rs.lc[c] ∧ t.rs.hc[c] = s.rs.hc[c] ∧ t.rs.wcur[c] = s.rs.wcur[c]
  /-- their words of `DLY`; the premise on the cursors is part of the machine invariant, `Inv.cursor` -/
  deadDly : (∀ c : Channel, s.rs.wcur[c] < delayCap) → ∀ c : Channel, nch ≤ c.val → ∀ i, i < delayCap →
    memWord t.dly (dlyAddr c i) = memWord s.dly (dlyAddr c i)
  /-- the words of `WET_R` outside the block -/
  wetOutside : ∀ a, ¬ inBlock wetAddr nch len a → memByte t.wet a = memByte s.wet a
  outside : ∀ a, ¬ inBlock bufRAddr nch len a → memByte t.mem a = memByte s.mem a

/-! ### The two engines' shares of the state -/

/-- Two states agree on everything the distortion engine's commands may read: the fault and sequencer state, the draws, the
engine's registers, snapshot, state and constants, and the bytes of `BUF_D` (20_memory.md R60, R65). -/
structure DistAgree (s t : State) : Prop where
  trap : s.trap = t.trap
  seq : s.seq = t.seq
  draws : s.draws = t.draws
  fsD : s.regs.fsD = t.regs.fsD
  snapshot : snapshotD s.regs = snapshotD t.regs
  pd : s.pd = t.pd
  ds : s.ds = t.ds
  dk : s.dk = t.dk
  buffer : ∀ a, 0x10000 ≤ a → a < 0x20000 → memByte s.mem a = memByte t.mem a

/-- Two states agree on everything the reverb engine's commands may read, in the same way with `BUF_R`, `WET_R` and `DLY`
(20_memory.md R60, R65). -/
structure RevAgree (s t : State) : Prop where
  trap : s.trap = t.trap
  seq : s.seq = t.seq
  fsR : s.regs.fsR = t.regs.fsR
  snapshot : snapshotR s.regs = snapshotR t.regs
  ra : s.regs.ra = t.regs.ra
  pr : s.pr = t.pr
  rs : s.rs = t.rs
  rk : s.rk = t.rk
  wet : s.wet = t.wet
  dly : s.dly = t.dly
  buffer : ∀ a, 0x20000 ≤ a → a < 0x30000 → memByte s.mem a = memByte t.mem a

/-- The distortion engine's own state is as it was: what a command of the reverb engine may not change (00_scope.md R2). -/
structure DistKept (s t : State) : Prop where
  regs : snapshotD t.regs = snapshotD s.regs ∧ t.regs.fsD = s.regs.fsD ∧ t.regs.dGhost = s.regs.dGhost
  pd : t.pd = s.pd
  ds : t.ds = s.ds
  dk : t.dk = s.dk
  buffer : ∀ a, 0x10000 ≤ a → a < 0x20000 → memByte t.mem a = memByte s.mem a

/-- The reverb engine's own state is as it was: what a command of the distortion engine may not change (00_scope.md R2). -/
structure RevKept (s t : State) : Prop where
  regs : snapshotR t.regs = snapshotR s.regs ∧ t.regs.fsR = s.regs.fsR ∧ t.regs.ra = s.regs.ra
  pr : t.pr = s.pr
  rs : t.rs = s.rs
  rk : t.rk = s.rk
  wet : t.wet = s.wet
  dly : t.dly = s.dly
  buffer : ∀ a, 0x20000 ≤ a → a < 0x30000 → memByte t.mem a = memByte s.mem a

/-! ### Streams: one channel's samples through one stage -/

/-- `CHAIN` over one channel's samples, in order; `none` when some sample raises `FOLD_DIVERGE`
(45_distortion_pipeline.md R204, R205). -/
def chainRun (p : SnapD) (sel : Instr) (k : DistConsts) (c : Channel) :
    List F32 → DistState → Option (List F32 × DistState)
  | [], ds => some ([], ds)
  | x :: xs, ds =>
    match chain p sel k c x ds with
    | none => none
    | some r =>
      match chainRun p sel k c xs r.2 with
      | none => none
      | some q => some (r.1 :: q.1, q.2)

/-- A stage over a list of operands, in order, threading the stage's state: the outputs and the last state. -/
def stageRun {α σ : Type} (f : α → σ → F32 × σ) : List α → σ → List F32 × σ
  | [], st => ([], st)
  | x :: xs, st =>
    let r := f x st
    let q := stageRun f xs r.2
    (r.1 :: q.1, q.2)

/-- `CUTS` over one channel's samples, in order (49_reverb_pipeline_and_system.md R283 step 3). -/
def cutsRun (k : RevConsts) (c : Channel) : List F32 → RevState → List F32 × RevState := stageRun (cuts k c)

/-- `GHOST` over one channel's samples, in order (44_ghost_stage.md R189). -/
def ghostRun (k : DistConsts) (c : Channel) : List F32 → DistState → List F32 × DistState := stageRun (ghost k c)

/-- `POP` over one channel's samples, in order, each with the delay of its block (47_circular_delay_buffer.md R251): the
outputs, and the engine with the delay memory. -/
def popCalls (c : Channel) : List (Nat × F32) → RevState × Memory → List F32 × (RevState × Memory) :=
  stageRun fun p st => pop p.1 c p.2 st

/-- The outputs of the calls of `POP` (47_circular_delay_buffer.md R257). -/
def popRun (c : Channel) (calls : List (Nat × F32)) (st : RevState × Memory) : List F32 := (popCalls c calls st).1

/-- The calls of `POP` of one block: every sample with the block's delay (49_reverb_pipeline_and_system.md R283 step 5). -/
def blockCalls (dlyD : Nat) (xs : List F32) : List (Nat × F32) := xs.map fun x => (dlyD, x)

/-- The phase after `n` frames of `MOD_PASS` (48_nco_modulation_lut.md R268). -/
def phaseAfter (inc : F32) : Nat → F32 → F32
  | 0, p => p
  | n + 1, p => phaseAfter inc n (wrap01 (fadd p inc))

/-! ### Invariants -/

/-- The invariant of the machine: every step keeps it, and it holds at reset. -/
structure Inv (s : State) : Prop where
  /-- the memories are in canonical form -/
  memWf : s.mem.wf = true
  wetWf : s.wet.wf = true
  dlyWf : s.dly.wf = true
  /-- the host's memory lists bytes of the two sample buffers only (20_memory.md R60) -/
  memRange : ∀ c ∈ s.mem.cells, 0x10000 ≤ c.1 ∧ c.1 < 0x30000
  /-- the internal memories list bytes of their words only (20_memory.md R63, R64) -/
  wetRange : ∀ c ∈ s.wet.cells, c.1 < 4 * nchMax * blkCap
  dlyRange : ∀ c ∈ s.dly.cells, c.1 < 4 * nchMax * delayCap
  /-- a host action finds the block idle (10_state.md R30, 20_memory.md R70) -/
  idle : s.seq.busy = false
  /-- the configured sizes are within the instance's (10_state.md R23, R26) -/
  distNch : s.ds.nch ≤ nchMax
  distMaxblk : s.ds.maxblk ≤ blkCap
  revNch : s.rs.nch ≤ nchMax
  revMaxblk : s.rs.maxblk ≤ blkCap
  /-- the cursors and the delay are below the capacity (47_circular_delay_buffer.md R252, R256) -/
  cursor : ∀ c : Channel, s.rs.wcur[c] < delayCap
  delay : s.rk.dlyD < delayCap
  /-- the `RA_*` registers mirror `RK.ra`, and `RA_FREEZE` is +0.0 (10_state.md R27, R38) -/
  mirror : s.regs.ra = s.rk.ra
  freeze : s.regs.ra.freeze = 0
  /-- a configured engine holds a legal configuration (45_distortion_pipeline.md R201, 49_reverb_pipeline_and_system.md
  R290); for the distortion engine as long as no fault has left it unspecified -/
  distConfig : s.trap = none → s.ds.configured = true → 1 ≤ s.ds.nch ∧ 1 ≤ s.ds.maxblk ∧ rateOk s.ds.fs = true
  revConfig : s.rs.configured = true → 1 ≤ s.rs.nch ∧ 1 ≤ s.rs.maxblk ∧ rateOk s.rs.fs = true
  /-- a configured reverb engine's predelay memory was cleared (49_reverb_pipeline_and_system.md R290) -/
  cleared : s.rs.configured = true → s.dly.fill = .byte 0

/-- The reverb phase stays in `[0, 1)` because its step is finite and not negative (10_state.md R25,
48_nco_modulation_lut.md R266, R268). -/
structure RevPhaseInv (s : State) : Prop where
  idle : s.seq.busy = false
  phase : phaseOk s.rs.mphase = true
  stepFinite : isFinite s.rs.inc = true
  stepSign : fle lit.zero s.rs.inc = true

/-- The ghost phase stays in `[0, 1)` (10_state.md R25, 44_ghost_stage.md R190) as long as no fault has left the engine
unspecified, because a configured engine's rate is legal; for every rate that R190 admits (log 19). -/
structure GhostPhaseInv (s : State) : Prop where
  idle : s.seq.busy = false
  phase : s.trap = none → phaseOk s.ds.gphase = true
  rate : s.trap = none → s.ds.configured = true → rateOk s.ds.fs = true

/-- A safe run: no fault has been recorded ("every property of this spec about results takes `STATUS.FAULT = 0` as a
premise", 60_exceptions.md R318). -/
def noFault (s : State) : Bool := s.trap.isNone

end Sys2Proof.Machine
end

