-- ==== Sys2Proof/Certificates/Slice0/Obligations.lean ====
section
/-! DEFINITION. The statements for the provers. Each docstring names the rules of spec/ that its statement formalises; "log
<n>" is the row of the assumption log whose choice a statement rests on. -/

open Sys2Proof Sys2Proof.Machine Sys2Proof.Config

/-! ### Encoding (30_encoding.md) -/

/-- Decoding inverts encoding for every well-formed instruction of every format, and for the commands also byte by byte
with whatever follows (R90 to R97). -/
def Obligations.DecodeEncodeRoundTrip : Prop :=
  ∀ i : Instr, i.wellFormed = true →
    decode i.format (encode i) = .ok i ∧
    (i.format = .cmd → ∀ rest : List Byte, decodeBytes (encodeBytes i ++ rest) = .ok (i, rest))

/-- Whatever a decoder accepts is a well-formed instruction of its format whose encoding is that very word (R91, R92, R96,
R97). -/
def Obligations.DecodedWordsAreEncodings : Prop :=
  ∀ (f : Format) (w : Word) (i : Instr), decode f w = .ok i → i.format = f ∧ i.wellFormed = true ∧ encode i = w

/-- R91: the five commands by match and mask, with their free fields. -/
def Obligations.CommandsSelectedByMatchAndMask : Prop :=
  ∀ w : Word,
    (decodeCmd w = .ok .nop ↔ w &&& 0xFFFFFFFF#32 = 0x00000000#32) ∧
    (∀ nch len : Nat,
      (decodeCmd w = .ok (.cfgD nch len) ↔ w &&& 0xFF0F0000#32 = 0x10000000#32 ∧
        nch = ((w >>> 20) &&& 0xF#32).toNat ∧ len = (w &&& 0xFFFF#32).toNat) ∧
      (decodeCmd w = .ok (.cfgR nch len) ↔ w &&& 0xFF0F0000#32 = 0x18000000#32 ∧
        nch = ((w >>> 20) &&& 0xF#32).toNat ∧ len = (w &&& 0xFFFF#32).toNat) ∧
      (decodeCmd w = .ok (.procD nch len) ↔ w &&& 0xFF0F0000#32 = 0x20000000#32 ∧
        nch = ((w >>> 20) &&& 0xF#32).toNat ∧ len = (w &&& 0xFFFF#32).toNat) ∧
      (decodeCmd w = .ok (.procR nch len) ↔ w &&& 0xFF0F0000#32 = 0x28000000#32 ∧
        nch = ((w >>> 20) &&& 0xF#32).toNat ∧ len = (w &&& 0xFFFF#32).toNat))

/-- R92, R96, R97, R99: which words no decoder accepts: for a command, `OP = 0` with another bit set, `OP` of 3 or more, or
`OP` 1 or 2 with `Z1` or `Z2` not 0; for a selector, 5 or more. -/
def Obligations.ReservedWordsAreRejected : Prop :=
  ∀ w : Word,
    ((∃ e, decodeCmd w = .error e) ↔
      (w >>> 28 = 0#32 ∧ w ≠ 0#32) ∨ 3 ≤ (w >>> 28).toNat ∨
      ((w >>> 28 = 1#32 ∨ w >>> 28 = 2#32) ∧ w &&& 0x070F0000#32 ≠ 0#32)) ∧
    ((∃ e, decodeDType w = .error e) ↔ 5 ≤ w.toNat) ∧ ((∃ e, decodeRType w = .error e) ↔ 5 ≤ w.toNat)

/-- R103: the worked encodings, and the worked illegal words. -/
def Obligations.WorkedEncodings : Prop :=
  encode (.cfgD 2 512) = 0x10200200#32 ∧ encode (.procD 2 4) = 0x20200004#32 ∧ encode (.cfgR 1 64) = 0x18100040#32 ∧
  encode (.procR 1 8) = 0x28100008#32 ∧ encode (.procD 1 0) = 0x20100000#32 ∧ encode .nop = 0x00000000#32 ∧
  decodeCmd 0x10200200#32 = .ok (.cfgD 2 512) ∧ decodeCmd 0x20200004#32 = .ok (.procD 2 4) ∧
  decodeCmd 0x18100040#32 = .ok (.cfgR 1 64) ∧ decodeCmd 0x28100008#32 = .ok (.procR 1 8) ∧
  decodeCmd 0x20100000#32 = .ok (.procD 1 0) ∧ decodeCmd 0x00000000#32 = .ok .nop ∧
  decodeCmd 0x30000000#32 = .error .reservedOp ∧ decodeCmd 0x21200004#32 = .error .reservedBits ∧
  decodeCmd 0x08000000#32 = .error .nopField

/-! ### The step, the bus and the registers (10_state.md, 20_memory.md, 30_encoding.md) -/

/-- R90, R92: a word written to `CMD` in an idle, unfaulted block runs as the instruction it decodes to, on the state in
which only the host's queue has moved on; the same through the placement function. The queue is the model's (log 1). -/
def Obligations.StepRunsDecodedCommand : Prop :=
  (∀ (s : State) (w : Word) (rest : List HostAction) (i : Instr), s.host = .write 0 4 w :: rest → s.trap = none →
    s.seq.busy = false → decodeCmd w = .ok i → step s = exec i { s with host := rest }) ∧
  (∀ (s : State) (nbits w : Nat) (i : Instr), s.trap = none → s.seq.busy = false → decodeTableWord nbits w = some i →
    step (s.withFetchWord nbits w) = exec i s)

/-- R319: a word that decodes to no command raises `ILLEGAL_CMD`, and no state other than `STATUS` changes. -/
def Obligations.UndecodedCommandFaults : Prop :=
  ∀ (s : State) (w : Word) (rest : List HostAction) (e : Reject), s.host = .write 0 4 w :: rest → s.trap = none →
    s.seq.busy = false → decodeCmd w = .error e →
    step s = .next { s with host := rest, trap := some .illegalCmd }

/-- R37: a written register takes any pattern and reads back exactly it, whether or not the block has faulted; every other
register reads as before, and nothing but the registers changes. -/
def Obligations.WrittenRegistersReadBack : Prop :=
  ∀ a ∈ registerAddresses, a ∈ writableAddresses → ∀ (s : State) (v : Word) (rest : List HostAction),
    s.host = .write a 4 v :: rest →
    ∃ t, step s = .next t ∧ t = { s with host := rest, regs := t.regs } ∧ (busRead a 4 t).rdata = v ∧
      ∀ b ∈ registerAddresses, b ≠ a → (busRead b 4 t).rdata = (busRead b 4 s).rdata

/-- R32 to R35, R38: a host write of `STATUS` or of an `RA_*` register is ignored without a fault; `CMD` reads 0 without a
fault; and a host read of every other register address but `STATUS` delivers the register that the tables name there and
changes nothing else. -/
def Obligations.ReadOnlyRegistersIgnoreWrites : Prop :=
  (∀ a ∈ registerAddresses, a ∉ writableAddresses → a ≠ 0 → ∀ (s : State) (v : Word) (rest : List HostAction),
    s.host = .write a 4 v :: rest → step s = .next { s with host := rest }) ∧
  (∀ (s : State) (rest : List HostAction), s.host = .read 0 4 :: rest →
    step s = .next { s with host := rest, rdata := 0 }) ∧
  (∀ p ∈ ([(0x008, fun g => g.fsD), (0x00C, fun g => g.fsR), (0x040, fun g => g.dGhost), (0x044, fun g => g.dDrive),
      (0x048, fun g => g.dOutput), (0x04C, fun g => g.dType), (0x050, fun g => g.dTone), (0x054, fun g => g.dMix),
      (0x058, fun g => g.dDestroy), (0x080, fun g => g.rSize), (0x084, fun g => g.rDamping), (0x088, fun g => g.rType),
      (0x08C, fun g => g.rPredelay), (0x090, fun g => g.rMix), (0x094, fun g => g.rMod), (0x098, fun g => g.rLowcut),
      (0x09C, fun g => g.rHighcut), (0x0C0, fun g => g.ra.roomSize), (0x0C4, fun g => g.ra.damping),
      (0x0C8, fun g => g.ra.wetLevel), (0x0CC, fun g => g.ra.dryLevel), (0x0D0, fun g => g.ra.width),
      (0x0D4, fun g => g.ra.freeze)] : List (Word × (Regs → Word))),
    ∀ (s : State) (rest : List HostAction), s.host = .read p.1 4 :: rest →
      step s = .next { s with host := rest, rdata := p.2 s.regs })

/-- R32, R69: with no command running, a read has no side effect but its data, and a write of any address but `CMD` changes
no engine state, no snapshot and no internal memory. -/
def Obligations.HostAccessesKeepEngineState : Prop :=
  ∀ (s : State) (a : HostAction) (rest : List HostAction), s.host = a :: rest → s.seq.busy = false → a ≠ .resetPin →
    (∀ size v, a ≠ .write 0 size v) →
    ∃ t, step s = .next t ∧ t.host = rest ∧ t.pd = s.pd ∧ t.pr = s.pr ∧ t.ds = s.ds ∧ t.dk = s.dk ∧ t.rs = s.rs ∧
      t.rk = s.rk ∧ t.wet = s.wet ∧ t.dly = s.dly ∧ t.draws = s.draws ∧ t.seq = s.seq ∧ t.regs.ra = s.regs.ra ∧
      (∀ addr size, a = .read addr size → t.regs = s.regs ∧ t.mem = s.mem)

/-- R68: the accesses that raise `BAD_ACCESS`, which are exactly those that reach nothing, and all that they do: a write is
dropped, a read returns 0, and the fault entry of R316 is taken. That it clears `SEQ.busy`, also as a second fault in a
faulted block, is the model's reading (log 30); that an address of 0x40000 or above is outside, not truncated, is log 4. -/
def Obligations.BadAccessesDoNothingElse : Prop :=
  ∀ (s : State) (addr : Word) (size : Nat),
    (target addr size = none ↔
      size ≠ 4 ∨ addr.toNat % 4 ≠ 0 ∨ (addr.toNat < 0x100 ∧ addr ∉ registerAddresses) ∨
      (0x100 ≤ addr.toNat ∧ addr.toNat < 0x10000) ∨ 0x30000 ≤ addr.toNat) ∧
    (target addr size = none → ∀ rest : List HostAction,
      (∀ v, s.host = .write addr size v :: rest →
        step s = .next { s with host := rest, trap := some (s.trap.getD .badAccess), seq := { s.seq with busy := false } }) ∧
      (s.host = .read addr size :: rest →
        step s = .next
          { s with host := rest, rdata := 0, trap := some (s.trap.getD .badAccess), seq := { s.seq with busy := false } }))

/-- R62, R66: where the words of the buffers stand, and that a host write puts byte `k` of the word, bits `8k+7 : 8k`, at
its address plus `k`, changes no other byte and nothing else, and reads back as written. -/
def Obligations.BufferWordsAreLittleEndian : Prop :=
  (∀ (c : Channel) (n : Nat), bufDAddr c n = 0x10000 + 4 * (c.val * 8192 + n) ∧
    bufRAddr c n = 0x20000 + 4 * (c.val * 8192 + n)) ∧
  ∀ (c : Channel) (n : Nat), n < 8192 → ∀ a : Nat, (a = bufDAddr c n ∨ a = bufRAddr c n) →
    ∀ (s : State) (v : Word) (rest : List HostAction), s.seq.busy = false → s.host = .write (BitVec.ofNat 32 a) 4 v :: rest →
      ∃ t, step s = .next t ∧ t = { s with host := rest, mem := t.mem } ∧
        memByte t.mem a = v.extractLsb' 0 8 ∧ memByte t.mem (a + 1) = v.extractLsb' 8 8 ∧
        memByte t.mem (a + 2) = v.extractLsb' 16 8 ∧ memByte t.mem (a + 3) = v.extractLsb' 24 8 ∧
        (∀ b, b < a ∨ a + 4 ≤ b → memByte t.mem b = memByte s.mem b) ∧
        busRead (BitVec.ofNat 32 a) 4 t = { t with rdata := v }

/-- R33, R311: the fields of `STATUS` and the cause codes. -/
def Obligations.StatusFieldsAndCauseCodes : Prop :=
  (∀ s : State,
    (busRead 0x004 4 s).rdata = statusWord s ∧
    (statusWord s).getLsbD 0 = s.ds.configured ∧ (statusWord s).getLsbD 1 = s.rs.configured ∧
    (statusWord s).getLsbD 2 = s.seq.busy ∧ (statusWord s).getLsbD 3 = s.trap.isSome ∧
    (statusWord s).extractLsb' 4 4 = 0 ∧ (statusWord s).extractLsb' 16 16 = 0 ∧
    (s.trap = none → (statusWord s).extractLsb' 8 8 = 0) ∧
    (∀ c, s.trap = some c → (statusWord s).extractLsb' 8 8 = causeCode c)) ∧
  [Cause.illegalCmd, .notConfigured, .badConfig, .badBlock, .badType, .badDelay, .foldDiverge, .cmdWhileBusy,
    .badAccess].map causeCode = [1, 2, 3, 4, 5, 6, 7, 8, 9]

/-! ### Reset and faults (60_exceptions.md, 70_reset_and_hazards.md) -/

/-- R42, R343: after the hardware reset every register reads 0, no fault is recorded, the block is idle, both engines are
unconfigured, and every word of `DS`, `DK`, `RS`, `RK` and the snapshots is zero. (What the memories and `RS.rvb` hold is
unspecified: log 7.) -/
def Obligations.ResetLeavesZeros : Prop :=
  (∀ a ∈ registerAddresses, (busRead a 4 State.reset).rdata = 0 ∧ (busRead a 4 State.reset).trap = none) ∧
  State.reset.trap = none ∧ State.reset.seq.busy = false ∧ State.reset.seq.n = 0 ∧ State.reset.seq.c = 0 ∧
  State.reset.pd = ⟨false, 0, 0, 0, 0, 0, 0⟩ ∧ State.reset.pr = ⟨0, 0, 0, 0, 0, 0, 0, 0⟩ ∧
  State.reset.ds = ⟨false, 0, 0, 0, .replicate _ 0, .replicate _ zeroTaps, .replicate _ 0, .replicate _ 0, 0⟩ ∧
  State.reset.dk = ⟨0, 0, 0, zeroCoefs, 0, 0, 0, 0, 0, 0, 0, 0, 0, 0, 0, 0, 0⟩ ∧
  State.reset.rs =
    ⟨false, 0, 0, 0, .replicate _ zeroTaps, .replicate _ zeroTaps, .replicate _ 0, 0, 0, State.reset.rs.rvb⟩ ∧
  State.reset.rk = ⟨zeroCoefs, zeroCoefs, false, 0, ⟨0, 0, 0, 0, 0, 0⟩⟩

/-- R318, R325, R340: in a faulted block every write of `CMD` is ignored; every step that is not the hardware reset keeps
the recorded cause; and the hardware reset, from any state whatever, clears it, zeroes the registers, both engines' words,
the snapshots and the sequencer, and leaves the host's queue alone (log 18). -/
def Obligations.OnlyTheHardwareResetClearsAFault : Prop :=
  (∀ (s : State) (c : Cause), s.trap = some c →
    (∀ (w : Word) (rest : List HostAction), s.host = .write 0 4 w :: rest → step s = .next { s with host := rest }) ∧
    ((∀ rest, s.host ≠ .resetPin :: rest) → ∃ t, step s = .next t ∧ t.trap = some c)) ∧
  (∀ (s : State) (rest : List HostAction), s.host = .resetPin :: rest →
    ∃ t, step s = .next t ∧ t.trap = none ∧ t.host = rest ∧ t.seq = State.reset.seq ∧ t.regs = State.reset.regs ∧
      t.pd = State.reset.pd ∧ t.pr = State.reset.pr ∧ t.ds = State.reset.ds ∧ t.dk = State.reset.dk ∧
      t.rs = { State.reset.rs with rvb := t.rs.rvb } ∧ t.rk = State.reset.rk)

/-- R320, R73: a write of `CMD` while a command runs raises `CMD_WHILE_BUSY`; the word is discarded, the registers stay, and
only the engine of the running command loses its state. (No run reaches a state with `BUSY = 1`: log 17.) -/
def Obligations.CommandWhileBusyFaults : Prop :=
  ∀ (s : State) (w : Word) (rest : List HostAction), s.host = .write 0 4 w :: rest → s.trap = none → s.seq.busy = true →
    ∃ t, step s = .next t ∧ t.trap = some .cmdWhileBusy ∧ t.seq = { s.seq with busy := false } ∧ t.regs = s.regs ∧
      t.host = rest ∧ (runsDist s = true → RevKept s t) ∧ (runsRev s = true → DistKept s t)

/-- R316: fault entry keeps the first cause, sets `FAULT`, ends the command, and saves nothing else. That a second fault
clears `SEQ.busy` too is the model's reading of R316 (log 30); it is 0 already in every reachable state. -/
def Obligations.FaultEntryKeepsFirstCause : Prop :=
  ∀ (cause : Cause) (s : State),
    (s.trap = none → raiseFault cause s = { s with trap := some cause, seq := { s.seq with busy := false } }) ∧
    (∀ first, s.trap = some first → raiseFault cause s = { s with seq := { s.seq with busy := false } })

/-- R326: from an idle, unfaulted block, a step that records a fault other than `FOLD_DIVERGE` changes nothing but the fault
(and, for a read, the read data): the fault is detected before anything else changes. -/
def Obligations.PreciseFaultsChangeNothingElse : Prop :=
  ∀ (s t : State) (c : Cause), s.trap = none → s.seq.busy = false → step s = .next t → t.trap = some c →
    c ≠ .foldDiverge → t = { s with host := s.host.tail, trap := some c, rdata := t.rdata }

/-- R295: `NOP`: the word 0 exactly, and no state changes; like every command it is ignored when `FAULT = 1` and raises
`CMD_WHILE_BUSY` when written during another command. -/
def Obligations.NopChangesNothing : Prop :=
  (∀ w : Word, decodeCmd w = .ok .nop ↔ w = 0) ∧ (∀ s : State, exec .nop s = .next s) ∧
  (∀ (s : State) (rest : List HostAction), s.host = .write 0 4 0 :: rest →
    (s.trap.isSome = true ∨ s.seq.busy = false → step s = .next { s with host := rest }) ∧
    (s.trap = none → s.seq.busy = true → ∃ t, step s = .next t ∧ t.trap = some .cmdWhileBusy))

/-! ### Configuration (45_distortion_pipeline.md, 49_reverb_pipeline_and_system.md) -/

/-- R201, R290, R314: a `CFG` whose channel count, block size or sample rate is out of range (a NaN rate included) raises
`BAD_CONFIG` and changes nothing else; the rate check is the check of the real value against 44100 and 192000. -/
def Obligations.ConfigurationRangesAreChecked : Prop :=
  (∀ fs : F32, rateOk fs = true ↔ isFinite fs = true ∧ 44100 ≤ val fs ∧ val fs ≤ 192000) ∧
  (∀ (nch maxblk : Nat) (s : State), (¬(1 ≤ nch ∧ nch ≤ 2) ∨ ¬(1 ≤ maxblk ∧ maxblk ≤ 8192) ∨ rateOk s.regs.fsD = false) →
    exec (.cfgD nch maxblk) s = .next (raiseFault .badConfig s)) ∧
  (∀ (nch maxblk : Nat) (s : State), (¬(1 ≤ nch ∧ nch ≤ 2) ∨ ¬(1 ≤ maxblk ∧ maxblk ≤ 8192) ∨ rateOk s.regs.fsR = false) →
    exec (.cfgR nch maxblk) s = .next (raiseFault .badConfig s))

/-- R342 with R203, R290: `CFG.D` and `CFG.R` set one engine to its columns "after" the command and touch nothing else: no
register, no buffer, not the other engine, not the fault bits; every word of the predelay memory is +0.0 after `CFG.R`; and
a second identical `CFG` changes nothing. -/
def Obligations.ConfigureResetsOneEngine : Prop :=
  (∀ (nch maxblk : Nat) (s : State), 1 ≤ nch → nch ≤ 2 → 1 ≤ maxblk → maxblk ≤ 8192 → rateOk s.regs.fsD = true →
    ∃ t, exec (.cfgD nch maxblk) s = .next t ∧ exec (.cfgD nch maxblk) t = .next t ∧
      t = { s with
        ds := ⟨true, s.regs.fsD, nch, maxblk, .replicate _ 0, .replicate _ zeroTaps, .replicate _ 0, .replicate _ 0, 0⟩ }) ∧
  (∀ (nch maxblk : Nat) (s : State), 1 ≤ nch → nch ≤ 2 → 1 ≤ maxblk → maxblk ≤ 8192 → rateOk s.regs.fsR = true →
    ∃ t, exec (.cfgR nch maxblk) s = .next t ∧ exec (.cfgR nch maxblk) t = .next t ∧
      t = { s with
        rs := ⟨true, s.regs.fsR, nch, maxblk, .replicate _ zeroTaps, .replicate _ zeroTaps, .replicate _ 0, 0,
          fdiv 0x40400000 s.regs.fsR, reverbInit s.regs.fsR nch maxblk⟩
        dly := t.dly } ∧
      ∀ (c : Channel) (i : Nat), i < 524288 → memWord t.dly (dlyAddr c i) = 0)

/-! ### PROC.D (45_distortion_pipeline.md) -/

/-- R202, R312, R313, R315: the checks of `PROC.D` in their order, each before any change; when they all hold, only
`FOLD_DIVERGE` can be raised, whatever the floating-point parameters are. -/
def Obligations.ProcDChecksInOrder : Prop :=
  ∀ (nch n : Nat) (s : State),
    if s.ds.configured = false then exec (.procD nch n) s = .next (raiseFault .notConfigured s)
    else if nch ≠ s.ds.nch ∨ s.ds.maxblk < n then exec (.procD nch n) s = .next (raiseFault .badBlock s)
    else if 5 ≤ s.regs.dType.toNat then exec (.procD nch n) s = .next (raiseFault .badType s)
    else ∃ t, exec (.procD nch n) s = .next t ∧ (t.trap = s.trap ∨ t.trap = some (s.trap.getD .foldDiverge))

/-- R204, R206, R323: a `PROC.D` of type Soft, Hard, Tube or Sine that passes its checks completes, for every parameter and
sample value, takes the snapshot register by register, and leaves alone all that it does not own, the entries of channels
that are not live (R21) among it. -/
def Obligations.ProcDCompletes : Prop :=
  ∀ (nch n : Nat) (s : State), s.ds.configured = true → nch = s.ds.nch → n ≤ s.ds.maxblk → s.regs.dType.toNat < 5 →
    s.regs.dType.toNat ≠ 3 →
    ∃ t, exec (.procD nch n) s = .next t ∧ DistBlockFrame nch n s t ∧
      t.pd = { ghost := s.regs.dGhost.getLsbD 0, drive := s.regs.dDrive, output := s.regs.dOutput, type := s.regs.dType,
               tone := s.regs.dTone, mix := s.regs.dMix, destroy := s.regs.dDestroy }

/-- R124, R125, R323, R330 (f): a `PROC.D` of type Foldback completes when every driven sample that enters the main pass is
a NaN or at most 64.5 in magnitude, with the snapshot and the frame of the other types; with ghost off those samples are the
host's. -/
def Obligations.ProcDFoldbackCompletes : Prop :=
  ∀ (nch n : Nat) (s : State), s.ds.configured = true → nch = s.ds.nch → n ≤ s.ds.maxblk → s.ds.maxblk ≤ 8192 →
    s.regs.dType = 3 →
    ((s.regs.dGhost.getLsbD 0 = false → (ghostPass nch n (startBlockD n s)).mem = s.mem) ∧
    ((∀ (c : Channel) (k : Nat), c.val < nch → k < n →
      isNaN (fmul (memWord (ghostPass nch n (startBlockD n s)).mem (bufDAddr c k)) s.regs.dDrive) = true ∨
      fle (fabs (fmul (memWord (ghostPass nch n (startBlockD n s)).mem (bufDAddr c k)) s.regs.dDrive)) 0x42810000 = true) →
    ∃ t, exec (.procD nch n) s = .next t ∧ DistBlockFrame nch n s t ∧
      t.pd = { ghost := s.regs.dGhost.getLsbD 0, drive := s.regs.dDrive, output := s.regs.dOutput, type := s.regs.dType,
               tone := s.regs.dTone, mix := s.regs.dMix, destroy := s.regs.dDestroy }))

/-- R124, R323, U2: a `PROC.D` of type Foldback with a driven sample beyond 64.5 in magnitude raises `FOLD_DIVERGE`;
registers, the reverb engine with its memories, and every byte outside the block stay (what `DS`, `DK` and the block hold
then is free: log 15). -/
def Obligations.ProcDFoldbackDiverges : Prop :=
  ∀ (nch n : Nat) (s : State) (c : Channel) (k : Nat), s.ds.configured = true → nch = s.ds.nch → n ≤ s.ds.maxblk →
    s.ds.maxblk ≤ 8192 → s.regs.dType = 3 → c.val < nch → k < n →
    flt 0x42810000
      (fabs (fmul (memWord (ghostPass nch n (startBlockD n s)).mem (bufDAddr c k)) s.regs.dDrive)) = true →
    ∃ t, exec (.procD nch n) s = .next t ∧ t.trap = some (s.trap.getD .foldDiverge) ∧ t.regs = s.regs ∧ RevKept s t ∧
      t.host = s.host ∧ t.rdata = s.rdata ∧ t.ds.configured = true ∧
      ∀ a, ¬ inBlock bufDAddr nch n a → memByte t.mem a = memByte s.mem a

/-- R204, R205, R207, R211, D43: `CHAIN` faults exactly when its transfer function does; its output is
`(clean * (1 - mix) + x * mix) * output` with `x` the sample through waveshaper, tone and destroy stages, whose state it
leaves; at mix +0.0 that is `clean * output` as a number, at mix 1.0 `x * output`. A `PROC.D` that raises no fault computes,
for each channel by itself, `CHAIN` over that channel's samples in order with the block constants: the loop nest and the
other channel cannot be seen. (The samples it starts from are the ghost pass's, which `GhostKeepsSilence` states.) -/
def Obligations.ProcDRunsChainPerChannel : Prop :=
  (∀ (p : SnapD) (sel : Instr) (k : DistConsts) (c : Channel) (clean : F32) (ds : DistState),
    (chain p sel k c clean ds = none ↔ ws sel (fmul clean p.drive) = none) ∧
    (∀ (y : F32) (ds' : DistState), chain p sel k c clean ds = some (y, ds') →
      ∃ v x : F32, ws sel (fmul clean p.drive) = some v ∧
        destroy k c (tone k c v ds).1 (tone k c v ds).2 = some (x, ds') ∧
        y = fmul (fadd (fmul clean (fsub 0x3F800000 p.mix)) (fmul x p.mix)) p.output ∧
        (p.mix = 0 → isFinite x = true → isNaN (fmul clean p.output) = false → feq y (fmul clean p.output) = true) ∧
        (p.mix = 0x3F800000 → isFinite clean = true → isNaN (fmul x p.output) = false →
          feq y (fmul x p.output) = true))) ∧
  (∀ (nch n : Nat) (s t : State) (sel : Instr), s.trap = none → s.ds.maxblk ≤ 8192 → exec (.procD nch n) s = .next t →
    t.trap = none → decodeDType s.regs.dType = .ok sel →
    t.dk = (startBlockD n s).dk ∧
    ∀ c : Channel, c.val < nch →
      ∃ ds', chainRun (snapshotD s.regs) sel t.dk c
          (channelWords bufDAddr c n (ghostPass nch n (startBlockD n s)).mem) (ghostPass nch n (startBlockD n s)).ds =
          some (channelWords bufDAddr c n t.mem, ds') ∧
        t.ds.toneY1[c] = ds'.toneY1[c] ∧ t.ds.dtap[c] = ds'.dtap[c])

/-- R222 to R228, R190: the block constants of a `PROC.D` that raises no fault: the tone coefficients, the destroy amount;
when the amount is above 0, the resonant section and the eight gains, and otherwise, for a NaN amount too, neither is
computed: they keep their values (log 22); with ghost on, the ghost constants from the phase at
the start of the block, and the phase moves once by the block's step; where an extreme rate makes that step an infinity, the
phase is some value in [0, 1) (log 19). -/
def Obligations.ProcDDerivesBlockConstants : Prop :=
  ∀ (nch n : Nat) (s t : State), s.trap = none → exec (.procD nch n) s = .next t → t.trap = none →
    t.dk.alpha = fmul s.regs.dTone 0x3F7D70A4 ∧ t.dk.beta = fsub 0x3F800000 t.dk.alpha ∧
    t.dk.amount = fdiv s.regs.dDestroy 0x42C80000 ∧
    (fgt t.dk.amount 0 = true →
      t.dk.dcoef = bqCoef .bp (fadd 0x43160000 (fmul (fmul t.dk.amount t.dk.amount) 0x43480000))
        (fadd 0x41700000 (fmul t.dk.amount 0x420C0000)) s.ds.fs ∧
      t.dk.kIn = fadd 0x3F800000 (fmul t.dk.amount 0x41400000) ∧ t.dk.kLow = fadd 0x3F800000 (fmul t.dk.amount 0x40200000) ∧
      t.dk.kRes = fadd 0x3F800000 (fmul t.dk.amount 0x41700000) ∧ t.dk.kPre = fadd 0x3F800000 (fmul t.dk.amount 0x40000000) ∧
      t.dk.kMixlow = fadd 0x3F19999A (fmul t.dk.amount 0x3ECCCCCD) ∧ t.dk.kMixres = fmul t.dk.amount 0x3FC00000 ∧
      t.dk.kSat = fadd 0x3F800000 (fmul t.dk.amount 0x40400000) ∧ t.dk.kResc = fadd 0x3F800000 t.dk.amount) ∧
    (fgt t.dk.amount 0 = false →
      t.dk.dcoef = s.dk.dcoef ∧ t.dk.kIn = s.dk.kIn ∧ t.dk.kLow = s.dk.kLow ∧ t.dk.kRes = s.dk.kRes ∧
      t.dk.kPre = s.dk.kPre ∧ t.dk.kMixlow = s.dk.kMixlow ∧ t.dk.kMixres = s.dk.kMixres ∧ t.dk.kSat = s.dk.kSat ∧
      t.dk.kResc = s.dk.kResc) ∧
    (s.regs.dGhost.getLsbD 0 = true →
      t.dk.gfc = fadd 0x447A0000 (fmul (ncoSin s.ds.gphase) 0x43FA0000) ∧
      t.dk.gg = tan (fdiv (fmul 0x40490FDB t.dk.gfc) s.ds.fs) ∧ t.dk.gR2 = fdiv 0x3F800000 0x40A00000 ∧
      t.dk.gR2 = 0x3E4CCCCD ∧
      t.dk.gh = fdiv 0x3F800000 (fadd (fadd 0x3F800000 (fmul t.dk.gR2 t.dk.gg)) (fmul t.dk.gg t.dk.gg)) ∧
      t.dk.ginc = fdiv (fmul (f32OfNat n) ghostRateHz) s.ds.fs ∧
      (isInf t.dk.ginc = false → t.ds.gphase = wrap01 (fadd s.ds.gphase t.dk.ginc)) ∧
      (isInf t.dk.ginc = true → phaseOk t.ds.gphase = true))

/-- R191: with ghost off the pass touches no word of `BUF_D`, the filter words and the phase keep their values, and the
five ghost constants are not computed; that a constant not computed keeps its old value is the model's reading (log 22). -/
def Obligations.GhostOffTouchesNoGhostState : Prop :=
  ∀ (nch n : Nat) (s t : State), s.trap = none → s.regs.dGhost.getLsbD 0 = false → exec (.procD nch n) s = .next t →
    t.trap = none →
    (ghostPass nch n (startBlockD n s)).mem = s.mem ∧ (ghostPass nch n (startBlockD n s)).ds = s.ds ∧
    t.ds.gs1 = s.ds.gs1 ∧ t.ds.gs2 = s.ds.gs2 ∧ t.ds.gphase = s.ds.gphase ∧ t.dk.gfc = s.dk.gfc ∧ t.dk.gg = s.dk.gg ∧
    t.dk.gR2 = s.dk.gR2 ∧ t.dk.gh = s.dk.gh ∧ t.dk.ginc = s.dk.ginc

/-- R187, R188, R189, R193: one sample through the filter and the blend, with the two filter words it leaves; the ghost
pass of a `PROC.D` that raises no fault, for each channel by itself, `GHOST` over that channel's samples of `BUF_D` in order
from the words the channel's filter held, which the command leaves as that run does; and silence in from zero state gives
silence out, and leaves the state zero. -/
def Obligations.GhostKeepsSilence : Prop :=
  (∀ (k : DistConsts) (c : Channel) (x : F32) (ds : DistState) (e t bp u : F32),
    e = fsub (fsub x (fmul ds.gs1[c] (fadd k.gg k.gR2))) ds.gs2[c] → t = fmul (fmul k.gh e) k.gg →
    bp = fadd t ds.gs1[c] → u = fmul bp k.gg →
    ghost k c x ds =
      (fadd (fmul 0x3F4CCCCD (tanh (fmul bp 0x40000000))) (fmul 0x3E4CCCCD x),
        { ds with gs1 := ds.gs1.set c (fadd t bp), gs2 := ds.gs2.set c (fadd u (fadd u ds.gs2[c])) })) ∧
  (∀ (nch n : Nat) (s t : State), s.trap = none → s.ds.maxblk ≤ 8192 → s.regs.dGhost.getLsbD 0 = true →
    exec (.procD nch n) s = .next t → t.trap = none → ∀ c : Channel, c.val < nch →
      channelWords bufDAddr c n (ghostPass nch n (startBlockD n s)).mem =
        (ghostRun t.dk c (channelWords bufDAddr c n s.mem) s.ds).1 ∧
      t.ds.gs1[c] = (ghostRun t.dk c (channelWords bufDAddr c n s.mem) s.ds).2.gs1[c] ∧
      t.ds.gs2[c] = (ghostRun t.dk c (channelWords bufDAddr c n s.mem) s.ds).2.gs2[c]) ∧
  (∀ (k : DistConsts) (c : Channel) (ds : DistState), isFinite (fadd k.gg k.gR2) = true → isFinite k.gg = true →
    isFinite k.gh = true → ds.gs1[c] = 0 → ds.gs2[c] = 0 → ghost k c 0 ds = (0, ds))

/-- R209: an empty block runs the checks, the snapshot and the derivations, touches no sample and no engine word but the
ghost phase, and advances that by +0. -/
def Obligations.EmptyDistortionBlock : Prop :=
  ∀ s : State, s.ds.configured = true → s.regs.dType.toNat < 5 → rateOk s.ds.fs = true → phaseOk s.ds.gphase = true →
    ∃ t, exec (.procD s.ds.nch 0) s = .next t ∧ t.mem = s.mem ∧ t.trap = s.trap ∧ t.pd = snapshotD s.regs ∧
      t.dk.alpha = fmul s.regs.dTone 0x3F7D70A4 ∧ t.ds = { s.ds with gphase := t.ds.gphase } ∧
      feq t.ds.gphase s.ds.gphase = true

/-- R210: the document's two end-to-end scenarios, from an engine just configured with one channel. -/
def Obligations.DocumentScenarios : Prop :=
  ∀ (s : State) (fs : F32) (maxblk : Nat), 1 ≤ maxblk → s.ds = configuredDist fs 1 maxblk →
    s.regs.dGhost.getLsbD 0 = false → s.regs.dDrive = 0x3F800000 → s.regs.dOutput = 0x3F800000 → s.regs.dTone = 0 →
    s.regs.dMix = 0x3F800000 → s.regs.dDestroy = 0 →
    (s.regs.dType = 1 → memWord s.mem 0x10000 = 0x3FC00000 →
      ∃ t, exec (.procD 1 1) s = .next t ∧ memWord t.mem 0x10000 = 0x3F800000 ∧ t.ds.toneY1[0] = 0x3F800000 ∧
        DistBlockFrame 1 1 s t) ∧
    (s.regs.dType = 0 → memWord s.mem 0x10000 = 0 →
      ∃ t, exec (.procD 1 1) s = .next t ∧ memWord t.mem 0x10000 = 0 ∧ t.ds.toneY1[0] = 0 ∧ DistBlockFrame 1 1 s t)

/-! ### The distortion engine's stages (40_waveshaper_lut.md, 41_one_pole_lowpass.md, 43_destroy_stage.md) -/

/-- R120, R121, R123, R126, R129: the Soft, Tube and Sine selectors rewrite the sample in flight (log 6) and nothing else, by
their formulas, with a result between -1 and 1; a NaN stays a NaN, and a Sine operand whose product with pi/2 is not finite gives one
(log 32). -/
def Obligations.SmoothShapersAreBounded : Prop :=
  ∀ s : State,
    (∃ y, exec .wsSoft s = .next { s with x := y } ∧ y = tanh s.x ∧ (isNaN s.x = true → isNaN y = true) ∧
      (isNaN s.x = false → inSym y = true)) ∧
    (∃ y, exec .wsTube s = .next { s with x := y } ∧ (fle 0 s.x = true → y = fsub 0x3F800000 (expn (fneg s.x))) ∧
      (flt s.x 0 = true → y = fadd 0xBF800000 (expn s.x)) ∧ (isNaN s.x = true → y = s.x) ∧
      (isNaN s.x = false → inSym y = true)) ∧
    (∃ y, exec .wsSine s = .next { s with x := y } ∧ y = sin (fmul s.x 0x3FC90FDB) ∧
      (isFinite (fmul s.x 0x3FC90FDB) = false → isNaN y = true) ∧
      (isFinite (fmul s.x 0x3FC90FDB) = true → inSym y = true))

/-- R130: Soft, Hard, Sine, Tube and Foldback are odd functions, as numbers: a result is a NaN for `x` exactly when it is
one for `-x`, a fold diverges for `x` exactly when it does for `-x`, and otherwise the results are negatives of each other. -/
def Obligations.WaveshapersAreOdd : Prop :=
  (∀ f ∈ [wsSoft, wsHard, wsTube, wsSine], ∀ x : F32, isNaN x = false →
    isNaN (f (fneg x)) = isNaN (f x) ∧ (isNaN (f x) = false → feq (f (fneg x)) (fneg (f x)) = true)) ∧
  (∀ x : F32, isNaN x = false →
    (wsFold x = none → wsFold (fneg x) = none) ∧
    (∀ y, wsFold x = some y → ∃ z, wsFold (fneg x) = some z ∧ feq z (fneg y) = true))

/-- R122: the Hard selector clamps the sample in flight (log 6) to [-1, 1], exactly, gives the infinities 1 and -1, and
passes a NaN and everything in range, -0 included, bit for bit. -/
def Obligations.HardClipClamps : Prop :=
  ∀ s : State, ∃ y, exec .wsHard s = .next { s with x := y } ∧
    (isNaN s.x = true → y = s.x) ∧ (s.x = 0x7F800000 → y = 0x3F800000) ∧ (s.x = 0xFF800000 → y = 0xBF800000) ∧
    (isFinite s.x = true → (1 < val s.x → y = 0x3F800000) ∧ (val s.x < -1 → y = 0xBF800000) ∧
      (-1 ≤ val s.x → val s.x ≤ 1 → y = s.x))

/-- R124, R125, R129: for a sample of magnitude at most 64.5 the Foldback selector completes, and its result is the closed
form of R124 at the threshold 0.5, so it lies in [-0.5, 0.5]; a NaN is returned as it is. (The sample in flight is the
model's field: log 6.) -/
def Obligations.FoldbackMatchesClosedForm : Prop :=
  (∀ s : State, isFinite s.x = true → |val s.x| ≤ 64.5 →
    ∃ y, exec .wsFold s = .next { s with x := y } ∧ isFinite y = true ∧
      val y = |2 * Int.fract ((val s.x - 0.5) / 2) - 1| - 0.5 ∧ |val y| ≤ 0.5) ∧
  (∀ s : State, isNaN s.x = true → exec .wsFold s = .next s)

/-- R124, R323: beyond 64.5 in magnitude, infinities included, the fold would need more than 64 reflections and raises
`FOLD_DIVERGE`; registers, the reverb engine and the fault's first cause stay (log 6, log 15). The premise on the block size
is part of the machine invariant, `Inv.distMaxblk`: every reachable state meets it. -/
def Obligations.FoldbackDivergesBeyondItsReach : Prop :=
  ∀ s : State, s.ds.maxblk ≤ 8192 → (isInf s.x = true ∨ isFinite s.x = true ∧ 64.5 < |val s.x|) →
    ∃ t, exec .wsFold s = .next t ∧ t.trap = some (s.trap.getD .foldDiverge) ∧ t.regs = s.regs ∧ RevKept s t ∧
      t.x = s.x ∧ t.host = s.host ∧ t.ds.configured = s.ds.configured

/-- R95 to R97, R127, R234: inside a block the selector in `D_TYPE` or `R_TYPE` acts as its own row of the opcode table
does: the transfer function applied by `CHAIN` is the one the decoded instruction computes, and the mapper words of `RK.ra`
after `PROC.R` are the ones the decoded instruction writes. (That the rows can also be run by themselves is the model's:
log 6.) -/
def Obligations.SelectorsRunInsideProcessing : Prop :=
  (∀ (w : Word) (sel : Instr), decodeDType w = .ok sel → ∀ s : State,
    (∀ y, ws sel s.x = some y → exec sel s = .next { s with x := y }) ∧
    (ws sel s.x = none → ∃ t, exec sel s = .next t ∧ t.trap = some (s.trap.getD .foldDiverge))) ∧
  (∀ (nch n : Nat) (s t u : State) (sel : Instr), s.trap = none → exec (.procR nch n) s = .next t → t.trap = none →
    decodeRType s.regs.rType = .ok sel → exec sel { s with pr := snapshotR s.regs } = .next u →
    t.rk.ra.roomSize = u.rk.ra.roomSize ∧ t.rk.ra.damping = u.rk.ra.damping ∧ t.rk.ra.width = u.rk.ra.width)

/-- R140: one sample of the stage, for every coefficient: the output, which is also the channel's new state word, and nothing
else changes. R143: with `tone = 0` the stage passes its input as a number for every finite state; a -0 input with a +0 product gives
+0; a state that is an infinity or a NaN gives a NaN. -/
def Obligations.ToneAtZeroPassesInput : Prop :=
  (∀ (k : DistConsts) (c : Channel) (x : F32) (ds : DistState),
    tone k c x ds =
      (fadd (fmul k.beta x) (fmul k.alpha ds.toneY1[c]),
        { ds with toneY1 := ds.toneY1.set c (fadd (fmul k.beta x) (fmul k.alpha ds.toneY1[c])) })) ∧
  ∀ (k : DistConsts) (c : Channel) (x : F32) (ds : DistState),
    (deriveTone 0 k).alpha = 0 ∧ (deriveTone 0 k).beta = 0x3F800000 ∧
    (isFinite ds.toneY1[c] = true → isNaN x = false → feq (tone (deriveTone 0 k) c x ds).1 x = true) ∧
    (isFinite ds.toneY1[c] = true → isNaN x = true → isNaN (tone (deriveTone 0 k) c x ds).1 = true) ∧
    (isFinite ds.toneY1[c] = true → signBit ds.toneY1[c] = false → x = 0x80000000 →
      (tone (deriveTone 0 k) c x ds).1 = 0) ∧
    (isFinite ds.toneY1[c] = false → isNaN (tone (deriveTone 0 k) c x ds).1 = true)

/-- R171: with an amount of 0 or less the stage returns its operand bit for bit and does not touch the taps; with a NaN
amount it gives a NaN, and its taps step as the active path steps them (with constants of an earlier block: log 14). -/
def Obligations.DestroyPassthrough : Prop :=
  (∀ (k : DistConsts) (c : Channel) (x : F32) (ds : DistState), fle k.amount 0 = true → destroy k c x ds = some (x, ds)) ∧
  (∀ (p : SnapD) (len : Nat) (ds0 : DistState) (k0 : DistConsts) (c : Channel) (x : F32) (ds : DistState),
    isNaN p.destroy = true →
    ∃ y z ds', destroy (deriveDist p len ds0 k0) c x ds = some (y, ds') ∧ isNaN y = true ∧
      destroyActive (deriveDist p len ds0 k0) c x ds = some (z, ds'))

/-- R172, R173, R175, with R150 and R124: the active path line by line, in its order and with its constants; it never
diverges, because the fold at 0.6 of a sine needs one reflection at most; its result is a NaN or between -1 and 1; and it
steps the four taps of its own channel as the section does, and nothing else of the engine. -/
def Obligations.DestroyActiveIsBounded : Prop :=
  ∀ (k : DistConsts) (c : Channel) (x : F32) (ds : DistState) (g low b r f o y : F32),
    g = fmul x k.kIn → low = fmul (tanh (fmul g 0x3F4CCCCD)) k.kLow → b = (bq ds.dtap[c] k.dcoef g).1 →
    r = sin (fmul (tanh (fmul (fmul (fmul b k.kRes) k.kPre) 0x40200000)) 0x3FC90FDB) →
    f = (if flt 0x3F19999A r then fsub 0x3F99999A r else if flt r 0xBF19999A then fsub 0xBF99999A r else r) →
    o = tanh (fmul (fmul (fadd (fmul low k.kMixlow) (fmul f k.kMixres)) k.kSat) 0x40000000) →
    y = tanh (fmul o k.kResc) →
    destroyActive k c x ds = some (y, { ds with dtap := ds.dtap.set c ⟨g, ds.dtap[c].x1, b, ds.dtap[c].y1⟩ }) ∧
    (isNaN y = true ∨ inSym y = true)

/-! ### Second-order sections and the mapper (42_biquad_iir_cascade.md, 46_parameter_mapper.md) -/

/-- R150, R151, R283 steps 3 and 8, D43: one step of a section, the sum in its order and the taps moved along; the cascade,
LowCut then HighCut on its output, each with its own coefficients and its own channel's taps; and the block: for each
channel by itself `PROC.R` runs the cascade over that channel's samples in order, leaves the taps that run leaves, and puts
`dry * (1 - mix) + wet * mix` in `BUF_R`, where dry is the filtered sample and wet the word of `WET_R` as the block leaves
it. -/
def Obligations.CutsFilterTheDryBlock : Prop :=
  (∀ (t : Taps) (k : Coefs) (x : F32),
    (bq t k x).1 =
      fsub (fsub (fadd (fadd (fmul k.b0 x) (fmul k.b1 t.x1)) (fmul k.b2 t.x2)) (fmul k.a1 t.y1)) (fmul k.a2 t.y2) ∧
    (bq t k x).2 = ⟨x, t.x1, (bq t k x).1, t.y1⟩) ∧
  (∀ (k : RevConsts) (c : Channel) (x : F32) (rs : RevState),
    (cuts k c x rs).1 = (bq rs.hc[c] k.hccoef (bq rs.lc[c] k.lccoef x).1).1 ∧
    (cuts k c x rs).2 =
      { rs with
        lc := rs.lc.set c (bq rs.lc[c] k.lccoef x).2
        hc := rs.hc.set c (bq rs.hc[c] k.hccoef (bq rs.lc[c] k.lccoef x).1).2 }) ∧
  (∀ (nch n : Nat) (s t : State), s.trap = none → s.rs.maxblk ≤ 8192 → exec (.procR nch n) s = .next t → t.trap = none →
    ∀ c : Channel, c.val < nch →
      channelWords bufRAddr c n t.mem =
        List.zipWith (mixSample s.regs.rMix) (cutsRun t.rk c (channelWords bufRAddr c n s.mem) s.rs).1
          (channelWords wetAddr c n t.wet) ∧
      t.rs.lc[c] = (cutsRun t.rk c (channelWords bufRAddr c n s.mem) s.rs).2.lc[c] ∧
      t.rs.hc[c] = (cutsRun t.rk c (channelWords bufRAddr c n s.mem) s.rs).2.hc[c])

/-- R155: from taps that are zeros, a zero input to a section with finite coefficients gives a zero and leaves taps that are
zeros; and the first output for an input is `b0 * x` as a number. -/
def Obligations.SectionsKeepSilence : Prop :=
  ∀ (k : Coefs), isFinite k.b0 = true → isFinite k.b1 = true → isFinite k.b2 = true → isFinite k.a1 = true →
    isFinite k.a2 = true → ∀ (t : Taps), isZero t.x1 = true → isZero t.x2 = true → isZero t.y1 = true → isZero t.y2 = true →
    (∀ x : F32, isZero x = true → isZero (bq t k x).1 = true ∧ isZero (bq t k x).2.x1 = true ∧
      isZero (bq t k x).2.x2 = true ∧ isZero (bq t k x).2.y1 = true ∧ isZero (bq t k x).2.y2 = true) ∧
    (∀ x : F32, isNaN (fmul k.b0 x) = false → feq (bq t k x).1 (fmul k.b0 x) = true)

/-- R234: the five rows of the ReverbTypeMapper as instructions: `roomSize`, `damping` and `width` are written from the
snapshot's size and damping and the row, and nothing else changes; the three open rows are finite words (log 19); for Room
and Hall, inputs in [0, 1] give outputs in [0, 1]; a selector of 5 or more reaches no row. -/
def Obligations.MapRowsScaleSizeAndDamping : Prop :=
  (∀ s : State,
    exec .mapRoom s = .next { s with rk := { s.rk with ra := { s.rk.ra with
      roomSize := fmul s.pr.size 0x3ECCCCCD, damping := fmul s.pr.damping 0x3F666666, width := 0x3F000000 } } } ∧
    exec .mapHall s = .next { s with rk := { s.rk with ra := { s.rk.ra with
      roomSize := fmul s.pr.size 0x3F800000, damping := fmul s.pr.damping 0x3E4CCCCD, width := 0x3F800000 } } } ∧
    exec .mapPlate s = .next { s with rk := { s.rk with ra := { s.rk.ra with
      roomSize := fmul s.pr.size rowPlate.size, damping := fmul s.pr.damping rowPlate.damping, width := rowPlate.width } } } ∧
    exec .mapSpring s = .next { s with rk := { s.rk with ra := { s.rk.ra with
      roomSize := fmul s.pr.size rowSpring.size, damping := fmul s.pr.damping rowSpring.damping,
      width := rowSpring.width } } } ∧
    exec .mapShimmer s = .next { s with rk := { s.rk with ra := { s.rk.ra with
      roomSize := fmul s.pr.size rowShimmer.size, damping := fmul s.pr.damping rowShimmer.damping,
      width := rowShimmer.width } } }) ∧
  (∀ r ∈ [rowPlate, rowSpring, rowShimmer], isFinite r.size = true ∧ isFinite r.damping = true ∧ isFinite r.width = true) ∧
  (∀ r ∈ [rowRoom, rowHall], ∀ size damping ra, inUnit size = true → inUnit damping = true →
    inUnit (mapRowInto r size damping ra).roomSize = true ∧ inUnit (mapRowInto r size damping ra).damping = true ∧
    inUnit (mapRowInto r size damping ra).width = true) ∧
  (∀ w : Word, 5 ≤ w.toNat → ∃ e, decodeRType w = .error e)

/-- R229: the five coefficients of a low-pass, a high-pass and a band-pass section from their frequency, resonance and sample
rate, all divided by one `a0`. R237: with a legal sample rate, a cutoff of 20 to 20000 Hz and the `CUT_Q` of R230 and R231,
that divisor is at least 1, whatever the sine table holds within R13 (log 11). -/
def Obligations.NormaliserIsAtLeastOne : Prop :=
  ∀ f0 q fs w0 cw al a0 : F32, w0 = fdiv (fmul 0x40C90FDB f0) fs → cw = cos w0 →
    al = fdiv (sin w0) (fmul 0x40000000 q) → a0 = fadd 0x3F800000 al →
    bqCoef .lp f0 q fs =
      { b0 := fdiv (fmul (fsub 0x3F800000 cw) 0x3F000000) a0, b1 := fdiv (fsub 0x3F800000 cw) a0,
        b2 := fdiv (fmul (fsub 0x3F800000 cw) 0x3F000000) a0,
        a1 := fdiv (fmul 0xC0000000 cw) a0, a2 := fdiv (fsub 0x3F800000 al) a0 } ∧
    bqCoef .hp f0 q fs =
      { b0 := fdiv (fmul (fadd 0x3F800000 cw) 0x3F000000) a0, b1 := fdiv (fneg (fadd 0x3F800000 cw)) a0,
        b2 := fdiv (fmul (fadd 0x3F800000 cw) 0x3F000000) a0,
        a1 := fdiv (fmul 0xC0000000 cw) a0, a2 := fdiv (fsub 0x3F800000 al) a0 } ∧
    bqCoef .bp f0 q fs =
      { b0 := fdiv al a0, b1 := fdiv 0 a0, b2 := fdiv (fneg al) a0,
        a1 := fdiv (fmul 0xC0000000 cw) a0, a2 := fdiv (fsub 0x3F800000 al) a0 } ∧
    (q = 0x3F3504F3 → rateOk fs = true → inRange 0x41A00000 0x469C4000 f0 = true → fle 0x3F800000 a0 = true)

/-- R232, R256, R322: the predelay is on exactly for a value above 0; then its length is the floor of milliseconds times rate
over 1000, below the capacity, or `BAD_DELAY` when that is not below it; off, the length is 0. -/
def Obligations.PredelayLengthIsFloored : Prop :=
  ∀ pre fs : F32, rateOk fs = true →
    (fgt pre 0 = false → predelayOf pre fs = some (false, 0)) ∧
    (fgt pre 0 = true → flt (fdiv (fmul pre fs) 0x447A0000) 0x49000000 = false → predelayOf pre fs = none) ∧
    (fgt pre 0 = true → flt (fdiv (fmul pre fs) 0x447A0000) 0x49000000 = true →
      ∃ d : Nat, predelayOf pre fs = some (true, d) ∧ d < 524288 ∧ (d : ℤ) = ⌊val (fdiv (fmul pre fs) 0x447A0000)⌋)

/-! ### PROC.R (47_circular_delay_buffer.md, 48_nco_modulation_lut.md, 49_reverb_pipeline_and_system.md) -/

/-- R281, R312, R313, R315, R322: the checks of `PROC.R` in their order, each before any change; when they all hold no fault
is raised. -/
def Obligations.ProcRChecksInOrder : Prop :=
  ∀ (nch n : Nat) (s : State),
    if s.rs.configured = false then exec (.procR nch n) s = .next (raiseFault .notConfigured s)
    else if nch ≠ s.rs.nch ∨ s.rs.maxblk < n then exec (.procR nch n) s = .next (raiseFault .badBlock s)
    else if 5 ≤ s.regs.rType.toNat then exec (.procR nch n) s = .next (raiseFault .badType s)
    else if fgt s.regs.rPredelay 0 = true ∧
        flt (fdiv (fmul s.regs.rPredelay s.rs.fs) 0x447A0000) 0x49000000 = false then
      exec (.procR nch n) s = .next (raiseFault .badDelay s)
    else ∃ t, exec (.procR nch n) s = .next t ∧ t.trap = s.trap

/-- R230 to R232, R235, R282, R283, R284: a `PROC.R` that passes its checks completes, takes the snapshot register by
register, rewrites `RK` (the two cut sections, the predelay switch and length, wet level the mix, dry level one minus the
mix, freeze +0.0; the mapper's three words are stated by `SelectorsRunInsideProcessing`) and the `RA_*` registers, and leaves
alone all that it does not own, what belongs to channels that are not live (R21) among it. -/
def Obligations.ProcRCompletes : Prop :=
  ∀ (nch n : Nat) (s : State), s.rs.configured = true → nch = s.rs.nch → n ≤ s.rs.maxblk → s.regs.rType.toNat < 5 →
    (fgt s.regs.rPredelay 0 = true → flt (fdiv (fmul s.regs.rPredelay s.rs.fs) 0x447A0000) 0x49000000 = true) →
    ∃ t, exec (.procR nch n) s = .next t ∧ RevBlockFrame nch n s t ∧
      t.pr = { size := s.regs.rSize, damping := s.regs.rDamping, type := s.regs.rType, predelay := s.regs.rPredelay,
               mix := s.regs.rMix, mod := s.regs.rMod, lowcut := s.regs.rLowcut, highcut := s.regs.rHighcut } ∧
      t.rk.lccoef = bqCoef .hp s.regs.rLowcut 0x3F3504F3 s.rs.fs ∧
      t.rk.hccoef = bqCoef .lp s.regs.rHighcut 0x3F3504F3 s.rs.fs ∧
      predelayOf s.regs.rPredelay s.rs.fs = some (t.rk.dlyOn, t.rk.dlyD) ∧
      t.rk.ra.wetLevel = s.regs.rMix ∧ t.rk.ra.dryLevel = fsub 0x3F800000 s.regs.rMix ∧ t.rk.ra.freeze = 0 ∧
      t.regs.ra = t.rk.ra

/-- R255, R269, with R251, R268, R283 steps 4 to 7, R286: with the predelay off, `DLY` and the cursors stay; with the
modulation off, the pass leaves the wet buffer and the phase; with either on, each cursor of a live channel moves by the
block length modulo the capacity, and the phase moves once per frame. And the wet path: the block handed to the external
algorithm is, channel by channel, the filtered block, through `POP` with the block's delay when the predelay is on, which
leaves that channel's words of `DLY` as those calls do; `WET_R` ends as the algorithm's answer, times the frame's gain when
the modulation is on; and `RS.rvb` is the algorithm's new state. The premise on the cursors is part of the machine
invariant, `Inv.cursor`. -/
def Obligations.ProcRBypassesKeepState : Prop :=
  (∀ (nch n : Nat) (s t : State), s.trap = none → exec (.procR nch n) s = .next t → t.trap = none →
    (fgt s.regs.rPredelay 0 = false → t.dly = s.dly ∧ t.rs.wcur = s.rs.wcur) ∧
    (fgt s.regs.rPredelay 0 = true → ∀ c : Channel, s.rs.wcur[c] < 524288 →
      t.rs.wcur[c] = if c.val < nch then (s.rs.wcur[c] + n) % 524288 else s.rs.wcur[c]) ∧
    (fgt s.regs.rMod 0 = false → t.rs.mphase = s.rs.mphase) ∧
    (∀ u : State, fgt u.pr.mod 0 = false → modulationPass nch n u = u) ∧
    (fgt s.regs.rMod 0 = true → t.rs.mphase = phaseAfter s.rs.inc n s.rs.mphase)) ∧
  (∀ (nch n : Nat) (s t : State), s.trap = none → s.rs.maxblk ≤ 8192 → (∀ c : Channel, s.rs.wcur[c] < 524288) →
    exec (.procR nch n) s = .next t → t.trap = none →
    ∀ (calls : Channel → List (Nat × F32)) (wet : List F32),
      (∀ c, calls c = blockCalls t.rk.dlyD (cutsRun t.rk c (channelWords bufRAddr c n s.mem) s.rs).1) →
      wet = (channels nch).flatMap (fun c =>
        if fgt s.regs.rPredelay 0 = true then popRun c (calls c) (s.rs, s.dly) else (calls c).map Prod.snd) →
      t.rs.rvb = reverbRunState t.rk.ra nch n wet s.rs.rvb ∧
      ∀ c : Channel, c.val < nch →
        channelWords wetAddr c n t.wet = (List.range n).map (fun k =>
          if fgt s.regs.rMod 0 = true then
            fmul (reverbRunWet t.rk.ra nch n wet s.rs.rvb c.val k)
              (modGain (phaseAfter s.rs.inc k s.rs.mphase) s.regs.rMod)
          else reverbRunWet t.rk.ra nch n wet s.rs.rvb c.val k) ∧
        (fgt s.regs.rPredelay 0 = true → ∀ i, i < 524288 →
          memWord t.dly (dlyAddr c i) = memWord (popCalls c (calls c) (s.rs, s.dly)).2.2 (dlyAddr c i)))

/-- R251, R252, R254: one `POP`: the operand is written at the cursor, the word `dly_d` behind it is returned, the cursor
advances modulo the capacity, and nothing else of the engine or the memory changes; with a delay of 0 the operand comes
back bit for bit. -/
def Obligations.PopWritesThenReads : Prop :=
  ∀ (d : Nat) (c : Channel) (x : F32) (rs : RevState) (m : Memory), rs.wcur[c] < 524288 → d < 524288 →
    ∃ m', (pop d c x (rs, m)).2 = ({ rs with wcur := rs.wcur.set c ((rs.wcur[c] + 1) % 524288) }, m') ∧
      memWord m' (dlyAddr c rs.wcur[c]) = x ∧
      (∀ b, b < dlyAddr c rs.wcur[c] ∨ dlyAddr c rs.wcur[c] + 4 ≤ b → memByte m' b = memByte m b) ∧
      (pop d c x (rs, m)).1 = memWord m' (dlyAddr c ((rs.wcur[c] + 524288 - d) % 524288)) ∧
      (d = 0 → (pop d c x (rs, m)).1 = x)

/-- R257: the delay law. From a cleared channel memory, the output of the `k`-th call with delay `d` is the input of call
`k - d`, and +0.0 when there is none, for any number of calls and for delays that change from call to call. -/
def Obligations.DelayLineDelays : Prop :=
  ∀ (c : Channel) (calls : List (Nat × F32)) (rs : RevState) (m : Memory), rs.wcur[c] < 524288 →
    (∀ i, i < 524288 → memWord m (dlyAddr c i) = 0) → (∀ p ∈ calls, p.1 < 524288) →
    (popRun c calls (rs, m)).length = calls.length ∧
    ∀ (k : Nat) (p : Nat × F32), calls[k]? = some p →
      (popRun c calls (rs, m))[k]? = some (if p.1 ≤ k then ((calls[k - p.1]?).map Prod.snd).getD 0 else 0)

/-- R291: an empty `PROC.R` rewrites the `RA_*` registers and calls the external algorithm with an empty block; no sample,
no cursor and no phase changes. -/
def Obligations.EmptyReverbBlock : Prop :=
  ∀ s : State, s.rs.configured = true → s.regs.rType.toNat < 5 →
    (fgt s.regs.rPredelay 0 = true → flt (fdiv (fmul s.regs.rPredelay s.rs.fs) 0x447A0000) 0x49000000 = true) →
    ∃ t, exec (.procR s.rs.nch 0) s = .next t ∧ t.mem = s.mem ∧ t.wet = s.wet ∧ t.dly = s.dly ∧ t.regs.ra = t.rk.ra ∧
      t.rk.ra.wetLevel = s.regs.rMix ∧
      t.rs = { s.rs with rvb := reverbRunState t.rk.ra s.rs.nch 0 [] s.rs.rvb }

/-- R283 step 8, R285: every output sample of a block is `dry * (1 - mix) + wet * mix` of the words the mix finds; with mix
+0.0 that is the filtered sample as a number when the wet one is finite, and with mix 1.0 the wet sample when the filtered
one is finite. -/
def Obligations.ReverbMixLaws : Prop :=
  (∀ (nch n : Nat) (u : State) (c : Channel) (k : Nat), c.val < nch → k < n → n ≤ 8192 →
    memWord (mixPass nch n u).mem (bufRAddr c k) =
      fadd (fmul (memWord u.mem (bufRAddr c k)) (fsub 0x3F800000 u.pr.mix))
        (fmul (memWord u.wet (wetAddr c k)) u.pr.mix)) ∧
  (∀ dry wet : F32, isNaN dry = false → isFinite wet = true → feq (mixSample 0 dry wet) dry = true) ∧
  (∀ dry wet : F32, isFinite dry = true → isNaN wet = false → feq (mixSample 0x3F800000 dry wet) wet = true)

/-- R266: for a finite value of 0 or more the wrap is exact, it is the fractional part, and it lies in [0, 1). -/
def Obligations.PhaseWrapIsExact : Prop :=
  ∀ v : F32, isFinite v = true → fle 0 v = true →
    isFinite (wrap01 v) = true ∧ val (wrap01 v) = Int.fract (val (flush v)) ∧ phaseOk (wrap01 v) = true

/-- R267: the gain of a frame, in its order of roundings; for a phase in [0, 1) and a depth in [0, 1] it lies between
0x3F7F7CEE and 0x3F804189, whatever the table holds within R13 (log 11); at phase +0 it is exactly 1. -/
def Obligations.ModulationGainIsBounded : Prop :=
  (∀ phase mod : F32, modGain phase mod = fadd 0x3F800000 (fmul (fmul (ncoSin phase) mod) 0x3B03126F)) ∧
  ∀ phase mod : F32, inUnit mod = true →
    (phaseOk phase = true → inRange 0x3F7F7CEE 0x3F804189 (modGain phase mod) = true) ∧ modGain 0 mod = 0x3F800000

/-! ### Arithmetic (00_scope.md) -/

/-- R11: on finite operands the four operations are correctly rounded, to nearest with ties to even, with subnormal operands
taken as zeros and subnormal results flushed, and an exact zero has the sign IEEE 754 gives it; a NaN operand gives a NaN;
and the IEEE 754 rules for an infinite operand and for a division by zero. -/
def Obligations.ArithmeticIsCorrectlyRounded : Prop :=
  (∀ a b : F32, isFinite a = true → isFinite b = true →
    RoundsTo (val (flush a) + val (flush b)) (fadd a b) ∧ RoundsTo (val (flush a) - val (flush b)) (fsub a b) ∧
    RoundsTo (val (flush a) * val (flush b)) (fmul a b) ∧
    (val (flush b) ≠ 0 → RoundsTo (val (flush a) / val (flush b)) (fdiv a b)) ∧
    (val (flush a) + val (flush b) = 0 → fadd a b = signedZero (signBit a && signBit b)) ∧
    (val (flush a) - val (flush b) = 0 → fsub a b = signedZero (signBit a && !signBit b)) ∧
    signBit (fmul a b) = (signBit a != signBit b) ∧
    (val (flush b) ≠ 0 → signBit (fdiv a b) = (signBit a != signBit b)) ∧
    (val (flush b) = 0 →
      if val (flush a) = 0 then isNaN (fdiv a b) = true else fdiv a b = signedInf (signBit a != signBit b))) ∧
  (∀ a b : F32, (isNaN a = true ∨ isNaN b = true) →
    isNaN (fadd a b) = true ∧ isNaN (fsub a b) = true ∧ isNaN (fmul a b) = true ∧ isNaN (fdiv a b) = true) ∧
  (∀ a b : F32, isInf a = true → isFinite b = true →
    fadd a b = a ∧ fadd b a = a ∧ fsub a b = a ∧ fsub b a = fneg a ∧
    fdiv a b = signedInf (signBit a != signBit b) ∧ fdiv b a = signedZero (signBit a != signBit b) ∧
    (val (flush b) = 0 → isNaN (fmul a b) = true ∧ isNaN (fmul b a) = true) ∧
    (val (flush b) ≠ 0 →
      fmul a b = signedInf (signBit a != signBit b) ∧ fmul b a = signedInf (signBit a != signBit b))) ∧
  (∀ a b : F32, isInf a = true → isInf b = true →
    isNaN (fdiv a b) = true ∧ fmul a b = signedInf (signBit a != signBit b) ∧
    (signBit a = signBit b → fadd a b = a ∧ isNaN (fsub a b) = true) ∧
    (signBit a ≠ signBit b → isNaN (fadd a b) = true ∧ fsub a b = a))

/-! ### Invariants and isolation -/

/-- The invariants hold after the hardware reset (10_state.md R42). -/
def Obligations.ResetMeetsTheInvariants : Prop :=
  Inv State.reset ∧ RevPhaseInv State.reset ∧ GhostPhaseInv State.reset

/-- Every step of every run keeps the machine invariant: memories in canonical form and inside their windows, the block idle
between actions, sizes, cursors and the delay in range, the `RA_*` mirror with `RA_FREEZE` at +0.0, a configured engine's
configuration legal (10_state.md R23, R26, R30, R38, 47_circular_delay_buffer.md R252, R256). -/
def Obligations.StepKeepsTheMachineInvariant : Prop :=
  ∀ s t : State, Inv s → step s = .next t → Inv t

/-- R25, R268: every step keeps the reverb phase in [0, 1), with the step of the phase finite and not negative. R25, R190:
every step keeps the ghost phase in [0, 1), as long as no fault is recorded, for every rate that R190 admits; where such a
rate makes the step an infinity, that the phase is still in [0, 1) is R25 as the model reads it (log 19). -/
def Obligations.StepKeepsTheReverbPhase : Prop :=
  (∀ s t : State, RevPhaseInv s → step s = .next t → RevPhaseInv t) ∧
  (∀ s t : State, GhostPhaseInv s → step s = .next t → GhostPhaseInv t)

/-- R2, R65: the engines are independent. What a distortion command does to the distortion engine's share of the state
depends on that share alone, and it changes nothing of the reverb engine's; and the other way round. -/
def Obligations.EnginesAreIndependent : Prop :=
  (∀ (i : Instr) (s s' t t' : State), (∃ nch n, i = .cfgD nch n ∨ i = .procD nch n) → s.ds.maxblk ≤ 8192 →
    DistAgree s s' → exec i s = .next t → exec i s' = .next t' → DistAgree t t' ∧ RevKept s t) ∧
  (∀ (i : Instr) (s s' t t' : State), (∃ nch n, i = .cfgR nch n ∨ i = .procR nch n) → s.rs.maxblk ≤ 8192 →
    RevAgree s s' → exec i s = .next t → exec i s' = .next t' → RevAgree t t' ∧ DistKept s t)

/-- R34, R35, R38, R65: no command writes a parameter register or a sample rate register, only `PROC.R` writes the `RA_*`
registers, and a command that records no fault records none away: the cause stays. -/
def Obligations.CommandsNeverWriteParameters : Prop :=
  ∀ (i : Instr) (s t : State), exec i s = .next t →
    t.regs = { s.regs with ra := t.regs.ra } ∧ ((∀ nch n, i ≠ .procR nch n) → t.regs = s.regs) ∧
    (∀ c, s.trap = some c → t.trap = some c) ∧ t.host = s.host ∧ t.rdata = s.rdata
end

