-- ==== Sys2Proof/Laws/Memory.lean ====
section
/-! SUPPORT. What the memory operations and the sweeps do, said once: reading after a write, what a write leaves alone,
the canonical form, and the bytes a sweep can touch. -/

namespace Sys2Proof.Machine

/-! ### Cells -/

theorem findCell_insertCell (l : List Host.Cell) (a b : Nat) (v : Byte) :
    findCell (insertCell a v l) b = if a = b then some v else findCell l b := by
  induction l with
  | nil => simp [insertCell, findCell]
  | cons h t ih =>
    obtain ⟨k, w⟩ := h
    simp only [insertCell]
    split_ifs with h1 h2 h3 h4 h5 <;> simp_all [findCell] <;> omega

theorem findCell_eraseCell (l : List Host.Cell) (a b : Nat) :
    findCell (eraseCell a l) b = if a = b then none else findCell l b := by
  induction l with
  | nil => simp [eraseCell, findCell]
  | cons h t ih =>
    obtain ⟨k, w⟩ := h
    simp only [eraseCell, List.filter_cons] at ih ⊢
    by_cases hk : k = a
    · subst hk; simp only [ne_eq, not_true_eq_false, decide_false, Bool.false_eq_true, if_false, ih, findCell]
      split_ifs <;> rfl
    · simp only [ne_eq, hk, not_false_eq_true, decide_true, if_true, findCell, ih]
      split_ifs with h1 h2 <;> simp_all

/-- A byte read after a byte write: the byte written at its address, the old byte everywhere else. -/
theorem memByte_setByte (m : Memory) (a b : Nat) (v : Byte) :
    memByte (setByte m a v) b = if a = b then v else memByte m b := by
  unfold setByte memByte
  split
  · rename_i h
    simp only [findCell_eraseCell]
    split_ifs <;> simp_all [fillByte]
  · simp only [findCell_insertCell]
    split_ifs <;> simp_all

@[simp] theorem memByte_setByte_same (m : Memory) (a : Nat) (v : Byte) : memByte (setByte m a v) a = v := by
  simp [memByte_setByte]

theorem memByte_setByte_of_ne (m : Memory) {a b : Nat} (v : Byte) (h : a ≠ b) :
    memByte (setByte m a v) b = memByte m b := by simp [memByte_setByte, h]

/-- A byte read after a word write: byte `k` of the word at `a + k`, the old byte outside `a` to `a + 3`. -/
theorem memByte_setWord (m : Memory) (a b : Nat) (w : Word) :
    memByte (setWord m a w) b =
      if b = a then w.extractLsb' 0 8 else if b = a + 1 then w.extractLsb' 8 8
      else if b = a + 2 then w.extractLsb' 16 8 else if b = a + 3 then w.extractLsb' 24 8 else memByte m b := by
  unfold setWord
  simp only [memByte_setByte]
  split_ifs <;> first | rfl | omega

theorem memByte_setWord_of_outside (m : Memory) {a b : Nat} (w : Word) (h : b < a ∨ a + 4 ≤ b) :
    memByte (setWord m a w) b = memByte m b := by
  rw [memByte_setWord]; split_ifs <;> first | rfl | omega

theorem append_extractLsb_bytes (w : Word) :
    ((w.extractLsb' 24 8 ++ w.extractLsb' 16 8) ++ (w.extractLsb' 8 8 ++ w.extractLsb' 0 8) : BitVec 32) = w := by
  apply BitVec.eq_of_getLsbD_eq
  intro i hi
  simp only [BitVec.getLsbD_append, BitVec.getLsbD_extractLsb']
  rcases Nat.lt_or_ge i 8 with h | h
  · simp [h, show i < 16 by omega]
  rcases Nat.lt_or_ge i 16 with h2 | h2
  · simp [show ¬ i < 8 by omega, h2, show i - 8 < 8 by omega, show 8 + (i - 8) = i by omega]
  rcases Nat.lt_or_ge i 24 with h3 | h3
  · simp [show ¬ i < 16 by omega, show i - 16 < 8 by omega, show 16 + (i - 16) = i by omega]
  · simp [show ¬ i < 16 by omega, show ¬ i - 16 < 8 by omega, show i - 16 - 8 < 8 by omega,
      show 24 + (i - 16 - 8) = i by omega]

/-- A word read back where it was written. -/
@[simp] theorem memWord_setWord_same (m : Memory) (a : Nat) (w : Word) : memWord (setWord m a w) a = w := by
  unfold memWord
  simp only [memByte_setWord]
  simpa using append_extractLsb_bytes w

/-- A word write leaves every word that does not overlap it alone. -/
theorem memWord_setWord_of_disjoint (m : Memory) {a b : Nat} (w : Word) (h : b + 4 ≤ a ∨ a + 4 ≤ b) :
    memWord (setWord m a w) b = memWord m b := by
  unfold memWord
  rw [memByte_setWord_of_outside _ _ (by omega), memByte_setWord_of_outside _ _ (by omega),
    memByte_setWord_of_outside _ _ (by omega), memByte_setWord_of_outside _ _ (by omega)]

/-- Memories that agree on the four bytes of a word agree on the word. -/
theorem memWord_congr {m m' : Memory} {a : Nat} (h : ∀ b, a ≤ b → b < a + 4 → memByte m b = memByte m' b) :
    memWord m a = memWord m' a := by
  unfold memWord
  rw [h a (by omega) (by omega), h (a + 1) (by omega) (by omega), h (a + 2) (by omega) (by omega),
    h (a + 3) (by omega) (by omega)]

/-! ### The canonical form -/

theorem risingCells_cons {a : Nat} {x : Byte} {l : List Host.Cell} :
    risingCells ((a, x) :: l) = true ↔ (∀ c ∈ l, a < c.1) ∧ risingCells l = true := by
  induction l generalizing a x with
  | nil => simp [risingCells]
  | cons h t ih =>
    obtain ⟨b, y⟩ := h
    simp only [risingCells, Bool.and_eq_true, decide_eq_true_eq]
    rw [ih]
    constructor
    · rintro ⟨h1, h2, h3⟩
      refine ⟨?_, h2, h3⟩
      intro c hc
      rcases List.mem_cons.1 hc with rfl | hc
      · exact h1
      · exact lt_trans h1 (h2 c hc)
    · rintro ⟨h1, h2, h3⟩
      exact ⟨h1 (b, y) (by simp), h2, h3⟩

theorem mem_insertCell {a : Nat} {v : Byte} {l : List Host.Cell} {c : Host.Cell} (h : c ∈ insertCell a v l) :
    c = (a, v) ∨ c ∈ l := by
  induction l with
  | nil => simpa [insertCell] using h
  | cons k t ih =>
    simp only [insertCell] at h
    split_ifs at h with h1 h2
    · simpa using h
    · rcases List.mem_cons.1 h with h | h
      · exact .inl h
      · exact .inr (by simp [h])
    · rcases List.mem_cons.1 h with h | h
      · exact .inr (by simp [h])
      · rcases ih h with h | h
        · exact .inl h
        · exact .inr (by simp [h])

theorem risingCells_insertCell {a : Nat} {v : Byte} {l : List Host.Cell} (h : risingCells l = true) :
    risingCells (insertCell a v l) = true := by
  induction l with
  | nil => rfl
  | cons k t ih =>
    obtain ⟨b, y⟩ := k
    have hb := risingCells_cons.1 h
    simp only [insertCell]
    split_ifs with h1 h2
    · refine risingCells_cons.2 ⟨?_, h⟩
      intro c hc
      rcases List.mem_cons.1 hc with rfl | hc
      · exact h1
      · exact lt_trans h1 (hb.1 c hc)
    · subst h2; exact risingCells_cons.2 hb
    · refine risingCells_cons.2 ⟨?_, ih hb.2⟩
      intro c hc
      rcases mem_insertCell hc with rfl | hc
      · simp only; omega
      · exact hb.1 c hc

theorem risingCells_filter {p : Host.Cell → Bool} {l : List Host.Cell} (h : risingCells l = true) :
    risingCells (l.filter p) = true := by
  induction l with
  | nil => rfl
  | cons k t ih =>
    obtain ⟨b, y⟩ := k
    have hb := risingCells_cons.1 h
    rw [List.filter_cons]
    split_ifs
    · exact risingCells_cons.2 ⟨fun c hc => hb.1 c (List.mem_filter.1 hc).1, ih hb.2⟩
    · exact ih hb.2

@[simp] theorem setByte_fill (m : Memory) (a : Nat) (v : Byte) : (setByte m a v).fill = m.fill := by
  unfold setByte; split <;> rfl

@[simp] theorem setWord_fill (m : Memory) (a : Nat) (w : Word) : (setWord m a w).fill = m.fill := by
  simp [setWord]

/-- A byte write keeps the canonical form. -/
theorem setByte_wf {m : Memory} (h : m.wf = true) (a : Nat) (v : Byte) : (setByte m a v).wf = true := by
  simp only [Memory.wf, Bool.and_eq_true, List.all_eq_true, decide_eq_true_eq] at h ⊢
  unfold setByte
  split
  · exact ⟨risingCells_filter h.1, fun c hc => h.2 c (List.mem_filter.1 hc).1⟩
  · rename_i hv
    refine ⟨risingCells_insertCell h.1, fun c hc => ?_⟩
    rcases mem_insertCell hc with rfl | hc
    · exact hv
    · exact h.2 c hc

/-- A word write keeps the canonical form. -/
theorem setWord_wf {m : Memory} (h : m.wf = true) (a : Nat) (w : Word) : (setWord m a w).wf = true :=
  setByte_wf (setByte_wf (setByte_wf (setByte_wf h _ _) _ _) _ _) _ _

/-- The addresses a write lists: the old ones and its own. -/
theorem setByte_cells {m : Memory} {a : Nat} {v : Byte} {c : Host.Cell} (h : c ∈ (setByte m a v).cells) :
    c.1 = a ∨ c ∈ m.cells := by
  unfold setByte at h
  split at h
  · exact .inr (List.mem_filter.1 h).1
  · rcases mem_insertCell h with rfl | h
    · exact .inl rfl
    · exact .inr h

theorem setWord_cells {m : Memory} {a : Nat} {w : Word} {c : Host.Cell} (h : c ∈ (setWord m a w).cells) :
    (a ≤ c.1 ∧ c.1 < a + 4) ∨ c ∈ m.cells := by
  rcases setByte_cells h with h | h
  · exact .inl (by omega)
  rcases setByte_cells h with h | h
  · exact .inl (by omega)
  rcases setByte_cells h with h | h
  · exact .inl (by omega)
  rcases setByte_cells h with h | h
  · exact .inl (by omega)
  · exact .inr h

/-! ### Positions -/

theorem mem_channels {nch : Nat} {c : Channel} : c ∈ channels nch ↔ c.val < nch := by
  simp [channels]

theorem mem_positions {nch len n : Nat} {c : Channel} : (n, c) ∈ positions nch len ↔ n < len ∧ c.val < nch := by
  simp [positions, mem_channels]

@[simp] theorem positions_zero (nch : Nat) : positions nch 0 = [] := rfl

theorem positions_one_one : positions 1 1 = [(0, 0)] := by decide

/-! ### Sweeps -/

section Sweep

variable {σ : Type} (addr : Channel → Nat → Nat) (f : Nat → Channel → F32 → σ → F32 × σ)
  (g : Nat → Channel → F32 → σ → Option (F32 × σ))

@[simp] theorem sweep_nil (m : Memory) (st : σ) : sweep addr f [] m st = (m, st) := rfl

theorem sweep_cons (n : Nat) (c : Channel) (t : List (Nat × Channel)) (m : Memory) (st : σ) :
    sweep addr f ((n, c) :: t) m st =
      sweep addr f t (setWord m (addr c n) (f n c (memWord m (addr c n)) st).1) (f n c (memWord m (addr c n)) st).2 := rfl

theorem sweep_append (l t : List (Nat × Channel)) (m : Memory) (st : σ) :
    sweep addr f (l ++ t) m st = sweep addr f t (sweep addr f l m st).1 (sweep addr f l m st).2 := by
  induction l generalizing m st with
  | nil => rfl
  | cons h l ih => obtain ⟨n, c⟩ := h; simp only [List.cons_append, sweep_cons]; exact ih _ _

/-- What holds of the memory and the stage's state before a sweep, and is kept by each of its steps, holds after. -/
theorem sweep_induct (P : Memory → σ → Prop) (l : List (Nat × Channel)) (m : Memory) (st : σ) (h0 : P m st)
    (hstep : ∀ n c m st, (n, c) ∈ l → P m st →
      P (setWord m (addr c n) (f n c (memWord m (addr c n)) st).1) (f n c (memWord m (addr c n)) st).2) :
    P (sweep addr f l m st).1 (sweep addr f l m st).2 := by
  induction l generalizing m st with
  | nil => exact h0
  | cons h t ih =>
    obtain ⟨n, c⟩ := h
    rw [sweep_cons]
    exact ih _ _ (hstep n c m st (by simp) h0) fun n' c' m' st' hm => hstep n' c' m' st' (by simp [hm])

/-- The same for a sweep whose stage can fault, when it does not. -/
theorem sweepFault_induct (P : Memory → σ → Prop) (l : List (Nat × Channel)) (m : Memory) (st : σ) {r : Memory × σ}
    (hr : sweepFault addr g l m st = some r) (h0 : P m st)
    (hstep : ∀ n c m st y, (n, c) ∈ l → P m st → g n c (memWord m (addr c n)) st = some y →
      P (setWord m (addr c n) y.1) y.2) : P r.1 r.2 := by
  induction l generalizing m st with
  | nil => simp only [sweepFault, Option.some.injEq] at hr; subst hr; exact h0
  | cons h t ih =>
    obtain ⟨n, c⟩ := h
    simp only [sweepFault] at hr
    cases hg : g n c (memWord m (addr c n)) st with
    | none => simp [hg] at hr
    | some y =>
      simp only [hg] at hr
      exact ih _ _ hr (hstep n c m st y (by simp) h0 hg) fun n' c' m' st' y' hm => hstep n' c' m' st' y' (by simp [hm])

/-- A sweep leaves every byte outside its words alone. -/
theorem sweep_memByte_of_outside (l : List (Nat × Channel)) (m : Memory) (st : σ) (b : Nat)
    (h : ∀ n c, (n, c) ∈ l → b < addr c n ∨ addr c n + 4 ≤ b) :
    memByte (sweep addr f l m st).1 b = memByte m b := by
  refine sweep_induct addr f (fun m' _ => memByte m' b = memByte m b) l m st rfl ?_
  intro n c m' st' hm hP
  rw [memByte_setWord_of_outside _ _ (h n c hm), hP]

theorem sweepFault_memByte_of_outside (l : List (Nat × Channel)) (m : Memory) (st : σ) (b : Nat) {r : Memory × σ}
    (hr : sweepFault addr g l m st = some r)
    (h : ∀ n c, (n, c) ∈ l → b < addr c n ∨ addr c n + 4 ≤ b) : memByte r.1 b = memByte m b := by
  refine sweepFault_induct addr g (fun m' _ => memByte m' b = memByte m b) l m st hr rfl ?_
  intro n c m' st' y hm hP _
  rw [memByte_setWord_of_outside _ _ (h n c hm), hP]

/-- A sweep keeps the canonical form. -/
theorem sweep_wf (l : List (Nat × Channel)) (m : Memory) (st : σ) (h : m.wf = true) :
    (sweep addr f l m st).1.wf = true :=
  sweep_induct addr f (fun m' _ => m'.wf = true) l m st h fun _ _ _ _ _ hP => setWord_wf hP _ _

theorem sweepFault_wf (l : List (Nat × Channel)) (m : Memory) (st : σ) {r : Memory × σ}
    (hr : sweepFault addr g l m st = some r) (h : m.wf = true) : r.1.wf = true :=
  sweepFault_induct addr g (fun m' _ => m'.wf = true) l m st hr h fun _ _ _ _ _ _ hP _ => setWord_wf hP _ _

/-- A sweep keeps what an unlisted address holds. -/
@[simp] theorem sweep_fill (l : List (Nat × Channel)) (m : Memory) (st : σ) : (sweep addr f l m st).1.fill = m.fill := by
  refine sweep_induct addr f (fun m' _ => m'.fill = m.fill) l m st rfl ?_
  intro n c m' st' _ hP
  simpa using hP

/-- A sweep lists no address but the old ones and those of its words. -/
theorem sweep_cells (l : List (Nat × Channel)) (m : Memory) (st : σ) {x : Host.Cell}
    (hx : x ∈ (sweep addr f l m st).1.cells) :
    x ∈ m.cells ∨ ∃ n c, (n, c) ∈ l ∧ addr c n ≤ x.1 ∧ x.1 < addr c n + 4 := by
  refine sweep_induct addr f
    (fun m' _ => ∀ x ∈ m'.cells, x ∈ m.cells ∨ ∃ n c, (n, c) ∈ l ∧ addr c n ≤ x.1 ∧ x.1 < addr c n + 4)
    l m st (fun x hx => .inl hx) ?_ x hx
  intro n c m' st' hm hP y hy
  rcases setWord_cells hy with h | h
  · exact .inr ⟨n, c, hm, h⟩
  · exact hP y h

theorem sweepFault_cells (l : List (Nat × Channel)) (m : Memory) (st : σ) {r : Memory × σ}
    (hr : sweepFault addr g l m st = some r) {x : Host.Cell} (hx : x ∈ r.1.cells) :
    x ∈ m.cells ∨ ∃ n c, (n, c) ∈ l ∧ addr c n ≤ x.1 ∧ x.1 < addr c n + 4 := by
  refine sweepFault_induct addr g
    (fun m' _ => ∀ x ∈ m'.cells, x ∈ m.cells ∨ ∃ n c, (n, c) ∈ l ∧ addr c n ≤ x.1 ∧ x.1 < addr c n + 4)
    l m st hr (fun x hx => .inl hx) ?_ x hx
  intro n c m' st' y hm hP _ z hz
  rcases setWord_cells hz with h | h
  · exact .inr ⟨n, c, hm, h⟩
  · exact hP z h

/-- A sweep leaves every word that its own words do not overlap alone. -/
theorem sweep_memWord_of_disjoint (l : List (Nat × Channel)) (m : Memory) (st : σ) (b : Nat)
    (h : ∀ n c, (n, c) ∈ l → b + 4 ≤ addr c n ∨ addr c n + 4 ≤ b) :
    memWord (sweep addr f l m st).1 b = memWord m b := by
  refine sweep_induct addr f (fun m' _ => memWord m' b = memWord m b) l m st rfl ?_
  intro n c m' st' hm hP
  rw [memWord_setWord_of_disjoint _ _ (h n c hm), hP]

theorem sweepFault_memWord_of_disjoint (l : List (Nat × Channel)) (m : Memory) (st : σ) (b : Nat) {r : Memory × σ}
    (hr : sweepFault addr g l m st = some r) (h : ∀ n c, (n, c) ∈ l → b + 4 ≤ addr c n ∨ addr c n + 4 ≤ b) :
    memWord r.1 b = memWord m b := by
  refine sweepFault_induct addr g (fun m' _ => memWord m' b = memWord m b) l m st hr rfl ?_
  intro n c m' st' y hm hP _
  rw [memWord_setWord_of_disjoint _ _ (h n c hm), hP]

end Sweep

/-! ### Addresses -/

theorem bufBytes_eq : bufBytes = 0x10000 := by decide
theorem bufDBase_eq : bufDBase = 0x10000 := by decide
theorem bufRBase_eq : bufRBase = 0x20000 := by decide

/-- Word indexes `c * stride + n` below the stride determine the channel and the index. -/
theorem index_ne {stride n n' : Nat} {c c' : Channel} (hn : n < stride) (hn' : n' < stride) (h : (n, c) ≠ (n', c')) :
    c.val * stride + n < c'.val * stride + n' ∨ c'.val * stride + n' < c.val * stride + n := by
  by_contra hc
  have he : c.val * stride + n = c'.val * stride + n' := by omega
  have hq := congrArg (· / stride) he
  have hr := congrArg (· % stride) he
  have hs : 0 < stride := by omega
  simp only [Nat.mul_comm _ stride, Nat.mul_add_div hs, Nat.mul_add_mod, Nat.div_eq_of_lt hn, Nat.div_eq_of_lt hn',
    Nat.mod_eq_of_lt hn, Nat.mod_eq_of_lt hn', Nat.add_zero] at hq hr
  exact h (Prod.ext hr (Fin.ext hq))

/-- Different words of `BUF_D` do not overlap (20_memory.md R62). -/
theorem bufDAddr_disjoint {n n' : Nat} {c c' : Channel} (hn : n < Config.blkCap) (hn' : n' < Config.blkCap)
    (h : (n, c) ≠ (n', c')) : bufDAddr c n + 4 ≤ bufDAddr c' n' ∨ bufDAddr c' n' + 4 ≤ bufDAddr c n := by
  have := index_ne hn hn' h
  simp only [bufDAddr]
  omega

/-- Different words of `BUF_R` do not overlap (20_memory.md R62). -/
theorem bufRAddr_disjoint {n n' : Nat} {c c' : Channel} (hn : n < Config.blkCap) (hn' : n' < Config.blkCap)
    (h : (n, c) ≠ (n', c')) : bufRAddr c n + 4 ≤ bufRAddr c' n' ∨ bufRAddr c' n' + 4 ≤ bufRAddr c n := by
  have := index_ne hn hn' h
  simp only [bufRAddr]
  omega

/-- Different words of `WET_R` do not overlap (20_memory.md R63). -/
theorem wetAddr_disjoint {n n' : Nat} {c c' : Channel} (hn : n < Config.blkCap) (hn' : n' < Config.blkCap)
    (h : (n, c) ≠ (n', c')) : wetAddr c n + 4 ≤ wetAddr c' n' ∨ wetAddr c' n' + 4 ≤ wetAddr c n := by
  have := index_ne hn hn' h
  simp only [wetAddr]
  omega

/-- Different words of `DLY` do not overlap (20_memory.md R64). -/
theorem dlyAddr_disjoint {n n' : Nat} {c c' : Channel} (hn : n < Config.delayCap) (hn' : n' < Config.delayCap)
    (h : (n, c) ≠ (n', c')) : dlyAddr c n + 4 ≤ dlyAddr c' n' ∨ dlyAddr c' n' + 4 ≤ dlyAddr c n := by
  have := index_ne hn hn' h
  simp only [dlyAddr]
  omega

/-- The words of `BUF_D` lie in its window (20_memory.md R60). -/
theorem bufDAddr_window {c : Channel} {n : Nat} (hn : n < Config.blkCap) :
    0x10000 ≤ bufDAddr c n ∧ bufDAddr c n + 4 ≤ 0x20000 := by
  have hc := c.2
  simp only [bufDAddr, bufDBase_eq, Config.blkCap, Config.nchMax] at *
  omega

/-- The words of `BUF_R` lie in its window (20_memory.md R60). -/
theorem bufRAddr_window {c : Channel} {n : Nat} (hn : n < Config.blkCap) :
    0x20000 ≤ bufRAddr c n ∧ bufRAddr c n + 4 ≤ 0x30000 := by
  have hc := c.2
  simp only [bufRAddr, bufRBase_eq, Config.blkCap, Config.nchMax] at *
  omega

end Sys2Proof.Machine
end

