-- ==== Sys2Proof/Laws/State.lean ====
section
/-! SUPPORT. One lemma per field per named update of the state: what each operation leaves alone, and the plain new
values. -/

namespace Sys2Proof.Machine

/-! ### raiseFault (60_exceptions.md R316) -/

@[simp] theorem raiseFault_regs (c : Cause) (s : State) : (raiseFault c s).regs = s.regs := rfl
@[simp] theorem raiseFault_pd (c : Cause) (s : State) : (raiseFault c s).pd = s.pd := rfl
@[simp] theorem raiseFault_pr (c : Cause) (s : State) : (raiseFault c s).pr = s.pr := rfl
@[simp] theorem raiseFault_ds (c : Cause) (s : State) : (raiseFault c s).ds = s.ds := rfl
@[simp] theorem raiseFault_dk (c : Cause) (s : State) : (raiseFault c s).dk = s.dk := rfl
@[simp] theorem raiseFault_rs (c : Cause) (s : State) : (raiseFault c s).rs = s.rs := rfl
@[simp] theorem raiseFault_rk (c : Cause) (s : State) : (raiseFault c s).rk = s.rk := rfl
@[simp] theorem raiseFault_mem (c : Cause) (s : State) : (raiseFault c s).mem = s.mem := rfl
@[simp] theorem raiseFault_wet (c : Cause) (s : State) : (raiseFault c s).wet = s.wet := rfl
@[simp] theorem raiseFault_dly (c : Cause) (s : State) : (raiseFault c s).dly = s.dly := rfl
@[simp] theorem raiseFault_rdata (c : Cause) (s : State) : (raiseFault c s).rdata = s.rdata := rfl
@[simp] theorem raiseFault_x (c : Cause) (s : State) : (raiseFault c s).x = s.x := rfl
@[simp] theorem raiseFault_host (c : Cause) (s : State) : (raiseFault c s).host = s.host := rfl
@[simp] theorem raiseFault_draws (c : Cause) (s : State) : (raiseFault c s).draws = s.draws := rfl

@[simp] theorem raiseFault_trap (c : Cause) (s : State) : (raiseFault c s).trap = some (s.trap.getD c) := rfl
@[simp] theorem raiseFault_busy (c : Cause) (s : State) : (raiseFault c s).seq.busy = false := rfl

/-! ### losesDist, losesRev, foldDiverge (93_implementation_defined.md U2, U3, U6) -/

@[simp] theorem losesDist_regs (a b : Nat) (s : State) : (losesDist a b s).regs = s.regs := rfl
@[simp] theorem losesDist_trap (a b : Nat) (s : State) : (losesDist a b s).trap = s.trap := rfl
@[simp] theorem losesDist_seq (a b : Nat) (s : State) : (losesDist a b s).seq = s.seq := rfl
@[simp] theorem losesDist_pd (a b : Nat) (s : State) : (losesDist a b s).pd = s.pd := rfl
@[simp] theorem losesDist_pr (a b : Nat) (s : State) : (losesDist a b s).pr = s.pr := rfl
@[simp] theorem losesDist_rs (a b : Nat) (s : State) : (losesDist a b s).rs = s.rs := rfl
@[simp] theorem losesDist_rk (a b : Nat) (s : State) : (losesDist a b s).rk = s.rk := rfl
@[simp] theorem losesDist_wet (a b : Nat) (s : State) : (losesDist a b s).wet = s.wet := rfl
@[simp] theorem losesDist_dly (a b : Nat) (s : State) : (losesDist a b s).dly = s.dly := rfl
@[simp] theorem losesDist_rdata (a b : Nat) (s : State) : (losesDist a b s).rdata = s.rdata := rfl
@[simp] theorem losesDist_x (a b : Nat) (s : State) : (losesDist a b s).x = s.x := rfl
@[simp] theorem losesDist_host (a b : Nat) (s : State) : (losesDist a b s).host = s.host := rfl

@[simp] theorem losesRev_regs (s : State) : (losesRev s).regs = s.regs := rfl
@[simp] theorem losesRev_trap (s : State) : (losesRev s).trap = s.trap := rfl
@[simp] theorem losesRev_seq (s : State) : (losesRev s).seq = s.seq := rfl
@[simp] theorem losesRev_pd (s : State) : (losesRev s).pd = s.pd := rfl
@[simp] theorem losesRev_pr (s : State) : (losesRev s).pr = s.pr := rfl
@[simp] theorem losesRev_ds (s : State) : (losesRev s).ds = s.ds := rfl
@[simp] theorem losesRev_dk (s : State) : (losesRev s).dk = s.dk := rfl
@[simp] theorem losesRev_rdata (s : State) : (losesRev s).rdata = s.rdata := rfl
@[simp] theorem losesRev_x (s : State) : (losesRev s).x = s.x := rfl
@[simp] theorem losesRev_host (s : State) : (losesRev s).host = s.host := rfl

@[simp] theorem foldDiverge_regs (a b : Nat) (s : State) : (foldDiverge a b s).regs = s.regs := rfl
@[simp] theorem foldDiverge_pd (a b : Nat) (s : State) : (foldDiverge a b s).pd = s.pd := rfl
@[simp] theorem foldDiverge_pr (a b : Nat) (s : State) : (foldDiverge a b s).pr = s.pr := rfl
@[simp] theorem foldDiverge_rs (a b : Nat) (s : State) : (foldDiverge a b s).rs = s.rs := rfl
@[simp] theorem foldDiverge_rk (a b : Nat) (s : State) : (foldDiverge a b s).rk = s.rk := rfl
@[simp] theorem foldDiverge_wet (a b : Nat) (s : State) : (foldDiverge a b s).wet = s.wet := rfl
@[simp] theorem foldDiverge_dly (a b : Nat) (s : State) : (foldDiverge a b s).dly = s.dly := rfl
@[simp] theorem foldDiverge_rdata (a b : Nat) (s : State) : (foldDiverge a b s).rdata = s.rdata := rfl
@[simp] theorem foldDiverge_x (a b : Nat) (s : State) : (foldDiverge a b s).x = s.x := rfl
@[simp] theorem foldDiverge_host (a b : Nat) (s : State) : (foldDiverge a b s).host = s.host := rfl

@[simp] theorem foldDiverge_trap (a b : Nat) (s : State) : (foldDiverge a b s).trap = some (s.trap.getD .foldDiverge) := rfl
@[simp] theorem foldDiverge_busy (a b : Nat) (s : State) : (foldDiverge a b s).seq.busy = false := rfl
@[simp] theorem foldDiverge_configured (a b : Nat) (s : State) : (foldDiverge a b s).ds.configured = s.ds.configured := rfl

/-! ### The hardware reset and the host's queue -/

@[simp] theorem hardwareReset_host (s : State) : (hardwareReset s).host = s.host := rfl
@[simp] theorem hardwareReset_trap (s : State) : (hardwareReset s).trap = none := rfl

@[simp] theorem withCommand_regs (w : Word) (s : State) : (withCommand w s).regs = s.regs := rfl
@[simp] theorem withCommand_trap (w : Word) (s : State) : (withCommand w s).trap = s.trap := rfl
@[simp] theorem withCommand_seq (w : Word) (s : State) : (withCommand w s).seq = s.seq := rfl
@[simp] theorem withCommand_pd (w : Word) (s : State) : (withCommand w s).pd = s.pd := rfl
@[simp] theorem withCommand_pr (w : Word) (s : State) : (withCommand w s).pr = s.pr := rfl
@[simp] theorem withCommand_ds (w : Word) (s : State) : (withCommand w s).ds = s.ds := rfl
@[simp] theorem withCommand_dk (w : Word) (s : State) : (withCommand w s).dk = s.dk := rfl
@[simp] theorem withCommand_rs (w : Word) (s : State) : (withCommand w s).rs = s.rs := rfl
@[simp] theorem withCommand_rk (w : Word) (s : State) : (withCommand w s).rk = s.rk := rfl
@[simp] theorem withCommand_mem (w : Word) (s : State) : (withCommand w s).mem = s.mem := rfl
@[simp] theorem withCommand_wet (w : Word) (s : State) : (withCommand w s).wet = s.wet := rfl
@[simp] theorem withCommand_dly (w : Word) (s : State) : (withCommand w s).dly = s.dly := rfl
@[simp] theorem withCommand_rdata (w : Word) (s : State) : (withCommand w s).rdata = s.rdata := rfl
@[simp] theorem withCommand_x (w : Word) (s : State) : (withCommand w s).x = s.x := rfl
@[simp] theorem withCommand_draws (w : Word) (s : State) : (withCommand w s).draws = s.draws := rfl

@[simp] theorem withCommand_host (w : Word) (s : State) : (withCommand w s).host = .write 0 4 w :: s.host := rfl

/-! ### The start of a block -/

@[simp] theorem startBlockD_regs (n : Nat) (s : State) : (startBlockD n s).regs = s.regs := rfl
@[simp] theorem startBlockD_trap (n : Nat) (s : State) : (startBlockD n s).trap = s.trap := rfl
@[simp] theorem startBlockD_seq (n : Nat) (s : State) : (startBlockD n s).seq = s.seq := rfl
@[simp] theorem startBlockD_pr (n : Nat) (s : State) : (startBlockD n s).pr = s.pr := rfl
@[simp] theorem startBlockD_ds (n : Nat) (s : State) : (startBlockD n s).ds = s.ds := rfl
@[simp] theorem startBlockD_rs (n : Nat) (s : State) : (startBlockD n s).rs = s.rs := rfl
@[simp] theorem startBlockD_rk (n : Nat) (s : State) : (startBlockD n s).rk = s.rk := rfl
@[simp] theorem startBlockD_mem (n : Nat) (s : State) : (startBlockD n s).mem = s.mem := rfl
@[simp] theorem startBlockD_wet (n : Nat) (s : State) : (startBlockD n s).wet = s.wet := rfl
@[simp] theorem startBlockD_dly (n : Nat) (s : State) : (startBlockD n s).dly = s.dly := rfl
@[simp] theorem startBlockD_rdata (n : Nat) (s : State) : (startBlockD n s).rdata = s.rdata := rfl
@[simp] theorem startBlockD_x (n : Nat) (s : State) : (startBlockD n s).x = s.x := rfl
@[simp] theorem startBlockD_host (n : Nat) (s : State) : (startBlockD n s).host = s.host := rfl
@[simp] theorem startBlockD_draws (n : Nat) (s : State) : (startBlockD n s).draws = s.draws := rfl

@[simp] theorem startBlockD_pd (n : Nat) (s : State) : (startBlockD n s).pd = snapshotD s.regs := rfl
@[simp] theorem startBlockD_dk (n : Nat) (s : State) :
    (startBlockD n s).dk = deriveDist (snapshotD s.regs) n s.ds s.dk := rfl

@[simp] theorem startBlockR_trap (i : Instr) (d : Bool × Nat) (s : State) : (startBlockR i d s).trap = s.trap := rfl
@[simp] theorem startBlockR_seq (i : Instr) (d : Bool × Nat) (s : State) : (startBlockR i d s).seq = s.seq := rfl
@[simp] theorem startBlockR_pd (i : Instr) (d : Bool × Nat) (s : State) : (startBlockR i d s).pd = s.pd := rfl
@[simp] theorem startBlockR_ds (i : Instr) (d : Bool × Nat) (s : State) : (startBlockR i d s).ds = s.ds := rfl
@[simp] theorem startBlockR_dk (i : Instr) (d : Bool × Nat) (s : State) : (startBlockR i d s).dk = s.dk := rfl
@[simp] theorem startBlockR_rs (i : Instr) (d : Bool × Nat) (s : State) : (startBlockR i d s).rs = s.rs := rfl
@[simp] theorem startBlockR_mem (i : Instr) (d : Bool × Nat) (s : State) : (startBlockR i d s).mem = s.mem := rfl
@[simp] theorem startBlockR_wet (i : Instr) (d : Bool × Nat) (s : State) : (startBlockR i d s).wet = s.wet := rfl
@[simp] theorem startBlockR_dly (i : Instr) (d : Bool × Nat) (s : State) : (startBlockR i d s).dly = s.dly := rfl
@[simp] theorem startBlockR_rdata (i : Instr) (d : Bool × Nat) (s : State) : (startBlockR i d s).rdata = s.rdata := rfl
@[simp] theorem startBlockR_x (i : Instr) (d : Bool × Nat) (s : State) : (startBlockR i d s).x = s.x := rfl
@[simp] theorem startBlockR_host (i : Instr) (d : Bool × Nat) (s : State) : (startBlockR i d s).host = s.host := rfl
@[simp] theorem startBlockR_draws (i : Instr) (d : Bool × Nat) (s : State) : (startBlockR i d s).draws = s.draws := rfl

@[simp] theorem startBlockR_pr (i : Instr) (d : Bool × Nat) (s : State) : (startBlockR i d s).pr = snapshotR s.regs := rfl
@[simp] theorem startBlockR_ra (i : Instr) (d : Bool × Nat) (s : State) :
    (startBlockR i d s).regs.ra = (startBlockR i d s).rk.ra := rfl

/-! ### The passes of PROC.D (45_distortion_pipeline.md R204) -/

@[simp] theorem ghostPass_regs (n l : Nat) (s : State) : (ghostPass n l s).regs = s.regs := by
  unfold ghostPass; split <;> rfl
@[simp] theorem ghostPass_trap (n l : Nat) (s : State) : (ghostPass n l s).trap = s.trap := by
  unfold ghostPass; split <;> rfl
@[simp] theorem ghostPass_seq (n l : Nat) (s : State) : (ghostPass n l s).seq = s.seq := by
  unfold ghostPass; split <;> rfl
@[simp] theorem ghostPass_pd (n l : Nat) (s : State) : (ghostPass n l s).pd = s.pd := by
  unfold ghostPass; split <;> rfl
@[simp] theorem ghostPass_pr (n l : Nat) (s : State) : (ghostPass n l s).pr = s.pr := by
  unfold ghostPass; split <;> rfl
@[simp] theorem ghostPass_dk (n l : Nat) (s : State) : (ghostPass n l s).dk = s.dk := by
  unfold ghostPass; split <;> rfl
@[simp] theorem ghostPass_rs (n l : Nat) (s : State) : (ghostPass n l s).rs = s.rs := by
  unfold ghostPass; split <;> rfl
@[simp] theorem ghostPass_rk (n l : Nat) (s : State) : (ghostPass n l s).rk = s.rk := by
  unfold ghostPass; split <;> rfl
@[simp] theorem ghostPass_wet (n l : Nat) (s : State) : (ghostPass n l s).wet = s.wet := by
  unfold ghostPass; split <;> rfl
@[simp] theorem ghostPass_dly (n l : Nat) (s : State) : (ghostPass n l s).dly = s.dly := by
  unfold ghostPass; split <;> rfl
@[simp] theorem ghostPass_rdata (n l : Nat) (s : State) : (ghostPass n l s).rdata = s.rdata := by
  unfold ghostPass; split <;> rfl
@[simp] theorem ghostPass_x (n l : Nat) (s : State) : (ghostPass n l s).x = s.x := by
  unfold ghostPass; split <;> rfl
@[simp] theorem ghostPass_host (n l : Nat) (s : State) : (ghostPass n l s).host = s.host := by
  unfold ghostPass; split <;> rfl
@[simp] theorem ghostPass_draws (n l : Nat) (s : State) : (ghostPass n l s).draws = s.draws := by
  unfold ghostPass; split <;> rfl

/-! ### The passes of PROC.R (49_reverb_pipeline_and_system.md R283) -/

@[simp] theorem filterPass_regs (n l : Nat) (s : State) : (filterPass n l s).regs = s.regs := rfl
@[simp] theorem filterPass_trap (n l : Nat) (s : State) : (filterPass n l s).trap = s.trap := rfl
@[simp] theorem filterPass_seq (n l : Nat) (s : State) : (filterPass n l s).seq = s.seq := rfl
@[simp] theorem filterPass_pd (n l : Nat) (s : State) : (filterPass n l s).pd = s.pd := rfl
@[simp] theorem filterPass_pr (n l : Nat) (s : State) : (filterPass n l s).pr = s.pr := rfl
@[simp] theorem filterPass_ds (n l : Nat) (s : State) : (filterPass n l s).ds = s.ds := rfl
@[simp] theorem filterPass_dk (n l : Nat) (s : State) : (filterPass n l s).dk = s.dk := rfl
@[simp] theorem filterPass_rk (n l : Nat) (s : State) : (filterPass n l s).rk = s.rk := rfl
@[simp] theorem filterPass_wet (n l : Nat) (s : State) : (filterPass n l s).wet = s.wet := rfl
@[simp] theorem filterPass_dly (n l : Nat) (s : State) : (filterPass n l s).dly = s.dly := rfl
@[simp] theorem filterPass_rdata (n l : Nat) (s : State) : (filterPass n l s).rdata = s.rdata := rfl
@[simp] theorem filterPass_x (n l : Nat) (s : State) : (filterPass n l s).x = s.x := rfl
@[simp] theorem filterPass_host (n l : Nat) (s : State) : (filterPass n l s).host = s.host := rfl
@[simp] theorem filterPass_draws (n l : Nat) (s : State) : (filterPass n l s).draws = s.draws := rfl

@[simp] theorem copyPass_regs (n l : Nat) (s : State) : (copyPass n l s).regs = s.regs := rfl
@[simp] theorem copyPass_trap (n l : Nat) (s : State) : (copyPass n l s).trap = s.trap := rfl
@[simp] theorem copyPass_seq (n l : Nat) (s : State) : (copyPass n l s).seq = s.seq := rfl
@[simp] theorem copyPass_pd (n l : Nat) (s : State) : (copyPass n l s).pd = s.pd := rfl
@[simp] theorem copyPass_pr (n l : Nat) (s : State) : (copyPass n l s).pr = s.pr := rfl
@[simp] theorem copyPass_ds (n l : Nat) (s : State) : (copyPass n l s).ds = s.ds := rfl
@[simp] theorem copyPass_dk (n l : Nat) (s : State) : (copyPass n l s).dk = s.dk := rfl
@[simp] theorem copyPass_rs (n l : Nat) (s : State) : (copyPass n l s).rs = s.rs := rfl
@[simp] theorem copyPass_rk (n l : Nat) (s : State) : (copyPass n l s).rk = s.rk := rfl
@[simp] theorem copyPass_mem (n l : Nat) (s : State) : (copyPass n l s).mem = s.mem := rfl
@[simp] theorem copyPass_dly (n l : Nat) (s : State) : (copyPass n l s).dly = s.dly := rfl
@[simp] theorem copyPass_rdata (n l : Nat) (s : State) : (copyPass n l s).rdata = s.rdata := rfl
@[simp] theorem copyPass_x (n l : Nat) (s : State) : (copyPass n l s).x = s.x := rfl
@[simp] theorem copyPass_host (n l : Nat) (s : State) : (copyPass n l s).host = s.host := rfl
@[simp] theorem copyPass_draws (n l : Nat) (s : State) : (copyPass n l s).draws = s.draws := rfl

@[simp] theorem predelayPass_regs (n l : Nat) (s : State) : (predelayPass n l s).regs = s.regs := by
  unfold predelayPass; split <;> rfl
@[simp] theorem predelayPass_trap (n l : Nat) (s : State) : (predelayPass n l s).trap = s.trap := by
  unfold predelayPass; split <;> rfl
@[simp] theorem predelayPass_seq (n l : Nat) (s : State) : (predelayPass n l s).seq = s.seq := by
  unfold predelayPass; split <;> rfl
@[simp] theorem predelayPass_pd (n l : Nat) (s : State) : (predelayPass n l s).pd = s.pd := by
  unfold predelayPass; split <;> rfl
@[simp] theorem predelayPass_pr (n l : Nat) (s : State) : (predelayPass n l s).pr = s.pr := by
  unfold predelayPass; split <;> rfl
@[simp] theorem predelayPass_ds (n l : Nat) (s : State) : (predelayPass n l s).ds = s.ds := by
  unfold predelayPass; split <;> rfl
@[simp] theorem predelayPass_dk (n l : Nat) (s : State) : (predelayPass n l s).dk = s.dk := by
  unfold predelayPass; split <;> rfl
@[simp] theorem predelayPass_rk (n l : Nat) (s : State) : (predelayPass n l s).rk = s.rk := by
  unfold predelayPass; split <;> rfl
@[simp] theorem predelayPass_mem (n l : Nat) (s : State) : (predelayPass n l s).mem = s.mem := by
  unfold predelayPass; split <;> rfl
@[simp] theorem predelayPass_rdata (n l : Nat) (s : State) : (predelayPass n l s).rdata = s.rdata := by
  unfold predelayPass; split <;> rfl
@[simp] theorem predelayPass_x (n l : Nat) (s : State) : (predelayPass n l s).x = s.x := by
  unfold predelayPass; split <;> rfl
@[simp] theorem predelayPass_host (n l : Nat) (s : State) : (predelayPass n l s).host = s.host := by
  unfold predelayPass; split <;> rfl
@[simp] theorem predelayPass_draws (n l : Nat) (s : State) : (predelayPass n l s).draws = s.draws := by
  unfold predelayPass; split <;> rfl

@[simp] theorem externalCall_regs (n l : Nat) (s : State) : (externalCall n l s).regs = s.regs := rfl
@[simp] theorem externalCall_trap (n l : Nat) (s : State) : (externalCall n l s).trap = s.trap := rfl
@[simp] theorem externalCall_seq (n l : Nat) (s : State) : (externalCall n l s).seq = s.seq := rfl
@[simp] theorem externalCall_pd (n l : Nat) (s : State) : (externalCall n l s).pd = s.pd := rfl
@[simp] theorem externalCall_pr (n l : Nat) (s : State) : (externalCall n l s).pr = s.pr := rfl
@[simp] theorem externalCall_ds (n l : Nat) (s : State) : (externalCall n l s).ds = s.ds := rfl
@[simp] theorem externalCall_dk (n l : Nat) (s : State) : (externalCall n l s).dk = s.dk := rfl
@[simp] theorem externalCall_rk (n l : Nat) (s : State) : (externalCall n l s).rk = s.rk := rfl
@[simp] theorem externalCall_mem (n l : Nat) (s : State) : (externalCall n l s).mem = s.mem := rfl
@[simp] theorem externalCall_dly (n l : Nat) (s : State) : (externalCall n l s).dly = s.dly := rfl
@[simp] theorem externalCall_rdata (n l : Nat) (s : State) : (externalCall n l s).rdata = s.rdata := rfl
@[simp] theorem externalCall_x (n l : Nat) (s : State) : (externalCall n l s).x = s.x := rfl
@[simp] theorem externalCall_host (n l : Nat) (s : State) : (externalCall n l s).host = s.host := rfl
@[simp] theorem externalCall_draws (n l : Nat) (s : State) : (externalCall n l s).draws = s.draws := rfl

@[simp] theorem modulationPass_regs (n l : Nat) (s : State) : (modulationPass n l s).regs = s.regs := by
  unfold modulationPass; split <;> rfl
@[simp] theorem modulationPass_trap (n l : Nat) (s : State) : (modulationPass n l s).trap = s.trap := by
  unfold modulationPass; split <;> rfl
@[simp] theorem modulationPass_seq (n l : Nat) (s : State) : (modulationPass n l s).seq = s.seq := by
  unfold modulationPass; split <;> rfl
@[simp] theorem modulationPass_pd (n l : Nat) (s : State) : (modulationPass n l s).pd = s.pd := by
  unfold modulationPass; split <;> rfl
@[simp] theorem modulationPass_pr (n l : Nat) (s : State) : (modulationPass n l s).pr = s.pr := by
  unfold modulationPass; split <;> rfl
@[simp] theorem modulationPass_ds (n l : Nat) (s : State) : (modulationPass n l s).ds = s.ds := by
  unfold modulationPass; split <;> rfl
@[simp] theorem modulationPass_dk (n l : Nat) (s : State) : (modulationPass n l s).dk = s.dk := by
  unfold modulationPass; split <;> rfl
@[simp] theorem modulationPass_rk (n l : Nat) (s : State) : (modulationPass n l s).rk = s.rk := by
  unfold modulationPass; split <;> rfl
@[simp] theorem modulationPass_mem (n l : Nat) (s : State) : (modulationPass n l s).mem = s.mem := by
  unfold modulationPass; split <;> rfl
@[simp] theorem modulationPass_dly (n l : Nat) (s : State) : (modulationPass n l s).dly = s.dly := by
  unfold modulationPass; split <;> rfl
@[simp] theorem modulationPass_rdata (n l : Nat) (s : State) : (modulationPass n l s).rdata = s.rdata := by
  unfold modulationPass; split <;> rfl
@[simp] theorem modulationPass_x (n l : Nat) (s : State) : (modulationPass n l s).x = s.x := by
  unfold modulationPass; split <;> rfl
@[simp] theorem modulationPass_host (n l : Nat) (s : State) : (modulationPass n l s).host = s.host := by
  unfold modulationPass; split <;> rfl
@[simp] theorem modulationPass_draws (n l : Nat) (s : State) : (modulationPass n l s).draws = s.draws := by
  unfold modulationPass; split <;> rfl

@[simp] theorem mixPass_regs (n l : Nat) (s : State) : (mixPass n l s).regs = s.regs := rfl
@[simp] theorem mixPass_trap (n l : Nat) (s : State) : (mixPass n l s).trap = s.trap := rfl
@[simp] theorem mixPass_seq (n l : Nat) (s : State) : (mixPass n l s).seq = s.seq := rfl
@[simp] theorem mixPass_pd (n l : Nat) (s : State) : (mixPass n l s).pd = s.pd := rfl
@[simp] theorem mixPass_pr (n l : Nat) (s : State) : (mixPass n l s).pr = s.pr := rfl
@[simp] theorem mixPass_ds (n l : Nat) (s : State) : (mixPass n l s).ds = s.ds := rfl
@[simp] theorem mixPass_dk (n l : Nat) (s : State) : (mixPass n l s).dk = s.dk := rfl
@[simp] theorem mixPass_rs (n l : Nat) (s : State) : (mixPass n l s).rs = s.rs := rfl
@[simp] theorem mixPass_rk (n l : Nat) (s : State) : (mixPass n l s).rk = s.rk := rfl
@[simp] theorem mixPass_wet (n l : Nat) (s : State) : (mixPass n l s).wet = s.wet := rfl
@[simp] theorem mixPass_dly (n l : Nat) (s : State) : (mixPass n l s).dly = s.dly := rfl
@[simp] theorem mixPass_rdata (n l : Nat) (s : State) : (mixPass n l s).rdata = s.rdata := rfl
@[simp] theorem mixPass_x (n l : Nat) (s : State) : (mixPass n l s).x = s.x := rfl
@[simp] theorem mixPass_host (n l : Nat) (s : State) : (mixPass n l s).host = s.host := rfl
@[simp] theorem mixPass_draws (n l : Nat) (s : State) : (mixPass n l s).draws = s.draws := rfl

@[simp] theorem reverbPasses_regs (n l : Nat) (s : State) : (reverbPasses n l s).regs = s.regs := by simp [reverbPasses]
@[simp] theorem reverbPasses_trap (n l : Nat) (s : State) : (reverbPasses n l s).trap = s.trap := by simp [reverbPasses]
@[simp] theorem reverbPasses_seq (n l : Nat) (s : State) : (reverbPasses n l s).seq = s.seq := by simp [reverbPasses]
@[simp] theorem reverbPasses_pd (n l : Nat) (s : State) : (reverbPasses n l s).pd = s.pd := by simp [reverbPasses]
@[simp] theorem reverbPasses_pr (n l : Nat) (s : State) : (reverbPasses n l s).pr = s.pr := by simp [reverbPasses]
@[simp] theorem reverbPasses_ds (n l : Nat) (s : State) : (reverbPasses n l s).ds = s.ds := by simp [reverbPasses]
@[simp] theorem reverbPasses_dk (n l : Nat) (s : State) : (reverbPasses n l s).dk = s.dk := by simp [reverbPasses]
@[simp] theorem reverbPasses_rk (n l : Nat) (s : State) : (reverbPasses n l s).rk = s.rk := by simp [reverbPasses]
@[simp] theorem reverbPasses_rdata (n l : Nat) (s : State) : (reverbPasses n l s).rdata = s.rdata := by simp [reverbPasses]
@[simp] theorem reverbPasses_x (n l : Nat) (s : State) : (reverbPasses n l s).x = s.x := by simp [reverbPasses]
@[simp] theorem reverbPasses_host (n l : Nat) (s : State) : (reverbPasses n l s).host = s.host := by simp [reverbPasses]
@[simp] theorem reverbPasses_draws (n l : Nat) (s : State) : (reverbPasses n l s).draws = s.draws := by simp [reverbPasses]

end Sys2Proof.Machine
end

