-- ==== Sys2Proof/Laws/Exec.lean ====
section
/-! SUPPORT. Inversion: everything each command, each host action and the step can do, said once. -/

namespace Sys2Proof.Machine

open Sys2Proof.Config

/-! ### The commands -/

/-- `CFG.D` either configures the engine or raises `BAD_CONFIG`. -/
theorem execCfgD_cases (nch maxblk : Nat) (s : State) :
    (configOk nch maxblk s.regs.fsD = true ∧
      execCfgD nch maxblk s = .next { s with ds := configuredDist s.regs.fsD nch maxblk }) ∨
    (configOk nch maxblk s.regs.fsD = false ∧ execCfgD nch maxblk s = .next (raiseFault .badConfig s)) := by
  unfold execCfgD
  cases h : configOk nch maxblk s.regs.fsD <;> simp

/-- `CFG.R` either configures the engine and clears the predelay memory or raises `BAD_CONFIG`. -/
theorem execCfgR_cases (nch maxblk : Nat) (s : State) :
    (configOk nch maxblk s.regs.fsR = true ∧
      execCfgR nch maxblk s = .next { s with rs := configuredRev s.regs.fsR nch maxblk, dly := clearedDelay }) ∨
    (configOk nch maxblk s.regs.fsR = false ∧ execCfgR nch maxblk s = .next (raiseFault .badConfig s)) := by
  unfold execCfgR
  cases h : configOk nch maxblk s.regs.fsR <;> simp

/-- `PROC.D`: a check fails and its cause is raised, or the block runs to its end, or some sample diverges. -/
theorem execProcD_cases (nch n : Nat) (s : State) :
    (s.ds.configured = false ∧ execProcD nch n s = .next (raiseFault .notConfigured s)) ∨
    (s.ds.configured = true ∧ blockOk nch n s.ds.nch s.ds.maxblk = false ∧
      execProcD nch n s = .next (raiseFault .badBlock s)) ∨
    (s.ds.configured = true ∧ blockOk nch n s.ds.nch s.ds.maxblk = true ∧ (∃ e, decodeDType s.regs.dType = .error e) ∧
      execProcD nch n s = .next (raiseFault .badType s)) ∨
    (∃ sel, s.ds.configured = true ∧ blockOk nch n s.ds.nch s.ds.maxblk = true ∧ decodeDType s.regs.dType = .ok sel ∧
      ((∃ t, mainPass sel nch n (ghostPass nch n (startBlockD n s)) = some t ∧ execProcD nch n s = .next t) ∨
       (mainPass sel nch n (ghostPass nch n (startBlockD n s)) = none ∧
         execProcD nch n s = .next (foldDiverge nch n (ghostPass nch n (startBlockD n s)))))) := by
  unfold execProcD
  cases h1 : s.ds.configured with
  | false => simp
  | true =>
    cases h2 : blockOk nch n s.ds.nch s.ds.maxblk with
    | false => simp
    | true =>
      cases h3 : decodeDType s.regs.dType with
      | error e => simp
      | ok sel =>
        cases h4 : mainPass sel nch n (ghostPass nch n (startBlockD n s)) <;> simp [h4]

/-- `PROC.R`: a check fails and its cause is raised, or the block runs to its end. -/
theorem execProcR_cases (nch n : Nat) (s : State) :
    (s.rs.configured = false ∧ execProcR nch n s = .next (raiseFault .notConfigured s)) ∨
    (s.rs.configured = true ∧ blockOk nch n s.rs.nch s.rs.maxblk = false ∧
      execProcR nch n s = .next (raiseFault .badBlock s)) ∨
    (s.rs.configured = true ∧ blockOk nch n s.rs.nch s.rs.maxblk = true ∧ (∃ e, decodeRType s.regs.rType = .error e) ∧
      execProcR nch n s = .next (raiseFault .badType s)) ∨
    (∃ sel, s.rs.configured = true ∧ blockOk nch n s.rs.nch s.rs.maxblk = true ∧ decodeRType s.regs.rType = .ok sel ∧
      predelayOf s.regs.rPredelay s.rs.fs = none ∧ execProcR nch n s = .next (raiseFault .badDelay s)) ∨
    (∃ sel d, s.rs.configured = true ∧ blockOk nch n s.rs.nch s.rs.maxblk = true ∧ decodeRType s.regs.rType = .ok sel ∧
      predelayOf s.regs.rPredelay s.rs.fs = some d ∧ execProcR nch n s = .next (reverbPasses nch n (startBlockR sel d s))) := by
  unfold execProcR
  cases h1 : s.rs.configured with
  | false => simp
  | true =>
    cases h2 : blockOk nch n s.rs.nch s.rs.maxblk with
    | false => simp
    | true =>
      cases h3 : decodeRType s.regs.rType with
      | error e => simp
      | ok sel => cases h4 : predelayOf s.regs.rPredelay s.rs.fs <;> simp

/-- `WS.FOLD`: the folded sample, or `FOLD_DIVERGE`. -/
theorem execWsFold_cases (s : State) :
    (∃ y, wsFold s.x = some y ∧ execWsFold s = .next { s with x := y }) ∨
    (wsFold s.x = none ∧ execWsFold s = .next (foldDiverge s.ds.nch s.ds.maxblk s)) := by
  unfold execWsFold
  cases h : wsFold s.x <;> simp

/-- No instruction stops the machine. -/
theorem exec_next (i : Instr) (s : State) : ∃ t, exec i s = .next t := by
  cases i with
  | cfgD nch maxblk => rcases execCfgD_cases nch maxblk s with ⟨_, h⟩ | ⟨_, h⟩ <;> exact ⟨_, h⟩
  | cfgR nch maxblk => rcases execCfgR_cases nch maxblk s with ⟨_, h⟩ | ⟨_, h⟩ <;> exact ⟨_, h⟩
  | procD nch n =>
    rcases execProcD_cases nch n s with ⟨_, h⟩ | ⟨_, _, h⟩ | ⟨_, _, _, h⟩ | ⟨_, _, _, _, ⟨_, _, h⟩ | ⟨_, h⟩⟩ <;>
      exact ⟨_, h⟩
  | procR nch n =>
    rcases execProcR_cases nch n s with ⟨_, h⟩ | ⟨_, _, h⟩ | ⟨_, _, _, h⟩ | ⟨_, _, _, _, _, h⟩ | ⟨_, _, _, _, _, _, h⟩ <;>
      exact ⟨_, h⟩
  | wsFold => rcases execWsFold_cases s with ⟨_, _, h⟩ | ⟨_, h⟩ <;> exact ⟨_, h⟩
  | nop => exact ⟨_, rfl⟩
  | wsSoft => exact ⟨_, rfl⟩
  | wsHard => exact ⟨_, rfl⟩
  | wsTube => exact ⟨_, rfl⟩
  | wsSine => exact ⟨_, rfl⟩
  | mapRoom => exact ⟨_, rfl⟩
  | mapHall => exact ⟨_, rfl⟩
  | mapPlate => exact ⟨_, rfl⟩
  | mapSpring => exact ⟨_, rfl⟩
  | mapShimmer => exact ⟨_, rfl⟩

/-- An instruction keeps the fault state or records one fault, the first cause kept (60_exceptions.md R316). -/
theorem exec_trap_cases (i : Instr) (s t : State) (h : exec i s = .next t) :
    t.trap = s.trap ∨ ∃ c, t.trap = some (s.trap.getD c) := by
  cases i with
  | cfgD nch maxblk =>
    rcases execCfgD_cases nch maxblk s with ⟨_, h'⟩ | ⟨_, h'⟩ <;>
      simp only [exec, h', Host.Outcome.next.injEq] at h <;> subst h <;> simp
  | cfgR nch maxblk =>
    rcases execCfgR_cases nch maxblk s with ⟨_, h'⟩ | ⟨_, h'⟩ <;>
      simp only [exec, h', Host.Outcome.next.injEq] at h <;> subst h <;> simp
  | procD nch n =>
    rcases execProcD_cases nch n s with ⟨_, h'⟩ | ⟨_, _, h'⟩ | ⟨_, _, _, h'⟩ | ⟨_, _, _, _, ⟨_, hm, h'⟩ | ⟨_, h'⟩⟩ <;>
      simp only [exec, h', Host.Outcome.next.injEq] at h <;> subst h <;> try simp
    unfold mainPass at hm
    split at hm
    · cases hm
    · simp only [Option.some.injEq] at hm; subst hm; simp
  | procR nch n =>
    rcases execProcR_cases nch n s with ⟨_, h'⟩ | ⟨_, _, h'⟩ | ⟨_, _, _, h'⟩ | ⟨_, _, _, _, _, h'⟩ |
      ⟨_, _, _, _, _, _, h'⟩ <;>
      simp only [exec, h', Host.Outcome.next.injEq] at h <;> subst h <;> simp
  | wsFold =>
    rcases execWsFold_cases s with ⟨_, _, h'⟩ | ⟨_, h'⟩ <;>
      simp only [exec, h', Host.Outcome.next.injEq] at h <;> subst h <;> simp
  | nop => cases h; exact .inl rfl
  | wsSoft => cases h; exact .inl rfl
  | wsHard => cases h; exact .inl rfl
  | wsTube => cases h; exact .inl rfl
  | wsSine => cases h; exact .inl rfl
  | mapRoom => cases h; exact .inl rfl
  | mapHall => cases h; exact .inl rfl
  | mapPlate => cases h; exact .inl rfl
  | mapSpring => cases h; exact .inl rfl
  | mapShimmer => cases h; exact .inl rfl

/-- The block check fails exactly on another channel count or a longer block (60_exceptions.md R315). -/
theorem blockOk_eq_false {nch len cfgNch cfgMaxblk : Nat} :
    blockOk nch len cfgNch cfgMaxblk = false ↔ nch ≠ cfgNch ∨ cfgMaxblk < len := by
  simp only [blockOk, decide_eq_false_iff_not]
  omega

/-- `DELAY_CAP` as F32 (46_parameter_mapper.md R232). -/
theorem f32OfNat_delayCap : f32OfNat delayCap = 0x49000000#32 := by decide +kernel

/-! ### The main pass -/

/-- A main pass that ends writes `BUF_D` and the engine's per-channel state only. -/
theorem mainPass_cases {sel : Instr} {nch n : Nat} {s t : State} (h : mainPass sel nch n s = some t) :
    ∃ r, sweepFault bufDAddr (fun _ c x ds => chain s.pd sel s.dk c x ds) (positions nch n) s.mem s.ds = some r ∧
      t = { s with mem := r.1, ds := r.2 } := by
  unfold mainPass at h
  split at h
  · cases h
  · rename_i r hr; exact ⟨r, hr, by simpa using h.symm⟩

/-! ### The bus -/

/-- A write of `CMD`: ignored, `CMD_WHILE_BUSY`, `ILLEGAL_CMD`, or the decoded command. -/
theorem issueCommand_cases (run : Instr → State → Host.Outcome State Fault Refusal) (w : Word) (s : State) :
    (s.trap.isSome = true ∧ issueCommand run w s = .next s) ∨
    (s.trap = none ∧ s.seq.busy = true ∧ issueCommand run w s = .next (raiseFault .cmdWhileBusy (abandonRunning s))) ∨
    (s.trap = none ∧ s.seq.busy = false ∧ (∃ e, decodeCmd w = .error e) ∧
      issueCommand run w s = .next (raiseFault .illegalCmd s)) ∨
    (∃ i, s.trap = none ∧ s.seq.busy = false ∧ decodeCmd w = .ok i ∧ issueCommand run w s = run i s) := by
  unfold issueCommand
  cases h1 : s.trap with
  | some c => simp
  | none =>
    cases h2 : s.seq.busy with
    | true => simp
    | false => cases h3 : decodeCmd w <;> simp

/-- A step with no host action pending, and with one. -/
theorem step_nil {s : State} (h : s.host = []) : step s = .next s := by simp [step, hostStep, h]

theorem step_cons {s : State} {a : HostAction} {rest : List HostAction} (h : s.host = a :: rest) :
    step s = hostAction exec a { s with host := rest } := by simp [step, hostStep, h]

/-- The address 0 with size 4 is the register `CMD`. -/
theorem target_cmd : target 0 4 = some (.reg .cmd) := by decide

/-- A write of the address 0 issues a command. -/
theorem busWrite_cmd (run : Instr → State → Host.Outcome State Fault Refusal) (w : Word) (s : State) :
    busWrite run 0 4 w s = issueCommand run w s := by
  unfold busWrite
  rw [target_cmd]

theorem step_command {s : State} {w : Word} {rest : List HostAction} (h : s.host = .write 0 4 w :: rest) :
    step s = issueCommand exec w { s with host := rest } := by
  rw [step_cons h]; exact busWrite_cmd _ _ _

/-- The only register whose write is a command is `CMD`, at the address 0. -/
theorem regAt_cmd {a : Nat} (h : regAt a = some .cmd) : a = 0 := by
  unfold regAt at h
  split at h <;> simp_all

/-- An access reaches a register, a word of a buffer, or nothing; a write at an address other than 0 is no command. -/
theorem busWrite_cases (run : Instr → State → Host.Outcome State Fault Refusal) (addr : Word) (size : Nat) (v : Word)
    (s : State) (h0 : addr ≠ 0) :
    (target addr size = none ∧ busWrite run addr size v s = .next (raiseFault .badAccess s)) ∨
    (∃ r, target addr size = some (.reg r) ∧ r ≠ .cmd ∧
      busWrite run addr size v s = .next { s with regs := writeRegs r v s.regs }) ∨
    (∃ a, target addr size = some (.bufD a) ∧ runsDist s = true ∧
      busWrite run addr size v s = .next (losesDist nchMax blkCap s)) ∨
    (∃ a, target addr size = some (.bufR a) ∧ runsRev s = true ∧ busWrite run addr size v s = .next (losesRev s)) ∨
    (∃ a, (target addr size = some (.bufD a) ∨ target addr size = some (.bufR a)) ∧
      busWrite run addr size v s = .next { s with mem := setWord s.mem a v }) := by
  unfold busWrite
  cases ht : target addr size with
  | none => simp
  | some tgt =>
    cases tgt with
    | reg r =>
      have hr : r ≠ .cmd := by
        rintro rfl
        unfold target at ht
        simp only at ht
        split_ifs at ht
        · simp only [Option.map_eq_some_iff, Target.reg.injEq, exists_eq_right] at ht
          exact h0 (BitVec.eq_of_toNat_eq (by simpa using regAt_cmd ht))
        · simp at ht
        · simp at ht
      cases r <;> simp_all
    | bufD a => cases hr : runsDist s <;> simp
    | bufR a => cases hr : runsRev s <;> simp

end Sys2Proof.Machine
end

