-- ==== Sys2Proof/Laws/Float.lean ====
section
/-! SUPPORT. What the arithmetic does at its edges: flushing, NaN operands, comparisons, and the one rounding of a fraction
to a whole number. -/

namespace Sys2Proof.Machine

open Sys2Proof.Config

/-! ### Classes -/

/-- A word is a NaN, an infinity, or finite. -/
theorem class_cases (w : F32) :
    (isNaN w = true ∧ isInf w = false ∧ isFinite w = false) ∨ (isNaN w = false ∧ isInf w = true ∧ isFinite w = false) ∨
      (isNaN w = false ∧ isInf w = false ∧ isFinite w = true) := by
  unfold isNaN isInf isFinite
  by_cases h : expField w = 255 <;> by_cases h' : fracField w = 0 <;> simp [h, h']

theorem isFinite_of_isSubnormal {w : F32} (h : isSubnormal w = true) : isFinite w = true := by
  simp only [isSubnormal, isFinite, Bool.and_eq_true, beq_iff_eq] at h ⊢
  simp [h.1]

/-- Flushing gives a zero for a subnormal and the word itself otherwise. -/
theorem flush_cases (w : F32) :
    (isSubnormal w = true ∧ flush w = signedZero (signBit w)) ∨ (isSubnormal w = false ∧ flush w = w) := by
  unfold flush
  cases h : isSubnormal w <;> simp

theorem isSubnormal_signedZero (b : Bool) : isSubnormal (signedZero b) = false := by cases b <;> decide
theorem isZero_signedZero (b : Bool) : isZero (signedZero b) = true := by cases b <;> decide
theorem isNaN_signedZero (b : Bool) : isNaN (signedZero b) = false := by cases b <;> decide
theorem signBit_signedZero (b : Bool) : signBit (signedZero b) = b := by cases b <;> decide
theorem isInf_signedInf (b : Bool) : isInf (signedInf b) = true := by cases b <;> decide
theorem signBit_signedInf (b : Bool) : signBit (signedInf b) = b := by cases b <;> decide

theorem isNaN_of_isSubnormal {w : F32} (h : isSubnormal w = true) : isNaN w = false := by
  have := isFinite_of_isSubnormal h
  rcases class_cases w with h' | h' | h' <;> simp_all

/-- Nothing is subnormal after flushing. -/
@[simp] theorem isSubnormal_flush (w : F32) : isSubnormal (flush w) = false := by
  rcases flush_cases w with ⟨_, h⟩ | ⟨h', h⟩ <;> simp [isSubnormal_signedZero, *]

@[simp] theorem flush_flush (w : F32) : flush (flush w) = flush w := by
  rcases flush_cases (flush w) with ⟨h, _⟩ | ⟨_, h⟩
  · simp at h
  · exact h

@[simp] theorem isNaN_flush (w : F32) : isNaN (flush w) = isNaN w := by
  rcases flush_cases w with ⟨h, h'⟩ | ⟨_, h'⟩
  · rw [h', isNaN_signedZero, isNaN_of_isSubnormal h]
  · rw [h']

@[simp] theorem signBit_flush (w : F32) : signBit (flush w) = signBit w := by
  rcases flush_cases w with ⟨_, h'⟩ | ⟨_, h'⟩
  · rw [h', signBit_signedZero]
  · rw [h']

@[simp] theorem isNaN_someNaN (src : NanSource) (a b : F32) : isNaN (someNaN src a b) = true := by
  unfold someNaN
  simp only
  split
  · assumption
  · decide

/-! ### The sign -/

theorem flipSign_toNat (w : F32) : (flipSign w).toNat % 2 ^ 31 = w.toNat % 2 ^ 31 := by
  unfold flipSign
  rw [BitVec.toNat_xor]
  rw [Nat.xor_mod_two_pow]
  simp

@[simp] theorem flipSign_flipSign (w : F32) : flipSign (flipSign w) = w := by
  unfold flipSign
  rw [BitVec.xor_assoc, BitVec.xor_self, BitVec.xor_zero]

theorem expField_flipSign (w : F32) : expField (flipSign w) = expField w := by
  have := flipSign_toNat w
  unfold expField
  omega

theorem fracField_flipSign (w : F32) : fracField (flipSign w) = fracField w := by
  have := flipSign_toNat w
  unfold fracField
  omega

@[simp] theorem signBit_flipSign (w : F32) : signBit (flipSign w) = !signBit w := by
  simp [signBit, flipSign]

@[simp] theorem isNaN_flipSign (w : F32) : isNaN (flipSign w) = isNaN w := by
  simp [isNaN, expField_flipSign, fracField_flipSign]
@[simp] theorem isInf_flipSign (w : F32) : isInf (flipSign w) = isInf w := by
  simp [isInf, expField_flipSign, fracField_flipSign]
@[simp] theorem isFinite_flipSign (w : F32) : isFinite (flipSign w) = isFinite w := by
  simp [isFinite, expField_flipSign]
@[simp] theorem isZero_flipSign (w : F32) : isZero (flipSign w) = isZero w := by
  simp [isZero, expField_flipSign, fracField_flipSign]
@[simp] theorem isSubnormal_flipSign (w : F32) : isSubnormal (flipSign w) = isSubnormal w := by
  simp [isSubnormal, expField_flipSign, fracField_flipSign]

/-- The value of the word with the other sign (00_scope.md R10, R11). -/
theorem units_flipSign (w : F32) : units (flipSign w) = -units w := by
  simp only [units, magUnits, signBit_flipSign, expField_flipSign, fracField_flipSign]
  cases signBit w <;> simp

/-! ### NaN operands (00_scope.md R11) -/

/-- A NaN operand of a sum gives a NaN. -/
theorem isNaN_fadd {a b : F32} (h : isNaN a = true ∨ isNaN b = true) : isNaN (fadd a b) = true := by
  unfold fadd sumFlushed
  rw [if_pos (by simpa using h)]
  simp

theorem isNaN_fsub {a b : F32} (h : isNaN a = true ∨ isNaN b = true) : isNaN (fsub a b) = true := by
  unfold fsub sumFlushed
  rw [if_pos (by simpa using h)]
  simp

theorem isNaN_fmul {a b : F32} (h : isNaN a = true ∨ isNaN b = true) : isNaN (fmul a b) = true := by
  unfold fmul fmulFlushed
  simp only
  rw [if_pos (by simpa using h)]
  simp

theorem isNaN_fdiv {a b : F32} (h : isNaN a = true ∨ isNaN b = true) : isNaN (fdiv a b) = true := by
  unfold fdiv fdivFlushed
  simp only
  rw [if_pos (by simpa using h)]
  simp

/-- Every comparison with a NaN operand is false. -/
theorem flt_nan {a b : F32} (h : isNaN a = true ∨ isNaN b = true) : flt a b = false := by
  rcases h with h | h <;> simp [flt, h]

theorem fle_nan {a b : F32} (h : isNaN a = true ∨ isNaN b = true) : fle a b = false := by
  rcases h with h | h <;> simp [fle, h]

/-- Two words that are no NaN are ordered. -/
theorem fle_or_flt {a b : F32} (ha : isNaN a = false) (hb : isNaN b = false) : fle a b = true ∨ flt b a = true := by
  simp only [fle, flt, ha, hb, Bool.not_false, Bool.true_and, decide_eq_true_eq]
  omega

theorem fle_trans {a b c : F32} (h : fle a b = true) (h' : fle b c = true) : fle a c = true := by
  simp only [fle, Bool.and_eq_true, Bool.not_eq_true', decide_eq_true_eq] at *
  exact ⟨⟨h.1.1, h'.1.2⟩, le_trans h.2 h'.2⟩

/-! ### Table functions: the properties imposed (00_scope.md R13) -/

/-- What is held to a property has it when the default does. -/
theorem held_ok {ok : F32 → Bool} {dflt : F32} (h : ok dflt = true) (r : F32) : ok (held ok dflt r) = true := by
  unfold held
  split <;> assumption

@[simp] theorem tanh_nan {x : F32} (h : isNaN x = true) : isNaN (tanh x) = true := by
  simp [tanh, h]

theorem tanhPos_inUnit (x : F32) : inUnit (tanhPos x) = true := held_ok (by decide) _

/-- Up to and including the word `PI` the sine lies in [0, 1] (R13; log 11). -/
theorem sinPos_inUnit {x : F32} (h : fle x lit.pi = true) : inUnit (sinPos x) = true := by
  have hd : (if fle x lit.pi then inUnit lit.zero else inSym lit.zero) = true := by split <;> decide
  simpa [sinPos, h] using held_ok (ok := fun r => if fle x lit.pi then inUnit r else inSym r) hd (flush (sinTable x))

/-- The two cases of the ghost phase (R190; log 19). -/
theorem ghostPhaseAfter_of_finite {p i : F32} (h : isInf i = false) : ghostPhaseAfter p i = wrap01 (fadd p i) := by
  simp [ghostPhaseAfter, h]
theorem phaseOk_ghostPhaseAfter_of_isInf (p : F32) {i : F32} (h : isInf i = true) :
    phaseOk (ghostPhaseAfter p i) = true := by
  simpa [ghostPhaseAfter, h] using held_ok (ok := phaseOk) (dflt := lit.zero) (by decide) (flush (freePhase p i))

/-! ### Rounding -/

/-- The rounding of a fraction: within half of the divisor, and the even neighbour at exactly half. -/
theorem roundDiv_spec (num den : Nat) (h : 0 < den) :
    2 * num ≤ 2 * (roundDiv num den * den) + den ∧ 2 * (roundDiv num den * den) ≤ 2 * num + den ∧
      ((2 * num = 2 * (roundDiv num den * den) + den ∨ 2 * (roundDiv num den * den) = 2 * num + den) →
        roundDiv num den % 2 = 0) := by
  have hd := Nat.div_add_mod num den
  have hm := Nat.mod_lt num h
  have hc : den * (num / den) = num / den * den := Nat.mul_comm _ _
  unfold roundDiv
  simp only
  split_ifs with h1 h2
  · omega
  · rcases Nat.mod_two_eq_zero_or_one (num / den) with h3 | h3
    · rw [h3]; simp only [Nat.add_zero]; omega
    · rw [h3, Nat.add_mul]; omega
  · rw [Nat.add_mul]; omega

/-- A whole number is its own rounding. -/
theorem roundDiv_mul (k den : Nat) (h : 0 < den) : roundDiv (k * den) den = k := by
  unfold roundDiv
  simp [Nat.mul_div_cancel _ h, h]

end Sys2Proof.Machine
end

