-- ==== Sys2Proof/Laws/PerInstr.lean ====
section
/-! SUPPORT. One lemma per instruction on the layout of its encoding: the leading byte, the bits 19:16, and the two fields
(30_encoding.md R90, R91, R96, R97). -/

namespace Sys2Proof.Laws.WordLayout

/-- Bits 31:24 of an instruction's word (R91; 0 for a selector value). -/
def lead : Instr → Nat
  | .cfgD _ _ => 0x10
  | .cfgR _ _ => 0x18
  | .procD _ _ => 0x20
  | .procR _ _ => 0x28
  | .nop => 0
  | .wsSoft => 0
  | .wsHard => 0
  | .wsTube => 0
  | .wsFold => 0
  | .wsSine => 0
  | .mapRoom => 0
  | .mapHall => 0
  | .mapPlate => 0
  | .mapSpring => 0
  | .mapShimmer => 0

/-- The value of bits 23:20 and of bits 15:0 of an instruction's word (R90; the selector value of R96 and R97). -/
def fields : Instr → Nat × Nat
  | .cfgD nch maxblk => (nch, maxblk)
  | .cfgR nch maxblk => (nch, maxblk)
  | .procD nch n => (nch, n)
  | .procR nch n => (nch, n)
  | .nop => (0, 0)
  | .wsSoft => (0, 0)
  | .wsHard => (0, 1)
  | .wsTube => (0, 2)
  | .wsFold => (0, 3)
  | .wsSine => (0, 4)
  | .mapRoom => (0, 0)
  | .mapHall => (0, 1)
  | .mapPlate => (0, 2)
  | .mapSpring => (0, 3)
  | .mapShimmer => (0, 4)

/-- The word of a well-formed instruction is its leading byte, the field of bits 23:20, zeros in bits 19:16, and the field
of bits 15:0. -/
def Statement (i : Instr) : Prop :=
  i.wellFormed = true →
    (encode i).toNat / 2 ^ 24 = lead i ∧ (encode i).toNat / 2 ^ 20 % 2 ^ 4 = (fields i).1 ∧
      (encode i).toNat / 2 ^ 16 % 2 ^ 4 = 0 ∧ (encode i).toNat % 2 ^ 16 = (fields i).2

/-- A command word by its parts. -/
theorem cmdWord_toNat {l nch len : Nat} (hl : l < 256) (hn : fitsNch nch = true) (hk : fitsLen len = true) :
    (cmdWord l nch len).toNat = l * 2 ^ 24 + nch * 2 ^ 20 + len := by
  simp only [fitsNch, fitsLen, decide_eq_true_eq] at hn hk
  simp only [cmdWord, BitVec.toNat_ofNat]
  omega

/-- The layout of a command word. -/
theorem cmdWord_layout {l nch len : Nat} (hl : l < 256) (h : (fitsNch nch && fitsLen len) = true) :
    (cmdWord l nch len).toNat / 2 ^ 24 = l ∧ (cmdWord l nch len).toNat / 2 ^ 20 % 2 ^ 4 = nch ∧
      (cmdWord l nch len).toNat / 2 ^ 16 % 2 ^ 4 = 0 ∧ (cmdWord l nch len).toNat % 2 ^ 16 = len := by
  simp only [Bool.and_eq_true] at h
  rw [cmdWord_toNat hl h.1 h.2]
  simp only [fitsNch, fitsLen, decide_eq_true_eq] at h
  omega

theorem nop : Statement .nop := fun _ => by decide
theorem cfgD (nch maxblk : Nat) : Statement (.cfgD nch maxblk) := fun h => cmdWord_layout (by decide) h
theorem cfgR (nch maxblk : Nat) : Statement (.cfgR nch maxblk) := fun h => cmdWord_layout (by decide) h
theorem procD (nch n : Nat) : Statement (.procD nch n) := fun h => cmdWord_layout (by decide) h
theorem procR (nch n : Nat) : Statement (.procR nch n) := fun h => cmdWord_layout (by decide) h
theorem wsSoft : Statement .wsSoft := fun _ => by decide
theorem wsHard : Statement .wsHard := fun _ => by decide
theorem wsTube : Statement .wsTube := fun _ => by decide
theorem wsFold : Statement .wsFold := fun _ => by decide
theorem wsSine : Statement .wsSine := fun _ => by decide
theorem mapRoom : Statement .mapRoom := fun _ => by decide
theorem mapHall : Statement .mapHall := fun _ => by decide
theorem mapPlate : Statement .mapPlate := fun _ => by decide
theorem mapSpring : Statement .mapSpring := fun _ => by decide
theorem mapShimmer : Statement .mapShimmer := fun _ => by decide

end Sys2Proof.Laws.WordLayout
end

