-- ==== Sys2Proof/Laws/Streams.lean ====
section
/-! SUPPORT. A sweep over a block computes, for each channel by itself, the stage over that channel's samples in order: the
loop nest and the other channel cannot be seen (45_distortion_pipeline.md R204, 49_reverb_pipeline_and_system.md R283,
92_eei_decisions.md D43). -/

namespace Sys2Proof.Machine

open Sys2Proof.Config

/-! ### stageRun -/

section Run

variable {α σ : Type} (f : α → σ → F32 × σ)

@[simp] theorem stageRun_nil (st : σ) : stageRun f [] st = ([], st) := rfl

theorem stageRun_cons (x : α) (xs : List α) (st : σ) :
    stageRun f (x :: xs) st = ((f x st).1 :: (stageRun f xs (f x st).2).1, (stageRun f xs (f x st).2).2) := rfl

theorem stageRun_append (xs ys : List α) (st : σ) :
    stageRun f (xs ++ ys) st =
      ((stageRun f xs st).1 ++ (stageRun f ys (stageRun f xs st).2).1, (stageRun f ys (stageRun f xs st).2).2) := by
  induction xs generalizing st with
  | nil => rfl
  | cons x xs ih => simp [stageRun_cons, ih]

@[simp] theorem stageRun_length (xs : List α) (st : σ) : (stageRun f xs st).1.length = xs.length := by
  induction xs generalizing st with
  | nil => rfl
  | cons x xs ih => simp [stageRun_cons, ih]

end Run

@[simp] theorem popRun_nil (c : Channel) (st : RevState × Memory) : popRun c [] st = [] := rfl

theorem popRun_cons (c : Channel) (p : Nat × F32) (t : List (Nat × F32)) (st : RevState × Memory) :
    popRun c (p :: t) st = (pop p.1 c p.2 st).1 :: popRun c t (pop p.1 c p.2 st).2 := rfl

@[simp] theorem blockCalls_snd (d : Nat) (xs : List F32) : (blockCalls d xs).map Prod.snd = xs := by
  simp [blockCalls, Function.comp_def]

/-! ### The positions of one channel -/

theorem nodup_channels (nch : Nat) : (channels nch).Nodup := (List.nodup_finRange _).filter _

theorem nodup_positions (nch len : Nat) : (positions nch len).Nodup := by
  unfold positions
  rw [List.nodup_flatMap]
  refine ⟨fun n _ => (nodup_channels nch).map fun c c' h => (Prod.mk.inj h).2, ?_⟩
  refine List.nodup_range.pairwise_of_forall_ne fun n _ n' _ hne => ?_
  intro p hp hp'
  simp only [List.mem_map] at hp hp'
  obtain ⟨c, _, rfl⟩ := hp
  obtain ⟨c', _, h⟩ := hp'
  exact hne (Prod.mk.inj h).1.symm

/-- The sample indexes of channel `c` among positions, in their order. -/
def framesOf (c : Channel) (l : List (Nat × Channel)) : List Nat := l.filterMap fun p => if p.2 = c then some p.1 else none

theorem framesOf_cons_same (c : Channel) (n : Nat) (l : List (Nat × Channel)) :
    framesOf c ((n, c) :: l) = n :: framesOf c l := by simp [framesOf]

theorem framesOf_cons_other {c c' : Channel} (h : c' ≠ c) (n : Nat) (l : List (Nat × Channel)) :
    framesOf c ((n, c') :: l) = framesOf c l := by simp [framesOf, h]

theorem mem_framesOf {c : Channel} {n : Nat} {l : List (Nat × Channel)} : n ∈ framesOf c l ↔ (n, c) ∈ l := by
  simp only [framesOf, List.mem_filterMap, Option.ite_none_right_eq_some, Option.some.injEq]
  constructor
  · rintro ⟨⟨_, _⟩, hp, rfl, rfl⟩; exact hp
  · intro h; exact ⟨_, h, rfl, rfl⟩

theorem framesOf_row {c : Channel} (n : Nat) {cs : List Channel} (hc : c ∈ cs) (hd : cs.Nodup) :
    framesOf c (cs.map fun c' => (n, c')) = [n] := by
  induction cs with
  | nil => cases hc
  | cons c' cs ih =>
    rw [List.nodup_cons] at hd
    rw [List.map_cons]
    by_cases h : c' = c
    · subst h
      rw [framesOf_cons_same]
      simp only [List.cons.injEq, true_and]
      rw [List.eq_nil_iff_forall_not_mem]
      intro k hk
      rw [mem_framesOf, List.mem_map] at hk
      obtain ⟨c'', hm, he⟩ := hk
      exact hd.1 ((Prod.mk.inj he).2 ▸ hm)
    · rw [framesOf_cons_other h]
      exact ih ((List.mem_cons.mp hc).resolve_left fun e => h e.symm) hd.2

/-- A live channel's samples are visited in order, each once. -/
theorem framesOf_positions {c : Channel} {nch : Nat} (hc : c.val < nch) (len : Nat) :
    framesOf c (positions nch len) = List.range len := by
  have hm : c ∈ channels nch := by simp [channels, hc]
  unfold framesOf positions
  rw [List.filterMap_flatMap]
  have h : ∀ n, List.filterMap (fun p => if p.2 = c then some p.1 else none) ((channels nch).map fun c' => (n, c')) = [n] :=
    fun n => framesOf_row n hm (nodup_channels nch)
  simp only [h]
  exact List.flatMap_singleton' _

/-! ### A sweep, channel by channel -/

/-- What a sweep does to one channel. `R c st st'` says that the two stage states agree on what channel `c` reads and writes:
then the stage gives equal outputs and keeps the agreement, and a sample of another channel keeps it. -/
theorem sweep_channel {σ : Type} (addr : Channel → Nat → Nat) (f : Channel → F32 → σ → F32 × σ) (R : Channel → σ → σ → Prop)
    (hown : ∀ c x st st', R c st st' → (f c x st).1 = (f c x st').1 ∧ R c (f c x st).2 (f c x st').2)
    (hother : ∀ c c' x st st', c' ≠ c → R c st st' → R c (f c' x st).2 st')
    (c : Channel) (l : List (Nat × Channel)) (hl : l.Nodup)
    (hdis : ∀ p ∈ l, ∀ q ∈ l, p ≠ q → addr p.2 p.1 + 4 ≤ addr q.2 q.1 ∨ addr q.2 q.1 + 4 ≤ addr p.2 p.1)
    (m : Memory) (st st' : σ) (h : R c st st') :
    ((framesOf c l).map fun n => memWord (sweep addr (fun _ c x st => f c x st) l m st).1 (addr c n)) =
      (stageRun (f c) ((framesOf c l).map fun n => memWord m (addr c n)) st').1 ∧
    R c (sweep addr (fun _ c x st => f c x st) l m st).2
      (stageRun (f c) ((framesOf c l).map fun n => memWord m (addr c n)) st').2 := by
  induction l generalizing m st st' with
  | nil => exact ⟨rfl, h⟩
  | cons p t ih =>
    obtain ⟨n, c'⟩ := p
    rw [List.nodup_cons] at hl
    have hdis' : ∀ p ∈ t, ∀ q ∈ t, p ≠ q → addr p.2 p.1 + 4 ≤ addr q.2 q.1 ∨ addr q.2 q.1 + 4 ≤ addr p.2 p.1 :=
      fun p hp q hq => hdis p (List.mem_cons_of_mem _ hp) q (List.mem_cons_of_mem _ hq)
    have hhead : ∀ p ∈ t, addr p.2 p.1 + 4 ≤ addr c' n ∨ addr c' n + 4 ≤ addr p.2 p.1 := fun p hp =>
      hdis p (List.mem_cons_of_mem _ hp) (n, c') List.mem_cons_self fun e => hl.1 (e ▸ hp)
    -- the words still to come are untouched by this sample
    have hrest : ∀ y, ((framesOf c t).map fun k => memWord (setWord m (addr c' n) y) (addr c k)) =
        (framesOf c t).map fun k => memWord m (addr c k) := fun y =>
      List.map_congr_left fun k hk =>
        memWord_setWord_of_disjoint _ _ (hhead (k, c) (mem_framesOf.mp hk))
    rw [sweep_cons]
    by_cases hc : c' = c
    · subst hc
      obtain ⟨hout, hR⟩ := hown c' (memWord m (addr c' n)) st st' h
      have := ih hl.2 hdis' (setWord m (addr c' n) (f c' (memWord m (addr c' n)) st).1) _ _ hR
      rw [hrest] at this
      rw [framesOf_cons_same, List.map_cons, List.map_cons, stageRun_cons]
      refine ⟨?_, this.2⟩
      rw [this.1, sweep_memWord_of_disjoint _ _ _ _ _ _ fun k c'' hk => (hhead (k, c'') hk).symm, memWord_setWord_same, hout]
    · have := ih hl.2 hdis' (setWord m (addr c' n) (f c' (memWord m (addr c' n)) st).1) _ st'
        (hother c c' (memWord m (addr c' n)) st st' hc h)
      rw [hrest] at this
      rw [framesOf_cons_other hc]
      exact this

/-- A sweep over a whole block: channel `c`'s words are the stage over its samples, and the stage's state agrees with that
run's on what the channel reads and writes. -/
theorem sweep_positions {σ : Type} {addr : Channel → Nat → Nat} (f : Channel → F32 → σ → F32 × σ) (R : Channel → σ → σ → Prop)
    (hown : ∀ c x st st', R c st st' → (f c x st).1 = (f c x st').1 ∧ R c (f c x st).2 (f c x st').2)
    (hother : ∀ c c' x st st', c' ≠ c → R c st st' → R c (f c' x st).2 st') {nch len : Nat} {c : Channel} (hc : c.val < nch)
    (hdis : ∀ n n' c c', n < len → n' < len → (n, c) ≠ (n', c') →
      addr c n + 4 ≤ addr c' n' ∨ addr c' n' + 4 ≤ addr c n) (m : Memory) (st st' : σ) (h : R c st st') :
    channelWords addr c len (sweep addr (fun _ c x st => f c x st) (positions nch len) m st).1 =
      (stageRun (f c) (channelWords addr c len m) st').1 ∧
    R c (sweep addr (fun _ c x st => f c x st) (positions nch len) m st).2
      (stageRun (f c) (channelWords addr c len m) st').2 := by
  have := sweep_channel addr f R hown hother c (positions nch len) (nodup_positions nch len)
    (fun p hp q hq hne => hdis p.1 q.1 p.2 q.2 (mem_positions.mp hp).1 (mem_positions.mp hq).1 hne) m st st' h
  rwa [framesOf_positions hc] at this

/-! ### The stages -/

/-- The cascade of one channel reads and writes that channel's taps only (42_biquad_iir_cascade.md R151). -/
theorem cuts_sweep (k : RevConsts) {nch len : Nat} {c : Channel} (hc : c.val < nch) (hlen : len ≤ blkCap) (m : Memory)
    (rs : RevState) :
    channelWords bufRAddr c len (sweep bufRAddr (fun _ c x rs => cuts k c x rs) (positions nch len) m rs).1 =
      (cutsRun k c (channelWords bufRAddr c len m) rs).1 ∧
    (sweep bufRAddr (fun _ c x rs => cuts k c x rs) (positions nch len) m rs).2.lc[c] =
      (cutsRun k c (channelWords bufRAddr c len m) rs).2.lc[c] ∧
    (sweep bufRAddr (fun _ c x rs => cuts k c x rs) (positions nch len) m rs).2.hc[c] =
      (cutsRun k c (channelWords bufRAddr c len m) rs).2.hc[c] := by
  obtain ⟨hw, h1, h2⟩ := sweep_positions (addr := bufRAddr) (len := len) (cuts k) (fun c a b => a.lc[c] = b.lc[c] ∧ a.hc[c] = b.hc[c])
    (fun c x a b h => by simp [cuts, h.1, h.2])
    (fun c c' x a b hne h => by
      have : c'.val ≠ c.val := fun e => hne (Fin.ext e)
      simpa [cuts, Vector.getElem_set, this] using h)
    hc (fun n n' c c' hn hn' => bufRAddr_disjoint (by omega) (by omega)) m rs rs ⟨rfl, rfl⟩
  exact ⟨hw, h1, h2⟩

/-- The ghost stage of one channel reads and writes that channel's filter words only (44_ghost_stage.md R189). -/
theorem ghost_sweep (k : DistConsts) {nch len : Nat} {c : Channel} (hc : c.val < nch) (hlen : len ≤ blkCap) (m : Memory)
    (ds : DistState) :
    channelWords bufDAddr c len (sweep bufDAddr (fun _ c x ds => ghost k c x ds) (positions nch len) m ds).1 =
      (ghostRun k c (channelWords bufDAddr c len m) ds).1 ∧
    (sweep bufDAddr (fun _ c x ds => ghost k c x ds) (positions nch len) m ds).2.gs1[c] =
      (ghostRun k c (channelWords bufDAddr c len m) ds).2.gs1[c] ∧
    (sweep bufDAddr (fun _ c x ds => ghost k c x ds) (positions nch len) m ds).2.gs2[c] =
      (ghostRun k c (channelWords bufDAddr c len m) ds).2.gs2[c] := by
  obtain ⟨hw, h1, h2⟩ := sweep_positions (addr := bufDAddr) (len := len) (ghost k) (fun c a b => a.gs1[c] = b.gs1[c] ∧ a.gs2[c] = b.gs2[c])
    (fun c x a b h => by simp [ghost, svf, h.1, h.2])
    (fun c c' x a b hne h => by
      have : c'.val ≠ c.val := fun e => hne (Fin.ext e)
      simpa [ghost, svf, Vector.getElem_set, this] using h)
    hc (fun n n' c c' hn hn' => bufDAddr_disjoint (by omega) (by omega)) m ds ds ⟨rfl, rfl⟩
  exact ⟨hw, h1, h2⟩

theorem delayIndex_lt (w d : Nat) : delayIndex w d < delayCap := by
  unfold delayIndex
  have h1 := Int.emod_nonneg ((w : Int) - d) (show (delayCap : Int) ≠ 0 by decide)
  have h2 := Int.emod_lt_of_pos ((w : Int) - d) (show (0 : Int) < (delayCap : Int) by decide)
  omega

/-- The delay line of one channel reads and writes that channel's cursor and words of `DLY` only, as long as every cursor is
below the capacity (47_circular_delay_buffer.md R251 to R253). -/
theorem pop_sweep (d : Nat) {nch len : Nat} {c : Channel} (hc : c.val < nch) (hlen : len ≤ blkCap) (wet : Memory)
    (rs : RevState) (dly : Memory) (hcur : ∀ c : Channel, rs.wcur[c] < delayCap) :
    channelWords wetAddr c len (sweep wetAddr (fun _ c x st => pop d c x st) (positions nch len) wet (rs, dly)).1 =
      (stageRun (pop d c) (channelWords wetAddr c len wet) (rs, dly)).1 ∧
    ∀ i, i < delayCap →
      memWord (sweep wetAddr (fun _ c x st => pop d c x st) (positions nch len) wet (rs, dly)).2.2 (dlyAddr c i) =
        memWord (stageRun (pop d c) (channelWords wetAddr c len wet) (rs, dly)).2.2 (dlyAddr c i) := by
  obtain ⟨hw, _, _, h⟩ := sweep_positions (addr := wetAddr) (len := len) (pop d)
    (fun c a b => a.1.wcur[c] = b.1.wcur[c] ∧ (∀ c : Channel, a.1.wcur[c] < delayCap) ∧
      ∀ i, i < delayCap → memWord a.2 (dlyAddr c i) = memWord b.2 (dlyAddr c i))
    (fun c x a b h => by
      obtain ⟨hcu, hlt, hm⟩ := h
      have hword : ∀ i, i < delayCap → memWord (setWord a.2 (dlyAddr c a.1.wcur[c]) x) (dlyAddr c i) =
          memWord (setWord b.2 (dlyAddr c b.1.wcur[c]) x) (dlyAddr c i) := by
        intro i hi
        by_cases he : i = a.1.wcur[c]
        · rw [he, ← hcu, memWord_setWord_same, memWord_setWord_same]
        · rw [← hcu, memWord_setWord_of_disjoint _ _ (dlyAddr_disjoint hi (hlt c) fun e => he (Prod.mk.inj e).1),
            memWord_setWord_of_disjoint _ _ (dlyAddr_disjoint hi (hlt c) fun e => he (Prod.mk.inj e).1), hm i hi]
      refine ⟨?_, ?_, ?_, hword⟩
      · show memWord (setWord a.2 (dlyAddr c a.1.wcur[c]) x) (dlyAddr c (delayIndex a.1.wcur[c] d)) =
          memWord (setWord b.2 (dlyAddr c b.1.wcur[c]) x) (dlyAddr c (delayIndex b.1.wcur[c] d))
        rw [← hcu]
        simpa only [← hcu] using hword _ (delayIndex_lt a.1.wcur[c] d)
      · simp [pop, hcu]
      · intro c'
        have := Nat.mod_lt (a.1.wcur[c] + 1) (show 0 < delayCap by decide)
        have := hlt c'
        simp only [pop, Fin.getElem_fin, Vector.getElem_set] at *
        split <;> omega)
    (fun c c' x a b hne h => by
      obtain ⟨hcu, hlt, hm⟩ := h
      have hv : c'.val ≠ c.val := fun e => hne (Fin.ext e)
      refine ⟨by simpa [pop, Vector.getElem_set, hv] using hcu, ?_, fun i hi => ?_⟩
      · intro c''
        have := Nat.mod_lt (a.1.wcur[c'] + 1) (show 0 < delayCap by decide)
        have := hlt c''
        simp only [pop, Fin.getElem_fin, Vector.getElem_set] at *
        split <;> omega
      · rw [← hm i hi]
        exact memWord_setWord_of_disjoint _ _ (dlyAddr_disjoint hi (hlt c') fun e => hne (Prod.mk.inj e).2.symm))
    hc (fun n n' c c' hn hn' => wetAddr_disjoint (by omega) (by omega)) wet (rs, dly) (rs, dly) ⟨rfl, hcur, fun _ _ => rfl⟩
  exact ⟨hw, h⟩

/-- The calls of one block are the stage with the block's delay. -/
theorem popCalls_blockCalls (d : Nat) (c : Channel) (xs : List F32) (st : RevState × Memory) :
    popCalls c (blockCalls d xs) st = stageRun (pop d c) xs st := by
  unfold popCalls
  induction xs generalizing st with
  | nil => rfl
  | cons x xs ih =>
    have e : blockCalls d (x :: xs) = (d, x) :: blockCalls d xs := rfl
    rw [e, stageRun_cons, stageRun_cons, ih]

end Sys2Proof.Machine
end

