-- ==== Sys2Proof/Tests/Slice0.lean ====
section
/-! SUPPORT. The model's own tests: ill-formed terms refused, words written out from the spec's encodings, one or two small
vectors of 95_test_vectors.md per instruction, and a witness for the hypotheses of every statement that has some. -/

namespace Sys2Proof.Tests

set_option Elab.async false

open Sys2Proof Sys2Proof.Machine Sys2Proof.Config

/-! ### Ill-formed terms (30_encoding.md R93) -/

theorem test_wf_cfgD_nch : (Instr.cfgD 16 1).wellFormed = false := by decide
theorem test_wf_cfgD_len : (Instr.cfgD 1 65536).wellFormed = false := by decide
theorem test_wf_cfgR_nch : (Instr.cfgR 16 1).wellFormed = false := by decide
theorem test_wf_cfgR_len : (Instr.cfgR 1 65536).wellFormed = false := by decide
theorem test_wf_procD_nch : (Instr.procD 16 1).wellFormed = false := by decide
theorem test_wf_procD_len : (Instr.procD 1 65536).wellFormed = false := by decide
theorem test_wf_procR_nch : (Instr.procR 16 1).wellFormed = false := by decide
theorem test_wf_procR_len : (Instr.procR 1 65536).wellFormed = false := by decide
theorem test_wf_largest : (Instr.procR 15 65535).wellFormed = true := by decide

/-! ### Decoding: each word bit by bit from the encoding strings of R91 and the selector values of R96, R97 -/

theorem test_decode_nop : decodeCmd 0b00000000000000000000000000000000#32 = .ok .nop := by decide
theorem test_decode_cfgD : decodeCmd 0b00010000001000000000001000000000#32 = .ok (.cfgD 2 512) := by decide
theorem test_decode_cfgR : decodeCmd 0b00011000000100000000000001000000#32 = .ok (.cfgR 1 64) := by decide
theorem test_decode_procD : decodeCmd 0b00100000001000000000000000000100#32 = .ok (.procD 2 4) := by decide
theorem test_decode_procR : decodeCmd 0b00101000000100000000000000001000#32 = .ok (.procR 1 8) := by decide
theorem test_decode_wsSoft : decodeDType 0 = .ok .wsSoft := by decide
theorem test_decode_wsHard : decodeDType 1 = .ok .wsHard := by decide
theorem test_decode_wsTube : decodeDType 2 = .ok .wsTube := by decide
theorem test_decode_wsFold : decodeDType 3 = .ok .wsFold := by decide
theorem test_decode_wsSine : decodeDType 4 = .ok .wsSine := by decide
theorem test_decode_mapRoom : decodeRType 0 = .ok .mapRoom := by decide
theorem test_decode_mapHall : decodeRType 1 = .ok .mapHall := by decide
theorem test_decode_mapPlate : decodeRType 2 = .ok .mapPlate := by decide
theorem test_decode_mapSpring : decodeRType 3 = .ok .mapSpring := by decide
theorem test_decode_mapShimmer : decodeRType 4 = .ok .mapShimmer := by decide
/-- Field places: every bit of `NCH` and `LEN` set, and the byte order of R66 (word 0x2FF0FFFF has `E` and `Z1` set). -/
theorem test_decode_bytes : decodeBytes [0xFF, 0xFF, 0xF0, 0x28, 0xAA] = .ok (.procR 15 65535, [0xAA]) := by decide
theorem test_decode_truncated : decodeBytes [0x00, 0x00, 0x00] = .error .truncated := by decide
/-- V123. -/
theorem test_decode_illegal :
    decodeCmd 0x30000000 = .error .reservedOp ∧ decodeCmd 0x21200004 = .error .reservedBits ∧
    decodeCmd 0x08000000 = .error .nopField ∧ decodeCmd 0x00000001 = .error .nopField ∧
    decodeCmd 0x10210200 = .error .reservedBits ∧ decodeCmd 0xFFFFFFFF = .error .reservedOp := by decide
theorem test_decode_reserved_type : decodeDType 5 = .error .reservedType ∧ decodeRType 0xFFFFFFFF = .error .reservedType := by
  decide
/-- The table's numbering through the bytes. -/
theorem test_decodeTableWord : decodeTableWord 32 0x18100040 = some (.cfgR 1 64) ∧ decodeTableWord 32 0x00000001 = none := by
  decide

/-! ### Small states -/

/-- The state an outcome goes on with. -/
def after (o : Host.Outcome State Fault Refusal) : State :=
  match o with
  | .next t => t
  | .fault _ => State.reset
  | .refused _ => State.reset

theorem exec_after (i : Instr) (s : State) : exec i s = .next (after (exec i s)) := by
  obtain ⟨t, h⟩ := exec_next i s
  rw [h]; rfl

/-- The state after reset with the sample in flight `v`. -/
def withX (v : F32) : State := { State.reset with x := v }

/-- The state after reset with the host actions `l` to come. -/
def withHost (l : List HostAction) : State := { State.reset with host := l }

/-- Zero taps and a distortion engine of one channel and 64 samples at 48000 Hz, with the parameters given, ghost off, destroy
0, and the words of `l` at the start of `BUF_D[0]`. -/
def distState (type drive tone mix output : Word) (l : List F32) : State :=
  let g := State.reset.regs
  { State.reset with
    regs := { g with dType := type, dDrive := drive, dTone := tone, dMix := mix, dOutput := output }
    ds := configuredDist 0x473B8000 1 64
    mem := (l.foldl (fun p w => (setWord p.1 p.2 w, p.2 + 4)) (State.reset.mem, 0x10000)).1 }

/-- A reverb engine of one channel and 64 samples at the rate `fs`, with the parameters given. -/
def revState (fs type predelay mix mod : Word) : State :=
  let g := State.reset.regs
  { State.reset with
    regs := { g with rSize := 0x3E99999A, rDamping := 0x3F333333, rType := type, rPredelay := predelay, rMix := mix,
                     rMod := mod, rLowcut := 0x42C80000, rHighcut := 0x45FA0000 }
    rs := configuredRev fs 1 64
    dly := clearedDelay }

/-! ### Vectors of 95_test_vectors.md -/

/-- R295. -/
theorem test_nop : (after (step (withHost [.write 0 4 0]))).trap = none := by decide
/-- The example of R203. -/
theorem test_cfgD :
    let t := after (exec (.cfgD 2 512) { State.reset with regs := { State.reset.regs with fsD := 0x473B8000 } })
    t.ds.fs = 0x473B8000#32 ∧ t.ds.nch = 2 ∧ t.ds.maxblk = 512 ∧ statusWord t = 0x00000001#32 := by decide +kernel
/-- V125: three channels. -/
theorem test_cfgD_fault :
    statusWord (after (exec (.cfgD 3 512) { State.reset with regs := { State.reset.regs with fsD := 0x473B8000 } })) =
      0x00000308#32 := by decide +kernel
/-- The example of R290. -/
theorem test_cfgR :
    let t := after (exec (.cfgR 1 64) { State.reset with regs := { State.reset.regs with fsR := 0x473B8000 } })
    t.rs.inc = 0x3883126F#32 ∧ t.rs.nch = 1 ∧ statusWord t = 0x00000002#32 := by decide +kernel
/-- V126 for the reverb engine: a rate below `FS_MIN`. -/
theorem test_cfgR_fault : statusWord (after (exec (.cfgR 1 512) State.reset)) = 0x00000308#32 := by decide +kernel
/-- V74: three samples of one block, the state carried along. -/
theorem test_procD :
    let t := after (exec (.procD 1 3)
      (distState 1 0x3F800000 0x3F000000 0x3F800000 0x3F800000 [0x3FC00000, 0xBFC00000, 0x3E800000]))
    memWord t.mem 0x10000 = 0x3F0147AE#32 ∧ memWord t.mem 0x10004 = 0xBE8292A3#32 ∧ memWord t.mem 0x10008 = 0x3753C000#32 ∧
      t.ds.toneY1[0] = 0x3753C000#32 := by decide +kernel
/-- V131: `FOLD_DIVERGE` in the main pass. -/
theorem test_procD_diverges :
    statusWord (after (exec (.procD 1 1) (distState 3 0x41C80000 0 0x3F800000 0x3F800000 [0x40400000]))) =
      0x00000709#32 := by decide +kernel
/-- V82 (third), V85 (second): the `RA_*` registers after an empty block. -/
theorem test_procR :
    (after (exec (.procR 1 0) (revState 0x473B8000 0 0 0x3E99999A 0))).regs.ra =
      ⟨0x3DF5C290, 0x3F2147AE, 0x3E99999A, 0x3F333333, 0x3F000000, 0⟩ := by decide +kernel
/-- V130: `BAD_DELAY`. -/
theorem test_procR_fault :
    statusWord (after (exec (.procR 1 1) (revState 0x483B8000 0 0x452AB000 0 0))) = 0x0000060A#32 := by decide +kernel
/-- V1. -/
theorem test_wsSoft :
    (after (exec .wsSoft (withX 0))).x = 0#32 ∧ (after (exec .wsSoft (withX 0x80000000))).x = 0x80000000#32 := by
  decide +kernel
/-- V4: 1.5, -3, 0.25. -/
theorem test_wsHard :
    (after (exec .wsHard (withX 0x3FC00000))).x = 0x3F800000#32 ∧
    (after (exec .wsHard (withX 0xC0400000))).x = 0xBF800000#32 ∧
    (after (exec .wsHard (withX 0x3E800000))).x = 0x3E800000#32 := by decide +kernel
/-- V5. -/
theorem test_wsTube :
    (after (exec .wsTube (withX 0))).x = 0#32 ∧ (after (exec .wsTube (withX 0x80000000))).x = 0#32 := by decide +kernel
/-- V9, V10: 1.7 after two reflections, 25 after 25. -/
theorem test_wsFold :
    (after (exec .wsFold (withX 0x3FD9999A))).x = 0xBE999998#32 ∧ (after (exec .wsFold (withX 0x41C80000))).x = 0#32 := by
  decide +kernel
/-- V11: 64.5 after exactly 64 reflections, 65 diverges. -/
theorem test_wsFold_reach :
    (after (exec .wsFold (withX 0x42810000))).x = 0x3F000000#32 ∧
    (after (exec .wsFold (withX 0x42820000))).trap = some .foldDiverge := by decide +kernel
/-- R126: +0, and the NaN of an infinity. -/
theorem test_wsSine :
    (after (exec .wsSine (withX 0))).x = 0#32 ∧ isNaN (after (exec .wsSine (withX 0x7F800000))).x = true := by
  constructor
  · decide +kernel
  · show isNaN (sin (fmul 0x7F800000#32 lit.pi2)) = true
    rw [show fmul 0x7F800000#32 lit.pi2 = 0x7F800000#32 from by decide +kernel]
    unfold sin
    rw [if_pos (by decide)]
    unfold someNaN
    simp only
    split
    · assumption
    · decide

/-- The state after reset with a snapshot of size 0.3 and damping 0.7 (V82, V83). -/
def mapState : State := { State.reset with pr := { State.reset.pr with size := 0x3E99999A, damping := 0x3F333333 } }

/-- V82, third. -/
theorem test_mapRoom :
    (after (exec .mapRoom mapState)).rk.ra = ⟨0x3DF5C290, 0x3F2147AE, 0, 0, 0x3F000000, 0⟩ := by decide +kernel
/-- V83, third. -/
theorem test_mapHall :
    (after (exec .mapHall mapState)).rk.ra = ⟨0x3E99999A, 0x3E0F5C29, 0, 0, 0x3F800000, 0⟩ := by decide +kernel
/-- V84: the open rows. -/
theorem test_mapPlate : (after (exec .mapPlate mapState)).rk.ra.width = rowPlate.width := rfl
theorem test_mapSpring : (after (exec .mapSpring mapState)).rk.ra.width = rowSpring.width := rfl
theorem test_mapShimmer : (after (exec .mapShimmer mapState)).rk.ra.width = rowShimmer.width := rfl

/-! ### Vectors of the unit operations, the bus and the faults -/

/-- V20: `TONE` at tone 0.5, two inputs of 1. -/
theorem test_tone :
    let k := deriveTone 0x3F000000 State.reset.dk
    let a := tone k 0 0x3F800000 State.reset.ds
    k.alpha = 0x3EFD70A4#32 ∧ k.beta = 0x3F0147AE#32 ∧ a.1 = 0x3F0147AE#32 ∧ (tone k 0 0x3F800000 a.2).1 = 0x3F41460A#32 := by
  decide +kernel
/-- V30: `BQ` for the inputs 1, 0, 0. -/
theorem test_bq :
    let k : Coefs := ⟨0x3F000000, 0x3E800000, 0, 0xBF000000, 0⟩
    let a := bq zeroTaps k 0x3F800000
    let b := bq a.2 k 0
    let c := bq b.2 k 0
    a.1 = 0x3F000000#32 ∧ b.1 = 0x3F000000#32 ∧ c = (0x3E800000#32, ⟨0, 0, 0x3E800000, 0x3F000000⟩) := by decide +kernel
/-- V92, V93: cursor wrap and read wrap. -/
theorem test_pop :
    let rs := { State.reset.rs with wcur := #v[524287, 0] }
    let a := pop 1 0 0x41100000 (rs, setWord clearedDelay (dlyAddr 0 524286) 0x40E00000)
    let b := pop 3 1 0x3F800000 (rs, setWord clearedDelay (dlyAddr 1 524285) 0x41000000)
    a.1 = 0x40E00000#32 ∧ a.2.1.wcur[0] = 0 ∧ b.1 = 0x41000000#32 ∧ b.2.1.wcur[1] = 1 := by decide +kernel
/-- V102. -/
theorem test_wrap01 :
    wrap01 0x3FA00000 = 0x3E800000#32 ∧ wrap01 0x40200000 = 0x3F000000#32 ∧ wrap01 0x3F800000 = 0#32 ∧
      wrap01 0x3F7FFFFF = 0x3F7FFFFF#32 := by decide +kernel
/-- The ghost phase from 0.75 by a step of 1.5 (R190); and by an infinite step (R25; log 19). -/
theorem test_ghostPhaseAfter :
    ghostPhaseAfter 0x3F400000 0x3FC00000 = 0x3E800000#32 ∧ phaseOk (ghostPhaseAfter 0 0x7F800000) = true :=
  ⟨by decide +kernel, phaseOk_ghostPhaseAfter_of_isInf 0 (by decide)⟩
/-- V86, V87: predelay lengths. -/
theorem test_predelay :
    predelayOf 0x41200000 0x473B8000 = some (true, 480) ∧ predelayOf 0x3DCCCCCD 0x472C4400 = some (true, 4) ∧
    predelayOf 0x452AB000 0x483B8000 = none := by decide +kernel
/-- V132: a misaligned read and a reserved register. -/
theorem test_bad_access :
    statusWord (after (step (withHost [.read 0x006 4]))) = 0x00000908#32 ∧
    statusWord (after (step (withHost [.write 0x0FC 4 1]))) = 0x00000908#32 ∧
    statusWord (after (step (withHost [.write 0x100 4 1]))) = 0x00000908#32 := by decide +kernel
/-- V138: the bytes of a stored word. -/
theorem test_bytes :
    let t := after (step (withHost [.write 0x10000 4 0x3F800000]))
    [memByte t.mem 0x10000, memByte t.mem 0x10001, memByte t.mem 0x10002, memByte t.mem 0x10003] = [0x00, 0x00, 0x80, 0x3F] := by
  decide +kernel
/-- P5, V133: after `NOT_CONFIGURED` a command is ignored. -/
theorem test_faulted :
    let t := after (step (withHost [.write 0 4 0x20100004, .write 0 4 0x10100040]))
    statusWord t = 0x00000208#32 ∧ statusWord (after (step t)) = 0x00000208#32 := by decide +kernel

/-! ### Witnesses: each statement's hypotheses hold together somewhere -/

theorem witness_DecodeEncodeRoundTrip :
    (Instr.procR 15 65535).wellFormed = true ∧ (Instr.procR 15 65535).format = .cmd ∧ Instr.wsFold.wellFormed = true := by decide
theorem witness_DecodedWordsAreEncodings :
    decode .cmd 0x28F0FFFF = .ok (.procR 15 65535) ∧ decode .dtype 4 = .ok .wsSine ∧ decode .rtype 4 = .ok .mapShimmer := by
  decide
theorem witness_StepRunsDecodedCommand :
    let s := withHost [.write 0 4 0x10100040]
    s.host = .write 0 4 0x10100040 :: [] ∧ s.trap = none ∧ s.seq.busy = false ∧ decodeCmd 0x10100040 = .ok (.cfgD 1 64) ∧
      decodeTableWord 32 0x10100040 = some (.cfgD 1 64) := by decide +kernel
theorem witness_UndecodedCommandFaults :
    let s := withHost [.write 0 4 1]
    s.host = .write 0 4 1 :: [] ∧ s.trap = none ∧ s.seq.busy = false ∧ decodeCmd 1 = .error .nopField := by decide +kernel
theorem witness_WrittenRegistersReadBack :
    0x008 ∈ registerAddresses ∧ 0x008 ∈ writableAddresses ∧ 0x09C ∈ registerAddresses ∧ 0x09C ∈ writableAddresses ∧
    0x0D4 ∈ registerAddresses ∧ (withHost [.write 0x008 4 7]).host = .write 0x008 4 7 :: [] ∧
    (withHost [.write 0x09C 4 7]).host = .write 0x09C 4 7 :: [] :=
  ⟨by decide, by decide, by decide, by decide, by decide, rfl, rfl⟩
theorem witness_ReadOnlyRegistersIgnoreWrites :
    0x004 ∈ registerAddresses ∧ 0x004 ∉ writableAddresses ∧ 0x0D4 ∈ registerAddresses ∧ 0x0D4 ∉ writableAddresses ∧
    (0x004 : Word) ≠ 0 ∧ (0x0D4 : Word) ≠ 0 ∧ (withHost [.write 0x004 4 7]).host = .write 0x004 4 7 :: [] ∧
    (withHost [.write 0x0D4 4 7]).host = .write 0x0D4 4 7 :: [] ∧ (withHost [.read 0 4]).host = .read 0 4 :: [] ∧
    (withHost [.read 0x0D4 4]).host = .read 0x0D4 4 :: [] :=
  ⟨by decide, by decide, by decide, by decide, by decide, by decide, rfl, rfl, rfl, rfl⟩
theorem witness_HostAccessesKeepEngineState :
    (∀ a ∈ [HostAction.read 0x004 4, .write 0x004 4 7, .write 0x2FFFC 4 7], (withHost [a]).host = a :: [] ∧
      (withHost [a]).seq.busy = false ∧ a ≠ .resetPin) ∧
    (∀ a ∈ [HostAction.read 0x004 4, .write 0x004 4 7, .write 0x2FFFC 4 7], ∀ size v, a ≠ .write 0 size v) := by
  constructor
  · decide +kernel
  · intro a ha size v h
    subst h
    simp at ha
theorem witness_BadAccessesDoNothingElse :
    (∀ p ∈ [(0x010, 4), (0x0FC, 4), (0x100, 4), (0xFFFC, 4), (0x30000, 4), (0xFFFFFFFC, 4), (0x002, 4), (0x10000, 2)],
      target (BitVec.ofNat 32 p.1) p.2 = none) ∧
    (∀ p ∈ [(0x000, 4), (0x0D4, 4), (0x10000, 4), (0x1FFFC, 4), (0x20000, 4), (0x2FFFC, 4)],
      target (BitVec.ofNat 32 p.1) p.2 ≠ none) ∧
    (withHost [.write 0x100 4 7]).host = .write 0x100 4 7 :: [] ∧ (withHost [.read 0x100 4]).host = .read 0x100 4 :: [] := by
  decide +kernel
theorem witness_BufferWordsAreLittleEndian :
    bufDAddr 1 8191 = 0x1FFFC ∧ bufRAddr 1 8191 = 0x2FFFC ∧ bufDAddr 1 5 = 0x18014 ∧
    ∀ a ∈ [0x1FFFC, 0x2FFFC], (withHost [.write (BitVec.ofNat 32 a) 4 7]).seq.busy = false ∧
      (withHost [.write (BitVec.ofNat 32 a) 4 7]).host = .write (BitVec.ofNat 32 a) 4 7 :: [] := by decide +kernel

/-- A state with the fault `BAD_TYPE` recorded and the action `a` to come. -/
def faulted (a : HostAction) : State := { withHost [a] with trap := some .badType }

theorem witness_StatusFieldsAndCauseCodes : (faulted .resetPin).trap = some .badType ∧ State.reset.trap = none := by decide
theorem witness_OnlyTheHardwareResetClearsAFault :
    (faulted (.write 0 4 0x10100040)).trap = some .badType ∧
    (faulted (.write 0 4 0x10100040)).host = .write 0 4 0x10100040 :: [] ∧
    (∀ rest, (faulted (.write 0 4 0x10100040)).host ≠ .resetPin :: rest) ∧ (faulted .resetPin).host = .resetPin :: [] := by
  refine ⟨rfl, rfl, fun rest h => ?_, rfl⟩
  simp [faulted, withHost] at h

/-- A state in which a command runs (no run reaches it: log 17). -/
def busyState (p : Phase) : State := { withHost [.write 0 4 0] with seq := ⟨true, 0, 0, p⟩ }

theorem witness_CommandWhileBusyFaults :
    (busyState .mainPass).host = .write 0 4 0 :: [] ∧ (busyState .mainPass).trap = none ∧
    (busyState .mainPass).seq.busy = true ∧ runsDist (busyState .mainPass) = true ∧ runsRev (busyState .mixPass) = true := by
  decide +kernel
theorem witness_FaultEntryKeepsFirstCause : State.reset.trap = none ∧ (faulted .resetPin).trap = some .badType := by decide
theorem witness_PreciseFaultsChangeNothingElse :
    let s := withHost [.read 0x100 4]
    s.trap = none ∧ s.seq.busy = false ∧ step s = .next (after (step s)) ∧ (after (step s)).trap = some .badAccess := by
  refine ⟨rfl, rfl, rfl, by decide +kernel⟩
theorem witness_NopChangesNothing :
    (withHost [.write 0 4 0]).host = .write 0 4 0 :: [] ∧ (withHost [.write 0 4 0]).seq.busy = false ∧
    (faulted (.write 0 4 0)).trap.isSome = true ∧ (busyState .idle).trap = none ∧ (busyState .idle).seq.busy = true := by decide

/-- The state after reset with 48000 Hz in both sample rate registers. -/
def rated : State := { State.reset with regs := { State.reset.regs with fsD := 0x473B8000, fsR := 0x473B8000 } }

theorem witness_ConfigurationRangesAreChecked :
    rateOk 0x472C4400 = true ∧ rateOk 0x483B8000 = true ∧ rateOk 0x472C43FF = false ∧ rateOk 0x483B8001 = false ∧
    rateOk 0x7FC00000 = false ∧ rateOk State.reset.regs.fsD = false ∧ rateOk State.reset.regs.fsR = false ∧
    ¬(1 ≤ 0 ∧ 0 ≤ 2) ∧ ¬(1 ≤ 3 ∧ 3 ≤ 2) ∧ ¬(1 ≤ 0 ∧ 0 ≤ 8192) ∧ ¬(1 ≤ 8193 ∧ 8193 ≤ 8192) := by decide +kernel
theorem witness_ConfigureResetsOneEngine :
    1 ≤ 2 ∧ 2 ≤ 2 ∧ 1 ≤ 8192 ∧ 8192 ≤ 8192 ∧ rateOk rated.regs.fsD = true ∧ rateOk rated.regs.fsR = true := by decide +kernel

/-- A block of one sample of 1.5 at type Hard, tone 0, drive, mix and output 1: the state of P1. -/
def hardState : State := distState 1 0x3F800000 0 0x3F800000 0x3F800000 [0x3FC00000]

theorem witness_ProcDChecksInOrder :
    State.reset.ds.configured = false ∧ hardState.ds.configured = true ∧ 2 ≠ hardState.ds.nch ∧ hardState.ds.maxblk < 65 ∧
    5 ≤ (distState 5 0 0 0 0 []).regs.dType.toNat ∧ ¬ 5 ≤ (distState 4 0 0 0 0 []).regs.dType.toNat := by decide +kernel
theorem witness_ProcDCompletes :
    ∀ ty ∈ [0, 1, 2, 4], (distState ty 0 0 0 0 []).ds.configured = true ∧ 1 = (distState ty 0 0 0 0 []).ds.nch ∧
      64 ≤ (distState ty 0 0 0 0 []).ds.maxblk ∧ (distState ty 0 0 0 0 []).regs.dType.toNat < 5 ∧
      (distState ty 0 0 0 0 []).regs.dType.toNat ≠ 3 := by
  intro ty hty
  simp only [List.mem_cons, List.not_mem_nil, or_false] at hty
  rcases hty with rfl | rfl | rfl | rfl <;> exact ⟨rfl, rfl, by decide, by decide, by decide⟩

/-- A Foldback block of one sample of 64.5 at drive 1. -/
def foldState (w : F32) : State := distState 3 0x3F800000 0 0x3F800000 0x3F800000 [w]

theorem foldState_ghost (w : F32) : (ghostPass 1 1 (startBlockD 1 (foldState w))).mem = (foldState w).mem := by
  have e : (foldState w).regs.dGhost = 0#32 := rfl
  have h : ¬(startBlockD 1 (foldState w)).pd.ghost = true := by rw [startBlockD_pd]; simp [snapshotD, e]
  rw [ghostPass, if_neg h, startBlockD_mem]
theorem foldState_word (w : F32) : memWord (foldState w).mem 0x10000 = w :=
  memWord_setWord_same _ _ _

theorem witness_ProcDFoldbackCompletes :
    let s := foldState 0x42810000
    s.ds.configured = true ∧ 1 = s.ds.nch ∧ 1 ≤ s.ds.maxblk ∧ s.ds.maxblk ≤ 8192 ∧ s.regs.dType = 3 ∧
    s.regs.dGhost.getLsbD 0 = false ∧
    ∀ (c : Channel) (k : Nat), c.val < 1 → k < 1 →
      isNaN (fmul (memWord (ghostPass 1 1 (startBlockD 1 s)).mem (bufDAddr c k)) s.regs.dDrive) = true ∨
      fle (fabs (fmul (memWord (ghostPass 1 1 (startBlockD 1 s)).mem (bufDAddr c k)) s.regs.dDrive)) 0x42810000 = true := by
  refine ⟨rfl, rfl, by decide, by decide, rfl, by decide, fun c k hc hk => .inr ?_⟩
  have hk0 : k = 0 := by omega
  have hc0 : c = 0 := Fin.ext (by simpa using hc)
  subst hk0 hc0
  rw [foldState_ghost, show bufDAddr 0 0 = 0x10000 from by decide, foldState_word]
  decide +kernel
theorem witness_ProcDFoldbackDiverges :
    let s := foldState 0x42810001
    s.ds.configured = true ∧ 1 = s.ds.nch ∧ 1 ≤ s.ds.maxblk ∧ s.ds.maxblk ≤ 8192 ∧ s.regs.dType = 3 ∧ (0 : Channel).val < 1 ∧
    flt 0x42810000 (fabs (fmul (memWord (ghostPass 1 1 (startBlockD 1 s)).mem (bufDAddr 0 0)) s.regs.dDrive)) = true := by
  refine ⟨rfl, rfl, by decide, by decide, rfl, by decide, ?_⟩
  rw [foldState_ghost, show bufDAddr 0 0 = 0x10000 from by decide, foldState_word]
  decide +kernel
theorem witness_ProcDRunsChainPerChannel :
    hardState.trap = none ∧ hardState.ds.maxblk ≤ 8192 ∧ exec (.procD 1 1) hardState = .next (after (exec (.procD 1 1) hardState)) ∧
    (after (exec (.procD 1 1) hardState)).trap = none ∧ decodeDType hardState.regs.dType = .ok .wsHard ∧ (0 : Channel).val < 1 :=
  ⟨rfl, by decide, exec_after _ _, by decide +kernel, rfl, by decide⟩

/-- `hardState` with destroy 100 and ghost on. -/
def fullState : State :=
  { hardState with regs := { hardState.regs with dGhost := 1, dDestroy := 0x42C80000 } }

/-- `hardState` with ghost on. -/
def ghostState : State := { hardState with regs := { hardState.regs with dGhost := 1 } }

/-- Both ends of the mix, on a sample of 1.5 with the other parameters of `hardState`. -/
theorem witness_chain_mix :
    (∀ mix ∈ [0, 0x3F800000], ∃ ds',
      chain { snapshotD hardState.regs with mix := mix } .wsHard (deriveTone 0 State.reset.dk) 0 0x3FC00000 hardState.ds =
        some (if mix = 0 then 0x3FC00000 else 0x3F800000, ds')) ∧
    isFinite 0x3F800000 = true ∧ isFinite 0x3FC00000 = true ∧
    isNaN (fmul 0x3FC00000 hardState.regs.dOutput) = false ∧ isNaN (fmul 0x3F800000 hardState.regs.dOutput) = false := by
  refine ⟨?_, by decide, by decide, by decide +kernel, by decide +kernel⟩
  intro mix hm
  simp only [List.mem_cons, List.not_mem_nil, or_false] at hm
  rcases hm with rfl | rfl <;> exact ⟨{ hardState.ds with toneY1 := hardState.ds.toneY1.set 0 0x3F800000 }, by decide +kernel⟩

theorem witness_ProcDDerivesBlockConstants :
    fgt (after (exec (.procD 1 1) hardState)).dk.amount 0 = false ∧
    fullState.trap = none ∧ exec (.procD 1 0) fullState = .next (after (exec (.procD 1 0) fullState)) ∧
    (after (exec (.procD 1 0) fullState)).trap = none ∧ fgt (after (exec (.procD 1 0) fullState)).dk.amount 0 = true ∧
    fullState.regs.dGhost.getLsbD 0 = true := by
  refine ⟨by decide +kernel, rfl, exec_after _ _, rfl, ?_, rfl⟩
  show fgt (fdiv 0x42C80000#32 lit.destroyDivisor) 0 = true
  decide +kernel
theorem witness_GhostOffTouchesNoGhostState :
    hardState.trap = none ∧ hardState.regs.dGhost.getLsbD 0 = false ∧
    exec (.procD 1 1) hardState = .next (after (exec (.procD 1 1) hardState)) ∧
    (after (exec (.procD 1 1) hardState)).trap = none :=
  ⟨rfl, by decide, exec_after _ _, by decide +kernel⟩
theorem witness_GhostKeepsSilence :
    (ghostState.trap = none ∧ ghostState.ds.maxblk ≤ 8192 ∧ ghostState.regs.dGhost.getLsbD 0 = true ∧
      exec (.procD 1 1) ghostState = .next (after (exec (.procD 1 1) ghostState)) ∧
      (after (exec (.procD 1 1) ghostState)).trap = none ∧ (0 : Channel).val < 1) ∧
    isFinite (fadd State.reset.dk.gg State.reset.dk.gR2) = true ∧ isFinite State.reset.dk.gg = true ∧
    isFinite State.reset.dk.gh = true ∧ State.reset.ds.gs1[(0 : Channel)] = 0 ∧ State.reset.ds.gs2[(0 : Channel)] = 0 :=
  ⟨⟨rfl, by decide, by decide, exec_after _ _, by decide +kernel, by decide⟩, by decide +kernel⟩
theorem witness_EmptyDistortionBlock :
    hardState.ds.configured = true ∧ hardState.regs.dType.toNat < 5 ∧ rateOk hardState.ds.fs = true ∧
    phaseOk hardState.ds.gphase = true := by decide +kernel
theorem witness_DocumentScenarios :
    (1 ≤ 64 ∧ hardState.ds = configuredDist 0x473B8000 1 64 ∧ hardState.regs.dGhost.getLsbD 0 = false ∧
      hardState.regs.dDrive = 0x3F800000 ∧ hardState.regs.dOutput = 0x3F800000 ∧ hardState.regs.dTone = 0 ∧
      hardState.regs.dMix = 0x3F800000 ∧ hardState.regs.dDestroy = 0 ∧ hardState.regs.dType = 1 ∧
      memWord hardState.mem 0x10000 = 0x3FC00000) ∧
    (let s := distState 0 0x3F800000 0 0x3F800000 0x3F800000 [0]
     s.ds = configuredDist 0x473B8000 1 64 ∧ s.regs.dType = 0 ∧ s.regs.dMix = 0x3F800000 ∧ memWord s.mem 0x10000 = 0) := by
  decide +kernel
theorem witness_SmoothShapersAreBounded :
    isNaN (withX 0x7FC00000).x = true ∧ isNaN (withX 0x3F800000).x = false ∧
    isFinite (fmul (withX 0x7F000000).x 0x3FC90FDB) = true ∧ isFinite (fmul (withX 0x7F7FFFFF).x 0x3FC90FDB) = false := by
  decide +kernel
theorem witness_WaveshapersAreOdd :
    isNaN 0x42820000 = false ∧ wsFold 0x42820000 = none ∧ isNaN 0x3FD9999A = false ∧ wsFold 0x3FD9999A = some 0xBE999998 ∧
    isNaN (wsHard 0x3FD9999A) = false := by decide +kernel

theorem val_one : val 0x3F800000 = 1 := by
  rw [val, show units 0x3F800000 = 2 ^ 149 from by decide +kernel]; norm_num
theorem val_two : val 0x40000000 = 2 := by
  rw [val, show units 0x40000000 = 2 ^ 150 from by decide +kernel]; norm_num
theorem val_negTwo : val 0xC0000000 = -2 := by
  rw [val, show units 0xC0000000 = -2 ^ 150 from by decide +kernel]; norm_num
theorem val_reach : val 0x42810000 = 64.5 := by
  rw [val, show units 0x42810000 = 129 * 2 ^ 148 from by decide +kernel]; norm_num
theorem val_beyond : val 0x42820000 = 65 := by
  rw [val, show units 0x42820000 = 65 * 2 ^ 149 from by decide +kernel]; norm_num

theorem witness_HardClipClamps :
    isNaN (withX 0x7FC00000).x = true ∧ (withX 0x7F800000).x = 0x7F800000 ∧ (withX 0xFF800000).x = 0xFF800000 ∧
    isFinite (withX 0x40000000).x = true ∧ 1 < val (withX 0x40000000).x ∧ val (withX 0xC0000000).x < -1 ∧
    -1 ≤ val (withX 0x3F800000).x ∧ val (withX 0x3F800000).x ≤ 1 := by
  refine ⟨by decide, rfl, rfl, by decide, ?_, ?_, ?_, ?_⟩
  · show 1 < val 0x40000000; rw [val_two]; norm_num
  · show val 0xC0000000 < -1; rw [val_negTwo]; norm_num
  · show -1 ≤ val 0x3F800000; rw [val_one]; norm_num
  · show val 0x3F800000 ≤ 1; rw [val_one]
theorem witness_FoldbackMatchesClosedForm :
    isFinite (withX 0x42810000).x = true ∧ |val (withX 0x42810000).x| ≤ 64.5 ∧ isNaN (withX 0x7FC00000).x = true := by
  refine ⟨by decide, ?_, by decide⟩
  show |val 0x42810000| ≤ 64.5
  rw [val_reach]; norm_num
theorem witness_FoldbackDivergesBeyondItsReach :
    (∀ w, (withX w).ds.maxblk ≤ 8192) ∧ isInf (withX 0xFF800000).x = true ∧ isFinite (withX 0x42820000).x = true ∧
    64.5 < |val (withX 0x42820000).x| := by
  refine ⟨fun _ => Nat.zero_le _, by decide, by decide, ?_⟩
  show (64.5 : ℝ) < |val 0x42820000|
  rw [val_beyond]; norm_num
theorem witness_SelectorsRunInsideProcessing :
    (decodeDType 3 = .ok .wsFold ∧ ws .wsFold (withX 0x3FD9999A).x = some 0xBE999998 ∧ ws .wsFold (withX 0x42820000).x = none) ∧
    (let s := revState 0x473B8000 1 0 0 0
     s.trap = none ∧ exec (.procR 1 0) s = .next (after (exec (.procR 1 0) s)) ∧ (after (exec (.procR 1 0) s)).trap = none ∧
     decodeRType s.regs.rType = .ok .mapHall) :=
  ⟨by decide +kernel, rfl, exec_after _ _, by decide +kernel, rfl⟩
theorem witness_ToneAtZeroPassesInput :
    isFinite State.reset.ds.toneY1[(0 : Channel)] = true ∧ signBit State.reset.ds.toneY1[(0 : Channel)] = false ∧
    isNaN 0x3F800000 = false ∧ isNaN 0x7FC00000 = true ∧
    isFinite ({ State.reset.ds with toneY1 := .replicate _ 0x7F800000 } : DistState).toneY1[(0 : Channel)] = false := by
  decide +kernel
/-- R171 against R224, R225: a NaN amount derives no Destroy constant. -/
theorem test_nan_amount :
    (deriveDist { State.reset.pd with destroy := 0x7FC00000 } 1 State.reset.ds State.reset.dk).kIn = 0#32 := by
  have h : fgt (fdiv 0x7FC00000 lit.destroyDivisor) lit.zero = false := flt_nan (.inr (isNaN_fdiv (.inl (by decide))))
  have hg : State.reset.pd.ghost = false := rfl
  simp only [deriveDist, deriveAmount, h, hg, Bool.false_eq_true, if_false]
  rfl
theorem witness_DestroyPassthrough :
    fle State.reset.dk.amount 0 = true ∧ isNaN ({ State.reset.pd with destroy := 0x7FC00000 } : SnapD).destroy = true := by
  decide +kernel
/-- The fold of the active path at 0.6 (R172, R124): no reflection at 0.6, one at 1 and at -1. -/
theorem test_destroy_fold :
    fold 0x3F19999A lit.destroyFold = some 0x3F19999A ∧ fold 0x3F800000 lit.destroyFold = some 0x3E4CCCD0 ∧
    fold 0xBF800000 lit.destroyFold = some 0xBE4CCCD0 := by decide +kernel
theorem witness_DestroyActiveIsBounded (k : DistConsts) (x : F32) (ds : DistState) :
    ∃ g low b r f o y : F32, g = fmul x k.kIn ∧ low = fmul (tanh (fmul g 0x3F4CCCCD)) k.kLow ∧
      b = (bq ds.dtap[(0 : Channel)] k.dcoef g).1 ∧
      r = sin (fmul (tanh (fmul (fmul (fmul b k.kRes) k.kPre) 0x40200000)) 0x3FC90FDB) ∧
      f = (if flt 0x3F19999A r then fsub 0x3F99999A r else if flt r 0xBF19999A then fsub 0xBF99999A r else r) ∧
      o = tanh (fmul (fmul (fadd (fmul low k.kMixlow) (fmul f k.kMixres)) k.kSat) 0x40000000) ∧ y = tanh (fmul o k.kResc) :=
  ⟨_, _, _, _, _, _, _, rfl, rfl, rfl, rfl, rfl, rfl, rfl⟩
theorem witness_CutsFilterTheDryBlock :
    let s := revState 0x473B8000 0 0 0 0
    s.trap = none ∧ s.rs.maxblk ≤ 8192 ∧ exec (.procR 1 1) s = .next (after (exec (.procR 1 1) s)) ∧
    (after (exec (.procR 1 1) s)).trap = none ∧ (0 : Channel).val < 1 := ⟨rfl, by decide, exec_after _ _, rfl, by decide⟩
theorem witness_SectionsKeepSilence :
    isFinite zeroCoefs.b0 = true ∧ isFinite zeroCoefs.b1 = true ∧ isFinite zeroCoefs.b2 = true ∧ isFinite zeroCoefs.a1 = true ∧
    isFinite zeroCoefs.a2 = true ∧ isZero zeroTaps.x1 = true ∧ isZero zeroTaps.x2 = true ∧ isZero zeroTaps.y1 = true ∧
    isZero zeroTaps.y2 = true ∧ isZero 0x80000000 = true ∧ isNaN (fmul zeroCoefs.b0 0x3F800000) = false := by decide +kernel
theorem witness_MapRowsScaleSizeAndDamping : inUnit 0x3F800000 = true ∧ inUnit 0 = true ∧ 5 ≤ (5 : Word).toNat := by
  decide +kernel
theorem witness_NormaliserIsAtLeastOne :
    rateOk 0x472C4400 = true ∧ inRange 0x41A00000 0x469C4000 0x41A00000 = true ∧
    inRange 0x41A00000 0x469C4000 0x469C4000 = true ∧
    ∀ f0 q fs : F32, ∃ w0 cw al a0, w0 = fdiv (fmul 0x40C90FDB f0) fs ∧ cw = cos w0 ∧
      al = fdiv (sin w0) (fmul 0x40000000 q) ∧ a0 = fadd 0x3F800000 al :=
  ⟨by decide +kernel, by decide +kernel, by decide +kernel, fun _ _ _ => ⟨_, _, _, _, rfl, rfl, rfl, rfl⟩⟩
theorem witness_PredelayLengthIsFloored :
    rateOk 0x483B8000 = true ∧ fgt 0x80000000 0 = false ∧ fgt 0x452AB000 0 = true ∧
    flt (fdiv (fmul 0x452AB000 0x483B8000) 0x447A0000) 0x49000000 = false ∧
    flt (fdiv (fmul 0x452AA99A 0x483B8000) 0x447A0000) 0x49000000 = true := by decide +kernel
theorem witness_ProcRChecksInOrder :
    State.reset.rs.configured = false ∧ (revState 0x483B8000 0 0 0 0).rs.configured = true ∧
    2 ≠ (revState 0x483B8000 0 0 0 0).rs.nch ∧ (revState 0x483B8000 0 0 0 0).rs.maxblk < 65 ∧
    5 ≤ (revState 0x483B8000 5 0 0 0).regs.rType.toNat ∧ ¬ 5 ≤ (revState 0x483B8000 4 0 0 0).regs.rType.toNat ∧
    fgt (revState 0x483B8000 0 0x452AB000 0 0).regs.rPredelay 0 = true ∧
    flt (fdiv (fmul (revState 0x483B8000 0 0x452AB000 0 0).regs.rPredelay (revState 0x483B8000 0 0x452AB000 0 0).rs.fs)
      0x447A0000) 0x49000000 = false := by
  refine ⟨rfl, rfl, by decide, by decide, by decide, by decide, by decide +kernel, ?_⟩
  show flt (fdiv (fmul 0x452AB000#32 0x483B8000#32) 0x447A0000) 0x49000000 = false
  decide +kernel
theorem witness_ProcRCompletes :
    ∀ ty ∈ [0, 1, 2, 3, 4], (revState 0x473B8000 ty 0 0 0).rs.configured = true ∧ 1 = (revState 0x473B8000 ty 0 0 0).rs.nch ∧
      64 ≤ (revState 0x473B8000 ty 0 0 0).rs.maxblk ∧ (revState 0x473B8000 ty 0 0 0).regs.rType.toNat < 5 ∧
      fgt (revState 0x473B8000 ty 0 0 0).regs.rPredelay 0 = false := by
  intro ty hty
  simp only [List.mem_cons, List.not_mem_nil, or_false] at hty
  rcases hty with rfl | rfl | rfl | rfl | rfl <;> exact ⟨rfl, rfl, by decide, by decide, by decide +kernel⟩
theorem witness_ProcRBypassesKeepState :
    (let s := revState 0x473B8000 0 0 0 0
     s.trap = none ∧ exec (.procR 1 1) s = .next (after (exec (.procR 1 1) s)) ∧ (after (exec (.procR 1 1) s)).trap = none ∧
     fgt s.regs.rPredelay 0 = false ∧ fgt s.regs.rMod 0 = false) ∧
    (let s := revState 0x473B8000 0 0x41200000 0 0x3F800000
     fgt s.regs.rPredelay 0 = true ∧ (∀ c : Channel, s.rs.wcur[c] < 524288) ∧ fgt s.regs.rMod 0 = true ∧ s.trap = none ∧
     s.rs.maxblk ≤ 8192 ∧ exec (.procR 1 1) s = .next (after (exec (.procR 1 1) s)) ∧
     (after (exec (.procR 1 1) s)).trap = none) ∧
    fgt State.reset.pr.mod 0 = false :=
  ⟨⟨rfl, exec_after _ _, rfl, by decide +kernel, by decide +kernel⟩,
    ⟨by decide +kernel, by decide +kernel, by decide +kernel, rfl, by decide, exec_after _ _, by decide +kernel⟩, by decide +kernel⟩
theorem witness_PopWritesThenReads : State.reset.rs.wcur[(1 : Channel)] < 524288 ∧ 524287 < 524288 ∧ 0 < 524288 := by decide
theorem witness_DelayLineDelays :
    State.reset.rs.wcur[(0 : Channel)] < 524288 ∧ (∀ i, i < 524288 → memWord clearedDelay (dlyAddr 0 i) = 0) ∧
    (∀ p ∈ [(2, 0x3F800000), (524287, 0x40000000), (0, (0 : F32))], p.1 < 524288) :=
  ⟨by decide, fun _ _ => by simp [memWord, memByte, clearedDelay, findCell, fillByte], by decide⟩
theorem witness_EmptyReverbBlock :
    (revState 0x473B8000 4 0 0 0).rs.configured = true ∧ (revState 0x473B8000 4 0 0 0).regs.rType.toNat < 5 ∧
    fgt (revState 0x473B8000 4 0 0 0).regs.rPredelay 0 = false := ⟨rfl, by decide, by decide +kernel⟩
theorem witness_ReverbMixLaws :
    (1 : Channel).val < 2 ∧ 8191 < 8192 ∧ 8192 ≤ 8192 ∧ isNaN 0x3F800000 = false ∧ isFinite 0x3F800000 = true := by
  decide +kernel
theorem witness_PhaseWrapIsExact : isFinite 0x3F800000 = true ∧ fle 0 0x3F800000 = true ∧ fle 0 0x80000000 = true := by
  decide +kernel
theorem witness_ModulationGainIsBounded :
    inUnit 0x3F800000 = true ∧ phaseOk 0x3F7FFFFF = true ∧ phaseOk 0 = true := by decide +kernel
theorem witness_ArithmeticIsCorrectlyRounded :
    isFinite 0x40000000 = true ∧ isFinite 0x3F800000 = true ∧ isInf 0x7F800000 = true ∧ isInf 0xFF800000 = true ∧
    isNaN 0x7FC00000 = true ∧ val (flush 0) = 0 ∧ val (flush 0x3F800000) ≠ 0 := by
  refine ⟨by decide, by decide, by decide, by decide, by decide, by simp [val, show units (flush 0#32) = 0 by decide], ?_⟩
  have e : flush 0x3F800000 = 0x3F800000 := by decide +kernel
  rw [e]; exact ne_of_eq_of_ne val_one one_ne_zero

theorem inv_reset : Inv State.reset where
  memWf := by decide
  wetWf := by decide
  dlyWf := by decide
  memRange := fun _ h => nomatch h
  wetRange := fun _ h => nomatch h
  dlyRange := fun _ h => nomatch h
  idle := rfl
  distNch := by decide
  distMaxblk := by decide
  revNch := by decide
  revMaxblk := by decide
  cursor := by decide
  delay := by decide
  mirror := rfl
  freeze := rfl
  distConfig := fun _ h => nomatch h
  revConfig := fun h => nomatch h
  cleared := fun h => nomatch h

theorem witness_StepKeepsTheMachineInvariant :
    Inv State.reset ∧ step State.reset = .next State.reset := ⟨inv_reset, rfl⟩
theorem witness_StepKeepsTheReverbPhase :
    RevPhaseInv State.reset ∧ GhostPhaseInv State.reset ∧ step State.reset = .next State.reset :=
  ⟨⟨rfl, by decide +kernel, by decide, by decide +kernel⟩, ⟨rfl, fun _ => by decide +kernel, fun _ h => nomatch h⟩, rfl⟩
theorem witness_EnginesAreIndependent :
    (∃ nch n, Instr.procD 1 1 = .cfgD nch n ∨ Instr.procD 1 1 = .procD nch n) ∧ hardState.ds.maxblk ≤ 8192 ∧
    DistAgree hardState hardState ∧ exec (.procD 1 1) hardState = .next (after (exec (.procD 1 1) hardState)) ∧
    (∃ nch n, Instr.procR 1 1 = .cfgR nch n ∨ Instr.procR 1 1 = .procR nch n) ∧
    (revState 0x473B8000 0 0 0 0).rs.maxblk ≤ 8192 ∧
    RevAgree (revState 0x473B8000 0 0 0 0) (revState 0x473B8000 0 0 0 0) :=
  ⟨⟨1, 1, .inr rfl⟩, by decide, ⟨rfl, rfl, rfl, rfl, rfl, rfl, rfl, rfl, fun _ _ _ => rfl⟩, exec_after _ _,
    ⟨1, 1, .inr rfl⟩, by decide, ⟨rfl, rfl, rfl, rfl, rfl, rfl, rfl, rfl, rfl, rfl, fun _ _ _ => rfl⟩⟩
theorem witness_CommandsNeverWriteParameters :
    exec (.procD 1 1) (faulted .resetPin) = .next (after (exec (.procD 1 1) (faulted .resetPin))) ∧
    (∀ nch n, Instr.procD 1 1 ≠ .procR nch n) ∧ (faulted .resetPin).trap = some .badType :=
  ⟨exec_after _ _, fun _ _ h => Instr.noConfusion h, rfl⟩

end Sys2Proof.Tests
end

section
/-! PROOF. The two engines are independent (00_scope.md R2, 20_memory.md R60, R65): sweeps over memories that agree on the
swept window, then each pass as a step that keeps the agreement on its own engine's share and the other engine's share. -/

namespace Sys2Proof.Machine

open Sys2Proof.Config

/-! ### Memories that agree on a window -/

/-- Two memories hold the same bytes at the addresses `lo` to `hi - 1`. -/
def AgreeOn (lo hi : Nat) (m m' : Memory) : Prop := ∀ a, lo ≤ a → a < hi → memByte m a = memByte m' a

/-- The words of the listed positions lie in the window `lo` to `hi - 1`. -/
def WordsIn (addr : Channel → Nat → Nat) (lo hi : Nat) (l : List (Nat × Channel)) : Prop :=
  ∀ p ∈ l, lo ≤ addr p.2 p.1 ∧ addr p.2 p.1 + 4 ≤ hi

theorem AgreeOn.memWord {lo hi a : Nat} {m m' : Memory} (h : AgreeOn lo hi m m') (hlo : lo ≤ a) (hhi : a + 4 ≤ hi) :
    memWord m a = memWord m' a :=
  memWord_congr fun b h1 h2 => h b (by omega) (by omega)

theorem AgreeOn.setWord {lo hi : Nat} {m m' : Memory} (h : AgreeOn lo hi m m') (a : Nat) (w : Word) :
    AgreeOn lo hi (setWord m a w) (setWord m' a w) := fun b hlo hhi => by
  rw [memByte_setWord, memByte_setWord, h b hlo hhi]

theorem wordsIn_bufD {nch len : Nat} (hlen : len ≤ blkCap) : WordsIn bufDAddr 0x10000 0x20000 (positions nch len) :=
  fun _ hp => bufDAddr_window (lt_of_lt_of_le (mem_positions.mp hp).1 hlen)

theorem wordsIn_bufR {nch len : Nat} (hlen : len ≤ blkCap) : WordsIn bufRAddr 0x20000 0x30000 (positions nch len) :=
  fun _ hp => bufRAddr_window (lt_of_lt_of_le (mem_positions.mp hp).1 hlen)

section Sweep

variable {σ : Type} {addr : Channel → Nat → Nat} {lo hi : Nat} {l : List (Nat × Channel)}

/-- A stage that is the same at every listed position gives the same sweep. -/
theorem sweep_congr {f f' : Nat → Channel → F32 → σ → F32 × σ} 
    (hf : ∀ n c, (n, c) ∈ l → ∀ x st, f n c x st = f' n c x st) (m : Memory) (st : σ) :
    sweep addr f l m st = sweep addr f' l m st := by
  induction l generalizing m st with
  | nil => rfl
  | cons p t ih =>
    rw [sweep_cons, sweep_cons, hf p.1 p.2 List.mem_cons_self]
    exact ih (fun n c hp => hf n c (List.mem_cons_of_mem _ hp)) _ _

/-- A sweep reads and writes its own words only: on memories that agree on their window it ends in the same stage state
and in memories that agree there. -/
theorem AgreeOn.sweep {m m' : Memory} (f : Nat → Channel → F32 → σ → F32 × σ) (hw : WordsIn addr lo hi l)
    (h : AgreeOn lo hi m m') (st : σ) :
    AgreeOn lo hi (sweep addr f l m st).1 (sweep addr f l m' st).1 ∧
      (sweep addr f l m st).2 = (sweep addr f l m' st).2 := by
  induction l generalizing m m' st with
  | nil => exact ⟨h, rfl⟩
  | cons p t ih =>
    obtain ⟨hlo, hhi⟩ := hw p List.mem_cons_self
    rw [sweep_cons, sweep_cons, ← h.memWord hlo hhi]
    exact ih (fun q hq => hw q (List.mem_cons_of_mem _ hq)) (h.setWord _ _) _

/-- The same for a stage that can fault: both sweeps do, or neither. -/
theorem AgreeOn.sweepFault {m m' : Memory} (g : Nat → Channel → F32 → σ → Option (F32 × σ)) (hw : WordsIn addr lo hi l)
    (h : AgreeOn lo hi m m') (st : σ) :
    Option.Rel (fun r r' => AgreeOn lo hi r.1 r'.1 ∧ r.2 = r'.2) (sweepFault addr g l m st) (sweepFault addr g l m' st) := by
  induction l generalizing m m' st with
  | nil => exact .some ⟨h, rfl⟩
  | cons p t ih =>
    obtain ⟨hlo, hhi⟩ := hw p List.mem_cons_self
    simp only [Machine.sweepFault, ← h.memWord hlo hhi]
    cases g p.1 p.2 (Machine.memWord m (addr p.2 p.1)) st with
    | none => exact .none
    | some r => exact ih (fun q hq => hw q (List.mem_cons_of_mem _ hq)) (h.setWord _ _) _

/-- A sweep over words of one window leaves every byte of another one alone. -/
theorem agreeOn_sweep_of_disjoint {lo' hi' : Nat} (f : Nat → Channel → F32 → σ → F32 × σ) (hw : WordsIn addr lo hi l)
    (hdis : hi ≤ lo' ∨ hi' ≤ lo) (m : Memory) (st : σ) : AgreeOn lo' hi' (sweep addr f l m st).1 m := fun a h1 h2 =>
  sweep_memByte_of_outside addr f l m st a fun n c hp => by
    obtain ⟨hlo, hhi⟩ : lo ≤ addr c n ∧ addr c n + 4 ≤ hi := hw (n, c) hp
    omega

theorem agreeOn_sweepFault_of_disjoint {lo' hi' : Nat} (g : Nat → Channel → F32 → σ → Option (F32 × σ))
    (hw : WordsIn addr lo hi l) (hdis : hi ≤ lo' ∨ hi' ≤ lo) {m : Memory} {st : σ} {r : Memory × σ}
    (hr : sweepFault addr g l m st = some r) : AgreeOn lo' hi' r.1 m := fun a h1 h2 =>
  sweepFault_memByte_of_outside addr g l m st a hr fun n c hp => by
    obtain ⟨hlo, hhi⟩ : lo ≤ addr c n ∧ addr c n + 4 ≤ hi := hw (n, c) hp
    omega

end Sweep

/-! ### The distortion engine's operations -/

section Dist

variable {s s' t : State} {nch len : Nat}

theorem RevKept.refl (s : State) : RevKept s s := ⟨⟨rfl, rfl, rfl⟩, rfl, rfl, rfl, rfl, rfl, fun _ _ _ => rfl⟩

theorem RevKept.trans {u : State} (h : RevKept s t) (h' : RevKept t u) : RevKept s u where
  regs := ⟨h'.regs.1.trans h.regs.1, h'.regs.2.1.trans h.regs.2.1, h'.regs.2.2.trans h.regs.2.2⟩
  pr := h'.pr.trans h.pr
  rs := h'.rs.trans h.rs
  rk := h'.rk.trans h.rk
  wet := h'.wet.trans h.wet
  dly := h'.dly.trans h.dly
  buffer a h1 h2 := (h'.buffer a h1 h2).trans (h.buffer a h1 h2)

theorem DistAgree.dType (h : DistAgree s s') : s.regs.dType = s'.regs.dType := congrArg SnapD.type h.snapshot

theorem DistAgree.raiseFault (h : DistAgree s s') (c : Cause) : DistAgree (raiseFault c s) (raiseFault c s') :=
  { h with
    trap := by simp [h.trap]
    seq := by simp [Machine.raiseFault, h.seq] }

theorem revKept_raiseFault (c : Cause) (s : State) : RevKept s (raiseFault c s) := { RevKept.refl s with }

theorem DistAgree.startBlockD (h : DistAgree s s') (len : Nat) : DistAgree (startBlockD len s) (startBlockD len s') :=
  { h with
    pd := h.snapshot
    dk := by simp [h.snapshot, h.ds, h.dk] }

theorem revKept_startBlockD (len : Nat) (s : State) : RevKept s (startBlockD len s) := { RevKept.refl s with }

theorem DistAgree.ghostPass (h : DistAgree s s') (nch : Nat) (hlen : len ≤ blkCap) :
    DistAgree (ghostPass nch len s) (ghostPass nch len s') := by
  unfold Machine.ghostPass
  rw [← h.pd, ← h.dk, ← h.ds]
  split
  · obtain ⟨hbuf, hds⟩ := AgreeOn.sweep (fun _ c x ds => ghost s.dk c x ds) (wordsIn_bufD (nch := nch) hlen) h.buffer s.ds
    exact { h with pd := rfl, ds := by simp only [hds], dk := rfl, buffer := hbuf }
  · exact h

theorem revKept_ghostPass (nch : Nat) (hlen : len ≤ blkCap) (s : State) : RevKept s (ghostPass nch len s) := by
  unfold ghostPass
  split
  · exact { RevKept.refl s with buffer := agreeOn_sweep_of_disjoint _ (wordsIn_bufD hlen) (by omega) _ _ }
  · exact .refl s

theorem DistAgree.mainPass (h : DistAgree s s') (sel : Instr) (nch : Nat) (hlen : len ≤ blkCap) :
    Option.Rel DistAgree (mainPass sel nch len s) (mainPass sel nch len s') := by
  unfold Machine.mainPass
  rw [← h.pd, ← h.dk, ← h.ds]
  have hrel := AgreeOn.sweepFault (fun _ c x ds => chain s.pd sel s.dk c x ds) (wordsIn_bufD (nch := nch) hlen) h.buffer s.ds
  revert hrel
  generalize sweepFault _ _ _ s.mem _ = r, sweepFault _ _ _ s'.mem _ = r'
  rintro (⟨hbuf, hds⟩ | _)
  · exact .some { h with pd := rfl, ds := hds, dk := rfl, buffer := hbuf }
  · exact .none

theorem revKept_mainPass {sel : Instr} (hlen : len ≤ blkCap) (h : mainPass sel nch len s = some t) : RevKept s t := by
  obtain ⟨r, hr, rfl⟩ := mainPass_cases h
  exact { RevKept.refl s with buffer := agreeOn_sweepFault_of_disjoint _ (wordsIn_bufD hlen) (by omega) hr }

theorem DistAgree.foldDiverge (h : DistAgree s s') (nch : Nat) (hlen : len ≤ blkCap) :
    DistAgree (foldDiverge nch len s) (foldDiverge nch len s') :=
  have hlost : DistAgree (losesDist nch len s) (losesDist nch len s') :=
    { h with
      draws := by simp [losesDist, h.draws]
      ds := by simp [losesDist, h.draws, h.ds]
      dk := by simp [losesDist, h.draws]
      buffer := by
        simp only [losesDist, freeBlock, ← h.draws]
        exact (AgreeOn.sweep _ (wordsIn_bufD hlen) h.buffer ()).1 }
  hlost.raiseFault _

theorem revKept_foldDiverge (nch : Nat) (hlen : len ≤ blkCap) (s : State) : RevKept s (foldDiverge nch len s) :=
  { RevKept.refl s with buffer := agreeOn_sweep_of_disjoint _ (wordsIn_bufD hlen) (by omega) _ _ }

/-! ### The distortion engine's commands -/

/-- `CFG.D` from states that agree on the engine's share ends in states that agree on it. -/
theorem execCfgD_agree (h : DistAgree s s') (nch maxblk : Nat) :
    ∃ t t', execCfgD nch maxblk s = .next t ∧ execCfgD nch maxblk s' = .next t' ∧ DistAgree t t' := by
  unfold execCfgD
  rw [← h.fsD]
  split
  · exact ⟨_, _, rfl, rfl, { h with ds := rfl }⟩
  · exact ⟨_, _, rfl, rfl, h.raiseFault _⟩

theorem execCfgD_keeps {maxblk : Nat} (h : execCfgD nch maxblk s = .next t) : RevKept s t := by
  rcases execCfgD_cases nch maxblk s with ⟨_, he⟩ | ⟨_, he⟩ <;> obtain rfl := Host.Outcome.next.inj (he.symm.trans h)
  · exact { RevKept.refl s with }
  · exact revKept_raiseFault _ s

/-- A block that passes the check is no longer than a buffer's channel. -/
theorem len_le_blkCap {cfgNch cfgMaxblk : Nat} (hok : blockOk nch len cfgNch cfgMaxblk = true) (hm : cfgMaxblk ≤ 8192) :
    len ≤ blkCap :=
  (of_decide_eq_true hok).2.trans hm

/-- `PROC.D` from states that agree on the engine's share ends in states that agree on it: by the same check, by
`FOLD_DIVERGE`, or at the end of the block. -/
theorem execProcD_agree (h : DistAgree s s') (nch n : Nat) (hm : s.ds.maxblk ≤ 8192) :
    ∃ t t', execProcD nch n s = .next t ∧ execProcD nch n s' = .next t' ∧ DistAgree t t' := by
  unfold execProcD
  rw [← h.ds, ← h.dType]
  split_ifs with hcfg hblk
  · exact ⟨_, _, rfl, rfl, h.raiseFault _⟩
  · exact ⟨_, _, rfl, rfl, h.raiseFault _⟩
  cases decodeDType s.regs.dType with
  | error e => exact ⟨_, _, rfl, rfl, h.raiseFault _⟩
  | ok sel =>
    have hlen := len_le_blkCap (eq_true_of_ne_false hblk) hm
    have hghost := (h.startBlockD n).ghostPass nch hlen
    have hmain := hghost.mainPass sel nch hlen
    revert hmain
    simp only
    generalize mainPass _ _ _ (ghostPass _ _ (startBlockD _ s)) = r,
      mainPass _ _ _ (ghostPass _ _ (startBlockD _ s')) = r'
    rintro (ht | _)
    · exact ⟨_, _, rfl, rfl, ht⟩
    · exact ⟨_, _, rfl, rfl, hghost.foldDiverge nch hlen⟩

theorem execProcD_keeps {n : Nat} (hm : s.ds.maxblk ≤ 8192) (h : execProcD nch n s = .next t) : RevKept s t := by
  have hghost (hlen : n ≤ blkCap) : RevKept s (ghostPass nch n (startBlockD n s)) :=
    (revKept_startBlockD n s).trans (revKept_ghostPass nch hlen _)
  rcases execProcD_cases nch n s with ⟨_, he⟩ | ⟨_, _, he⟩ | ⟨_, _, _, he⟩ | ⟨sel, _, hok, _, ⟨u, hmain, he⟩ | ⟨_, he⟩⟩ <;>
    obtain rfl := Host.Outcome.next.inj (he.symm.trans h)
  · exact revKept_raiseFault _ s
  · exact revKept_raiseFault _ s
  · exact revKept_raiseFault _ s
  · have hlen := len_le_blkCap hok hm
    exact (hghost hlen).trans (revKept_mainPass hlen hmain)
  · have hlen := len_le_blkCap hok hm
    exact (hghost hlen).trans (revKept_foldDiverge nch hlen _)

end Dist

/-! ### The reverb engine's operations -/

section Rev

variable {s s' t : State} {nch len : Nat}

theorem DistKept.refl (s : State) : DistKept s s := ⟨⟨rfl, rfl, rfl⟩, rfl, rfl, rfl, fun _ _ _ => rfl⟩

theorem DistKept.trans {u : State} (h : DistKept s t) (h' : DistKept t u) : DistKept s u where
  regs := ⟨h'.regs.1.trans h.regs.1, h'.regs.2.1.trans h.regs.2.1, h'.regs.2.2.trans h.regs.2.2⟩
  pd := h'.pd.trans h.pd
  ds := h'.ds.trans h.ds
  dk := h'.dk.trans h.dk
  buffer a h1 h2 := (h'.buffer a h1 h2).trans (h.buffer a h1 h2)

theorem RevAgree.rType (h : RevAgree s s') : s.regs.rType = s'.regs.rType := congrArg SnapR.type h.snapshot

theorem RevAgree.rPredelay (h : RevAgree s s') : s.regs.rPredelay = s'.regs.rPredelay := congrArg SnapR.predelay h.snapshot

theorem RevAgree.raiseFault (h : RevAgree s s') (c : Cause) : RevAgree (raiseFault c s) (raiseFault c s') :=
  { h with
    trap := by simp [h.trap]
    seq := by simp [Machine.raiseFault, h.seq] }

theorem distKept_raiseFault (c : Cause) (s : State) : DistKept s (raiseFault c s) := { DistKept.refl s with }

theorem RevAgree.startBlockR (h : RevAgree s s') (sel : Instr) (d : Bool × Nat) :
    RevAgree (startBlockR sel d s) (startBlockR sel d s') :=
  { h with
    ra := by simp [Machine.startBlockR, h.snapshot, h.rk]
    pr := h.snapshot
    rk := by simp [Machine.startBlockR, h.snapshot, h.rs, h.rk] }

theorem distKept_startBlockR (sel : Instr) (d : Bool × Nat) (s : State) : DistKept s (startBlockR sel d s) :=
  { DistKept.refl s with }

theorem RevAgree.filterPass (h : RevAgree s s') (nch : Nat) (hlen : len ≤ blkCap) :
    RevAgree (filterPass nch len s) (filterPass nch len s') := by
  unfold Machine.filterPass
  rw [← h.rk, ← h.rs]
  obtain ⟨hbuf, hrs⟩ := AgreeOn.sweep (fun _ c x rs => cuts s.rk c x rs) (wordsIn_bufR (nch := nch) hlen) h.buffer s.rs
  exact { h with rs := hrs, rk := rfl, buffer := hbuf }

theorem distKept_filterPass (nch : Nat) (hlen : len ≤ blkCap) (s : State) : DistKept s (filterPass nch len s) :=
  { DistKept.refl s with buffer := agreeOn_sweep_of_disjoint _ (wordsIn_bufR hlen) (by omega) _ _ }

theorem RevAgree.copyPass (h : RevAgree s s') (nch : Nat) (hlen : len ≤ blkCap) :
    RevAgree (copyPass nch len s) (copyPass nch len s') := by
  have hwords : ∀ n c, (n, c) ∈ positions nch len → memWord s.mem (bufRAddr c n) = memWord s'.mem (bufRAddr c n) := by
    intro n c hp
    obtain ⟨hlo, hhi⟩ := wordsIn_bufR hlen (n, c) hp
    exact AgreeOn.memWord h.buffer hlo hhi
  have hwet : (Machine.copyPass nch len s).wet = (Machine.copyPass nch len s').wet := by
    simp only [Machine.copyPass, h.wet]
    refine congrArg Prod.fst (sweep_congr (fun n c hp _ _ => ?_) _ _)
    rw [hwords n c hp]
  exact { h with wet := hwet }

theorem RevAgree.predelayPass (h : RevAgree s s') (nch len : Nat) :
    RevAgree (predelayPass nch len s) (predelayPass nch len s') := by
  unfold Machine.predelayPass
  rw [← h.rk, ← h.rs, ← h.wet, ← h.dly]
  split
  · exact { h with rs := rfl, rk := rfl, wet := rfl, dly := rfl }
  · exact h

theorem RevAgree.externalCall (h : RevAgree s s') (nch len : Nat) :
    RevAgree (externalCall nch len s) (externalCall nch len s') := by
  unfold Machine.externalCall
  rw [← h.rk, ← h.rs, ← h.wet]
  exact { h with rs := rfl, rk := rfl, wet := rfl }

theorem RevAgree.modulationPass (h : RevAgree s s') (nch len : Nat) :
    RevAgree (modulationPass nch len s) (modulationPass nch len s') := by
  unfold Machine.modulationPass
  rw [← h.pr, ← h.rs, ← h.wet]
  split
  · exact { h with pr := rfl, rs := rfl, wet := rfl }
  · exact h

theorem RevAgree.mixPass (h : RevAgree s s') (nch : Nat) (hlen : len ≤ blkCap) :
    RevAgree (mixPass nch len s) (mixPass nch len s') := by
  unfold Machine.mixPass
  rw [← h.pr, ← h.wet]
  exact { h with pr := rfl, wet := rfl, buffer := (AgreeOn.sweep _ (wordsIn_bufR hlen) h.buffer ()).1 }

theorem distKept_mixPass (nch : Nat) (hlen : len ≤ blkCap) (s : State) : DistKept s (mixPass nch len s) :=
  { DistKept.refl s with buffer := agreeOn_sweep_of_disjoint _ (wordsIn_bufR hlen) (by omega) _ _ }

/-- The passes between the filter and the mix work on the internal memories: they leave the host's memory alone. -/
theorem distKept_innerPasses (nch len : Nat) (s : State) :
    DistKept s (modulationPass nch len (externalCall nch len (predelayPass nch len (copyPass nch len s)))) := by
  constructor <;> simp

theorem RevAgree.reverbPasses (h : RevAgree s s') (nch : Nat) (hlen : len ≤ blkCap) :
    RevAgree (reverbPasses nch len s) (reverbPasses nch len s') :=
  (((((h.filterPass nch hlen).copyPass nch hlen).predelayPass nch len).externalCall nch len).modulationPass nch
    len).mixPass nch hlen

theorem distKept_reverbPasses (nch : Nat) (hlen : len ≤ blkCap) (s : State) : DistKept s (reverbPasses nch len s) :=
  ((distKept_filterPass nch hlen s).trans (distKept_innerPasses nch len _)).trans (distKept_mixPass nch hlen _)

/-! ### The reverb engine's commands -/

/-- `CFG.R` from states that agree on the engine's share ends in states that agree on it. -/
theorem execCfgR_agree (h : RevAgree s s') (nch maxblk : Nat) :
    ∃ t t', execCfgR nch maxblk s = .next t ∧ execCfgR nch maxblk s' = .next t' ∧ RevAgree t t' := by
  unfold execCfgR
  rw [← h.fsR]
  split
  · exact ⟨_, _, rfl, rfl, { h with rs := rfl, dly := rfl }⟩
  · exact ⟨_, _, rfl, rfl, h.raiseFault _⟩

theorem execCfgR_keeps {maxblk : Nat} (h : execCfgR nch maxblk s = .next t) : DistKept s t := by
  rcases execCfgR_cases nch maxblk s with ⟨_, he⟩ | ⟨_, he⟩ <;> obtain rfl := Host.Outcome.next.inj (he.symm.trans h)
  · exact { DistKept.refl s with }
  · exact distKept_raiseFault _ s

/-- `PROC.R` from states that agree on the engine's share ends in states that agree on it: by the same check, or at the
end of the block. -/
theorem execProcR_agree (h : RevAgree s s') (nch n : Nat) (hm : s.rs.maxblk ≤ 8192) :
    ∃ t t', execProcR nch n s = .next t ∧ execProcR nch n s' = .next t' ∧ RevAgree t t' := by
  unfold execProcR
  rw [← h.rs, ← h.rType, ← h.rPredelay]
  split_ifs with hcfg hblk
  · exact ⟨_, _, rfl, rfl, h.raiseFault _⟩
  · exact ⟨_, _, rfl, rfl, h.raiseFault _⟩
  cases decodeRType s.regs.rType with
  | error e => exact ⟨_, _, rfl, rfl, h.raiseFault _⟩
  | ok sel =>
    cases predelayOf s.regs.rPredelay s.rs.fs with
    | none => exact ⟨_, _, rfl, rfl, h.raiseFault _⟩
    | some d =>
      have hlen := len_le_blkCap (eq_true_of_ne_false hblk) hm
      exact ⟨_, _, rfl, rfl, (h.startBlockR sel d).reverbPasses nch hlen⟩

theorem execProcR_keeps {n : Nat} (hm : s.rs.maxblk ≤ 8192) (h : execProcR nch n s = .next t) : DistKept s t := by
  rcases execProcR_cases nch n s with ⟨_, he⟩ | ⟨_, _, he⟩ | ⟨_, _, _, he⟩ | ⟨_, _, _, _, _, he⟩ |
      ⟨sel, d, _, hok, _, _, he⟩ <;>
    obtain rfl := Host.Outcome.next.inj (he.symm.trans h)
  · exact distKept_raiseFault _ s
  · exact distKept_raiseFault _ s
  · exact distKept_raiseFault _ s
  · exact distKept_raiseFault _ s
  · exact (distKept_startBlockR sel d s).trans (distKept_reverbPasses nch (len_le_blkCap hok hm) _)

end Rev

/-- Runs that end in related states relate whatever states they are known to end in. -/
theorem related_of_next {R : State → State → Prop} {o o' : Host.Outcome State Fault Refusal} {t t' : State}
    (h : ∃ u u', o = .next u ∧ o' = .next u' ∧ R u u') (ht : o = .next t) (ht' : o' = .next t') : R t t' := by
  obtain ⟨u, u', hu, hu', hR⟩ := h
  obtain rfl := Host.Outcome.next.inj (hu.symm.trans ht)
  obtain rfl := Host.Outcome.next.inj (hu'.symm.trans ht')
  exact hR

/-- Settles O59: each pass of a command keeps the agreement on its own engine's share and the other engine's share. -/
theorem enginesAreIndependent : Obligations.EnginesAreIndependent := by
  unfold Obligations.EnginesAreIndependent
  refine ⟨?dist, ?rev⟩
  case dist =>
    rintro i s s' t t' ⟨nch, n, rfl | rfl⟩ hm hagree ht ht'
    · exact ⟨related_of_next (execCfgD_agree hagree nch n) ht ht', execCfgD_keeps ht⟩
    · exact ⟨related_of_next (execProcD_agree hagree nch n hm) ht ht', execProcD_keeps hm ht⟩
  case rev =>
    rintro i s s' t t' ⟨nch, n, rfl | rfl⟩ hm hagree ht ht'
    · exact ⟨related_of_next (execCfgR_agree hagree nch n) ht ht', execCfgR_keeps ht⟩
    · exact ⟨related_of_next (execProcR_agree hagree nch n hm) ht ht', execProcR_keeps hm ht⟩

end Sys2Proof.Machine
end

section
/-! PROOF. The four operations are correctly rounded (00_scope.md R10, R11). The words of the binade `[2^23, 2^24) * 2^k`
units lie on the grid of step `2^k`, and every other word of the same sign lies on that grid or below the binade; so the
nearest point of the grid, which `roundDiv` finds, is the nearest word. -/

namespace Sys2Proof.Machine

open Sys2Proof.Config

/-! ### The nearest whole multiple of a step -/

section RoundDiv

variable {num den j : Nat}

theorem roundDiv_lt (hden : 0 < den) (h : 2 * num + den < 2 * (j * den)) : roundDiv num den < j := by
  obtain ⟨_, hle, _⟩ := roundDiv_spec num den hden
  by_contra hc
  have := Nat.mul_le_mul_right den (not_lt.mp hc)
  omega

theorem roundDiv_le (hden : 0 < den) (h : num ≤ j * den) : roundDiv num den ≤ j := by
  have := roundDiv_lt (j := j + 1) hden (num := num) (by rw [Nat.add_one_mul j]; omega)
  omega

theorem le_roundDiv (hden : 0 < den) (h : j * den ≤ num) : j ≤ roundDiv num den := by
  obtain ⟨hle, _, _⟩ := roundDiv_spec num den hden
  by_contra hc
  have := Nat.mul_le_mul_right den (not_le.mp hc)
  rw [Nat.add_one_mul] at this
  omega

/-- An even number is reached already from half a unit below it, where the tie goes to it. -/
theorem le_roundDiv_of_even (hden : 0 < den) (hj : j % 2 = 0) (h : 2 * (j * den) ≤ 2 * num + den) :
    j ≤ roundDiv num den := by
  obtain ⟨hle, _, htie⟩ := roundDiv_spec num den hden
  by_contra hc
  have hmul := Nat.mul_le_mul_right den (not_le.mp hc)
  rw [Nat.add_one_mul] at hmul
  have heven := htie (.inl (by omega))
  have hj' : roundDiv num den + 2 ≤ j := by omega
  have := Nat.mul_le_mul_right den hj'
  rw [Nat.add_mul] at this
  omega

/-- The distance of the rounded multiple of the step `g`, over the common denominator. -/
theorem roundDiv_mul_sub {g : Nat} (hden : 0 < den) :
    (roundDiv num (den * g) : ℝ) * g - num / den =
      (2 * (roundDiv num (den * g) * (den * g)) - 2 * num) / (2 * den) := by
  have : (den : ℝ) ≠ 0 := by positivity
  field_simp

theorem abs_roundDiv_mul_sub_le {g : Nat} (hden : 0 < den) (hg : 0 < g) :
    |(roundDiv num (den * g) : ℝ) * g - num / den| ≤ g / 2 := by
  obtain ⟨hle, hge, _⟩ := roundDiv_spec num (den * g) (Nat.mul_pos hden hg)
  have hle : (2 * num : ℝ) ≤ 2 * (roundDiv num (den * g) * (den * g)) + den * g := by exact_mod_cast hle
  have hge : (2 * (roundDiv num (den * g) * (den * g)) : ℝ) ≤ 2 * num + den * g := by exact_mod_cast hge
  have hpos : (0 : ℝ) < 2 * den := by positivity
  rw [roundDiv_mul_sub hden, abs_div, abs_of_pos hpos, div_le_iff₀ hpos, abs_le]
  constructor <;> linarith

theorem roundDiv_even_of_tie {g : Nat} (hden : 0 < den) (hg : 0 < g)
    (h : |(roundDiv num (den * g) : ℝ) * g - num / den| = g / 2) : roundDiv num (den * g) % 2 = 0 := by
  obtain ⟨_, _, htie⟩ := roundDiv_spec num (den * g) (Nat.mul_pos hden hg)
  have hpos : (0 : ℝ) < 2 * den := by positivity
  rw [roundDiv_mul_sub hden, abs_div, abs_of_pos hpos, div_eq_iff hpos.ne', abs_eq (by positivity)] at h
  refine htie (h.symm.imp (fun h => ?_) fun h => ?_)
  · have : (2 * num : ℝ) = 2 * (roundDiv num (den * g) * (den * g)) + den * g := by linarith
    exact_mod_cast this
  · have : (2 * (roundDiv num (den * g) * (den * g)) : ℝ) = 2 * num + den * g := by linarith
    exact_mod_cast this

end RoundDiv

/-- A multiple of `g` within `g / 2` of `x` is nearest to `x` among the multiples of `g` and the numbers below `b * g`, a
multiple that `x` reaches; another one is as near on a tie only. -/
theorem nearest_of_grid {g x u : ℝ} {q b : ℤ} (hg : 0 < g) (hq : |q * g - x| ≤ g / 2) (hx : b * g ≤ x)
    (hu : (∃ j : ℤ, u = j * g) ∨ u < b * g) :
    |q * g - x| ≤ |u - x| ∧ (u ≠ q * g → |u - x| = |q * g - x| → |q * g - x| = g / 2) := by
  have hgrid (j : ℤ) (hj : j ≠ q) : g / 2 ≤ |j * g - x| := by
    have hone : (1 : ℝ) ≤ |(j : ℝ) - q| := by exact_mod_cast Int.one_le_abs (sub_ne_zero.mpr hj)
    have htri : |(j : ℝ) * g - q * g| ≤ |j * g - x| + |q * g - x| := by
      simpa [abs_sub_comm] using abs_sub_le ((j : ℝ) * g) x (q * g)
    rw [← sub_mul, abs_mul, abs_of_pos hg] at htri
    nlinarith
  rcases hu with ⟨j, rfl⟩ | hlt
  · by_cases hj : j = q
    · subst hj
      exact ⟨le_rfl, fun h => absurd rfl h⟩
    · exact ⟨hq.trans (hgrid j hj), fun _ he => le_antisymm hq (he ▸ hgrid j hj)⟩
  · have hb : |q * g - x| ≤ |b * g - x| := by
      by_cases hj : b = q
      · rw [hj]
      · exact hq.trans (hgrid b hj)
    have hfar : |b * g - x| < |u - x| := by
      rw [abs_of_nonpos (by linarith), abs_of_neg (by linarith)]
      linarith
    exact ⟨(hb.trans_lt hfar).le, fun _ he => absurd he (hb.trans_lt hfar).ne'⟩

/-! ### The fields and the value of a packed word -/

section Pack

variable {neg : Bool} {mag : Nat}

theorem toNat_packBits (h : mag < 2 ^ 31) : (packBits neg mag).toNat = (if neg then 2 ^ 31 else 0) + mag := by
  rw [packBits, BitVec.toNat_ofNat]
  split <;> omega

theorem signBit_packBits (h : mag < 2 ^ 31) : signBit (packBits neg mag) = neg := by
  have hmsb : signBit (packBits neg mag) = (packBits neg mag).msb := (BitVec.msb_eq_getLsbD_last _).symm
  rw [hmsb, BitVec.msb_eq_decide, toNat_packBits h]
  cases neg
  · simpa using h
  · simp

theorem expField_packBits (h : mag < 2 ^ 31) : expField (packBits neg mag) = mag / 2 ^ 23 := by
  rw [expField, toNat_packBits h]
  split <;> omega

theorem fracField_packBits (h : mag < 2 ^ 31) : fracField (packBits neg mag) = mag % 2 ^ 23 := by
  rw [fracField, toNat_packBits h]
  split <;> omega

/-- The magnitude bits that `roundUnits` builds, a carry into the exponent included, stand for `q * 2^k` units. -/
theorem magUnits_packBits {k q : Nat} (hlo : 2 ^ 23 ≤ q) (hhi : q ≤ 2 ^ 24) (h : k * 2 ^ 23 + q < 2 ^ 31) :
    magUnits (packBits neg (k * 2 ^ 23 + q)) = q * 2 ^ k := by
  rw [magUnits, expField_packBits h, fracField_packBits h, if_neg (by omega)]
  rcases hhi.lt_or_eq with hlt | rfl
  · rw [show (k * 2 ^ 23 + q) / 2 ^ 23 - 1 = k by omega, show 2 ^ 23 + (k * 2 ^ 23 + q) % 2 ^ 23 = q by omega]
  · rw [show (k * 2 ^ 23 + 2 ^ 24) / 2 ^ 23 - 1 = k + 1 by omega,
      show 2 ^ 23 + (k * 2 ^ 23 + 2 ^ 24) % 2 ^ 23 = 2 ^ 23 by omega]
    ring

theorem flush_packBits_of_normal (hlo : 2 ^ 23 ≤ mag) (h : mag < 2 ^ 31) : flush (packBits neg mag) = packBits neg mag := by
  rcases flush_cases (packBits neg mag) with ⟨hs, _⟩ | ⟨_, he⟩
  · simp only [isSubnormal, expField_packBits h, Bool.and_eq_true, beq_iff_eq] at hs
    omega
  · exact he

theorem isZero_flush_packBits (h : mag < 2 ^ 23) : isZero (flush (packBits neg mag)) = true := by
  rcases flush_cases (packBits neg mag) with ⟨_, he⟩ | ⟨hs, he⟩
  · rw [he, isZero_signedZero]
  · have hexp : expField (packBits neg mag) = 0 := by rw [expField_packBits (by omega)]; omega
    rw [he]
    simpa [isZero, isSubnormal, hexp] using hs

end Pack

/-- The factor of a sign. -/
def signOf (neg : Bool) : ℝ := if neg then -1 else 1

@[simp] theorem signOf_true : signOf true = -1 := rfl
@[simp] theorem signOf_false : signOf false = 1 := rfl

theorem signOf_bne (a b : Bool) : signOf (a != b) = signOf a * signOf b := by
  cases a <;> cases b <;> simp

@[simp] theorem abs_signOf (neg : Bool) : |signOf neg| = 1 := by cases neg <;> simp

theorem units_eq_signOf (w : F32) : (units w : ℝ) = signOf (signBit w) * magUnits w := by
  unfold units
  cases signBit w <;> simp

theorem val_eq_signOf (w : F32) : val w = signOf (signBit w) * magUnits w / 2 ^ 149 := by
  rw [val, units_eq_signOf]

theorem val_eq_zero_iff (w : F32) : val w = 0 ↔ isZero w = true := by
  have hs : signOf (signBit w) ≠ 0 := abs_pos.mp (by simp)
  rw [val_eq_signOf]
  simp only [div_eq_zero_iff, mul_eq_zero, hs, Nat.cast_eq_zero, false_or, magUnits, isZero,
    Bool.and_eq_true, beq_iff_eq]
  split_ifs <;> simp_all

/-- Above the start of the binade of step `2^k` a word's magnitude is a multiple of the step. -/
theorem magUnits_grid (w : F32) (k : Nat) : magUnits w < 2 ^ 23 * 2 ^ k ∨ 2 ^ k ∣ magUnits w := by
  have hfrac : fracField w < 2 ^ 23 := Nat.mod_lt _ (by decide)
  unfold magUnits
  split_ifs with hexp
  · exact .inl (hfrac.trans_le (Nat.le_mul_of_pos_right _ (Nat.two_pow_pos k)))
  · rcases le_or_gt k (expField w - 1) with hk | hk
    · exact .inr (Dvd.dvd.mul_left (pow_dvd_pow 2 hk) _)
    · left
      calc (2 ^ 23 + fracField w) * 2 ^ (expField w - 1)
        _ < 2 ^ 24 * 2 ^ (expField w - 1) := Nat.mul_lt_mul_of_pos_right (by omega) (Nat.two_pow_pos _)
        _ = 2 ^ 23 * 2 ^ (expField w - 1 + 1) := by ring
        _ ≤ 2 ^ 23 * 2 ^ k := Nat.mul_le_mul_left _ (Nat.pow_le_pow_right (by decide) hk)

/-- The same for the value seen from either side: of the other sign it is below the binade too. -/
theorem signOf_mul_units_grid (neg : Bool) (w : F32) (k : Nat) :
    (∃ j : ℤ, signOf neg * units w = j * (2 ^ k : ℕ)) ∨ signOf neg * units w < ((2 ^ 23 : ℕ) : ℤ) * (2 ^ k : ℕ) := by
  rw [units_eq_signOf, ← mul_assoc, ← signOf_bne]
  rcases magUnits_grid w k with hlt | ⟨d, hd⟩
  · right
    have hlt : (magUnits w : ℝ) < ((2 ^ 23 : ℕ) : ℤ) * (2 ^ k : ℕ) := by exact_mod_cast hlt
    have h0 : (0 : ℝ) ≤ magUnits w := Nat.cast_nonneg _
    cases neg != signBit w <;> simp only [signOf_true, signOf_false] <;> linarith
  · left
    rw [hd]
    cases neg != signBit w
    · exact ⟨d, by push_cast; simp only [signOf_false]; ring⟩
    · exact ⟨-d, by push_cast; simp only [signOf_true]; ring⟩

/-- The distance of a word from a value of the sign `neg`, in units. -/
theorem abs_val_sub (neg : Bool) (w : F32) (x : ℝ) :
    |val w - signOf neg * x / 2 ^ 149| = |signOf neg * units w - x| / 2 ^ 149 := by
  have h : val w - signOf neg * x / 2 ^ 149 = signOf neg * (signOf neg * units w - x) / 2 ^ 149 := by
    rw [val]
    cases neg
    · simp only [signOf_false]; ring
    · simp only [signOf_true]; ring
  rw [h, abs_div, abs_mul, abs_signOf, one_mul, abs_of_pos (show (0 : ℝ) < 2 ^ 149 by positivity)]

/-! ### The magnitude bits of a rounded fraction -/

section RoundUnits

variable {num den : Nat}

/-- The exponent that `roundUnits` raises the significand by. -/
def gridExp (num den : Nat) : Nat := Nat.log2 (num / den) - 23

theorem roundUnits_eq (num den : Nat) :
    roundUnits num den =
      min (gridExp num den * 2 ^ 23 + roundDiv num (den * 2 ^ gridExp num den)) 0x7F800000 := rfl

theorem roundUnits_lt (num den : Nat) : roundUnits num den < 2 ^ 31 := by
  rw [roundUnits_eq]
  omega

/-- Below the smallest normal magnitude the step is one unit. -/
theorem gridExp_of_lt (hden : 0 < den) (h : num < 2 ^ 23 * den) : gridExp num den = 0 := by
  have hdiv : num / den < 2 ^ 23 := (Nat.div_lt_iff_lt_mul hden).mpr h
  rcases Nat.eq_zero_or_pos (num / den) with h0 | h0
  · simp [gridExp, h0]
  · have := (Nat.log2_lt h0.ne').mpr hdiv
    unfold gridExp
    omega

/-- From there on the fraction lies in the binade of its step. -/
theorem gridExp_binade (hden : 0 < den) (h : 2 ^ 23 * den ≤ num) :
    2 ^ 23 * (den * 2 ^ gridExp num den) ≤ num ∧ num < 2 ^ 24 * (den * 2 ^ gridExp num den) := by
  have hdiv : 2 ^ 23 ≤ num / den := (Nat.le_div_iff_mul_le hden).mpr h
  have hne : num / den ≠ 0 := by omega
  have hlog : 23 ≤ Nat.log2 (num / den) := (Nat.le_log2 hne).mpr hdiv
  have hlo := Nat.log2_self_le hne
  have hhi := Nat.lt_log2_self (n := num / den)
  rw [show Nat.log2 (num / den) = 23 + gridExp num den by unfold gridExp; omega, Nat.pow_add,
    Nat.le_div_iff_mul_le hden] at hlo
  rw [show Nat.log2 (num / den) + 1 = 24 + gridExp num den by unfold gridExp; omega, Nat.pow_add,
    Nat.div_lt_iff_lt_mul hden] at hhi
  rw [Nat.mul_comm den, ← Nat.mul_assoc, ← Nat.mul_assoc]
  exact ⟨hlo, hhi⟩

/-- The significand has 24 bits, or carries to `2^24`. -/
theorem significand_bounds (hden : 0 < den) (h : 2 ^ 23 * den ≤ num) :
    2 ^ 23 ≤ roundDiv num (den * 2 ^ gridExp num den) ∧ roundDiv num (den * 2 ^ gridExp num den) ≤ 2 ^ 24 := by
  obtain ⟨hlo, hhi⟩ := gridExp_binade hden h
  have hpos : 0 < den * 2 ^ gridExp num den := by positivity
  exact ⟨le_roundDiv hpos hlo, roundDiv_le hpos hhi.le⟩

/-- Below half a unit above the largest finite magnitude, `2^128 - 2^103`, the bits are those of a finite word. -/
theorem finite_bits (hden : 0 < den) (hlo : 2 ^ 23 * den ≤ num) (hhi : num < (2 ^ 25 - 1) * 2 ^ 252 * den) :
    gridExp num den * 2 ^ 23 + roundDiv num (den * 2 ^ gridExp num den) < 0x7F800000 := by
  obtain ⟨hbin, _⟩ := gridExp_binade hden hlo
  obtain ⟨_, hq⟩ := significand_bounds hden hlo
  generalize gridExp num den = k at *
  have hpos : 0 < den * 2 ^ k := by positivity
  rcases Nat.lt_trichotomy k 253 with hk | rfl | hk
  · omega
  · have := roundDiv_lt (num := num) (j := 2 ^ 24) hpos (by omega)
    omega
  · have : 2 ^ 254 * den ≤ den * 2 ^ k := by
      rw [Nat.mul_comm]
      exact Nat.mul_le_mul_left _ (Nat.pow_le_pow_right (by decide) hk)
    omega

/-- From there on they are those of an infinity. -/
theorem roundUnits_of_huge (hden : 0 < den) (h : (2 ^ 25 - 1) * 2 ^ 252 * den ≤ num) : roundUnits num den = 0x7F800000 := by
  have hlo : 2 ^ 23 * den ≤ num := by omega
  obtain ⟨_, hbin⟩ := gridExp_binade hden hlo
  obtain ⟨hq, _⟩ := significand_bounds hden hlo
  rw [roundUnits_eq]
  generalize gridExp num den = k at *
  have hpos : 0 < den * 2 ^ k := by positivity
  rcases Nat.lt_trichotomy k 253 with hk | rfl | hk
  · have : den * 2 ^ k ≤ 2 ^ 252 * den := by
      rw [Nat.mul_comm (2 ^ 252)]
      exact Nat.mul_le_mul_left _ (Nat.pow_le_pow_right (by decide) (by omega))
    omega
  · have := le_roundDiv_of_even (num := num) (j := 2 ^ 24) hpos (by decide) (by omega)
    omega
  · omega

/-- More than half a unit below the smallest normal magnitude the bits are those of a subnormal or a zero. -/
theorem roundUnits_of_tiny (hden : 0 < den) (h : 2 * num < (2 ^ 24 - 1) * den) : roundUnits num den < 2 ^ 23 := by
  have := roundDiv_lt (num := num) (j := 2 ^ 23) hden (by omega)
  rw [roundUnits_eq, gridExp_of_lt hden (by omega)]
  simp only [Nat.pow_zero, Nat.mul_one]
  omega

/-- Between there and the smallest normal magnitude they are those of the smallest normal word. -/
theorem roundUnits_of_smallest (hden : 0 < den) (hlo : (2 ^ 24 - 1) * den ≤ 2 * num) (hhi : num < 2 ^ 23 * den) :
    roundUnits num den = 2 ^ 23 := by
  have h1 := le_roundDiv_of_even (num := num) (j := 2 ^ 23) hden (by decide) (by omega)
  have h2 := roundDiv_le (num := num) (j := 2 ^ 23) hden hhi.le
  rw [roundUnits_eq, gridExp_of_lt hden hhi]
  simp only [Nat.pow_zero, Nat.mul_one]
  omega

end RoundUnits

/-! ### One rounding is correct -/

theorem signBit_roundTo (neg : Bool) (num den : Nat) : signBit (roundTo neg num den) = neg := by
  rw [roundTo, signBit_flush, signBit_packBits (roundUnits_lt num den)]

/-- The words of the normal range: `roundTo` gives a finite word of `q * 2^k` units, `q` being `num / den` units rounded to
a multiple of `2^k`. -/
theorem roundTo_of_normal (neg : Bool) {num den : Nat} (hden : 0 < den) (hlo : 2 ^ 23 * den ≤ num)
    (hhi : num < (2 ^ 25 - 1) * 2 ^ 252 * den) :
    isFinite (roundTo neg num den) = true ∧
      signOf neg * units (roundTo neg num den) =
        roundDiv num (den * 2 ^ gridExp num den) * ((2 ^ gridExp num den : ℕ) : ℝ) ∧
      fracField (roundTo neg num den) % 2 = roundDiv num (den * 2 ^ gridExp num den) % 2 := by
  obtain ⟨hq, hq'⟩ := significand_bounds hden hlo
  have hfin := finite_bits hden hlo hhi
  have hpack : roundTo neg num den =
      packBits neg (gridExp num den * 2 ^ 23 + roundDiv num (den * 2 ^ gridExp num den)) := by
    rw [roundTo, roundUnits_eq, min_eq_left hfin.le, flush_packBits_of_normal (by omega) (by omega)]
  rw [hpack]
  generalize roundDiv num (den * 2 ^ gridExp num den) = q at *
  generalize gridExp num den = k at *
  have hbits : k * 2 ^ 23 + q < 2 ^ 31 := by omega
  refine ⟨?_, ?_, ?_⟩
  · rw [isFinite, expField_packBits hbits, bne_iff_ne]
    omega
  · rw [units_eq_signOf, signBit_packBits hbits, magUnits_packBits hq hq' hbits, ← mul_assoc, ← signOf_bne]
    push_cast
    simp
  · rw [fracField_packBits hbits]
    omega

/-- In the normal range no word is nearer than `roundTo`'s, and another one is as near only where the fraction is even. -/
theorem roundTo_nearest (neg : Bool) {num den : Nat} (hden : 0 < den) (hlo : 2 ^ 23 * den ≤ num)
    (hhi : num < (2 ^ 25 - 1) * 2 ^ 252 * den) (w : F32) :
    |val (roundTo neg num den) - signOf neg * (num / den) / 2 ^ 149| ≤ |val w - signOf neg * (num / den) / 2 ^ 149| ∧
      (val w ≠ val (roundTo neg num den) →
        |val w - signOf neg * (num / den) / 2 ^ 149| =
          |val (roundTo neg num den) - signOf neg * (num / den) / 2 ^ 149| →
        fracField (roundTo neg num den) % 2 = 0) := by
  obtain ⟨_, hunits, hfrac⟩ := roundTo_of_normal neg hden hlo hhi
  have hg : 0 < 2 ^ gridExp num den := Nat.two_pow_pos _
  have hstart : (((2 ^ 23 : ℕ) : ℤ) : ℝ) * ((2 ^ gridExp num den : ℕ) : ℝ) ≤ num / den := by
    rw [le_div_iff₀ (by exact_mod_cast hden)]
    have := (gridExp_binade hden hlo).1
    rw [Nat.mul_comm den, ← Nat.mul_assoc] at this
    exact_mod_cast this
  obtain ⟨hnear, htie⟩ := nearest_of_grid (q := roundDiv num (den * 2 ^ gridExp num den)) (by exact_mod_cast hg)
    (abs_roundDiv_mul_sub_le hden hg) hstart (signOf_mul_units_grid neg w (gridExp num den))
  simp only [Int.cast_natCast] at hnear htie
  rw [abs_val_sub, abs_val_sub, hunits, hfrac]
  refine ⟨by gcongr, fun hne heq => roundDiv_even_of_tie hden hg (htie (fun h => hne ?_) ?_)⟩
  · have hs : signOf neg ≠ 0 := abs_pos.mp (by simp)
    rw [val, val, mul_left_cancel₀ hs (h.trans hunits.symm)]
  · exact (div_left_inj' (by positivity)).mp heq

/-- The bounds of `RoundsTo` on a magnitude of `num / den` units are bounds on the fraction. -/
theorem fraction_bounds {num den : Nat} (hden : 0 < den) :
    ((1 : ℝ) / 2 ^ 126 ≤ num / den / 2 ^ 149 ↔ 2 ^ 23 * den ≤ num) ∧
    ((num : ℝ) / den / 2 ^ 149 < 2 ^ 128 - 2 ^ 103 ↔ num < (2 ^ 25 - 1) * 2 ^ 252 * den) ∧
    ((num : ℝ) / den / 2 ^ 149 < 1 / 2 ^ 126 - 1 / 2 ^ 150 ↔ 2 * num < (2 ^ 24 - 1) * den) := by
  have hd : (0 : ℝ) < den := by exact_mod_cast hden
  have h149 : (0 : ℝ) < 2 ^ 149 := by positivity
  refine ⟨?_, ?_, ?_⟩
  · rw [le_div_iff₀ h149, le_div_iff₀ hd, show (1 : ℝ) / 2 ^ 126 * 2 ^ 149 = ((2 ^ 23 : ℕ) : ℝ) by norm_num]
    exact_mod_cast Iff.rfl
  · rw [div_lt_iff₀ h149, div_lt_iff₀ hd,
      show ((2 : ℝ) ^ 128 - 2 ^ 103) * 2 ^ 149 = (((2 ^ 25 - 1) * 2 ^ 252 : ℕ) : ℝ) by norm_num]
    exact_mod_cast Iff.rfl
  · rw [div_lt_iff₀ h149, div_lt_iff₀ hd,
      show ((1 : ℝ) / 2 ^ 126 - 1 / 2 ^ 150) * 2 ^ 149 = ((2 ^ 24 - 1 : ℕ) : ℝ) / 2 by norm_num, div_mul_eq_mul_div,
      lt_div_iff₀ two_pos, mul_comm (num : ℝ)]
    exact_mod_cast Iff.rfl

/-- `roundTo` is the correct rounding of its exact value. -/
theorem roundsTo_roundTo (neg : Bool) (num : Nat) {den : Nat} (hden : 0 < den) :
    RoundsTo (signOf neg * (num / den) / 2 ^ 149) (roundTo neg num den) := by
  have habs : |signOf neg * ((num : ℝ) / den) / 2 ^ 149| = (num : ℝ) / den / 2 ^ 149 := by
    rw [abs_div, abs_mul, abs_signOf, one_mul, abs_of_nonneg (by positivity), abs_of_pos (by positivity)]
  have hmag : 0 ≤ (num : ℝ) / den / 2 ^ 149 := by positivity
  obtain ⟨hnormal, hlarge, htiny⟩ := fraction_bounds (num := num) hden
  constructor
  case normal =>
    rw [habs]
    exact fun hlo hhi => (roundTo_of_normal neg hden (hnormal.mp hlo) (hlarge.mp hhi)).1
  case nearest =>
    rw [habs]
    exact fun hlo hhi w _ => (roundTo_nearest neg hden (hnormal.mp hlo) (hlarge.mp hhi) w).1
  case tiesEven =>
    rw [habs]
    exact fun hlo hhi w _ => (roundTo_nearest neg hden (hnormal.mp hlo) (hlarge.mp hhi) w).2
  case tiny =>
    rw [habs]
    exact fun h => isZero_flush_packBits (roundUnits_of_tiny hden (htiny.mp h))
  case smallest =>
    rw [habs]
    intro hlo hhi
    have hbits := roundUnits_of_smallest hden (not_lt.mp fun h => hlo.not_gt (htiny.mpr h))
      (not_le.mp fun h => hhi.not_ge (hnormal.mpr h))
    have hmag : magUnits (roundTo neg num den) = 2 ^ 23 := by
      rw [roundTo, hbits, flush_packBits_of_normal le_rfl (by decide)]
      simpa using magUnits_packBits (neg := neg) (k := 0) (q := 2 ^ 23) le_rfl (by decide) (by decide)
    rw [val_eq_signOf, hmag, abs_div, abs_mul, abs_signOf]
    norm_num
  case huge =>
    rw [habs]
    intro h
    have hbits := roundUnits_of_huge hden (not_lt.mp fun h' => h.not_gt (hlarge.mpr h'))
    rw [roundTo, hbits]
    cases neg <;> decide
  case sign =>
    rw [signBit_roundTo]
    cases neg
    · exact fun _ => rfl
    · intro h
      rw [signOf_true, neg_one_mul, neg_div] at h
      linarith
  case signNeg =>
    rw [signBit_roundTo]
    cases neg
    · intro h
      rw [signOf_false, one_mul] at h
      linarith
    · exact fun _ => rfl

theorem roundsTo_signedZero (neg : Bool) : RoundsTo 0 (signedZero neg) := by
  constructor
  case tiny => exact fun _ => isZero_signedZero neg
  all_goals norm_num

end Sys2Proof.Machine
end

section
/-! PROOF. The four operations, class by class of their operands: each primitive is one rounding of the exact value on
finite operands, and what IEEE 754 says on the others (00_scope.md R11). -/

namespace Sys2Proof.Machine

open Sys2Proof.Config

/-! ### Classes of operands -/

section Classes

variable {a w : F32}

theorem isNaN_of_isFinite (h : isFinite w = true) : isNaN w = false := by
  rcases class_cases w with ⟨_, _, h'⟩ | ⟨_, _, h'⟩ | ⟨h', _, _⟩ <;> simp_all

theorem isInf_of_isFinite (h : isFinite w = true) : isInf w = false := by
  rcases class_cases w with ⟨_, _, h'⟩ | ⟨_, _, h'⟩ | ⟨_, h', _⟩ <;> simp_all

theorem isNaN_of_isInf (h : isInf w = true) : isNaN w = false := by
  rcases class_cases w with ⟨_, h', _⟩ | ⟨h', _, _⟩ | ⟨_, h', _⟩ <;> simp_all

theorem isZero_of_isInf (h : isInf w = true) : isZero w = false := by
  simp only [isInf, isZero, Bool.and_eq_true, beq_iff_eq] at h ⊢
  simp [h.1]

theorem isFinite_flush (h : isFinite w = true) : isFinite (flush w) = true := by
  rcases flush_cases w with ⟨_, he⟩ | ⟨_, he⟩
  · rw [he]
    cases signBit w <;> decide
  · rwa [he]

theorem flush_of_isInf (h : isInf w = true) : flush w = w := by
  rcases flush_cases w with ⟨hs, _⟩ | ⟨_, he⟩
  · simp [isInf_of_isFinite (isFinite_of_isSubnormal hs)] at h
  · exact he

theorem val_flipSign (w : F32) : val (flipSign w) = -val w := by
  rw [val, val, units_flipSign, Int.cast_neg, neg_div]

theorem isZero_eq_false_of_val_ne (h : val w ≠ 0) : isZero w = false :=
  eq_false_of_ne_true fun hz => h ((val_eq_zero_iff w).mpr hz)

theorem magUnits_pos_of_val_ne (h : val w ≠ 0) : 0 < magUnits w :=
  Nat.pos_of_ne_zero fun h0 => h (by rw [val_eq_signOf, h0]; simp)

end Classes

/-! ### The primitives on flushed operands -/

section Flushed

variable {a b : F32}

theorem sumFlushed_of_finite (src : NanSource) (ha : isFinite a = true) (hb : isFinite b = true) :
    sumFlushed src a b =
      if units a + units b = 0 then signedZero (signBit a && signBit b)
      else roundTo (decide (units a + units b < 0)) (units a + units b).natAbs 1 := by
  simp [sumFlushed, isNaN_of_isFinite ha, isNaN_of_isFinite hb, isInf_of_isFinite ha, isInf_of_isFinite hb]

theorem sumFlushed_of_isInf_left (src : NanSource) (ha : isInf a = true) (hb : isNaN b = false) :
    sumFlushed src a b = if isInf b && signBit a != signBit b then someNaN src a b else a := by
  simp [sumFlushed, isNaN_of_isInf ha, hb, ha]

theorem sumFlushed_of_isInf_right (src : NanSource) (ha : isFinite a = true) (hb : isInf b = true) :
    sumFlushed src a b = b := by
  simp [sumFlushed, isNaN_of_isFinite ha, isNaN_of_isInf hb, isInf_of_isFinite ha, hb]

theorem fmulFlushed_of_finite (ha : isFinite a = true) (hb : isFinite b = true) :
    fmulFlushed a b = roundTo (signBit a != signBit b) (magUnits a * magUnits b) (2 ^ 149) := by
  simp [fmulFlushed, isNaN_of_isFinite ha, isNaN_of_isFinite hb, isInf_of_isFinite ha, isInf_of_isFinite hb]

theorem fmulFlushed_of_isInf (ha : isNaN a = false) (hb : isNaN b = false) (h : isInf a = true ∨ isInf b = true) :
    fmulFlushed a b =
      if isZero a || isZero b then someNaN .fmul a b else signedInf (signBit a != signBit b) := by
  have hinf : (isInf a || isInf b) = true := by simpa using h
  simp only [fmulFlushed, ha, hb, hinf, Bool.or_false, Bool.false_eq_true, if_false, if_true]

theorem fdivFlushed_of_finite (ha : isFinite a = true) (hb : isFinite b = true) (hz : isZero b = false) :
    fdivFlushed a b = roundTo (signBit a != signBit b) (magUnits a * 2 ^ 149) (magUnits b) := by
  simp [fdivFlushed, isNaN_of_isFinite ha, isNaN_of_isFinite hb, isInf_of_isFinite ha, isInf_of_isFinite hb, hz]

theorem fdivFlushed_of_isZero (ha : isFinite a = true) (hb : isFinite b = true) (hz : isZero b = true) :
    fdivFlushed a b = if isZero a then someNaN .fdiv a b else signedInf (signBit a != signBit b) := by
  simp [fdivFlushed, isNaN_of_isFinite ha, isNaN_of_isFinite hb, isInf_of_isFinite ha, isInf_of_isFinite hb, hz]

theorem fdivFlushed_of_isInf_left (ha : isInf a = true) (hb : isNaN b = false) :
    fdivFlushed a b = if isInf b then someNaN .fdiv a b else signedInf (signBit a != signBit b) := by
  simp [fdivFlushed, isNaN_of_isInf ha, hb, ha]

theorem fdivFlushed_of_isInf_right (ha : isFinite a = true) (hb : isInf b = true) :
    fdivFlushed a b = signedZero (signBit a != signBit b) := by
  simp [fdivFlushed, isNaN_of_isFinite ha, isNaN_of_isInf hb, isInf_of_isFinite ha, hb]

/-! ### Correct rounding on finite operands -/

theorem val_add_val (a b : F32) : val a + val b = (units a + units b : ℤ) / 2 ^ 149 := by
  rw [val, val, Int.cast_add, add_div]

theorem signOf_mul_natAbs (z : ℤ) : signOf (decide (z < 0)) * z.natAbs = z := by
  rw [Nat.cast_natAbs]
  rcases lt_or_ge z 0 with h | h
  · simp [h, abs_of_neg h]
  · simp [not_lt.mpr h, abs_of_nonneg h]

theorem roundsTo_sumFlushed (src : NanSource) (ha : isFinite a = true) (hb : isFinite b = true) :
    RoundsTo (val a + val b) (sumFlushed src a b) := by
  rw [sumFlushed_of_finite src ha hb, val_add_val]
  split_ifs with hz
  · rw [hz]
    simpa using roundsTo_signedZero _
  · have h := roundsTo_roundTo (decide (units a + units b < 0)) (units a + units b).natAbs one_pos
    rwa [Nat.cast_one, div_one, signOf_mul_natAbs] at h

/-- An exact zero sum has the sign that both operands have, else `+` (IEEE 754). -/
theorem sumFlushed_of_sum_zero (src : NanSource) (ha : isFinite a = true) (hb : isFinite b = true)
    (h : val a + val b = 0) : sumFlushed src a b = signedZero (signBit a && signBit b) := by
  rw [val_add_val, div_eq_zero_iff, Int.cast_eq_zero] at h
  rw [sumFlushed_of_finite src ha hb, if_pos (h.resolve_right (by positivity))]

theorem roundsTo_fmulFlushed (ha : isFinite a = true) (hb : isFinite b = true) :
    RoundsTo (val a * val b) (fmulFlushed a b) := by
  have hval : val a * val b =
      signOf (signBit a != signBit b) * ((magUnits a * magUnits b : ℕ) / (2 ^ 149 : ℕ)) / 2 ^ 149 := by
    rw [val_eq_signOf, val_eq_signOf, signOf_bne]
    push_cast
    ring
  rw [fmulFlushed_of_finite ha hb, hval]
  exact roundsTo_roundTo _ _ (Nat.two_pow_pos _)

theorem roundsTo_fdivFlushed (ha : isFinite a = true) (hb : isFinite b = true) (h0 : val b ≠ 0) :
    RoundsTo (val a / val b) (fdivFlushed a b) := by
  have hval : val a / val b =
      signOf (signBit a != signBit b) * ((magUnits a * 2 ^ 149 : ℕ) / (magUnits b : ℝ)) / 2 ^ 149 := by
    have hinv : (signOf (signBit b))⁻¹ = signOf (signBit b) := by cases signBit b <;> norm_num
    rw [val_eq_signOf, val_eq_signOf, signOf_bne, div_div_div_cancel_right₀ (by positivity), mul_div_mul_comm,
      div_eq_mul_inv (signOf _), hinv]
    push_cast
    ring
  rw [fdivFlushed_of_finite ha hb (isZero_eq_false_of_val_ne h0), hval]
  exact roundsTo_roundTo _ _ (magUnits_pos_of_val_ne h0)

end Flushed

/-! ### The primitives -/

section Primitives

variable {a b : F32}

/-- The first part of the statement: two finite operands. -/
theorem arithmetic_of_finite (ha : isFinite a = true) (hb : isFinite b = true) :
    RoundsTo (val (flush a) + val (flush b)) (fadd a b) ∧ RoundsTo (val (flush a) - val (flush b)) (fsub a b) ∧
    RoundsTo (val (flush a) * val (flush b)) (fmul a b) ∧
    (val (flush b) ≠ 0 → RoundsTo (val (flush a) / val (flush b)) (fdiv a b)) ∧
    (val (flush a) + val (flush b) = 0 → fadd a b = signedZero (signBit a && signBit b)) ∧
    (val (flush a) - val (flush b) = 0 → fsub a b = signedZero (signBit a && !signBit b)) ∧
    signBit (fmul a b) = (signBit a != signBit b) ∧
    (val (flush b) ≠ 0 → signBit (fdiv a b) = (signBit a != signBit b)) ∧
    (val (flush b) = 0 →
      if val (flush a) = 0 then isNaN (fdiv a b) = true else fdiv a b = signedInf (signBit a != signBit b)) := by
  have hfa := isFinite_flush ha
  have hfb := isFinite_flush hb
  have hnb : isFinite (flipSign (flush b)) = true := by rwa [isFinite_flipSign]
  have hsub : val (flush a) - val (flush b) = val (flush a) + val (flipSign (flush b)) := by
    rw [val_flipSign, sub_eq_add_neg]
  refine ⟨roundsTo_sumFlushed _ hfa hfb, ?_, roundsTo_fmulFlushed hfa hfb, roundsTo_fdivFlushed hfa hfb, ?_, ?_, ?_, ?_, ?_⟩
  · rw [hsub]
    exact roundsTo_sumFlushed _ hfa hnb
  · intro h
    simpa [fadd] using sumFlushed_of_sum_zero .fadd hfa hfb h
  · intro h
    simpa [fsub] using sumFlushed_of_sum_zero .fsub hfa hnb (hsub ▸ h)
  · rw [fmul, fmulFlushed_of_finite hfa hfb, signBit_roundTo, signBit_flush, signBit_flush]
  · intro h
    rw [fdiv, fdivFlushed_of_finite hfa hfb (isZero_eq_false_of_val_ne h), signBit_roundTo, signBit_flush, signBit_flush]
  · intro h
    rw [fdiv, fdivFlushed_of_isZero hfa hfb ((val_eq_zero_iff _).mp h), signBit_flush, signBit_flush]
    simp only [val_eq_zero_iff]
    split_ifs <;> simp

/-- The third part: an infinity and a finite operand. -/
theorem arithmetic_of_isInf_of_finite (ha : isInf a = true) (hb : isFinite b = true) :
    fadd a b = a ∧ fadd b a = a ∧ fsub a b = a ∧ fsub b a = fneg a ∧
    fdiv a b = signedInf (signBit a != signBit b) ∧ fdiv b a = signedZero (signBit a != signBit b) ∧
    (val (flush b) = 0 → isNaN (fmul a b) = true ∧ isNaN (fmul b a) = true) ∧
    (val (flush b) ≠ 0 →
      fmul a b = signedInf (signBit a != signBit b) ∧ fmul b a = signedInf (signBit a != signBit b)) := by
  have hfb := isFinite_flush hb
  have hnan := isNaN_of_isFinite hfb
  have hinf := isInf_of_isFinite hfb
  have hna : isInf (flipSign a) = true := by rwa [isInf_flipSign]
  have hcomm : (signBit b != signBit a) = (signBit a != signBit b) := bne_comm
  have hmul := fmulFlushed_of_isInf (isNaN_of_isInf ha) hnan (.inl ha)
  have hmul' := fmulFlushed_of_isInf hnan (isNaN_of_isInf ha) (.inr ha)
  simp only [fadd, fsub, fneg, fdiv, fmul, flush_of_isInf ha]
  refine ⟨?_, sumFlushed_of_isInf_right _ hfb ha, ?_, sumFlushed_of_isInf_right _ hfb hna, ?_, ?_, ?_, ?_⟩
  · simp [sumFlushed_of_isInf_left _ ha hnan, hinf]
  · simp [sumFlushed_of_isInf_left _ ha ((isNaN_flipSign _).trans hnan), hinf]
  · simp [fdivFlushed_of_isInf_left ha hnan, hinf]
  · rw [fdivFlushed_of_isInf_right hfb ha, signBit_flush, hcomm]
  · intro h
    have hz := (val_eq_zero_iff _).mp h
    rw [hmul, hmul']
    simp [hz]
  · intro h
    have hz := isZero_eq_false_of_val_ne h
    rw [hmul, hmul', signBit_flush, hcomm]
    simp [hz, isZero_of_isInf ha]

/-- The last part: two infinities. -/
theorem arithmetic_of_isInf_of_isInf (ha : isInf a = true) (hb : isInf b = true) :
    isNaN (fdiv a b) = true ∧ fmul a b = signedInf (signBit a != signBit b) ∧
    (signBit a = signBit b → fadd a b = a ∧ isNaN (fsub a b) = true) ∧
    (signBit a ≠ signBit b → isNaN (fadd a b) = true ∧ fsub a b = a) := by
  have hadd := sumFlushed_of_isInf_left .fadd ha (isNaN_of_isInf hb)
  have hsub := sumFlushed_of_isInf_left .fsub ha ((isNaN_flipSign b).trans (isNaN_of_isInf hb))
  simp only [fadd, fsub, fdiv, fmul, flush_of_isInf ha, flush_of_isInf hb]
  refine ⟨?_, ?_, fun hs => ?_, fun hs => ?_⟩
  · simp [fdivFlushed_of_isInf_left ha (isNaN_of_isInf hb), hb]
  · simp [fmulFlushed_of_isInf (isNaN_of_isInf ha) (isNaN_of_isInf hb) (.inl ha), isZero_of_isInf ha, isZero_of_isInf hb]
  · rw [hadd, hsub]
    simp [hs, hb]
  · rw [hadd, hsub]
    simp [hs, hb]

end Primitives

/-- Settles O55: every finite result is one `roundTo` of the exact value, and `roundTo` is the correct rounding. -/
theorem arithmeticIsCorrectlyRounded : Obligations.ArithmeticIsCorrectlyRounded := by
  unfold Obligations.ArithmeticIsCorrectlyRounded
  exact ⟨fun _ _ => arithmetic_of_finite,
    fun _ _ h => ⟨isNaN_fadd h, isNaN_fsub h, isNaN_fmul h, isNaN_fdiv h⟩,
    fun _ _ => arithmetic_of_isInf_of_finite, fun _ _ => arithmetic_of_isInf_of_isInf⟩

end Sys2Proof.Machine
end

section
/-! PROOF. The register page (10_state.md R32 to R39): each of the 25 addresses is a register of its own, a read delivers it,
and a write rewrites it or is ignored. -/

namespace Sys2Proof.Machine

open Sys2Proof.Config

/-! ### Addresses and registers -/

/-- The byte address of a register (10_state.md R33, R34, R35, R38). -/
def RegName.address : RegName → Word
  | .cmd => 0x000
  | .status => 0x004
  | .fsD => 0x008
  | .fsR => 0x00C
  | .dGhost => 0x040
  | .dDrive => 0x044
  | .dOutput => 0x048
  | .dType => 0x04C
  | .dTone => 0x050
  | .dMix => 0x054
  | .dDestroy => 0x058
  | .rSize => 0x080
  | .rDamping => 0x084
  | .rType => 0x088
  | .rPredelay => 0x08C
  | .rMix => 0x090
  | .rMod => 0x094
  | .rLowcut => 0x098
  | .rHighcut => 0x09C
  | .raRoomsize => 0x0C0
  | .raDamping => 0x0C4
  | .raWetlevel => 0x0C8
  | .raDrylevel => 0x0CC
  | .raWidth => 0x0D0
  | .raFreeze => 0x0D4

/-- A host write of the register is stored (10_state.md R33, R34, R35). -/
def RegName.isWritable : RegName → Bool
  | .cmd | .status | .raRoomsize | .raDamping | .raWetlevel | .raDrylevel | .raWidth | .raFreeze => false
  | .fsD | .fsR | .dGhost | .dDrive | .dOutput | .dType | .dTone | .dMix | .dDestroy | .rSize | .rDamping | .rType
  | .rPredelay | .rMix | .rMod | .rLowcut | .rHighcut => true

/-- An access of a register's address reaches that register. -/
theorem target_address (r : RegName) : target r.address 4 = some (.reg r) := by cases r <;> rfl

theorem isWritable_eq (r : RegName) : r.isWritable = decide (r.address ∈ writableAddresses) := by cases r <;> rfl

/-- The register addresses are the addresses of the registers. -/
theorem exists_of_mem_registerAddresses {a : Word} (h : a ∈ registerAddresses) : ∃ r : RegName, r.address = a := by
  have hlist : registerAddresses =
      [RegName.cmd, .status, .fsD, .fsR, .dGhost, .dDrive, .dOutput, .dType, .dTone, .dMix, .dDestroy, .rSize, .rDamping,
        .rType, .rPredelay, .rMix, .rMod, .rLowcut, .rHighcut, .raRoomsize, .raDamping, .raWetlevel, .raDrylevel, .raWidth,
        .raFreeze].map RegName.address := rfl
  rw [hlist, List.mem_map] at h
  obtain ⟨r, _, hr⟩ := h
  exact ⟨r, hr⟩

theorem writeRegs_of_readOnly {r : RegName} (h : r.isWritable = false) (v : Word) (g : Regs) : writeRegs r v g = g := by
  revert h
  cases r <;> simp [RegName.isWritable, writeRegs]

@[simp] theorem writeRegs_ra (r : RegName) (v : Word) (g : Regs) : (writeRegs r v g).ra = g.ra := by
  cases r <;> rfl

theorem readReg_writeRegs_same {r : RegName} (h : r.isWritable = true) (v : Word) (s : State) :
    readReg r { s with regs := writeRegs r v s.regs } = v := by
  revert h
  cases r <;> simp [RegName.isWritable, writeRegs, readReg]

/-- `STATUS` included, which is a view of no register. -/
theorem readReg_writeRegs_of_ne {r r' : RegName} (h : r' ≠ r) (v : Word) (s : State) :
    readReg r' { s with regs := writeRegs r v s.regs } = readReg r' s := by
  cases r <;> cases r' <;> first | rfl | exact absurd rfl h

theorem readReg_host (r : RegName) (s : State) (rest : List HostAction) : readReg r { s with host := rest } = readReg r s := by
  cases r <;> rfl

/-! ### Accesses of a register -/

section Access

variable {addr : Word} {size : Nat} {r : RegName}

theorem busRead_reg (h : target addr size = some (.reg r)) (s : State) :
    busRead addr size s = { s with rdata := readReg r s } := by
  simp [busRead, h]

theorem busWrite_reg (run : Instr → State → Host.Outcome State Fault Refusal) (h : target addr size = some (.reg r))
    (hr : r ≠ .cmd) (v : Word) (s : State) :
    busWrite run addr size v s = .next { s with regs := writeRegs r v s.regs } := by
  unfold busWrite
  rw [h]
  cases r with
  | cmd => exact absurd rfl hr
  | _ => rfl

theorem busRead_address (r : RegName) (s : State) : busRead r.address 4 s = { s with rdata := readReg r s } :=
  busRead_reg (target_address r) s

theorem step_read {s : State} {rest : List HostAction} (h : s.host = .read addr size :: rest) :
    step s = .next (busRead addr size { s with host := rest }) := step_cons h

theorem step_write_address {r : RegName} (hr : r ≠ .cmd) {v : Word} {s : State} {rest : List HostAction}
    (h : s.host = .write r.address 4 v :: rest) :
    step s = .next { s with host := rest, regs := writeRegs r v s.regs } := by
  rw [step_cons h]
  exact busWrite_reg exec (target_address r) hr v _

end Access

/-- Settles O8: the write stores the pattern in the register of its address, and no other address names that register. -/
theorem writtenRegistersReadBack : Obligations.WrittenRegistersReadBack := by
  unfold Obligations.WrittenRegistersReadBack
  intro a ha hw s v rest hhost
  obtain ⟨r, rfl⟩ := exists_of_mem_registerAddresses ha
  have hwr : r.isWritable = true := (isWritable_eq r).trans (decide_eq_true hw)
  have hcmd : r ≠ .cmd := by rintro rfl; cases hwr
  refine ⟨_, step_write_address hcmd hhost, rfl, ?_, fun b hb hne => ?_⟩
  · rw [busRead_address]
    exact readReg_writeRegs_same hwr v { s with host := rest }
  · obtain ⟨r', rfl⟩ := exists_of_mem_registerAddresses hb
    have hreg : r' ≠ r := fun h => hne (congrArg RegName.address h)
    rw [busRead_address, busRead_address]
    exact (readReg_writeRegs_of_ne hreg v { s with host := rest }).trans (readReg_host r' s rest)

/-- Settles O9: a write of a read-only register stores nothing, and each address reads the register that the tables name
there. -/
theorem readOnlyRegistersIgnoreWrites : Obligations.ReadOnlyRegistersIgnoreWrites := by
  unfold Obligations.ReadOnlyRegistersIgnoreWrites
  refine ⟨?write, ?cmd, ?read⟩
  case write =>
    intro a ha hw h0 s v rest hhost
    obtain ⟨r, rfl⟩ := exists_of_mem_registerAddresses ha
    have hro : r.isWritable = false := (isWritable_eq r).trans (decide_eq_false hw)
    have hcmd : r ≠ .cmd := by rintro rfl; exact h0 rfl
    rw [step_write_address hcmd hhost, writeRegs_of_readOnly hro]
  case cmd =>
    intro s rest hhost
    rw [step_read hhost, busRead_reg target_cmd]
    rfl
  case read =>
    intro p hp s rest hhost
    have hreg : ∃ r : RegName, p.1 = r.address ∧ ∀ u : State, readReg r u = p.2 u.regs := by
      fin_cases hp
      · exact ⟨.fsD, rfl, fun _ => rfl⟩
      · exact ⟨.fsR, rfl, fun _ => rfl⟩
      · exact ⟨.dGhost, rfl, fun _ => rfl⟩
      · exact ⟨.dDrive, rfl, fun _ => rfl⟩
      · exact ⟨.dOutput, rfl, fun _ => rfl⟩
      · exact ⟨.dType, rfl, fun _ => rfl⟩
      · exact ⟨.dTone, rfl, fun _ => rfl⟩
      · exact ⟨.dMix, rfl, fun _ => rfl⟩
      · exact ⟨.dDestroy, rfl, fun _ => rfl⟩
      · exact ⟨.rSize, rfl, fun _ => rfl⟩
      · exact ⟨.rDamping, rfl, fun _ => rfl⟩
      · exact ⟨.rType, rfl, fun _ => rfl⟩
      · exact ⟨.rPredelay, rfl, fun _ => rfl⟩
      · exact ⟨.rMix, rfl, fun _ => rfl⟩
      · exact ⟨.rMod, rfl, fun _ => rfl⟩
      · exact ⟨.rLowcut, rfl, fun _ => rfl⟩
      · exact ⟨.rHighcut, rfl, fun _ => rfl⟩
      · exact ⟨.raRoomsize, rfl, fun _ => rfl⟩
      · exact ⟨.raDamping, rfl, fun _ => rfl⟩
      · exact ⟨.raWetlevel, rfl, fun _ => rfl⟩
      · exact ⟨.raDrylevel, rfl, fun _ => rfl⟩
      · exact ⟨.raWidth, rfl, fun _ => rfl⟩
      · exact ⟨.raFreeze, rfl, fun _ => rfl⟩
    obtain ⟨r, hp, hread⟩ := hreg
    rw [step_read hhost, hp, busRead_address, hread]

/-! ### STATUS -/

/-- The fields of the word that `STATUS` is put together from (10_state.md R33). -/
theorem statusBits (cause : BitVec 8) (fault busy cfgR cfgD : Bool) :
    let w := (0#16 ++ cause) ++
      (0#4 ++ BitVec.ofBool fault ++ BitVec.ofBool busy ++ BitVec.ofBool cfgR ++ BitVec.ofBool cfgD)
    w.getLsbD 0 = cfgD ∧ w.getLsbD 1 = cfgR ∧ w.getLsbD 2 = busy ∧ w.getLsbD 3 = fault ∧ w.extractLsb' 4 4 = 0 ∧
      w.extractLsb' 16 16 = 0 ∧ w.extractLsb' 8 8 = cause := by
  intro w
  have hflag (i : Nat) (hi : i < 8) : w.getLsbD i =
      if i = 0 then cfgD else if i = 1 then cfgR else if i = 2 then busy else if i = 3 then fault else false := by
    simp only [w, BitVec.getLsbD_append, BitVec.getLsbD_ofBool, BitVec.getLsbD_zero, hi]
    interval_cases i <;> simp
  have hcause (i : Nat) (hi : 8 ≤ i) : w.getLsbD i = cause.getLsbD (i - 8) := by
    simp only [w, BitVec.getLsbD_append, BitVec.getLsbD_zero]
    simpa [Nat.not_lt.mpr hi] using BitVec.lt_of_getLsbD
  refine ⟨hflag 0 (by decide), hflag 1 (by decide), hflag 2 (by decide), hflag 3 (by decide), ?_, ?_, ?_⟩ <;>
    refine BitVec.eq_of_getLsbD_eq fun i hi => ?_
  · have hbits : i + 4 < 8 ∧ 4 + i ≠ 0 ∧ 4 + i ≠ 1 ∧ 4 + i ≠ 2 ∧ 4 + i ≠ 3 := by omega
    rw [BitVec.getLsbD_extractLsb', hflag _ (by omega)]
    simp [hbits]
  · rw [BitVec.getLsbD_extractLsb', hcause _ (by omega), BitVec.getLsbD_of_ge cause _ (by omega)]
    simp
  · rw [BitVec.getLsbD_extractLsb', hcause _ (by omega)]
    simp [hi]

/-- Settles O13. -/
theorem statusFieldsAndCauseCodes : Obligations.StatusFieldsAndCauseCodes := by
  unfold Obligations.StatusFieldsAndCauseCodes
  refine ⟨fun s => ?_, by decide⟩
  obtain ⟨hcfgD, hcfgR, hbusy, hfault, hlow, hhigh, hcause⟩ :=
    statusBits (statusCause s) s.trap.isSome s.seq.busy s.rs.configured s.ds.configured
  refine ⟨?_, hcfgD, hcfgR, hbusy, hfault, hlow, hhigh, fun h => ?_, fun c h => ?_⟩
  · exact congrArg State.rdata (busRead_address .status s)
  · exact hcause.trans (by simp [statusCause, h])
  · exact hcause.trans (by simp [statusCause, h])

/-- Settles O14: every register reads 0 at the reset, `STATUS` as the view of the zero fields. -/
theorem resetLeavesZeros : Obligations.ResetLeavesZeros := by
  unfold Obligations.ResetLeavesZeros
  refine ⟨fun a ha => ?_, rfl, rfl, rfl, rfl, rfl, rfl, rfl, rfl, rfl, rfl⟩
  obtain ⟨r, rfl⟩ := exists_of_mem_registerAddresses ha
  rw [busRead_address]
  exact ⟨by cases r <;> rfl, rfl⟩

end Sys2Proof.Machine
end

section
/-! PROOF. What a step of an idle block does, said once: a host access that is no command, a command word, or the hardware
reset; and the rule that a predicate which each of them keeps is kept by every step. -/

namespace Sys2Proof.Machine

open Sys2Proof.Config

/-! ### Accesses that are no command -/

/-- What a host read, or a write of any address but `CMD`, does to an idle block (20_memory.md R66 to R69). -/
inductive HostAccess (s : State) : State → Prop
  /-- a bad access; a read has delivered its data -/
  | bad (v : Word) : HostAccess s (raiseFault .badAccess { s with rdata := v })
  /-- a read -/
  | read (v : Word) : HostAccess s { s with rdata := v }
  /-- a write of a register -/
  | register (r : RegName) (v : Word) : HostAccess s { s with regs := writeRegs r v s.regs }
  /-- a write of a word of `BUF_D` or `BUF_R` -/
  | buffer (a : Nat) (v : Word) (hlo : 0x10000 ≤ a) (hhi : a + 4 ≤ 0x30000) : HostAccess s { s with mem := setWord s.mem a v }

section Idle

variable {s t : State} (hidle : s.seq.busy = false)

include hidle

theorem runsDist_of_idle : runsDist s = false := by simp [runsDist, hidle]

theorem runsRev_of_idle : runsRev s = false := by simp [runsRev, hidle]

/-- A read of an idle block delivers its data and touches nothing else, or is bad. -/
theorem busRead_idle_cases (addr : Word) (size : Nat) :
    busRead addr size s = raiseFault .badAccess { s with rdata := 0 } ∨
      ∃ v, busRead addr size s = { s with rdata := v } := by
  unfold busRead
  rw [runsDist_of_idle hidle, runsRev_of_idle hidle]
  cases target addr size with
  | none => exact .inl rfl
  | some tgt => cases tgt <;> exact .inr ⟨_, rfl⟩

theorem hostAccess_busRead (addr : Word) (size : Nat) : HostAccess s (busRead addr size s) := by
  rcases busRead_idle_cases hidle addr size with h | ⟨v, h⟩
  · rw [h]
    exact .bad 0
  · rw [h]
    exact .read v

omit hidle in
/-- An aligned word of a buffer window ends in the window. -/
theorem target_buffer_bounds {addr : Word} {size a : Nat}
    (h : target addr size = some (.bufD a) ∨ target addr size = some (.bufR a)) : 0x10000 ≤ a ∧ a + 4 ≤ 0x30000 := by
  unfold target at h
  simp only [bufDBase_eq, bufRBase_eq, bufBytes_eq] at h
  split_ifs at h with hbad hpage hbufD hbufR <;> simp at h <;> omega

/-- A write of an idle block at an address other than 0 reaches a register, a word of a buffer, or nothing. -/
theorem hostAccess_busWrite (run : Instr → State → Host.Outcome State Fault Refusal) {addr : Word} (h0 : addr ≠ 0)
    (size : Nat) (v : Word) : ∃ t, busWrite run addr size v s = .next t ∧ HostAccess s t := by
  rcases busWrite_cases run addr size v s h0 with ⟨_, h⟩ | ⟨r, _, _, h⟩ | ⟨_, _, hr, _⟩ | ⟨_, _, hr, _⟩ | ⟨a, ht, h⟩
  · exact ⟨_, h, .bad s.rdata⟩
  · exact ⟨_, h, .register r v⟩
  · rw [runsDist_of_idle hidle] at hr
    cases hr
  · rw [runsRev_of_idle hidle] at hr
    cases hr
  · obtain ⟨hlo, hhi⟩ := target_buffer_bounds ht
    exact ⟨_, h, .buffer a v hlo hhi⟩

omit hidle in
/-- A write of another size than a word is bad, at the address 0 too. -/
theorem hostAccess_busWrite_size (run : Instr → State → Host.Outcome State Fault Refusal) {size : Nat} (hs : size ≠ 4)
    (addr v : Word) : ∃ t, busWrite run addr size v s = .next t ∧ HostAccess s t := by
  have ht : target addr size = none := by simp [target, hs]
  exact ⟨raiseFault .badAccess s, by simp [busWrite, ht], .bad s.rdata⟩

/-- An access keeps both engines, the snapshots, the internal memories, the sequencer and the draws. -/
theorem HostAccess.keeps (h : HostAccess s t) :
    t.host = s.host ∧ t.pd = s.pd ∧ t.pr = s.pr ∧ t.ds = s.ds ∧ t.dk = s.dk ∧ t.rs = s.rs ∧ t.rk = s.rk ∧ t.wet = s.wet ∧
      t.dly = s.dly ∧ t.draws = s.draws ∧ t.seq = s.seq ∧ t.regs.ra = s.regs.ra := by
  cases h with
  | bad v => simp [raiseFault, ← hidle]
  | read v => simp
  | register r v => simp
  | buffer a v _ _ => simp

end Idle

/-- Settles O10. -/
theorem hostAccessesKeepEngineState : Obligations.HostAccessesKeepEngineState := by
  unfold Obligations.HostAccessesKeepEngineState
  intro s a rest hhost hidle hreset hcmd
  rw [step_cons hhost]
  have hidle' : { s with host := rest }.seq.busy = false := hidle
  cases a with
  | resetPin => exact absurd rfl hreset
  | read addr size =>
    obtain ⟨hq, hpd, hpr, hds, hdk, hrs, hrk, hwet, hdly, hdraws, hseq, hra⟩ :=
      (hostAccess_busRead hidle' addr size).keeps hidle'
    refine ⟨_, rfl, hq, hpd, hpr, hds, hdk, hrs, hrk, hwet, hdly, hdraws, hseq, hra, fun _ _ _ => ?_⟩
    rcases busRead_idle_cases hidle' addr size with h | ⟨v, h⟩ <;> rw [h] <;> exact ⟨rfl, rfl⟩
  | write addr size v =>
    have h0 : addr ≠ 0 := fun h => hcmd size v (h ▸ rfl)
    obtain ⟨t, ht, hacc⟩ := hostAccess_busWrite hidle' exec h0 size v
    obtain ⟨hq, hpd, hpr, hds, hdk, hrs, hrk, hwet, hdly, hdraws, hseq, hra⟩ := hacc.keeps hidle'
    exact ⟨t, ht, hq, hpd, hpr, hds, hdk, hrs, hrk, hwet, hdly, hdraws, hseq, hra, fun _ _ h => nomatch h⟩

/-! ### The commands a host can issue -/

/-- A command word decodes to `NOP` or to a command of one engine with a block length of 16 bits (30_encoding.md R90, R92). -/
theorem decodeCmd_cases {w : Word} {i : Instr} (h : decodeCmd w = .ok i) :
    i = .nop ∨ ∃ nch len, len < 2 ^ 16 ∧ (i = .cfgD nch len ∨ i = .cfgR nch len ∨ i = .procD nch len ∨ i = .procR nch len) := by
  have hlen : lenField w < 2 ^ 16 := (w.extractLsb' 0 16).isLt
  unfold decodeCmd at h
  split_ifs at h <;> obtain rfl := Except.ok.inj h
  · exact .inl rfl
  · exact .inr ⟨_, _, hlen, .inr (.inl rfl)⟩
  · exact .inr ⟨_, _, hlen, .inl rfl⟩
  · exact .inr ⟨_, _, hlen, .inr (.inr (.inr rfl))⟩
  · exact .inr ⟨_, _, hlen, .inr (.inr (.inl rfl))⟩

/-- What keeps a predicate of idle blocks through a step: the host's queue is not part of it, and host accesses, faults, the
reset and the four engine commands keep it. -/
structure StepClosed (P : State → Prop) : Prop where
  idle : ∀ s, P s → s.seq.busy = false
  queue : ∀ s rest, P s → P { s with host := rest }
  fault : ∀ s c, P s → P (raiseFault c s)
  access : ∀ s t, P s → HostAccess s t → P t
  reset : ∀ s, P (hardwareReset s)
  cfgD : ∀ s t nch len, P s → execCfgD nch len s = .next t → P t
  cfgR : ∀ s t nch len, P s → execCfgR nch len s = .next t → P t
  procD : ∀ s t nch len, P s → len < 2 ^ 16 → execProcD nch len s = .next t → P t
  procR : ∀ s t nch len, P s → execProcR nch len s = .next t → P t

namespace StepClosed

variable {P : State → Prop} (hP : StepClosed P) {s t : State}

include hP

/-- A decoded command keeps the predicate. -/
theorem exec_decoded {w : Word} {i : Instr} (hs : P s) (hi : decodeCmd w = .ok i) (h : exec i s = .next t) : P t := by
  rcases decodeCmd_cases hi with rfl | ⟨nch, len, hlen, rfl | rfl | rfl | rfl⟩
  · obtain rfl := Host.Outcome.next.inj h
    exact hs
  · exact hP.cfgD s t nch len hs h
  · exact hP.cfgR s t nch len hs h
  · exact hP.procD s t nch len hs hlen h
  · exact hP.procR s t nch len hs h

/-- So does a write of `CMD`. -/
theorem issueCommand (w : Word) (hs : P s) (h : issueCommand exec w s = .next t) : P t := by
  rcases issueCommand_cases exec w s with ⟨_, he⟩ | ⟨_, hbusy, _⟩ | ⟨_, _, _, he⟩ | ⟨i, _, _, hi, he⟩
  · obtain rfl := Host.Outcome.next.inj (he.symm.trans h)
    exact hs
  · rw [hP.idle s hs] at hbusy
    cases hbusy
  · obtain rfl := Host.Outcome.next.inj (he.symm.trans h)
    exact hP.fault s _ hs
  · exact hP.exec_decoded hs hi (he.symm.trans h)

/-- So does every bus write. -/
theorem busWrite (addr : Word) (size : Nat) (v : Word) (hs : P s) (h : busWrite exec addr size v s = .next t) : P t := by
  by_cases hcmd : addr = 0 ∧ size = 4
  · obtain ⟨rfl, rfl⟩ := hcmd
    exact hP.issueCommand v hs (busWrite_cmd exec v s ▸ h)
  · have hacc : ∃ u, Machine.busWrite exec addr size v s = .next u ∧ HostAccess s u := by
      by_cases h0 : addr = 0
      · exact hostAccess_busWrite_size exec (fun h4 => hcmd ⟨h0, h4⟩) addr v
      · exact hostAccess_busWrite (hP.idle s hs) exec h0 size v
    obtain ⟨u, hu, hacc⟩ := hacc
    obtain rfl := Host.Outcome.next.inj (hu.symm.trans h)
    exact hP.access s u hs hacc

/-- So does every step. -/
theorem step (hs : P s) (h : step s = .next t) : P t := by
  cases hq : s.host with
  | nil =>
    obtain rfl := Host.Outcome.next.inj ((step_nil hq).symm.trans h)
    exact hs
  | cons a rest =>
    have hs' := hP.queue s rest hs
    rw [step_cons hq] at h
    cases a with
    | read addr size =>
      obtain rfl := Host.Outcome.next.inj h
      exact hP.access _ _ hs' (hostAccess_busRead (hP.idle _ hs') addr size)
    | write addr size v => exact hP.busWrite addr size v hs' h
    | resetPin =>
      obtain rfl := Host.Outcome.next.inj h
      exact hP.reset _

end StepClosed

/-! ### The frame of the commands -/

section Frame

variable {s t : State}

/-- What every instruction leaves alone: the recorded cause apart from a first one, the host's queue and the read data, and
the registers but for the `RA_*` words (10_state.md R34, R35, R38). -/
structure CommandFrame (s t : State) : Prop where
  regs : t.regs = { s.regs with ra := t.regs.ra }
  host : t.host = s.host
  rdata : t.rdata = s.rdata

/-- The same with the `RA_*` words. -/
structure RegsFrame (s t : State) : Prop where
  regs : t.regs = s.regs
  host : t.host = s.host
  rdata : t.rdata = s.rdata

theorem RegsFrame.commandFrame (h : RegsFrame s t) : CommandFrame s t where
  regs := by rw [h.regs]
  host := h.host
  rdata := h.rdata

theorem regsFrame_raiseFault (c : Cause) (s : State) : RegsFrame s (raiseFault c s) := ⟨rfl, rfl, rfl⟩

theorem execProcD_regsFrame {nch n : Nat} (h : execProcD nch n s = .next t) : RegsFrame s t := by
  rcases execProcD_cases nch n s with ⟨_, he⟩ | ⟨_, _, he⟩ | ⟨_, _, _, he⟩ | ⟨sel, _, _, _, ⟨u, hmain, he⟩ | ⟨_, he⟩⟩ <;>
    obtain rfl := Host.Outcome.next.inj (he.symm.trans h)
  · exact regsFrame_raiseFault _ s
  · exact regsFrame_raiseFault _ s
  · exact regsFrame_raiseFault _ s
  · obtain ⟨r, _, rfl⟩ := mainPass_cases hmain
    constructor <;> simp
  · constructor <;> simp

theorem execProcR_frame {nch n : Nat} (h : execProcR nch n s = .next t) : CommandFrame s t := by
  rcases execProcR_cases nch n s with ⟨_, he⟩ | ⟨_, _, he⟩ | ⟨_, _, _, he⟩ | ⟨_, _, _, _, _, he⟩ |
      ⟨sel, d, _, _, _, _, he⟩ <;>
    obtain rfl := Host.Outcome.next.inj (he.symm.trans h)
  · exact (regsFrame_raiseFault _ s).commandFrame
  · exact (regsFrame_raiseFault _ s).commandFrame
  · exact (regsFrame_raiseFault _ s).commandFrame
  · exact (regsFrame_raiseFault _ s).commandFrame
  · constructor <;> simp [startBlockR]

theorem execCfgD_regsFrame {nch maxblk : Nat} (h : execCfgD nch maxblk s = .next t) : RegsFrame s t := by
  rcases execCfgD_cases nch maxblk s with ⟨_, he⟩ | ⟨_, he⟩ <;> obtain rfl := Host.Outcome.next.inj (he.symm.trans h)
  · exact ⟨rfl, rfl, rfl⟩
  · exact regsFrame_raiseFault _ s

theorem execCfgR_regsFrame {nch maxblk : Nat} (h : execCfgR nch maxblk s = .next t) : RegsFrame s t := by
  rcases execCfgR_cases nch maxblk s with ⟨_, he⟩ | ⟨_, he⟩ <;> obtain rfl := Host.Outcome.next.inj (he.symm.trans h)
  · exact ⟨rfl, rfl, rfl⟩
  · exact regsFrame_raiseFault _ s

theorem execWsFold_regsFrame (h : execWsFold s = .next t) : RegsFrame s t := by
  rcases execWsFold_cases s with ⟨y, _, he⟩ | ⟨_, he⟩ <;> obtain rfl := Host.Outcome.next.inj (he.symm.trans h) <;>
    exact ⟨rfl, rfl, rfl⟩

/-- Every instruction but `PROC.R` leaves all registers alone. -/
theorem exec_regsFrame {i : Instr} (h : exec i s = .next t) (hi : ∀ nch n, i ≠ .procR nch n) : RegsFrame s t := by
  cases i with
  | cfgD nch maxblk => exact execCfgD_regsFrame h
  | cfgR nch maxblk => exact execCfgR_regsFrame h
  | procD nch n => exact execProcD_regsFrame h
  | procR nch n => exact absurd rfl (hi nch n)
  | wsFold => exact execWsFold_regsFrame h
  | _ =>
    obtain rfl := Host.Outcome.next.inj h
    exact ⟨rfl, rfl, rfl⟩

theorem exec_commandFrame {i : Instr} (h : exec i s = .next t) : CommandFrame s t := by
  by_cases hi : ∃ nch n, i = .procR nch n
  · obtain ⟨nch, n, rfl⟩ := hi
    exact execProcR_frame h
  · exact (exec_regsFrame h fun nch n he => hi ⟨nch, n, he⟩).commandFrame

/-- An instruction keeps a recorded cause (60_exceptions.md R316). -/
theorem exec_keeps_cause {i : Instr} {c : Cause} (h : exec i s = .next t) (hs : s.trap = some c) : t.trap = some c := by
  rcases exec_trap_cases i s t h with he | ⟨c', he⟩
  · rw [he, hs]
  · rw [he, hs, Option.getD_some]

end Frame

/-- Settles O60. -/
theorem commandsNeverWriteParameters : Obligations.CommandsNeverWriteParameters := by
  unfold Obligations.CommandsNeverWriteParameters
  intro i s t h
  obtain ⟨hregs, hhost, hrdata⟩ := exec_commandFrame h
  exact ⟨hregs, fun hi => (exec_regsFrame h hi).regs, fun _ => exec_keeps_cause h, hhost, hrdata⟩

end Sys2Proof.Machine
end

section
/-! PROOF. What the passes of a block keep: the configuration that `CFG` latched, the phase and its step, the cursors below
the capacity, and memories in canonical form inside their windows (10_state.md R23, R26, 20_memory.md R60 to R64). -/

namespace Sys2Proof.Machine

open Sys2Proof.Config

/-! ### Memories inside a window -/

/-- A memory in canonical form that lists bytes of the addresses `lo` to `hi - 1` only. -/
structure Memory.Within (lo hi : Nat) (m : Memory) : Prop where
  wf : m.wf = true
  range : ∀ c ∈ m.cells, lo ≤ c.1 ∧ c.1 < hi

section Within

variable {lo hi : Nat} {m : Memory}

theorem Memory.Within.setWord (h : m.Within lo hi) {a : Nat} (hlo : lo ≤ a) (hhi : a + 4 ≤ hi) (w : Word) :
    (setWord m a w).Within lo hi where
  wf := setWord_wf h.wf a w
  range c hc := by
    rcases setWord_cells hc with hw | hold
    · omega
    · exact h.range c hold

variable {σ : Type} {addr : Channel → Nat → Nat} {l : List (Nat × Channel)}

theorem Memory.Within.sweep (h : m.Within lo hi) (hw : WordsIn addr lo hi l) (f : Nat → Channel → F32 → σ → F32 × σ) (st : σ) :
    (sweep addr f l m st).1.Within lo hi :=
  sweep_induct addr f (fun m' _ => m'.Within lo hi) l m st h fun n c _ _ hp hm =>
    hm.setWord (hw (n, c) hp).1 (hw (n, c) hp).2 _

theorem Memory.Within.sweepFault (h : m.Within lo hi) (hw : WordsIn addr lo hi l)
    {g : Nat → Channel → F32 → σ → Option (F32 × σ)} {st : σ} {r : Memory × σ}
    (hr : sweepFault addr g l m st = some r) : r.1.Within lo hi :=
  sweepFault_induct addr g (fun m' _ => m'.Within lo hi) l m st hr h fun n c _ _ _ hp hm _ =>
    hm.setWord (hw (n, c) hp).1 (hw (n, c) hp).2 _

theorem WordsIn.mono {lo' hi' : Nat} (h : WordsIn addr lo hi l) (hlo : lo' ≤ lo) (hhi : hi ≤ hi') : WordsIn addr lo' hi' l :=
  fun p hp => ⟨hlo.trans (h p hp).1, (h p hp).2.trans hhi⟩

end Within

section Windows

variable {nch len : Nat}

/-- The two sample buffers are neighbours (20_memory.md R60). -/
theorem wordsIn_buffers_bufD (hlen : len ≤ blkCap) : WordsIn bufDAddr 0x10000 0x30000 (positions nch len) :=
  (wordsIn_bufD hlen).mono le_rfl (by decide)

theorem wordsIn_buffers_bufR (hlen : len ≤ blkCap) : WordsIn bufRAddr 0x10000 0x30000 (positions nch len) :=
  (wordsIn_bufR hlen).mono (by decide) le_rfl

/-- The words of `WET_R` (20_memory.md R63). -/
theorem wordsIn_wet (hlen : len ≤ blkCap) : WordsIn wetAddr 0 (4 * nchMax * blkCap) (positions nch len) := fun p hp => by
  have hn := (mem_positions.mp hp).1
  have hc := p.2.isLt
  simp only [wetAddr, nchMax, blkCap] at *
  omega

/-- The words of `DLY` (20_memory.md R64). -/
theorem dlyAddr_window {c : Channel} {i : Nat} (hi : i < delayCap) : dlyAddr c i + 4 ≤ 4 * nchMax * delayCap := by
  have hc := c.isLt
  simp only [dlyAddr, nchMax, delayCap] at *
  omega

end Windows

/-! ### The distortion engine -/

/-- A block keeps what `CFG.D` latched, and a sample the ghost phase. -/
structure DistLatched (a b : DistState) : Prop where
  configured : b.configured = a.configured
  fs : b.fs = a.fs
  nch : b.nch = a.nch
  maxblk : b.maxblk = a.maxblk
  gphase : b.gphase = a.gphase

section Dist

variable {k : DistConsts} {c : Channel} {x : F32} {ds : DistState} {r : F32 × DistState}

theorem DistLatched.refl (a : DistState) : DistLatched a a := ⟨rfl, rfl, rfl, rfl, rfl⟩

theorem DistLatched.trans {a b d : DistState} (h : DistLatched a b) (h' : DistLatched b d) : DistLatched a d :=
  ⟨h'.configured.trans h.configured, h'.fs.trans h.fs, h'.nch.trans h.nch, h'.maxblk.trans h.maxblk,
    h'.gphase.trans h.gphase⟩

theorem distLatched_ghost (k : DistConsts) (c : Channel) (x : F32) (ds : DistState) : DistLatched ds (ghost k c x ds).2 :=
  ⟨rfl, rfl, rfl, rfl, rfl⟩

theorem distLatched_tone (k : DistConsts) (c : Channel) (x : F32) (ds : DistState) : DistLatched ds (tone k c x ds).2 :=
  ⟨rfl, rfl, rfl, rfl, rfl⟩

theorem distLatched_destroyActive (h : destroyActive k c x ds = some r) : DistLatched ds r.2 := by
  unfold destroyActive at h
  simp only at h
  split at h
  · cases h
  · obtain rfl := Option.some.inj h
    exact ⟨rfl, rfl, rfl, rfl, rfl⟩

theorem distLatched_destroy (h : destroy k c x ds = some r) : DistLatched ds r.2 := by
  unfold destroy at h
  by_cases hle : fle k.amount lit.zero = true
  · rw [if_pos hle] at h
    obtain rfl := Option.some.inj h
    exact .refl ds
  · rw [if_neg hle] at h
    cases hactive : destroyActive k c x ds with
    | none => simp [hactive] at h
    | some q =>
      simp only [hactive, Option.some.injEq] at h
      obtain rfl := h
      have hq := distLatched_destroyActive hactive
      exact hq

theorem distLatched_chain {p : SnapD} {sel : Instr} (h : chain p sel k c x ds = some r) : DistLatched ds r.2 := by
  unfold chain at h
  cases hws : ws sel (fmul x p.drive) with
  | none => simp [hws] at h
  | some y =>
    simp only [hws] at h
    cases hdestroy : destroy k c (tone k c y ds).1 (tone k c y ds).2 with
    | none => simp [hdestroy] at h
    | some z =>
      simp only [hdestroy, Option.some.injEq] at h
      obtain rfl := h
      have hz := distLatched_destroy hdestroy
      exact (distLatched_tone k c y ds).trans hz

variable {nch len : Nat} {s t : State}

/-- The ghost pass rewrites words of `BUF_D` and the ghost state only. -/
theorem ghostPass_cases (nch len : Nat) (s : State) :
    ghostPass nch len s = s ∧ s.pd.ghost = false ∨
      s.pd.ghost = true ∧ ∃ m ds, (∀ lo hi, WordsIn bufDAddr lo hi (positions nch len) → s.mem.Within lo hi → m.Within lo hi) ∧
        DistLatched s.ds ds ∧
        ghostPass nch len s = { s with mem := m, ds := { ds with gphase := ghostPhaseAfter s.ds.gphase s.dk.ginc } } := by
  have hds := sweep_induct bufDAddr (fun _ c x ds => ghost s.dk c x ds) (fun _ ds => DistLatched s.ds ds)
    (positions nch len) s.mem s.ds (.refl _) fun _ c _ _ _ h => h.trans (distLatched_ghost s.dk c _ _)
  cases hg : s.pd.ghost with
  | false => exact .inl ⟨by simp [ghostPass, hg], rfl⟩
  | true =>
    exact .inr ⟨rfl, _, _, fun lo hi hw hm => hm.sweep hw (fun _ c x ds => ghost s.dk c x ds) s.ds, hds,
      by simp [ghostPass, hg, hds.gphase]⟩

/-- The main pass rewrites words of `BUF_D` and the per-channel state only. -/
theorem mainPass_latched {sel : Instr} (h : mainPass sel nch len s = some t) :
    ∃ m ds, (∀ lo hi, WordsIn bufDAddr lo hi (positions nch len) → s.mem.Within lo hi → m.Within lo hi) ∧
      DistLatched s.ds ds ∧ t = { s with mem := m, ds := ds } := by
  obtain ⟨r, hr, rfl⟩ := mainPass_cases h
  exact ⟨r.1, r.2, fun lo hi hw hm => hm.sweepFault hw hr,
    sweepFault_induct bufDAddr _ (fun _ ds => DistLatched s.ds ds) _ _ _ hr (.refl _)
      fun _ _ _ _ _ _ hds hy => hds.trans (distLatched_chain hy), rfl⟩

end Dist

/-! ### The reverb engine -/

/-- The passes but the modulation keep what `CFG.R` latched and the phase. -/
structure RevLatched (a b : RevState) : Prop where
  configured : b.configured = a.configured
  fs : b.fs = a.fs
  nch : b.nch = a.nch
  maxblk : b.maxblk = a.maxblk
  mphase : b.mphase = a.mphase
  inc : b.inc = a.inc

/-- Every cursor is below the capacity (47_circular_delay_buffer.md R252). -/
def CursorsOk (rs : RevState) : Prop := ∀ c : Channel, rs.wcur[c] < delayCap

section Rev

variable {nch len : Nat}

theorem RevLatched.refl (a : RevState) : RevLatched a a := ⟨rfl, rfl, rfl, rfl, rfl, rfl⟩

theorem RevLatched.trans {a b d : RevState} (h : RevLatched a b) (h' : RevLatched b d) : RevLatched a d :=
  ⟨h'.configured.trans h.configured, h'.fs.trans h.fs, h'.nch.trans h.nch, h'.maxblk.trans h.maxblk,
    h'.mphase.trans h.mphase, h'.inc.trans h.inc⟩

theorem revLatched_cuts (k : RevConsts) (c : Channel) (x : F32) (rs : RevState) : RevLatched rs (cuts k c x rs).2 :=
  ⟨rfl, rfl, rfl, rfl, rfl, rfl⟩

theorem revLatched_pop (d : Nat) (c : Channel) (x : F32) (st : RevState × Memory) : RevLatched st.1 (pop d c x st).2.1 :=
  ⟨rfl, rfl, rfl, rfl, rfl, rfl⟩

theorem cursorsOk_pop {d : Nat} {c : Channel} {x : F32} {st : RevState × Memory} (h : CursorsOk st.1) :
    CursorsOk (pop d c x st).2.1 := fun c' => by
  have hnext : (st.1.wcur[c] + 1) % delayCap < delayCap := Nat.mod_lt _ (by decide)
  have hold := h c'
  simp only [pop, Fin.getElem_fin, Vector.getElem_set] at *
  split
  · exact hnext
  · exact hold

/-- The filter pass keeps the cursors and what `CFG.R` latched. -/
theorem filterPass_latched (nch len : Nat) (s : State) :
    RevLatched s.rs (filterPass nch len s).rs ∧ (filterPass nch len s).rs.wcur = s.rs.wcur :=
  sweep_induct bufRAddr (fun _ c x rs => cuts s.rk c x rs) (fun _ rs => RevLatched s.rs rs ∧ rs.wcur = s.rs.wcur) _ _ _
    ⟨.refl _, rfl⟩ fun _ c _ _ _ h => ⟨h.1.trans (revLatched_cuts s.rk c _ _), h.2⟩

/-- The predelay pass keeps what `CFG.R` latched. -/
theorem predelayPass_latched (nch len : Nat) (s : State) : RevLatched s.rs (predelayPass nch len s).rs := by
  unfold predelayPass
  split
  · exact sweep_induct wetAddr (fun _ c x st => pop s.rk.dlyD c x st) (fun _ st => RevLatched s.rs st.1) _ _ _ (.refl _)
      fun _ c _ _ _ h => h.trans (revLatched_pop s.rk.dlyD c _ _)
  · exact .refl _

/-- With every cursor below the capacity it writes words of `DLY` only, and leaves every cursor there. -/
theorem predelayPass_dly (nch len : Nat) {s : State} (hcur : CursorsOk s.rs)
    (hdly : s.dly.Within 0 (4 * nchMax * delayCap)) :
    CursorsOk (predelayPass nch len s).rs ∧ (predelayPass nch len s).dly.Within 0 (4 * nchMax * delayCap) ∧
      (predelayPass nch len s).dly.fill = s.dly.fill := by
  unfold predelayPass
  split
  · refine sweep_induct wetAddr (fun _ c x st => pop s.rk.dlyD c x st)
      (fun _ st => CursorsOk st.1 ∧ st.2.Within 0 (4 * nchMax * delayCap) ∧ st.2.fill = s.dly.fill) _ _ _ ⟨hcur, hdly, rfl⟩ ?_
    rintro _ c _ st _ ⟨hcur, hdly, hfill⟩
    exact ⟨cursorsOk_pop hcur, hdly.setWord (Nat.zero_le _) (dlyAddr_window (hcur c)) _, (setWord_fill _ _ _).trans hfill⟩
  · exact ⟨hcur, hdly, rfl⟩

theorem externalCall_latched (nch len : Nat) (s : State) :
    RevLatched s.rs (externalCall nch len s).rs ∧ (externalCall nch len s).rs.wcur = s.rs.wcur :=
  ⟨⟨rfl, rfl, rfl, rfl, rfl, rfl⟩, rfl⟩

/-- A property of the wet memory and the phase that each frame of the modulation keeps holds after the frames. -/
theorem modFrames_induct (Q : Memory × F32 → Prop) (mod inc : F32) (l : List Nat) (st : Memory × F32) (h0 : Q st)
    (hstep : ∀ n st, n ∈ l → Q st → Q (modFrame nch mod inc n st)) : Q (modFrames nch mod inc l st) := by
  induction l generalizing st with
  | nil => exact h0
  | cons n t ih => exact ih _ (hstep n st List.mem_cons_self h0) fun k st hk => hstep k st (List.mem_cons_of_mem _ hk)

/-- The modulation pass rewrites words of `WET_R` and the phase only. -/
theorem modulationPass_cases (nch len : Nat) (s : State) :
    modulationPass nch len s = s ∨ ∃ st, modFrames nch s.pr.mod s.rs.inc (List.range len) (s.wet, s.rs.mphase) = st ∧
      modulationPass nch len s = { s with wet := st.1, rs := { s.rs with mphase := st.2 } } := by
  unfold modulationPass
  split
  · exact .inr ⟨_, rfl, rfl⟩
  · exact .inl rfl

/-- The frames write words of `WET_R` only. -/
theorem modFrames_within {mod inc : F32} (hlen : len ≤ blkCap) {st : Memory × F32}
    (h : st.1.Within 0 (4 * nchMax * blkCap)) :
    (modFrames nch mod inc (List.range len) st).1.Within 0 (4 * nchMax * blkCap) := by
  refine modFrames_induct (fun st => st.1.Within 0 (4 * nchMax * blkCap)) mod inc _ st h fun n st hn hm => ?_
  have hframe : WordsIn wetAddr 0 (4 * nchMax * blkCap) ((channels nch).map fun c => (n, c)) := fun p hp => by
    obtain ⟨c, hc, rfl⟩ := List.mem_map.mp hp
    exact wordsIn_wet hlen (n, c) (mem_positions.mpr ⟨List.mem_range.mp hn, mem_channels.mp hc⟩)
  unfold modFrame
  exact hm.sweep hframe _ _

end Rev

end Sys2Proof.Machine
end

section
/-! PROOF. The machine invariant (10_state.md R23, R26, R30, R38): every operation of a step keeps it, so every step does. -/

namespace Sys2Proof.Machine

open Sys2Proof.Config

/-! ### One part of the state at a time -/

namespace Inv

variable {s t : State}

theorem queue (h : Inv s) (rest : List HostAction) : Inv { s with host := rest } := { h with }

theorem raiseFault (h : Inv s) (c : Cause) : Inv (raiseFault c s) :=
  { h with
    idle := rfl
    distConfig := fun hnone => nomatch hnone }

theorem memWithin (h : Inv s) : s.mem.Within 0x10000 0x30000 := ⟨h.memWf, h.memRange⟩

theorem wetWithin (h : Inv s) : s.wet.Within 0 (4 * nchMax * blkCap) :=
  ⟨h.wetWf, fun c hc => ⟨Nat.zero_le _, h.wetRange c hc⟩⟩

theorem dlyWithin (h : Inv s) : s.dly.Within 0 (4 * nchMax * delayCap) :=
  ⟨h.dlyWf, fun c hc => ⟨Nat.zero_le _, h.dlyRange c hc⟩⟩

theorem withMem (h : Inv s) {m : Memory} (hm : m.Within 0x10000 0x30000) : Inv { s with mem := m } :=
  { h with
    memWf := hm.wf
    memRange := hm.range }

theorem withWet (h : Inv s) {m : Memory} (hm : m.Within 0 (4 * nchMax * blkCap)) : Inv { s with wet := m } :=
  { h with
    wetWf := hm.wf
    wetRange := fun c hc => (hm.range c hc).2 }

theorem withDly (h : Inv s) {m : Memory} (hm : m.Within 0 (4 * nchMax * delayCap)) (hfill : m.fill = s.dly.fill) :
    Inv { s with dly := m } :=
  { h with
    dlyWf := hm.wf
    dlyRange := fun c hc => (hm.range c hc).2
    cleared := fun hcfg => hfill.trans (h.cleared hcfg) }

/-- A distortion engine with the latched configuration, whatever its ghost phase. -/
theorem withDs (h : Inv s) {ds : DistState} (hds : DistLatched s.ds ds) (p : F32) :
    Inv { s with ds := { ds with gphase := p } } :=
  { h with
    distNch := hds.nch ▸ h.distNch
    distMaxblk := hds.maxblk ▸ h.distMaxblk
    distConfig := fun hnone hcfg => by
      simpa only [hds.nch, hds.maxblk, hds.fs] using h.distConfig hnone (hds.configured ▸ hcfg) }

/-- A reverb engine with the latched configuration and cursors in range, whatever its phase. -/
theorem withRs (h : Inv s) {rs : RevState} (hrs : RevLatched s.rs rs) (hcur : CursorsOk rs) (p : F32) :
    Inv { s with rs := { rs with mphase := p } } :=
  { h with
    revNch := hrs.nch ▸ h.revNch
    revMaxblk := hrs.maxblk ▸ h.revMaxblk
    cursor := hcur
    revConfig := fun hcfg => by
      simpa only [hrs.nch, hrs.maxblk, hrs.fs] using h.revConfig (hrs.configured ▸ hcfg)
    cleared := fun hcfg => h.cleared (hrs.configured ▸ hcfg) }

/-! ### Accesses and the reset -/

theorem access (h : Inv s) (ht : HostAccess s t) : Inv t := by
  cases ht with
  | bad v => exact (show Inv { s with rdata := v } from { h with }).raiseFault _
  | read v => exact { h with }
  | register r v =>
    exact { h with
      mirror := (writeRegs_ra r v s.regs).trans h.mirror
      freeze := by simpa using h.freeze }
  | buffer a v hlo hhi => exact h.withMem (h.memWithin.setWord hlo hhi v)

end Inv

theorem inv_afterReset (d : Nat) : Inv (State.afterReset d) where
  memWf := rfl
  wetWf := rfl
  dlyWf := rfl
  memRange := fun _ h => absurd h List.not_mem_nil
  wetRange := fun _ h => absurd h List.not_mem_nil
  dlyRange := fun _ h => absurd h List.not_mem_nil
  idle := rfl
  distNch := Nat.zero_le _
  distMaxblk := Nat.zero_le _
  revNch := Nat.zero_le _
  revMaxblk := Nat.zero_le _
  cursor := fun c => by simp [State.afterReset]
  delay := (by decide : 0 < delayCap)
  mirror := rfl
  freeze := rfl
  distConfig := fun _ h => nomatch h
  revConfig := fun h => nomatch h
  cleared := fun h => nomatch h

theorem inv_hardwareReset (s : State) : Inv (hardwareReset s) := (inv_afterReset s.draws).queue s.host

/-! ### What the checks of a command give -/

theorem configOk_bounds {nch maxblk : Nat} {fs : F32} (h : configOk nch maxblk fs = true) :
    (1 ≤ nch ∧ nch ≤ nchMax) ∧ (1 ≤ maxblk ∧ maxblk ≤ blkCap) ∧ rateOk fs = true := by
  simpa only [configOk, Bool.and_eq_true, decide_eq_true_eq, and_assoc] using h

/-- A predelay that passes its check is below the capacity (46_parameter_mapper.md R232, 47_circular_delay_buffer.md R256). -/
theorem predelayOf_lt {predelay fs : F32} {d : Bool × Nat} (h : predelayOf predelay fs = some d) : d.2 < delayCap := by
  have hcap : units (flush (f32OfNat delayCap)) = delayCap * 2 ^ 149 := by decide +kernel
  unfold predelayOf at h
  simp only at h
  split_ifs at h with hpos hlt
  · obtain rfl := Option.some.inj h
    simp only [flt, hcap, Bool.and_eq_true, decide_eq_true_eq] at hlt
    simp only [floorNat, delayCap] at *
    omega
  · obtain rfl := Option.some.inj h
    decide

/-! ### The configuration commands -/

namespace Inv

variable {s t : State} {nch len : Nat}

theorem execCfgD (h : Inv s) (ht : execCfgD nch len s = .next t) : Inv t := by
  rcases execCfgD_cases nch len s with ⟨hok, he⟩ | ⟨_, he⟩ <;> obtain rfl := Host.Outcome.next.inj (he.symm.trans ht)
  · obtain ⟨⟨hn, hn'⟩, ⟨hm, hm'⟩, hrate⟩ := configOk_bounds hok
    exact { h with
      distNch := hn'
      distMaxblk := hm'
      distConfig := fun _ _ => ⟨hn, hm, hrate⟩ }
  · exact h.raiseFault _

theorem execCfgR (h : Inv s) (ht : execCfgR nch len s = .next t) : Inv t := by
  rcases execCfgR_cases nch len s with ⟨hok, he⟩ | ⟨_, he⟩ <;> obtain rfl := Host.Outcome.next.inj (he.symm.trans ht)
  · obtain ⟨⟨hn, hn'⟩, ⟨hm, hm'⟩, hrate⟩ := configOk_bounds hok
    exact { h with
      dlyWf := rfl
      dlyRange := fun _ hc => absurd hc List.not_mem_nil
      revNch := hn'
      revMaxblk := hm'
      cursor := fun c => by simp [configuredRev]
      revConfig := fun _ => ⟨hn, hm, hrate⟩
      cleared := fun _ => rfl }
  · exact h.raiseFault _

/-! ### PROC.D -/

theorem startBlockD (h : Inv s) (len : Nat) : Inv (startBlockD len s) := { h with }

theorem ghostPass (h : Inv s) (nch : Nat) (hlen : len ≤ blkCap) : Inv (ghostPass nch len s) := by
  rcases ghostPass_cases nch len s with ⟨he, _⟩ | ⟨_, m, ds, hm, hds, he⟩ <;> rw [he]
  · exact h
  · exact (h.withMem (hm _ _ (wordsIn_buffers_bufD hlen) h.memWithin)).withDs hds _

theorem mainPass (h : Inv s) {sel : Instr} (hlen : len ≤ blkCap) (ht : mainPass sel nch len s = some t) : Inv t := by
  obtain ⟨m, ds, hm, hds, rfl⟩ := mainPass_latched ht
  exact (h.withMem (hm _ _ (wordsIn_buffers_bufD hlen) h.memWithin)).withDs hds ds.gphase

theorem foldDiverge (h : Inv s) (nch : Nat) (hlen : len ≤ blkCap) : Inv (foldDiverge nch len s) := by
  have hm : (losesDist nch len s).mem.Within 0x10000 0x30000 := h.memWithin.sweep (wordsIn_buffers_bufD hlen) _ _
  exact { h with
    memWf := hm.wf
    memRange := hm.range
    idle := rfl
    distNch := Nat.le_of_lt_succ (Nat.mod_lt _ (Nat.succ_pos _))
    distMaxblk := Nat.le_of_lt_succ (Nat.mod_lt _ (Nat.succ_pos _))
    distConfig := fun hnone => nomatch hnone }

theorem execProcD (h : Inv s) (ht : execProcD nch len s = .next t) : Inv t := by
  rcases execProcD_cases nch len s with ⟨_, he⟩ | ⟨_, _, he⟩ | ⟨_, _, _, he⟩ | ⟨sel, _, hok, _, ⟨u, hmain, he⟩ | ⟨_, he⟩⟩ <;>
    obtain rfl := Host.Outcome.next.inj (he.symm.trans ht)
  · exact h.raiseFault _
  · exact h.raiseFault _
  · exact h.raiseFault _
  · have hlen := len_le_blkCap hok h.distMaxblk
    exact ((h.startBlockD len).ghostPass nch hlen).mainPass hlen hmain
  · have hlen := len_le_blkCap hok h.distMaxblk
    exact ((h.startBlockD len).ghostPass nch hlen).foldDiverge nch hlen

/-! ### PROC.R -/

theorem startBlockR (h : Inv s) (sel : Instr) {d : Bool × Nat} (hd : d.2 < delayCap) : Inv (startBlockR sel d s) :=
  { h with
    delay := hd
    mirror := rfl
    freeze := rfl }

theorem filterPass (h : Inv s) (nch : Nat) (hlen : len ≤ blkCap) : Inv (filterPass nch len s) := by
  obtain ⟨hrs, hcur⟩ := filterPass_latched nch len s
  have hm : (Machine.filterPass nch len s).mem.Within 0x10000 0x30000 := h.memWithin.sweep (wordsIn_buffers_bufR hlen) _ _
  exact (h.withMem hm).withRs hrs (fun c => hcur ▸ h.cursor c) (Machine.filterPass nch len s).rs.mphase

theorem copyPass (h : Inv s) (nch : Nat) (hlen : len ≤ blkCap) : Inv (copyPass nch len s) :=
  h.withWet (h.wetWithin.sweep (wordsIn_wet hlen) _ _)

theorem predelayPass (h : Inv s) (nch : Nat) (hlen : len ≤ blkCap) : Inv (predelayPass nch len s) := by
  obtain ⟨hcur, hdly, hfill⟩ := predelayPass_dly nch len h.cursor h.dlyWithin
  have hrs := predelayPass_latched nch len s
  have hwet : (Machine.predelayPass nch len s).wet.Within 0 (4 * nchMax * blkCap) := by
    unfold Machine.predelayPass
    split
    · exact h.wetWithin.sweep (wordsIn_wet hlen) _ _
    · exact h.wetWithin
  have hu := ((h.withWet hwet).withDly hdly hfill).withRs hrs hcur (Machine.predelayPass nch len s).rs.mphase
  have he : Machine.predelayPass nch len s =
      { s with
        wet := (Machine.predelayPass nch len s).wet
        dly := (Machine.predelayPass nch len s).dly
        rs := (Machine.predelayPass nch len s).rs } := by
    unfold Machine.predelayPass
    split <;> rfl
  rw [he]
  exact hu

theorem externalCall (h : Inv s) (nch : Nat) (hlen : len ≤ blkCap) : Inv (externalCall nch len s) := by
  obtain ⟨hrs, hcur⟩ := externalCall_latched nch len s
  have hwet : (Machine.externalCall nch len s).wet.Within 0 (4 * nchMax * blkCap) :=
    h.wetWithin.sweep (wordsIn_wet hlen) _ _
  exact (h.withWet hwet).withRs hrs (fun c => hcur ▸ h.cursor c) s.rs.mphase

theorem modulationPass (h : Inv s) (nch : Nat) (hlen : len ≤ blkCap) : Inv (modulationPass nch len s) := by
  rcases modulationPass_cases nch len s with he | ⟨st, hst, he⟩ <;> rw [he]
  · exact h
  · have hwet : st.1.Within 0 (4 * nchMax * blkCap) := hst ▸ modFrames_within hlen h.wetWithin
    exact (h.withWet hwet).withRs (.refl _) h.cursor st.2

theorem mixPass (h : Inv s) (nch : Nat) (hlen : len ≤ blkCap) : Inv (mixPass nch len s) :=
  h.withMem (h.memWithin.sweep (wordsIn_buffers_bufR hlen) _ _)

theorem reverbPasses (h : Inv s) (nch : Nat) (hlen : len ≤ blkCap) : Inv (reverbPasses nch len s) :=
  (((((h.filterPass nch hlen).copyPass nch hlen).predelayPass nch hlen).externalCall nch hlen).modulationPass nch
    hlen).mixPass nch hlen

theorem execProcR (h : Inv s) (ht : execProcR nch len s = .next t) : Inv t := by
  rcases execProcR_cases nch len s with ⟨_, he⟩ | ⟨_, _, he⟩ | ⟨_, _, _, he⟩ | ⟨_, _, _, _, _, he⟩ |
      ⟨sel, d, _, hok, _, hd, he⟩ <;>
    obtain rfl := Host.Outcome.next.inj (he.symm.trans ht)
  · exact h.raiseFault _
  · exact h.raiseFault _
  · exact h.raiseFault _
  · exact h.raiseFault _
  · exact (h.startBlockR sel (predelayOf_lt hd)).reverbPasses nch (len_le_blkCap hok h.revMaxblk)

end Inv

theorem stepClosed_inv : StepClosed Inv where
  idle _ h := h.idle
  queue _ rest h := h.queue rest
  fault _ c h := h.raiseFault c
  access _ _ h ht := h.access ht
  reset := inv_hardwareReset
  cfgD _ _ _ _ h ht := h.execCfgD ht
  cfgR _ _ _ _ h ht := h.execCfgR ht
  procD _ _ _ _ h _ ht := h.execProcD ht
  procR _ _ _ _ h ht := h.execProcR ht

/-- Settles O57: each operation that a step is made of keeps the invariant. -/
theorem stepKeepsTheMachineInvariant : Obligations.StepKeepsTheMachineInvariant := by
  unfold Obligations.StepKeepsTheMachineInvariant
  exact fun _ _ hs ht => stepClosed_inv.step hs ht

end Sys2Proof.Machine
end

section
/-! PROOF. Words of value 0 or more, and the wrap of a phase (48_nco_modulation_lut.md R266): `fle lit.zero w` says of a word
that it is no NaN and not below 0; the operations keep that, and `wrap01` subtracts whole numbers without rounding. -/

namespace Sys2Proof.Machine

open Sys2Proof.Config

/-! ### One rounding -/

section RoundTo

variable {num den : Nat}

/-- A word below `2^256` units is no infinity, which counts as `2^277` (00_scope.md R10). -/
theorem isFinite_of_magUnits_lt {w : F32} (hn : isNaN w = false) (h : magUnits w < 2 ^ 256) : isFinite w = true := by
  rcases class_cases w with ⟨h', _, _⟩ | ⟨_, hi, _⟩ | ⟨_, _, hf⟩
  · simp [h'] at hn
  · simp only [isInf, Bool.and_eq_true, beq_iff_eq] at hi
    simp [magUnits, hi.1, hi.2] at h
  · exact hf

theorem magUnits_lt_of_isFinite {w : F32} (h : isFinite w = true) : magUnits w ≤ (2 ^ 24 - 1) * 2 ^ 253 := by
  have hexp : expField w < 256 := Nat.mod_lt _ (by decide)
  have hfrac : fracField w < 2 ^ 23 := Nat.mod_lt _ (by decide)
  simp only [isFinite, bne_iff_ne] at h
  unfold magUnits
  split_ifs
  · omega
  · exact Nat.mul_le_mul (by omega) (Nat.pow_le_pow_right (by decide) (by omega))

theorem flush_roundTo (neg : Bool) (num den : Nat) : flush (roundTo neg num den) = roundTo neg num den := flush_flush _

theorem isNaN_packBits {neg : Bool} {mag : Nat} (h : mag ≤ 0x7F800000) : isNaN (packBits neg mag) = false := by
  simp only [isNaN, expField_packBits (neg := neg) (show mag < 2 ^ 31 by omega),
    fracField_packBits (neg := neg) (show mag < 2 ^ 31 by omega), Bool.and_eq_false_iff, beq_eq_false_iff_ne, bne_eq_false_iff_eq]
  omega

theorem isNaN_roundTo (neg : Bool) (num den : Nat) : isNaN (roundTo neg num den) = false := by
  rw [roundTo, isNaN_flush]
  exact isNaN_packBits (min_le_right _ _)

/-- Below half a unit above the largest finite magnitude the rounding is finite. -/
theorem isFinite_roundTo (neg : Bool) (hden : 0 < den) (h : num < (2 ^ 25 - 1) * 2 ^ 252 * den) :
    isFinite (roundTo neg num den) = true := by
  rcases Nat.lt_or_ge num (2 ^ 23 * den) with hlt | hge
  · have hq := roundDiv_le (num := num) (j := 2 ^ 23) hden hlt.le
    have hbits : roundUnits num den ≤ 2 ^ 23 := by
      rw [roundUnits_eq, gridExp_of_lt hden hlt]
      simp only [Nat.pow_zero, Nat.mul_one]
      omega
    refine isFinite_flush ?_
    rw [isFinite, expField_packBits (by omega), bne_iff_ne]
    omega
  · exact (roundTo_of_normal neg hden hge h).1

theorem units_eq_magUnits {w : F32} (h : 0 ≤ units w) : units w = magUnits w := by
  unfold units at h ⊢
  split_ifs at h ⊢ <;> omega

theorem units_nonneg_of_signBit {w : F32} (h : signBit w = false) : 0 ≤ units w := by
  simp [units, h]

theorem units_of_isZero {w : F32} (h : isZero w = true) : units w = 0 := by
  simp only [isZero, Bool.and_eq_true, beq_iff_eq] at h
  simp [units, magUnits, h.1, h.2]

/-- The rounding of a fraction that is positive or zero is not below 0. -/
theorem units_roundTo_nonneg {neg : Bool} (hden : 0 < den) (h : neg = false ∨ num = 0) :
    0 ≤ units (roundTo neg num den) := by
  rcases h with rfl | rfl
  · exact units_nonneg_of_signBit (signBit_roundTo _ _ _)
  · exact (units_of_isZero (isZero_flush_packBits (roundUnits_of_tiny hden (by omega)))).ge

/-- A whole number of units that is a multiple of the step of its binade is its own rounding. -/
theorem units_roundTo_of_dvd (hlo : 2 ^ 23 ≤ num) (hhi : num < (2 ^ 25 - 1) * 2 ^ 252) (h : 2 ^ gridExp num 1 ∣ num) :
    units (roundTo false num 1) = num := by
  obtain ⟨_, hunits, _⟩ := roundTo_of_normal (num := num) false one_pos (by omega) (by omega)
  obtain ⟨q, hq⟩ := h
  have hround : roundDiv num (1 * 2 ^ gridExp num 1) = q := by
    rw [Nat.one_mul]
    nth_rewrite 1 [hq]
    rw [Nat.mul_comm]
    exact roundDiv_mul q _ (Nat.two_pow_pos _)
  rw [hround, signOf_false, one_mul] at hunits
  have : (units (roundTo false num 1) : ℝ) = ((num : ℤ) : ℝ) := by
    rw [hunits, Int.cast_natCast]
    nth_rewrite 2 [hq]
    push_cast
    ring
  exact_mod_cast this

/-- A number below `2^(24 + e)` units has a step of at most `2^e`. -/
theorem gridExp_le {e : Nat} (h : num < 2 ^ (24 + e)) : gridExp num 1 ≤ e := by
  unfold gridExp
  rw [Nat.div_one]
  rcases Nat.eq_zero_or_pos num with rfl | hpos
  · simp
  · have := (Nat.log2_lt hpos.ne').mpr h
    omega

end RoundTo

/-! ### Words of value 0 or more -/

section Nonneg

variable {a b v w : F32}

theorem fle_zero_iff : fle lit.zero w = true ↔ isNaN w = false ∧ 0 ≤ units (flush w) := by
  have h0 : isNaN lit.zero = false ∧ units (flush lit.zero) = 0 := by decide
  simp [fle, h0.1, h0.2]

/-- A phase is a number of `[0, 2^149)` units (10_state.md R25). -/
theorem phaseOk_iff : phaseOk w = true ↔ fle lit.zero w = true ∧ units (flush w) < 2 ^ 149 := by
  have h1 : isNaN lit.one = false ∧ units (flush lit.one) = 2 ^ 149 := by decide +kernel
  rw [phaseOk, Bool.and_eq_true, and_congr_right_iff]
  intro h
  simp [flt, (fle_zero_iff.mp h).1, h1.1, h1.2]

theorem isFinite_of_flush (h : isFinite (flush w) = true) : isFinite w = true := by
  rcases flush_cases w with ⟨hs, _⟩ | ⟨_, he⟩
  · exact isFinite_of_isSubnormal hs
  · rwa [he] at h

theorem isFinite_of_phaseOk (h : phaseOk w = true) : isFinite w = true := by
  obtain ⟨hle, hlt⟩ := phaseOk_iff.mp h
  obtain ⟨hnan, h0⟩ := fle_zero_iff.mp hle
  rw [units_eq_magUnits h0] at hlt
  exact isFinite_of_flush (isFinite_of_magUnits_lt (by simpa using hnan) (by omega))

/-- A word of value 0 or more has the sign +, or is a zero. -/
theorem signBit_or_magUnits (h : fle lit.zero w = true) : signBit w = false ∨ magUnits (flush w) = 0 := by
  have h0 := (fle_zero_iff.mp h).2
  unfold units at h0
  rw [signBit_flush] at h0
  cases hs : signBit w
  · exact .inl rfl
  · simp only [hs, if_true] at h0
    exact .inr (by omega)

theorem fle_zero_roundTo {neg : Bool} {num den : Nat} (hden : 0 < den) (h : neg = false ∨ num = 0) :
    fle lit.zero (roundTo neg num den) = true :=
  fle_zero_iff.mpr ⟨isNaN_roundTo _ _ _, by rw [flush_roundTo]; exact units_roundTo_nonneg hden h⟩

theorem fle_zero_signedZero (neg : Bool) : fle lit.zero (signedZero neg) = true := by cases neg <;> decide

/-- A phase and a finite step of 0 or more have a finite sum of 0 or more. -/
theorem fadd_phase (ha : phaseOk a = true) (hb : isFinite b = true) (hb0 : fle lit.zero b = true) :
    isFinite (fadd a b) = true ∧ fle lit.zero (fadd a b) = true := by
  obtain ⟨ha0, ha1⟩ := phaseOk_iff.mp ha
  have hua := (fle_zero_iff.mp ha0).2
  have hub := (fle_zero_iff.mp hb0).2
  have hmax := magUnits_lt_of_isFinite (isFinite_flush hb)
  have hmag := units_eq_magUnits hub
  rw [fadd, sumFlushed_of_finite _ (isFinite_flush (isFinite_of_phaseOk ha)) (isFinite_flush hb)]
  split_ifs with hz
  · exact ⟨by cases signBit (flush a) && signBit (flush b) <;> decide, fle_zero_signedZero _⟩
  · have hneg : decide (units (flush a) + units (flush b) < 0) = false := decide_eq_false (by omega)
    rw [hneg]
    exact ⟨isFinite_roundTo _ one_pos (by omega), fle_zero_roundTo one_pos (.inl rfl)⟩

/-- The product of two finite words of 0 or more is an infinity or a number of 0 or more. -/
theorem fle_zero_fmul (ha : isFinite a = true) (hb : isFinite b = true) (ha0 : fle lit.zero a = true)
    (hb0 : fle lit.zero b = true) : fle lit.zero (fmul a b) = true := by
  rw [fmul, fmulFlushed_of_finite (isFinite_flush ha) (isFinite_flush hb), signBit_flush, signBit_flush]
  refine fle_zero_roundTo (Nat.two_pow_pos _) ?_
  rcases signBit_or_magUnits ha0 with hs | hm
  · rcases signBit_or_magUnits hb0 with hs' | hm
    · exact .inl (by simp [hs, hs'])
    · exact .inr (by simp [hm])
  · exact .inr (by simp [hm])

theorem fields_of_units_pos (h : 0 < units (flush w)) :
    signBit w = false ∧ isZero (flush w) = false ∧ 0 < magUnits (flush w) := by
  have hmag := units_eq_magUnits h.le
  refine ⟨eq_false_of_ne_true fun hs => ?_, eq_false_of_ne_true fun hz => ?_, by omega⟩
  · simp only [units, signBit_flush, hs, if_true] at h
    omega
  · exact h.ne' (units_of_isZero hz)

/-- So is the quotient of a word of 0 or more, an infinity included, by a positive finite word. -/
theorem fle_zero_fdiv (ha0 : fle lit.zero a = true) (hb : isFinite b = true) (hpos : 0 < units (flush b)) :
    fle lit.zero (fdiv a b) = true := by
  obtain ⟨hsb, hzb, hmb⟩ := fields_of_units_pos hpos
  have hsign : signBit a = false ∨ magUnits (flush a) = 0 := signBit_or_magUnits ha0
  have hfb := isFinite_flush hb
  rcases class_cases a with ⟨hn, _, _⟩ | ⟨hn, hi, _⟩ | ⟨_, _, hf⟩
  · rw [(fle_zero_iff.mp ha0).1] at hn
    cases hn
  · rw [fdiv, flush_of_isInf hi, fdivFlushed_of_isInf_left hi (isNaN_of_isFinite hfb), isInf_of_isFinite hfb]
    have hm : magUnits (flush a) ≠ 0 := by
      rw [flush_of_isInf hi]
      simp only [isInf, Bool.and_eq_true, beq_iff_eq] at hi
      simp [magUnits, hi.1]
    rw [signBit_flush, hsb, hsign.resolve_right hm]
    exact (by decide +kernel : fle lit.zero (signedInf false) = true)
  · rw [fdiv, fdivFlushed_of_finite (isFinite_flush hf) hfb hzb, signBit_flush, signBit_flush, hsb]
    refine fle_zero_roundTo hmb (hsign.imp (fun hs => by simp [hs]) fun hm => by simp [hm])

/-! ### The wrap (48_nco_modulation_lut.md R266) -/

/-- A flushed word that is no zero has a significand of 24 bits. -/
theorem exists_significand (h : magUnits (flush w) ≠ 0) :
    ∃ m e, 2 ^ 23 ≤ m ∧ m < 2 ^ 24 ∧ magUnits (flush w) = m * 2 ^ e := by
  have hfrac : fracField (flush w) < 2 ^ 23 := Nat.mod_lt _ (by decide)
  have hsub := isSubnormal_flush w
  refine ⟨2 ^ 23 + fracField (flush w), expField (flush w) - 1, by omega, by omega, if_neg fun hexp => h ?_⟩
  simpa [isSubnormal, hexp, magUnits] using hsub

/-- The whole part of a word's magnitude, with the unit at `2^149`, is a multiple of the step of its binade. -/
theorem gridExp_dvd_whole (w : F32) :
    2 ^ gridExp (magUnits (flush w) / 2 ^ 149 * 2 ^ 149) 1 ∣ magUnits (flush w) / 2 ^ 149 * 2 ^ 149 := by
  by_cases h0 : magUnits (flush w) = 0
  · simp [h0]
  obtain ⟨m, e, _, hm, hmag⟩ := exists_significand h0
  have hlt : magUnits (flush w) < 2 ^ (24 + e) := by
    rw [hmag, Nat.pow_add]
    exact Nat.mul_lt_mul_of_pos_right hm (Nat.two_pow_pos e)
  have hgrid := gridExp_le ((Nat.div_mul_le_self (magUnits (flush w)) (2 ^ 149)).trans_lt hlt)
  rcases Nat.le_total e 149 with he | he
  · exact (pow_dvd_pow 2 (hgrid.trans he)).trans (Nat.dvd_mul_left _ _)
  · have hwhole : 2 ^ 149 ∣ magUnits (flush w) := hmag ▸ Dvd.dvd.mul_left (pow_dvd_pow 2 he) m
    rw [Nat.div_mul_cancel hwhole] at hgrid ⊢
    exact (pow_dvd_pow 2 hgrid).trans (hmag ▸ Nat.dvd_mul_left _ m)

/-- So is the rest, which is no subnormal. -/
theorem gridExp_dvd_rest (h : magUnits (flush w) % 2 ^ 149 ≠ 0) :
    2 ^ 23 ≤ magUnits (flush w) % 2 ^ 149 ∧
      2 ^ gridExp (magUnits (flush w) % 2 ^ 149) 1 ∣ magUnits (flush w) % 2 ^ 149 := by
  obtain ⟨m, e, hlo, hm, hmag⟩ := exists_significand (w := w) (by omega)
  have hlt : magUnits (flush w) < 2 ^ (24 + e) := by
    rw [hmag, Nat.pow_add]
    exact Nat.mul_lt_mul_of_pos_right hm (Nat.two_pow_pos e)
  have hstep {k : Nat} (hk : k ≤ e) (hk' : k ≤ 149) : 2 ^ k ∣ magUnits (flush w) % 2 ^ 149 :=
    (Nat.dvd_mod_iff (pow_dvd_pow 2 hk')).mpr ((pow_dvd_pow 2 hk).trans (hmag ▸ Nat.dvd_mul_left _ m))
  refine ⟨?_, hstep (gridExp_le ((Nat.mod_le _ _).trans_lt hlt)) (gridExp_le (by omega))⟩
  rcases Nat.lt_or_ge e 23 with he | he
  · have : magUnits (flush w) < 2 ^ 149 := hlt.trans_le (Nat.pow_le_pow_right (by decide) (by omega))
    have : 2 ^ 23 ≤ magUnits (flush w) := hmag ▸ hlo.trans (Nat.le_mul_of_pos_right _ (Nat.two_pow_pos e))
    omega
  · exact Nat.le_of_dvd (Nat.pos_of_ne_zero h) (hstep he (by decide))

/-- The floor of a finite word of 0 or more is exact. -/
theorem ffloor_exact (hv : isFinite v = true) (h0 : fle lit.zero v = true) :
    isFinite (ffloor v) = true ∧ flush (ffloor v) = ffloor v ∧
      units (ffloor v) = units (flush v) / 2 ^ 149 * 2 ^ 149 := by
  have hfin := isFinite_flush hv
  have hmax := magUnits_lt_of_isFinite hfin
  have hmag := units_eq_magUnits (fle_zero_iff.mp h0).2
  have hfloor : ffloor v = if units (flush v) / 2 ^ 149 = 0 then signedZero (signBit (flush v)) else
      roundTo (decide (units (flush v) / 2 ^ 149 < 0)) ((units (flush v) / 2 ^ 149).natAbs * 2 ^ 149) 1 := by
    simp only [ffloor, isNaN_of_isFinite hfin, isInf_of_isFinite hfin, Bool.false_eq_true, if_false]
  rw [hfloor]
  split_ifs with hz
  · rw [hz]
    cases signBit (flush v) <;> decide
  · have hneg : decide (units (flush v) / 2 ^ 149 < 0) = false := decide_eq_false (by omega)
    have hnum : (units (flush v) / 2 ^ 149).natAbs * 2 ^ 149 = magUnits (flush v) / 2 ^ 149 * 2 ^ 149 := by omega
    rw [hneg, hnum]
    refine ⟨isFinite_roundTo _ one_pos (by omega), flush_roundTo _ _ _, ?_⟩
    rw [units_roundTo_of_dvd (by omega) (by omega) (gridExp_dvd_whole v), hmag]
    push_cast
    rfl

/-- The wrap of a finite word of 0 or more is its fractional part, exactly. -/
theorem wrap01_exact (hv : isFinite v = true) (h0 : fle lit.zero v = true) :
    fle lit.zero (wrap01 v) = true ∧ flush (wrap01 v) = wrap01 v ∧ units (wrap01 v) = units (flush v) % 2 ^ 149 := by
  obtain ⟨hfin, hflush, hfloor⟩ := ffloor_exact hv h0
  have hmag := units_eq_magUnits (fle_zero_iff.mp h0).2
  have hsum : units (flush v) + units (flipSign (flush (ffloor v))) = units (flush v) % 2 ^ 149 := by
    rw [units_flipSign, hflush, hfloor]
    omega
  rw [wrap01, fsub, sumFlushed_of_finite _ (isFinite_flush hv) (by rw [isFinite_flipSign]; exact isFinite_flush hfin), hsum]
  split_ifs with hz
  · rw [hz]
    refine ⟨fle_zero_signedZero _, ?_⟩
    cases signBit (flush v) && signBit (flipSign (flush (ffloor v))) <;> decide
  · have hneg : decide (units (flush v) % 2 ^ 149 < 0) = false := decide_eq_false (by omega)
    have hnum : (units (flush v) % 2 ^ 149).natAbs = magUnits (flush v) % 2 ^ 149 := by omega
    obtain ⟨hlo, hdvd⟩ := gridExp_dvd_rest (w := v) (by omega)
    rw [hneg, hnum]
    refine ⟨fle_zero_roundTo one_pos (.inl rfl), flush_roundTo _ _ _, ?_⟩
    rw [units_roundTo_of_dvd hlo (by omega) hdvd, hmag]
    push_cast
    rfl

theorem phaseOk_wrap01 (hv : isFinite v = true) (h0 : fle lit.zero v = true) : phaseOk (wrap01 v) = true := by
  obtain ⟨hle, hflush, hunits⟩ := wrap01_exact hv h0
  rw [phaseOk_iff, hflush, hunits]
  exact ⟨hle, by omega⟩

/-- A phase advanced by a finite step of 0 or more is a phase (10_state.md R25). -/
theorem phaseOk_advance {p i : F32} (hp : phaseOk p = true) (hi : isFinite i = true) (h0 : fle lit.zero i = true) :
    phaseOk (wrap01 (fadd p i)) = true := by
  obtain ⟨hfin, hle⟩ := fadd_phase hp hi h0
  exact phaseOk_wrap01 hfin hle

end Nonneg

/-! ### The steps of the phases (44_ghost_stage.md R190, 46_parameter_mapper.md R228, R233) -/

/-- A legal sample rate is finite and positive (45_distortion_pipeline.md R201). -/
theorem rateOk_bounds {fs : F32} (h : rateOk fs = true) : isFinite fs = true ∧ 44100 * 2 ^ 149 ≤ units (flush fs) := by
  have hmin : units (flush (f32OfNat fsMin)) = 44100 * 2 ^ 149 := by decide +kernel
  have hmax : units (flush (f32OfNat fsMax)) = 192000 * 2 ^ 149 := by decide +kernel
  simp only [rateOk, fge, fle, Bool.and_eq_true, Bool.not_eq_true', decide_eq_true_eq, hmin, hmax] at h
  obtain ⟨⟨⟨_, hnan⟩, hlo⟩, _, hhi⟩ := h
  have hmag := units_eq_magUnits (w := flush fs) (by omega)
  exact ⟨isFinite_of_flush (isFinite_of_magUnits_lt (by simpa using hnan) (by omega)), hlo⟩

/-- The step of the reverb phase for a legal rate is finite and not negative. -/
theorem modInc_ok {fs : F32} (h : rateOk fs = true) : isFinite (modInc fs) = true ∧ fle lit.zero (modInc fs) = true := by
  obtain ⟨hfin, hlo⟩ := rateOk_bounds h
  have hrate : isFinite (flush lit.modRate) = true ∧ magUnits (flush lit.modRate) = 3 * 2 ^ 149 := by decide +kernel
  have hmag := units_eq_magUnits (w := flush fs) (by omega)
  obtain ⟨_, hz, _⟩ := fields_of_units_pos (w := fs) (by omega)
  refine ⟨?_, fle_zero_fdiv (by decide) hfin (by omega)⟩
  rw [modInc, fdiv, fdivFlushed_of_finite hrate.1 (isFinite_flush hfin) hz, hrate.2]
  exact isFinite_roundTo _ (by omega) (by omega)

theorem ghostRateHz_ok : isFinite ghostRateHz = true ∧ fle lit.zero ghostRateHz = true := by
  have h := held_ok (ok := fun r => isFinite r && fge r lit.zero) (dflt := lit.zero) (by decide) ghostRate
  rwa [Bool.and_eq_true] at h

/-- The step of the ghost phase, for a block length that fits a command word, is an infinity or not negative: `LEN` has 16
bits (30_encoding.md R90). -/
theorem ghostStep_nonneg {len : Nat} {fs : F32} (hlen : len < 2 ^ 16) (h : rateOk fs = true) :
    fle lit.zero (fdiv (fmul (f32OfNat len) ghostRateHz) fs) = true := by
  obtain ⟨hfin, hlo⟩ := rateOk_bounds h
  have hl : isFinite (f32OfNat len) = true := isFinite_roundTo _ one_pos (by omega)
  have hl0 : fle lit.zero (f32OfNat len) = true := fle_zero_roundTo one_pos (.inl rfl)
  exact fle_zero_fdiv (fle_zero_fmul hl ghostRateHz_ok.1 hl0 ghostRateHz_ok.2) hfin (by omega)

/-- The ghost phase stays in [0, 1) for every step that is not negative, an infinity included (R190; log 19). -/
theorem phaseOk_ghostPhaseAfter {p i : F32} (hp : phaseOk p = true) (hi : fle lit.zero i = true) :
    phaseOk (ghostPhaseAfter p i) = true := by
  rcases class_cases i with ⟨hn, _, _⟩ | ⟨_, hinf, _⟩ | ⟨_, hinf, hfin⟩
  · rw [(fle_zero_iff.mp hi).1] at hn
    cases hn
  · exact phaseOk_ghostPhaseAfter_of_isInf p hinf
  · rw [ghostPhaseAfter_of_finite hinf]
    exact phaseOk_advance hp hfin hi

end Sys2Proof.Machine
end

section
/-! PROOF. The two phases stay in [0, 1) (10_state.md R25): the reverb phase because its step is finite and not negative, the
ghost phase because a legal rate makes its step an infinity or not negative. -/

namespace Sys2Proof.Machine

open Sys2Proof.Config

/-! ### The reverb phase -/

/-- A phase in [0, 1) with a finite step of 0 or more. -/
structure RevState.PhaseOk (rs : RevState) : Prop where
  phase : phaseOk rs.mphase = true
  stepFinite : isFinite rs.inc = true
  stepSign : fle lit.zero rs.inc = true

section Rev

variable {s t : State} {nch len : Nat}

theorem RevPhaseInv.phaseOk (h : RevPhaseInv s) : s.rs.PhaseOk := ⟨h.phase, h.stepFinite, h.stepSign⟩

theorem RevState.PhaseOk.inv (h : t.rs.PhaseOk) (hidle : t.seq.busy = false) : RevPhaseInv t :=
  ⟨hidle, h.phase, h.stepFinite, h.stepSign⟩

/-- The invariant speaks of the sequencer and the engine only. -/
theorem RevPhaseInv.congr (h : RevPhaseInv s) (hseq : t.seq.busy = false) (hrs : t.rs = s.rs) : RevPhaseInv t :=
  RevState.PhaseOk.inv (hrs ▸ h.phaseOk) hseq

theorem RevState.PhaseOk.latched {a b : RevState} (h : a.PhaseOk) (hl : RevLatched a b) : b.PhaseOk :=
  ⟨hl.mphase ▸ h.phase, hl.inc ▸ h.stepFinite, hl.inc ▸ h.stepSign⟩

/-- `MOD_PASS` advances the phase once per frame (48_nco_modulation_lut.md R268). -/
theorem modulationPass_phaseOk (nch len : Nat) (h : s.rs.PhaseOk) : (modulationPass nch len s).rs.PhaseOk := by
  rcases modulationPass_cases nch len s with he | ⟨st, hst, he⟩ <;> rw [he]
  · exact h
  · have hphase : phaseOk st.2 = true := hst ▸ modFrames_induct (fun st => phaseOk st.2 = true) _ _ _ _ h.phase
      fun _ _ _ hp => phaseOk_advance hp h.stepFinite h.stepSign
    exact ⟨hphase, h.stepFinite, h.stepSign⟩

theorem reverbPasses_phaseOk (nch len : Nat) (h : s.rs.PhaseOk) : (reverbPasses nch len s).rs.PhaseOk := by
  have hcopy : (copyPass nch len (filterPass nch len s)).rs.PhaseOk := h.latched (filterPass_latched nch len s).1
  have hdelay := hcopy.latched (predelayPass_latched nch len _)
  have hcall := hdelay.latched (externalCall_latched nch len _).1
  exact modulationPass_phaseOk nch len hcall

theorem revPhaseInv_afterReset (d : Nat) : RevPhaseInv (State.afterReset d) :=
  RevState.PhaseOk.inv ⟨(by decide : phaseOk 0 = true), (by decide : isFinite 0 = true), (by decide : fle lit.zero 0 = true)⟩ rfl

theorem RevPhaseInv.execCfgR (h : RevPhaseInv s) (ht : execCfgR nch len s = .next t) : RevPhaseInv t := by
  rcases execCfgR_cases nch len s with ⟨hok, he⟩ | ⟨_, he⟩ <;> obtain rfl := Host.Outcome.next.inj (he.symm.trans ht)
  · obtain ⟨_, _, hrate⟩ := configOk_bounds hok
    obtain ⟨hfin, hsign⟩ := modInc_ok hrate
    exact ⟨h.idle, (by decide : Machine.phaseOk lit.zero = true), hfin, hsign⟩
  · exact h.congr rfl rfl

theorem RevPhaseInv.execProcR (h : RevPhaseInv s) (ht : execProcR nch len s = .next t) : RevPhaseInv t := by
  rcases execProcR_cases nch len s with ⟨_, he⟩ | ⟨_, _, he⟩ | ⟨_, _, _, he⟩ | ⟨_, _, _, _, _, he⟩ |
      ⟨sel, d, _, _, _, _, he⟩ <;>
    obtain rfl := Host.Outcome.next.inj (he.symm.trans ht)
  · exact h.congr rfl rfl
  · exact h.congr rfl rfl
  · exact h.congr rfl rfl
  · exact h.congr rfl rfl
  · have hstart : (startBlockR sel d s).rs.PhaseOk := h.phaseOk
    exact (reverbPasses_phaseOk nch len hstart).inv (by simpa using h.idle)

/-- A command of the distortion engine leaves the reverb engine alone, and the block idle. -/
theorem execCfgD_keeps_rs (hidle : s.seq.busy = false) (ht : execCfgD nch len s = .next t) :
    t.seq.busy = false ∧ t.rs = s.rs := by
  rcases execCfgD_cases nch len s with ⟨_, he⟩ | ⟨_, he⟩ <;> obtain rfl := Host.Outcome.next.inj (he.symm.trans ht)
  · exact ⟨hidle, rfl⟩
  · exact ⟨rfl, rfl⟩

theorem execProcD_keeps_rs (hidle : s.seq.busy = false) (ht : execProcD nch len s = .next t) :
    t.seq.busy = false ∧ t.rs = s.rs := by
  rcases execProcD_cases nch len s with ⟨_, he⟩ | ⟨_, _, he⟩ | ⟨_, _, _, he⟩ | ⟨sel, _, _, _, ⟨u, hmain, he⟩ | ⟨_, he⟩⟩ <;>
    obtain rfl := Host.Outcome.next.inj (he.symm.trans ht)
  · exact ⟨rfl, rfl⟩
  · exact ⟨rfl, rfl⟩
  · exact ⟨rfl, rfl⟩
  · obtain ⟨m, ds, _, _, rfl⟩ := mainPass_latched hmain
    simpa using hidle
  · simp

theorem stepClosed_revPhaseInv : StepClosed RevPhaseInv where
  idle _ h := h.idle
  queue _ _ h := h.congr h.idle rfl
  fault _ _ h := h.congr rfl rfl
  access s t h ht := by
    obtain ⟨_, _, _, _, _, hrs, _, _, _, _, hseq, _⟩ := ht.keeps h.idle
    exact h.congr (hseq ▸ h.idle) hrs
  reset s := (revPhaseInv_afterReset s.draws).congr rfl rfl
  cfgD _ _ _ _ h ht := h.congr (execCfgD_keeps_rs h.idle ht).1 (execCfgD_keeps_rs h.idle ht).2
  cfgR _ _ _ _ h ht := h.execCfgR ht
  procD _ _ _ _ h _ ht := h.congr (execProcD_keeps_rs h.idle ht).1 (execProcD_keeps_rs h.idle ht).2
  procR _ _ _ _ h ht := h.execProcR ht

end Rev

/-! ### The ghost phase -/

section Ghost

variable {s t : State} {nch len : Nat}

/-- The invariant speaks of the sequencer, the engine, and whether a fault is recorded; a recorded fault empties it. -/
theorem GhostPhaseInv.congr (h : GhostPhaseInv s) (hseq : t.seq.busy = false) (htrap : t.trap = none → s.trap = none)
    (hds : t.ds = s.ds) : GhostPhaseInv t where
  idle := hseq
  phase ht := hds ▸ h.phase (htrap ht)
  rate ht hcfg := by
    rw [hds] at hcfg ⊢
    exact h.rate (htrap ht) hcfg

theorem GhostPhaseInv.of_fault (hseq : t.seq.busy = false) {c : Cause} (ht : t.trap = some c) : GhostPhaseInv t where
  idle := hseq
  phase hnone := by simp [ht] at hnone
  rate hnone := by simp [ht] at hnone

theorem ghostPhaseInv_raiseFault (c : Cause) (s : State) : GhostPhaseInv (raiseFault c s) := .of_fault rfl rfl

theorem ghostPhaseInv_afterReset (d : Nat) : GhostPhaseInv (State.afterReset d) where
  idle := rfl
  phase _ := (by decide : phaseOk 0 = true)
  rate _ h := nomatch h

theorem GhostPhaseInv.access (h : GhostPhaseInv s) (ht : HostAccess s t) : GhostPhaseInv t := by
  cases ht with
  | bad v => exact ghostPhaseInv_raiseFault _ _
  | read v => exact h.congr h.idle id rfl
  | register r v => exact h.congr h.idle id rfl
  | buffer a v _ _ => exact h.congr h.idle id rfl

theorem GhostPhaseInv.execCfgD (h : GhostPhaseInv s) (ht : execCfgD nch len s = .next t) : GhostPhaseInv t := by
  rcases execCfgD_cases nch len s with ⟨hok, he⟩ | ⟨_, he⟩ <;> obtain rfl := Host.Outcome.next.inj (he.symm.trans ht)
  · obtain ⟨_, _, hrate⟩ := configOk_bounds hok
    exact ⟨h.idle, fun _ => (by decide : phaseOk lit.zero = true), fun _ _ => hrate⟩
  · exact ghostPhaseInv_raiseFault _ _

/-- The step of a ghost block is R228's. -/
theorem deriveDist_ginc {p : SnapD} (hp : p.ghost = true) (len : Nat) (ds : DistState) (k : DistConsts) :
    (deriveDist p len ds k).ginc = fdiv (fmul (f32OfNat len) ghostRateHz) ds.fs := by
  simp [deriveDist, deriveGhostStep, hp]

theorem GhostPhaseInv.ghostPass (h : GhostPhaseInv s) (nch : Nat) (hlen : len < 2 ^ 16) (hcfg : s.ds.configured = true) :
    GhostPhaseInv (ghostPass nch len (startBlockD len s)) := by
  rcases ghostPass_cases nch len (startBlockD len s) with ⟨he, _⟩ | ⟨hg, m, ds, _, hds, he⟩ <;> rw [he]
  · exact h.congr h.idle id rfl
  · refine ⟨h.idle, fun hnone => ?_, fun hnone hcfg' => ?_⟩
    · have hstep := ghostStep_nonneg hlen (h.rate hnone hcfg)
      rw [← deriveDist_ginc hg] at hstep
      exact phaseOk_ghostPhaseAfter (h.phase hnone) hstep
    · exact hds.fs ▸ h.rate hnone hcfg

theorem GhostPhaseInv.mainPass (h : GhostPhaseInv s) {sel : Instr} (ht : mainPass sel nch len s = some t) :
    GhostPhaseInv t := by
  obtain ⟨m, ds, _, hds, rfl⟩ := mainPass_latched ht
  exact ⟨h.idle, fun hnone => hds.gphase ▸ h.phase hnone, fun hnone hcfg => hds.fs ▸ h.rate hnone (hds.configured ▸ hcfg)⟩

theorem GhostPhaseInv.execProcD (h : GhostPhaseInv s) (hlen : len < 2 ^ 16) (ht : execProcD nch len s = .next t) :
    GhostPhaseInv t := by
  rcases execProcD_cases nch len s with ⟨_, he⟩ | ⟨_, _, he⟩ | ⟨_, _, _, he⟩ | ⟨sel, hcfg, _, _, ⟨u, hmain, he⟩ | ⟨_, he⟩⟩ <;>
    obtain rfl := Host.Outcome.next.inj (he.symm.trans ht)
  · exact ghostPhaseInv_raiseFault _ _
  · exact ghostPhaseInv_raiseFault _ _
  · exact ghostPhaseInv_raiseFault _ _
  · exact (h.ghostPass nch hlen hcfg).mainPass hmain
  · exact .of_fault (foldDiverge_busy _ _ _) (foldDiverge_trap _ _ _)

theorem GhostPhaseInv.execCfgR (h : GhostPhaseInv s) (ht : execCfgR nch len s = .next t) : GhostPhaseInv t := by
  rcases execCfgR_cases nch len s with ⟨_, he⟩ | ⟨_, he⟩ <;> obtain rfl := Host.Outcome.next.inj (he.symm.trans ht)
  · exact h.congr h.idle id rfl
  · exact ghostPhaseInv_raiseFault _ _

theorem GhostPhaseInv.execProcR (h : GhostPhaseInv s) (ht : execProcR nch len s = .next t) : GhostPhaseInv t := by
  rcases execProcR_cases nch len s with ⟨_, he⟩ | ⟨_, _, he⟩ | ⟨_, _, _, he⟩ | ⟨_, _, _, _, _, he⟩ |
      ⟨sel, d, _, _, _, _, he⟩ <;>
    obtain rfl := Host.Outcome.next.inj (he.symm.trans ht)
  · exact ghostPhaseInv_raiseFault _ _
  · exact ghostPhaseInv_raiseFault _ _
  · exact ghostPhaseInv_raiseFault _ _
  · exact ghostPhaseInv_raiseFault _ _
  · exact h.congr (by simpa using h.idle) (by simp) (by simp)

theorem stepClosed_ghostPhaseInv : StepClosed GhostPhaseInv where
  idle _ h := h.idle
  queue _ _ h := h.congr h.idle id rfl
  fault s c _ := ghostPhaseInv_raiseFault c s
  access _ _ h ht := h.access ht
  reset s := (ghostPhaseInv_afterReset s.draws).congr rfl id rfl
  cfgD _ _ _ _ h ht := h.execCfgD ht
  cfgR _ _ _ _ h ht := h.execCfgR ht
  procD _ _ _ _ h hlen ht := h.execProcD hlen ht
  procR _ _ _ _ h ht := h.execProcR ht

end Ghost

/-- Settles O58: each operation that a step is made of keeps either phase in range. -/
theorem stepKeepsTheReverbPhase : Obligations.StepKeepsTheReverbPhase := by
  unfold Obligations.StepKeepsTheReverbPhase
  exact ⟨fun _ _ hs ht => stepClosed_revPhaseInv.step hs ht, fun _ _ hs ht => stepClosed_ghostPhaseInv.step hs ht⟩

/-- Settles O56. -/
theorem resetMeetsTheInvariants : Obligations.ResetMeetsTheInvariants := by
  unfold Obligations.ResetMeetsTheInvariants
  exact ⟨inv_afterReset 0, revPhaseInv_afterReset 0, ghostPhaseInv_afterReset 0⟩

end Sys2Proof.Machine
end

section
/-! PROOF. The address space of the bus (20_memory.md R60, R62, R66 to R68): which accesses reach nothing and what such an
access does, and which reach a word of `BUF_D` or `BUF_R`, which an idle block stores and delivers. -/

namespace Sys2Proof.Machine

open Sys2Proof.Config

/-! ### Accesses that reach nothing -/

/-- The register page decodes each register's own address, and no other address. -/
theorem regAt_eq_some_iff {a : Nat} {r : RegName} : regAt a = some r ↔ a = r.address.toNat := by
  constructor
  · intro h
    unfold regAt at h
    split at h <;> cases h <;> rfl
  · rintro rfl
    cases r <;> rfl

theorem address_mem_registerAddresses (r : RegName) : r.address ∈ registerAddresses := by cases r <;> decide

/-- 10_state.md R39: an address of the page is reserved exactly when the tables do not list it. -/
theorem regAt_eq_none_iff (addr : Word) : regAt addr.toNat = none ↔ addr ∉ registerAddresses := by
  rw [Option.eq_none_iff_forall_ne_some]
  constructor
  · intro hnone hmem
    obtain ⟨r, rfl⟩ := exists_of_mem_registerAddresses hmem
    exact hnone r (regAt_eq_some_iff.2 rfl)
  · intro hmem r hr
    have haddr : addr = r.address := BitVec.eq_of_toNat_eq (regAt_eq_some_iff.1 hr)
    exact hmem (haddr ▸ address_mem_registerAddresses r)

/-- R67, R68: the accesses that reach nothing. -/
theorem target_eq_none_iff (addr : Word) (size : Nat) :
    target addr size = none ↔
      size ≠ 4 ∨ addr.toNat % 4 ≠ 0 ∨ (addr.toNat < 0x100 ∧ addr ∉ registerAddresses) ∨
      (0x100 ≤ addr.toNat ∧ addr.toNat < 0x10000) ∨ 0x30000 ≤ addr.toNat := by
  unfold target
  simp only [bufDBase_eq, bufRBase_eq, bufBytes_eq]
  split_ifs with hbad hpage hbufD hbufR
  · exact iff_of_true rfl (by omega)
  · rw [Option.map_eq_none_iff, regAt_eq_none_iff]
    constructor
    · intro hreg
      exact .inr (.inr (.inl ⟨hpage, hreg⟩))
    · rintro (h | h | ⟨_, hreg⟩ | h | h)
      · omega
      · omega
      · exact hreg
      · omega
      · omega
  · exact iff_of_false nofun (by omega)
  · exact iff_of_false nofun (by omega)
  · exact iff_of_true rfl (by omega)

theorem busRead_bad {addr : Word} {size : Nat} (h : target addr size = none) (s : State) :
    busRead addr size s = raiseFault .badAccess { s with rdata := 0 } := by
  simp [busRead, h]

theorem busWrite_bad (run : Instr → State → Host.Outcome State Fault Refusal) {addr : Word} {size : Nat}
    (h : target addr size = none) (v : Word) (s : State) :
    busWrite run addr size v s = .next (raiseFault .badAccess s) := by
  simp [busWrite, h]

/-- Settles O11: an access without a target is the fault entry, after a read has delivered 0. -/
theorem badAccessesDoNothingElse : Obligations.BadAccessesDoNothingElse := by
  unfold Obligations.BadAccessesDoNothingElse
  intro s addr size
  refine ⟨target_eq_none_iff addr size, fun hbad rest => ⟨fun v hhost => ?write, fun hhost => ?read⟩⟩
  case write => exact (step_cons hhost).trans (busWrite_bad exec hbad v _)
  case read => exact (step_read hhost).trans (congrArg _ (busRead_bad hbad _))

/-! ### Accesses of a buffer word -/

/-- R60, R62: an access of a word of either buffer reaches that word. -/
theorem target_bufAddr {c : Channel} {n a : Nat} (hn : n < blkCap) (ha : a = bufDAddr c n ∨ a = bufRAddr c n) :
    target (BitVec.ofNat 32 a) 4 = some (.bufD a) ∨ target (BitVec.ofNat 32 a) 4 = some (.bufR a) := by
  have halign : a % 4 = 0 := by
    simp only [bufDAddr, bufRAddr, bufDBase_eq, bufRBase_eq] at ha
    omega
  have hwindow : 0x10000 ≤ a ∧ a < 0x20000 ∨ 0x20000 ≤ a ∧ a < 0x30000 := by
    have hD := bufDAddr_window (c := c) hn
    have hR := bufRAddr_window (c := c) hn
    omega
  have haddr : (BitVec.ofNat 32 a).toNat = a := by
    rw [BitVec.toNat_ofNat, Nat.mod_eq_of_lt (by omega)]
  unfold target
  simp only [haddr, bufDBase_eq, bufRBase_eq, bufBytes_eq]
  split_ifs with hbad hpage hbufD hbufR
  · omega
  · omega
  · exact .inl rfl
  · exact .inr rfl
  · omega

section Buffer

variable {s : State} {addr : Word} {size a : Nat} (hidle : s.seq.busy = false)
  (ht : target addr size = some (.bufD a) ∨ target addr size = some (.bufR a))

include hidle ht

theorem busWrite_buffer (run : Instr → State → Host.Outcome State Fault Refusal) (v : Word) :
    busWrite run addr size v s = .next { s with mem := setWord s.mem a v } := by
  rcases ht with ht | ht
  · simp [busWrite, ht, runsDist_of_idle hidle]
  · simp [busWrite, ht, runsRev_of_idle hidle]

theorem busRead_buffer : busRead addr size s = { s with rdata := memWord s.mem a } := by
  rcases ht with ht | ht
  · simp [busRead, ht, runsDist_of_idle hidle]
  · simp [busRead, ht, runsRev_of_idle hidle]

end Buffer

/-- Settles O12: an idle block stores the word at its address by one `setWord`, whose bytes are known. -/
theorem bufferWordsAreLittleEndian : Obligations.BufferWordsAreLittleEndian := by
  unfold Obligations.BufferWordsAreLittleEndian
  refine ⟨fun c n => ?_, fun c n hn a ha s v rest hidle hhost => ?_⟩
  · exact ⟨by rw [bufDAddr, bufDBase_eq, blkCap], by rw [bufRAddr, bufRBase_eq, blkCap]⟩
  · have ht := target_bufAddr hn ha
    have hidle' : { s with host := rest }.seq.busy = false := hidle
    have hstep : step s = .next { s with host := rest, mem := setWord s.mem a v } :=
      (step_cons hhost).trans (busWrite_buffer hidle' ht exec v)
    refine ⟨_, hstep, rfl, ?_, ?_, ?_, ?_, fun b hb => memByte_setWord_of_outside _ _ hb, ?_⟩
    · simp [memByte_setWord]
    · simp [memByte_setWord]
    · simp [memByte_setWord]
    · simp [memByte_setWord]
    · refine (busRead_buffer ?_ ht).trans ?_
      · exact hidle
      · rw [memWord_setWord_same]

end Sys2Proof.Machine
end

section
/-! PROOF. The fields of a command word as numbers (30_encoding.md R90), and the masks and shifts that read them (R91, R99). -/

namespace Sys2Proof.Machine

/-! ### The fields of a word (R90) -/

section Fields

variable (w : Word)

/-- The leading byte of a word, `OP`, `E` and `Z1` together (R101). -/
def leadField (w : Word) : Nat := w.toNat / 2 ^ 24

theorem leadField_lt : leadField w < 2 ^ 8 := by
  have := w.isLt
  unfold leadField
  omega

theorem opField_eq : opField w = w.toNat / 2 ^ 28 := by
  have := w.isLt
  rw [opField, BitVec.extractLsb'_toNat, Nat.shiftRight_eq_div_pow]
  omega

theorem engineField_eq : engineField w = decide (w.toNat / 2 ^ 27 % 2 = 1) := by
  rw [engineField, ← BitVec.testBit_toNat, Nat.testBit_eq_decide_div_mod_eq]

theorem z1Field_eq : z1Field w = w.toNat / 2 ^ 24 % 2 ^ 3 := by
  rw [z1Field, BitVec.extractLsb'_toNat, Nat.shiftRight_eq_div_pow]

theorem nchField_eq : nchField w = w.toNat / 2 ^ 20 % 2 ^ 4 := by
  rw [nchField, BitVec.extractLsb'_toNat, Nat.shiftRight_eq_div_pow]

theorem z2Field_eq : z2Field w = w.toNat / 2 ^ 16 % 2 ^ 4 := by
  rw [z2Field, BitVec.extractLsb'_toNat, Nat.shiftRight_eq_div_pow]

theorem lenField_eq : lenField w = w.toNat % 2 ^ 16 := by
  rw [lenField, BitVec.extractLsb'_toNat, Nat.shiftRight_zero]

theorem opField_eq_leadField : opField w = leadField w / 2 ^ 4 := by
  rw [opField_eq, leadField]
  omega

theorem engineField_eq_leadField : engineField w = decide (leadField w / 2 ^ 3 % 2 = 1) := by
  rw [engineField_eq, leadField, Nat.div_div_eq_div_mul]
  rfl

theorem z1Field_eq_leadField : z1Field w = leadField w % 2 ^ 3 := z1Field_eq w

theorem nchField_lt : nchField w < 16 := (w.extractLsb' 20 4).isLt

theorem z2Field_lt : z2Field w < 16 := (w.extractLsb' 16 4).isLt

theorem lenField_lt : lenField w < 65536 := (w.extractLsb' 0 16).isLt

/-- The leading byte and the three fields below it make up the word. -/
theorem toNat_eq_fields :
    w.toNat = leadField w * 2 ^ 24 + nchField w * 2 ^ 20 + z2Field w * 2 ^ 16 + lenField w := by
  rw [leadField, nchField_eq, z2Field_eq, lenField_eq]
  omega

theorem eq_zero_iff_fields :
    w = 0 ↔ leadField w = 0 ∧ nchField w = 0 ∧ z2Field w = 0 ∧ lenField w = 0 := by
  rw [← BitVec.toNat_inj, toNat_eq_fields w]
  change _ = 0 ↔ _
  omega

end Fields

/-! ### Masks over fields (R91, R99) -/

section Masks

variable (w : Word)

/-- Masking the `a` bits from bit `k` on. -/
theorem toNat_and_bits (k a : Nat) (h : k + a ≤ 32) :
    (w &&& BitVec.ofNat 32 ((2 ^ a - 1) * 2 ^ k)).toNat = w.toNat / 2 ^ k % 2 ^ a * 2 ^ k := by
  have hmask : (2 ^ a - 1) * 2 ^ k < 2 ^ 32 := by
    calc (2 ^ a - 1) * 2 ^ k < 2 ^ a * 2 ^ k :=
          Nat.mul_lt_mul_of_pos_right (Nat.sub_one_lt (by positivity)) (by positivity)
      _ = 2 ^ (k + a) := by rw [← pow_add, Nat.add_comm]
      _ ≤ 2 ^ 32 := Nat.pow_le_pow_right two_pos h
  rw [BitVec.toNat_and, BitVec.toNat_ofNat, Nat.mod_eq_of_lt hmask]
  refine Nat.eq_of_testBit_eq fun i => ?_
  rw [Nat.testBit_and, Nat.testBit_mul_two_pow, Nat.testBit_mul_two_pow, Nat.testBit_two_pow_sub_one, Nat.testBit_mod_two_pow,
    Nat.testBit_div_two_pow]
  by_cases hik : k ≤ i
  · rw [Nat.sub_add_cancel hik, decide_eq_true hik, Bool.true_and, Bool.true_and, Bool.and_comm]
  · simp [hik]

/-- Masks that share no bit take their parts of a word apart. -/
theorem and_or_eq_add {m n : Word} (h : m &&& n = 0#32) : w &&& (m ||| n) = (w &&& m) + (w &&& n) := by
  have hdisjoint : (w &&& m) &&& (w &&& n) = 0#32 := by
    calc (w &&& m) &&& (w &&& n) = w &&& (m &&& n) := by ac_nf
      _ = 0#32 := by rw [h, BitVec.and_zero]
  rw [BitVec.and_or_distrib_left, BitVec.add_eq_or_of_and_eq_zero _ _ hdisjoint]

/-- A mask over the low `a` bits of the leading byte and over `Z2`. -/
theorem toNat_and_lead_z2 {a : Nat} (ha : a ≤ 8) :
    (w &&& (BitVec.ofNat 32 ((2 ^ a - 1) * 2 ^ 24) ||| 0x000F0000#32)).toNat =
      leadField w % 2 ^ a * 2 ^ 24 + z2Field w * 2 ^ 16 := by
  have hdisjoint : BitVec.ofNat 32 ((2 ^ a - 1) * 2 ^ 24) &&& 0x000F0000#32 = 0#32 := by interval_cases a <;> rfl
  have hlead : leadField w % 2 ^ a < 2 ^ 8 := (Nat.mod_le _ _).trans_lt (leadField_lt w)
  have hz2 : (w &&& 0x000F0000#32).toNat = z2Field w * 2 ^ 16 := by
    rw [z2Field_eq]
    exact toNat_and_bits w 16 4 (by decide)
  have hz2lt := z2Field_lt w
  rw [and_or_eq_add w hdisjoint, BitVec.toNat_add, toNat_and_bits w 24 a (by omega), hz2, ← leadField]
  omega

/-- The mask of the four engine commands holds the leading byte and `Z2` (R91). -/
theorem toNat_and_commandMask : (w &&& 0xFF0F0000#32).toNat = leadField w * 2 ^ 24 + z2Field w * 2 ^ 16 := by
  have hlead : leadField w % 2 ^ 8 = leadField w := Nat.mod_eq_of_lt (leadField_lt w)
  have hmask := toNat_and_lead_z2 w (a := 8) (by decide)
  rwa [hlead] at hmask

/-- The reserved fields `Z1` and `Z2` are 0 exactly when no bit of their mask is set (R92). -/
theorem and_reservedMask_eq_zero_iff : w &&& 0x070F0000#32 = 0#32 ↔ z1Field w = 0 ∧ z2Field w = 0 := by
  have hmask : (w &&& 0x070F0000#32).toNat = z1Field w * 2 ^ 24 + z2Field w * 2 ^ 16 := by
    rw [z1Field_eq_leadField]
    exact toNat_and_lead_z2 w (a := 3) (by decide)
  rw [← BitVec.toNat_inj, hmask, BitVec.toNat_zero]
  omega

/-- `NCH` and `LEN` by shift and mask (R93). -/
theorem toNat_nch_shift : ((w >>> 20) &&& 0xF#32).toNat = nchField w := by
  rw [BitVec.toNat_and, BitVec.toNat_ushiftRight, Nat.shiftRight_eq_div_pow, nchField_eq]
  exact Nat.and_two_pow_sub_one_eq_mod _ 4

theorem toNat_len_mask : (w &&& 0xFFFF#32).toNat = lenField w := by
  rw [BitVec.toNat_and, lenField_eq]
  exact Nat.and_two_pow_sub_one_eq_mod _ 16

theorem toNat_op_shift : (w >>> 28).toNat = opField w := by
  rw [BitVec.toNat_ushiftRight, Nat.shiftRight_eq_div_pow, opField_eq]

theorem op_shift_eq_iff {k : Nat} (hk : k < 2 ^ 32) : w >>> 28 = BitVec.ofNat 32 k ↔ opField w = k := by
  rw [← BitVec.toNat_inj, toNat_op_shift, BitVec.toNat_ofNat, Nat.mod_eq_of_lt hk]

end Masks

end Sys2Proof.Machine
end

section
/-! PROOF. The decoders (30_encoding.md R91 to R93, R96, R97, R99, R103): which fields decode to which instruction, and that
the words of the encoder are exactly the ones with those fields. -/

namespace Sys2Proof.Machine

open Sys2Proof.Laws.WordLayout (lead fields)

/-! ### Commands -/

/-- A word is a command exactly when its leading byte and `Z2` are that command's and its operands are `NCH` and `LEN`
(R91, R92). -/
theorem decodeCmd_eq_ok_iff {w : Word} {i : Instr} (hi : i.format = .cmd) :
    decodeCmd w = .ok i ↔ leadField w = lead i ∧ z2Field w = 0 ∧ fields i = (nchField w, lenField w) := by
  constructor
  · intro h
    unfold decodeCmd at h
    simp only [opField_eq_leadField, engineField_eq_leadField, z1Field_eq_leadField, eq_zero_iff_fields,
      decide_eq_true_eq] at h
    have hlt := leadField_lt w
    split_ifs at h <;> obtain rfl := Except.ok.inj h <;>
      simp only [lead, fields, Prod.mk.injEq, and_true] <;> omega
  · rintro ⟨hlead, hz2, hfields⟩
    unfold decodeCmd
    simp only [opField_eq_leadField, engineField_eq_leadField, z1Field_eq_leadField, eq_zero_iff_fields, hlead, hz2]
    cases i with
    | nop | cfgD _ _ | cfgR _ _ | procD _ _ | procR _ _ =>
      obtain ⟨hnch, hlen⟩ := Prod.mk.inj hfields
      simp [lead, ← hnch, ← hlen]
    | _ => cases hi

theorem lead_lt (i : Instr) : lead i < 256 := by cases i <;> simp [lead]

/-- R101: the word of a command from its leading byte and its operands. -/
theorem encode_eq_cmdWord {i : Instr} (hi : i.format = .cmd) : encode i = cmdWord (lead i) (fields i).1 (fields i).2 := by
  cases i with
  | nop | cfgD _ _ | cfgR _ _ | procD _ _ | procR _ _ => rfl
  | _ => cases hi

theorem wellFormed_eq_fits {i : Instr} (hi : i.format = .cmd) :
    i.wellFormed = (fitsNch (fields i).1 && fitsLen (fields i).2) := by
  cases i with
  | nop | cfgD _ _ | cfgR _ _ | procD _ _ | procR _ _ => rfl
  | _ => cases hi

/-- A word encodes a command on the same condition on its fields. -/
theorem encode_eq_iff_fields {w : Word} {i : Instr} (hi : i.format = .cmd) :
    i.wellFormed = true ∧ encode i = w ↔ leadField w = lead i ∧ z2Field w = 0 ∧ fields i = (nchField w, lenField w) := by
  rw [wellFormed_eq_fits hi, encode_eq_cmdWord hi]
  constructor
  · rintro ⟨hfits, rfl⟩
    obtain ⟨hlead, hnch, hz2, hlen⟩ := Laws.WordLayout.cmdWord_layout (lead_lt i) hfits
    rw [leadField, z2Field_eq, nchField_eq, lenField_eq]
    exact ⟨hlead, hz2, Prod.ext hnch.symm hlen.symm⟩
  · rintro ⟨hlead, hz2, hfields⟩
    have hnch : fitsNch (nchField w) = true := decide_eq_true (nchField_lt w)
    have hlen : fitsLen (lenField w) = true := decide_eq_true (lenField_lt w)
    rw [hfields]
    refine ⟨by rw [hnch, hlen]; rfl, BitVec.eq_of_toNat_eq ?_⟩
    rw [Laws.WordLayout.cmdWord_toNat (lead_lt i) hnch hlen, toNat_eq_fields w, hlead, hz2]
    omega

/-! ### The decoder of each format is the inverse of the encoder on it -/

theorem decodeCmd_eq_ok_iff_encode {w : Word} {i : Instr} (hi : i.format = .cmd) :
    decodeCmd w = .ok i ↔ i.wellFormed = true ∧ encode i = w :=
  (decodeCmd_eq_ok_iff hi).trans (encode_eq_iff_fields hi).symm

theorem format_of_decodeCmd {w : Word} {i : Instr} (h : decodeCmd w = .ok i) : i.format = .cmd := by
  rcases decodeCmd_cases h with rfl | ⟨_, _, _, rfl | rfl | rfl | rfl⟩ <;> rfl

/-- A selector value names the row of its own format that it encodes (R96, R97). -/
theorem decode_selector_eq_ok_iff {f : Format} (hf : f ≠ .cmd) {w : Word} {i : Instr} :
    decode f w = .ok i ↔ i.format = f ∧ encode i = w := by
  constructor
  · intro h
    cases f with
    | cmd => exact absurd rfl hf
    | dtype | rtype =>
      simp only [decode, decodeDType, decodeRType] at h
      split at h <;> cases h <;> exact ⟨rfl, BitVec.eq_of_toNat_eq (Eq.symm ‹_›)⟩
  · rintro ⟨rfl, rfl⟩
    cases i with
    | nop | cfgD _ _ | cfgR _ _ | procD _ _ | procR _ _ => exact absurd rfl hf
    | _ => rfl

theorem format_of_decodeDType {w : Word} {i : Instr} (h : decodeDType w = .ok i) : i.format = .dtype :=
  ((decode_selector_eq_ok_iff (f := .dtype) nofun).1 h).1

theorem format_of_decodeRType {w : Word} {i : Instr} (h : decodeRType w = .ok i) : i.format = .rtype :=
  ((decode_selector_eq_ok_iff (f := .rtype) nofun).1 h).1

/-- A selector row has no operand that could be out of range. -/
theorem wellFormed_of_selector {i : Instr} (hi : i.format ≠ .cmd) : i.wellFormed = true := by
  cases i with
  | nop | cfgD _ _ | cfgR _ _ | procD _ _ | procR _ _ => exact absurd rfl hi
  | _ => rfl

/-- The words that a format's decoder accepts are the encodings of its well-formed instructions (R91, R92, R96, R97). -/
theorem decode_eq_ok_iff {f : Format} {w : Word} {i : Instr} :
    decode f w = .ok i ↔ i.format = f ∧ i.wellFormed = true ∧ encode i = w := by
  by_cases hf : f = .cmd
  · subst hf
    constructor
    · intro h
      have hi : i.format = .cmd := format_of_decodeCmd h
      exact ⟨hi, (decodeCmd_eq_ok_iff_encode hi).1 h⟩
    · rintro ⟨hi, h⟩
      exact (decodeCmd_eq_ok_iff_encode hi).2 h
  · refine (decode_selector_eq_ok_iff hf).trans (and_congr_right fun hi => ?_)
    exact (and_iff_right (wellFormed_of_selector (hi ▸ hf))).symm

/-! ### Bytes and table words (20_memory.md R66) -/

theorem wordOfBytes_byteOfWord (w : Word) :
    wordOfBytes (byteOfWord w 0) (byteOfWord w 1) (byteOfWord w 2) (byteOfWord w 3) = w := append_extractLsb_bytes w

/-- The four bytes of a word decode as the word does, and what follows is handed back. -/
theorem decodeBytes_byteOfWord (w : Word) (rest : List Byte) :
    decodeBytes (byteOfWord w 0 :: byteOfWord w 1 :: byteOfWord w 2 :: byteOfWord w 3 :: rest) =
      (decodeCmd w).map fun i => (i, rest) := by
  rw [decodeBytes, wordOfBytes_byteOfWord]
  cases decodeCmd w <;> rfl

theorem decodeTableWord_eq_some_iff {nbits w : Nat} {i : Instr} :
    decodeTableWord nbits w = some i ↔ decodeCmd (tableWord nbits w) = .ok i := by
  simp only [decodeTableWord, decodeBytes_byteOfWord]
  cases decodeCmd (tableWord nbits w) <;> simp [Except.map]

/-- Settles O1: the decoder of each format is the inverse of the encoder, and the bytes of a word make up the word. -/
theorem decodeEncodeRoundTrip : Obligations.DecodeEncodeRoundTrip := by
  unfold Obligations.DecodeEncodeRoundTrip
  intro i hwf
  refine ⟨decode_eq_ok_iff.2 ⟨rfl, hwf, rfl⟩, fun hi rest => ?_⟩
  have hcmd : decodeCmd (encode i) = .ok i := (decodeCmd_eq_ok_iff_encode hi).2 ⟨hwf, rfl⟩
  refine (decodeBytes_byteOfWord (encode i) rest).trans ?_
  rw [hcmd]
  rfl

/-- Settles O2. -/
theorem decodedWordsAreEncodings : Obligations.DecodedWordsAreEncodings := by
  unfold Obligations.DecodedWordsAreEncodings
  intro f w i h
  exact decode_eq_ok_iff.1 h

/-! ### Match and mask, and the reserved words (R91, R92, R99) -/

/-- A command is selected by its match under the mask of the engine commands, and its operands are the fields. -/
theorem decodeCmd_eq_ok_iff_match {w m : Word} {i : Instr} (hi : i.format = .cmd) (hm : m.toNat = lead i * 2 ^ 24) :
    decodeCmd w = .ok i ↔ w &&& 0xFF0F0000#32 = m ∧
      (fields i).1 = ((w >>> 20) &&& 0xF#32).toNat ∧ (fields i).2 = (w &&& 0xFFFF#32).toNat := by
  have hmatch : w &&& 0xFF0F0000#32 = m ↔ leadField w = lead i ∧ z2Field w = 0 := by
    rw [← BitVec.toNat_inj, toNat_and_commandMask, hm]
    have hz2lt := z2Field_lt w
    omega
  rw [decodeCmd_eq_ok_iff hi, hmatch, toNat_nch_shift, toNat_len_mask, and_assoc, Prod.ext_iff]

/-- Settles O3: the mask of the engine commands holds the leading byte and `Z2`; that of `NOP` holds the whole word. -/
theorem commandsSelectedByMatchAndMask : Obligations.CommandsSelectedByMatchAndMask := by
  unfold Obligations.CommandsSelectedByMatchAndMask
  intro w
  refine ⟨?nop, fun nch len => ⟨?cfgD, ?cfgR, ?procD, ?procR⟩⟩
  case nop =>
    have hmask : w &&& 0xFFFFFFFF#32 = w := BitVec.and_allOnes
    rw [decodeCmd_eq_ok_iff_encode rfl, hmask, eq_comm (a := w)]
    exact and_iff_right rfl
  case cfgD => exact decodeCmd_eq_ok_iff_match rfl (by simp only [lead]; decide)
  case cfgR => exact decodeCmd_eq_ok_iff_match rfl (by simp only [lead]; decide)
  case procD => exact decodeCmd_eq_ok_iff_match rfl (by simp only [lead]; decide)
  case procR => exact decodeCmd_eq_ok_iff_match rfl (by simp only [lead]; decide)

/-- The three rejecting branches of R92. -/
theorem decodeCmd_error_iff (w : Word) :
    (∃ e, decodeCmd w = .error e) ↔ (opField w = 0 ∧ w ≠ 0) ∨ 3 ≤ opField w ∨
      ((opField w = 1 ∨ opField w = 2) ∧ ¬ (z1Field w = 0 ∧ z2Field w = 0)) := by
  unfold decodeCmd
  split_ifs with hw hop0 hop3 hz hop1 he he
  · subst hw
    exact iff_of_false nofun (by decide)
  · exact iff_of_true ⟨_, rfl⟩ (.inl ⟨hop0, hw⟩)
  · exact iff_of_true ⟨_, rfl⟩ (.inr (.inl hop3))
  · exact iff_of_true ⟨_, rfl⟩ (by omega)
  all_goals exact iff_of_false nofun (by omega)

/-- R96, R97: a selector value of 5 or more names no row. -/
theorem decode_selector_error_iff {f : Format} (hf : f ≠ .cmd) (w : Word) :
    (∃ e, decode f w = .error e) ↔ 5 ≤ w.toNat := by
  cases f with
  | cmd => exact absurd rfl hf
  | dtype | rtype =>
    simp only [decode, decodeDType, decodeRType]
    split
    case h_6 =>
      simp only [imp_false] at *
      exact iff_of_true ⟨_, rfl⟩ (by omega)
    all_goals exact iff_of_false nofun (by omega)

/-- Settles O4: the rejecting branches of the decoders, their fields read by shift and mask. -/
theorem reservedWordsAreRejected : Obligations.ReservedWordsAreRejected := by
  unfold Obligations.ReservedWordsAreRejected
  intro w
  refine ⟨?_, decode_selector_error_iff (f := .dtype) nofun w, decode_selector_error_iff (f := .rtype) nofun w⟩
  rw [decodeCmd_error_iff, op_shift_eq_iff w (by decide), op_shift_eq_iff w (by decide), op_shift_eq_iff w (by decide),
    toNat_op_shift, ne_eq (w &&& _), and_reservedMask_eq_zero_iff]
  rfl

/-- Settles O5: the words are computed by the encoder and decode by the round trip. -/
theorem workedEncodings : Obligations.WorkedEncodings := by
  unfold Obligations.WorkedEncodings
  have hdecode (i : Instr) (hi : i.format = .cmd) (hwf : i.wellFormed = true) : decodeCmd (encode i) = .ok i :=
    (decodeCmd_eq_ok_iff_encode hi).2 ⟨hwf, rfl⟩
  exact ⟨rfl, rfl, rfl, rfl, rfl, rfl, hdecode (.cfgD 2 512) rfl rfl, hdecode (.procD 2 4) rfl rfl,
    hdecode (.cfgR 1 64) rfl rfl, hdecode (.procR 1 8) rfl rfl, hdecode (.procD 1 0) rfl rfl, hdecode .nop rfl rfl,
    rfl, rfl, rfl⟩

end Sys2Proof.Machine
end

section
/-! PROOF. A decoded instruction in the machine: the step runs the word written to `CMD` (30_encoding.md R90, R92), and a
block runs the row that its selector register names (R95 to R97). -/

namespace Sys2Proof.Machine

/-! ### The step -/

theorem issueCommand_decoded (run : Instr → State → Host.Outcome State Fault Refusal) {w : Word} {s : State} {i : Instr}
    (htrap : s.trap = none) (hidle : s.seq.busy = false) (hi : decodeCmd w = .ok i) : issueCommand run w s = run i s := by
  simp [issueCommand, htrap, hidle, hi]

theorem step_decoded {s : State} {w : Word} {rest : List HostAction} {i : Instr} (hhost : s.host = .write 0 4 w :: rest)
    (htrap : s.trap = none) (hidle : s.seq.busy = false) (hi : decodeCmd w = .ok i) :
    step s = exec i { s with host := rest } :=
  (step_command hhost).trans (issueCommand_decoded exec htrap hidle hi)

/-- Settles O6: a table word is the word of the write that `withFetchWord` places. -/
theorem stepRunsDecodedCommand : Obligations.StepRunsDecodedCommand := by
  unfold Obligations.StepRunsDecodedCommand
  refine ⟨fun s w rest i hhost htrap hidle hi => step_decoded hhost htrap hidle hi, fun s nbits w i htrap hidle hi => ?_⟩
  have hcmd : decodeCmd (tableWord nbits w) = .ok i := decodeTableWord_eq_some_iff.1 hi
  exact step_decoded (s := s.withFetchWord nbits w) (withCommand_host _ s) htrap hidle hcmd

/-! ### The selector rows -/

/-- R120: a transfer row rewrites the sample in flight by its function, or diverges where the function does. -/
theorem exec_transferRow {sel : Instr} (hsel : sel.format = .dtype) (s : State) :
    (∃ y, ws sel s.x = some y ∧ exec sel s = .next { s with x := y }) ∨
    (ws sel s.x = none ∧ exec sel s = .next (foldDiverge s.ds.nch s.ds.maxblk s)) := by
  cases sel with
  | wsFold => exact execWsFold_cases s
  | wsSoft | wsHard | wsTube | wsSine => exact .inl ⟨_, rfl, rfl⟩
  | _ => cases hsel

/-- R234: a mapper row writes its table entry into the parameters, from the snapshot. -/
theorem exec_mapperRow {sel : Instr} (hsel : sel.format = .rtype) (s : State) :
    exec sel s = .next { s with rk := { s.rk with ra := mapInto sel s.pr.size s.pr.damping s.rk.ra } } := by
  cases sel with
  | mapRoom | mapHall | mapPlate | mapSpring | mapShimmer => rfl
  | _ => cases hsel

/-- The parameters of a `PROC.R` that records no fault are the mapper row of its selector, then R235. -/
theorem execProcR_ra {nch n : Nat} {s t : State} {sel : Instr} (h : execProcR nch n s = .next t) (ht : t.trap = none)
    (hsel : decodeRType s.regs.rType = .ok sel) : t.rk.ra = reverbParamsOf sel (snapshotR s.regs) s.rk.ra := by
  rcases execProcR_cases nch n s with ⟨_, he⟩ | ⟨_, _, he⟩ | ⟨_, _, _, he⟩ | ⟨_, _, _, _, _, he⟩ |
      ⟨sel', d, _, _, hsel', _, he⟩ <;>
    obtain rfl := Host.Outcome.next.inj (he.symm.trans h)
  · cases ht
  · cases ht
  · cases ht
  · cases ht
  · obtain rfl := Except.ok.inj (hsel'.symm.trans hsel)
    rw [reverbPasses_rk]
    rfl

/-- Settles O37: the row's own effect is the one the block's transfer function or mapper call has; R235 keeps the mapper's
three words. -/
theorem selectorsRunInsideProcessing : Obligations.SelectorsRunInsideProcessing := by
  unfold Obligations.SelectorsRunInsideProcessing
  refine ⟨fun w sel hsel s => ?transfer, fun nch n s t u sel _ hproc ht hsel hrow => ?mapper⟩
  case transfer =>
    rcases exec_transferRow (format_of_decodeDType hsel) s with ⟨y, hws, he⟩ | ⟨hws, he⟩
    · refine ⟨fun z hz => ?_, fun hnone => ?_⟩
      · obtain rfl := Option.some.inj (hws.symm.trans hz)
        exact he
      · cases hws.symm.trans hnone
    · refine ⟨fun z hz => ?_, fun _ => ⟨_, he, foldDiverge_trap _ _ s⟩⟩
      cases hws.symm.trans hz
  case mapper =>
    have hu := Host.Outcome.next.inj ((exec_mapperRow (format_of_decodeRType hsel) _).symm.trans hrow)
    subst hu
    rw [execProcR_ra hproc ht hsel]
    exact ⟨rfl, rfl, rfl⟩

end Sys2Proof.Machine
end

section
/-! PROOF. Words by their value: comparisons and negation as those of the numbers (00_scope.md R10, R11), what flushing does to
a value, and when a sum or a rounding stays exact or inside a bound. -/

namespace Sys2Proof.Machine

open Sys2Proof.Config

/-! ### A word by its sign and its magnitude bits -/

theorem eq_of_signBit_of_mod {v w : F32} (hs : signBit v = signBit w) (hm : v.toNat % 2 ^ 31 = w.toNat % 2 ^ 31) :
    v = w := by
  have hmsb (u : F32) : signBit u = decide (2 ^ 31 ≤ u.toNat) := by
    rw [show signBit u = u.msb from (BitVec.msb_eq_getLsbD_last u).symm, BitVec.msb_eq_decide]
  rw [hmsb, hmsb, decide_eq_decide] at hs
  exact BitVec.eq_of_toNat_eq (by omega)

/-! ### The value of a flushed word -/

section FlushValue

variable {w : F32}

theorem abs_val (w : F32) : |val w| = magUnits w / 2 ^ 149 := by
  rw [val_eq_signOf, abs_div, abs_mul, abs_signOf, one_mul, Nat.abs_cast, abs_of_pos (by positivity : (0 : ℝ) < 2 ^ 149)]

theorem val_of_isZero (h : isZero w = true) : val w = 0 := (val_eq_zero_iff w).mpr h

theorem abs_val_lt_of_isSubnormal (h : isSubnormal w = true) : |val w| < 1 / 2 ^ 126 := by
  simp only [isSubnormal, Bool.and_eq_true, beq_iff_eq] at h
  have hmag : magUnits w < 2 ^ 23 := by
    rw [magUnits, if_pos h.1]
    exact Nat.mod_lt _ (by decide)
  have hmag : (magUnits w : ℝ) < 2 ^ 23 := by exact_mod_cast hmag
  rw [abs_val, div_lt_iff₀ (by positivity)]
  exact hmag.trans_eq (by norm_num)

/-- From the smallest normal magnitude on flushing keeps the word. -/
theorem flush_of_le_abs_val (h : 1 / 2 ^ 126 ≤ |val w|) : flush w = w := by
  rcases flush_cases w with ⟨hs, _⟩ | ⟨_, he⟩
  · exact absurd (abs_val_lt_of_isSubnormal hs) h.not_gt
  · exact he

theorem abs_val_flush_le (w : F32) : |val (flush w)| ≤ |val w| := by
  rcases flush_cases w with ⟨_, he⟩ | ⟨_, he⟩
  · rw [he, val_of_isZero (isZero_signedZero _), abs_zero]
    exact abs_nonneg _
  · rw [he]

/-- A word whose value survives flushing above the smallest normal magnitude was not flushed. -/
theorem flush_of_le_abs_val_flush (h : 1 / 2 ^ 126 ≤ |val (flush w)|) : flush w = w :=
  flush_of_le_abs_val (h.trans (abs_val_flush_le w))

theorem abs_val_of_isInf (h : isInf w = true) : |val w| = 2 ^ 128 := by
  simp only [isInf, Bool.and_eq_true, beq_iff_eq] at h
  rw [abs_val, magUnits, if_neg (by omega), h.1, h.2]
  norm_num

theorem abs_val_lt_of_isFinite (h : isFinite w = true) : |val w| < 2 ^ 128 := by
  have hmag : (magUnits w : ℝ) ≤ ((2 ^ 24 - 1) * 2 ^ 253 : ℕ) := by exact_mod_cast magUnits_lt_of_isFinite h
  rw [abs_val, div_lt_iff₀ (by positivity)]
  exact hmag.trans_lt (by norm_num)

theorem isFinite_of_abs_val_lt (hn : isNaN w = false) (h : |val w| < 2 ^ 107) : isFinite w = true := by
  refine isFinite_of_magUnits_lt hn ?_
  rw [abs_val, div_lt_iff₀ (by positivity), ← pow_add] at h
  exact_mod_cast h

theorem flush_flipSign (w : F32) : flush (flipSign w) = flipSign (flush w) := by
  have hz : ∀ b, signedZero (!b) = flipSign (signedZero b) := by decide
  simp only [flush, isSubnormal_flipSign, signBit_flipSign, hz]
  split <;> rfl

@[simp] theorem flush_fneg (w : F32) : flush (fneg w) = fneg w := by rw [fneg, flush_flipSign, flush_flush]

@[simp] theorem val_fneg (w : F32) : val (fneg w) = -val (flush w) := by rw [fneg, val_flipSign]

@[simp] theorem isNaN_fneg (w : F32) : isNaN (fneg w) = isNaN w := by rw [fneg, isNaN_flipSign, isNaN_flush]

theorem fabs_cases (w : F32) : fabs w = flush w ∨ fabs w = flipSign (flush w) := by
  have hmod : (fabs w).toNat % 2 ^ 31 = (flush w).toNat % 2 ^ 31 := by
    rw [fabs, BitVec.toNat_and, show (0x7FFFFFFF#32 : F32).toNat = 2 ^ 31 - 1 by decide, Nat.and_two_pow_sub_one_eq_mod,
      Nat.mod_mod]
  have hsign : signBit (fabs w) = false := by simp [signBit, fabs]
  cases hs : signBit (flush w)
  · exact .inl (eq_of_signBit_of_mod (hsign.trans hs.symm) hmod)
  · exact .inr (eq_of_signBit_of_mod (by rw [hsign, signBit_flipSign, hs]; rfl) (hmod.trans (flipSign_toNat _).symm))

@[simp] theorem isNaN_fabs (w : F32) : isNaN (fabs w) = isNaN w := by
  rcases fabs_cases w with h | h <;> simp [h]

/-- `fabs` gives the magnitude of the flushed value. -/
@[simp] theorem val_flush_fabs (w : F32) : val (flush (fabs w)) = |val (flush w)| := by
  have hsign : signBit (fabs w) = false := by simp [signBit, fabs]
  have hpos : 0 ≤ val (flush (fabs w)) := by
    rw [val_eq_signOf, signBit_flush, hsign, signOf_false]
    positivity
  rw [← abs_of_nonneg hpos]
  rcases fabs_cases w with h | h
  · rw [h, flush_flush]
  · rw [h, flush_flipSign, flush_flush, val_flipSign, abs_neg]

end FlushValue

/-! ### Comparisons -/

section Compare

variable {a b w : F32}

theorem val_lt_val_iff : val a < val b ↔ units a < units b := by
  rw [val, val, div_lt_div_iff_of_pos_right (by positivity), Int.cast_lt]

theorem val_le_val_iff : val a ≤ val b ↔ units a ≤ units b := by
  rw [← not_lt, val_lt_val_iff, not_lt]

theorem val_eq_val_iff : val a = val b ↔ units a = units b := by
  rw [le_antisymm_iff, val_le_val_iff, val_le_val_iff, le_antisymm_iff]

theorem flt_iff : flt a b = true ↔ isNaN a = false ∧ isNaN b = false ∧ val (flush a) < val (flush b) := by
  simp [flt, val_lt_val_iff, and_assoc]

theorem fle_iff : fle a b = true ↔ isNaN a = false ∧ isNaN b = false ∧ val (flush a) ≤ val (flush b) := by
  simp [fle, val_le_val_iff, and_assoc]

theorem feq_iff : feq a b = true ↔ isNaN a = false ∧ isNaN b = false ∧ val (flush a) = val (flush b) := by
  simp [feq, val_eq_val_iff, and_assoc]

theorem val_zero : val lit.zero = 0 := val_of_isZero (by decide)

theorem val_one : val lit.one = 1 := by
  rw [val, show units lit.one = 2 ^ 149 by decide +kernel]
  norm_num

theorem val_negOne : val lit.negOne = -1 := by
  rw [show lit.negOne = flipSign lit.one by decide, val_flipSign, val_one]

theorem flush_one : flush lit.one = lit.one := by decide
theorem flush_negOne : flush lit.negOne = lit.negOne := by decide
theorem flush_zero : flush lit.zero = lit.zero := by decide

theorem zero_lt_iff : flt lit.zero w = true ↔ isNaN w = false ∧ 0 < val (flush w) := by
  have hz : isNaN lit.zero = false := by decide
  rw [flt_iff, flush_zero, val_zero]
  tauto

theorem lt_zero_iff : flt w lit.zero = true ↔ isNaN w = false ∧ val (flush w) < 0 := by
  have hz : isNaN lit.zero = false := by decide
  rw [flt_iff, flush_zero, val_zero]
  tauto

theorem zero_le_iff : fle lit.zero w = true ↔ isNaN w = false ∧ 0 ≤ val (flush w) := by
  have hz : isNaN lit.zero = false := by decide
  rw [fle_iff, flush_zero, val_zero]
  tauto

theorem le_zero_iff : fle w lit.zero = true ↔ isNaN w = false ∧ val (flush w) ≤ 0 := by
  have hz : isNaN lit.zero = false := by decide
  rw [fle_iff, flush_zero, val_zero]
  tauto

/-- Two words are negatives of each other as numbers. -/
theorem feq_fneg_iff : feq a (fneg b) = true ↔ isNaN a = false ∧ isNaN b = false ∧ val (flush a) = -val (flush b) := by
  rw [feq_iff, isNaN_fneg, flush_fneg, val_fneg]

theorem inSym_iff : inSym w = true ↔ isNaN w = false ∧ |val (flush w)| ≤ 1 := by
  have hone : isNaN lit.one = false ∧ isNaN lit.negOne = false := by decide
  rw [inSym, Bool.and_eq_true, fle_iff, fle_iff, flush_one, flush_negOne, val_one, val_negOne, abs_le]
  tauto

theorem inUnit_iff : inUnit w = true ↔ isNaN w = false ∧ 0 ≤ val (flush w) ∧ val (flush w) ≤ 1 := by
  have hone : isNaN lit.one = false := by decide
  rw [inUnit, Bool.and_eq_true, zero_le_iff, fle_iff, flush_one, val_one]
  tauto

theorem inSym_of_inUnit (h : inUnit w = true) : inSym w = true := by
  obtain ⟨hn, hlo, hhi⟩ := inUnit_iff.mp h
  exact inSym_iff.mpr ⟨hn, abs_le.mpr ⟨by linarith, hhi⟩⟩

theorem inSym_flipSign (h : inSym w = true) : inSym (flipSign w) = true := by
  obtain ⟨hn, hv⟩ := inSym_iff.mp h
  exact inSym_iff.mpr ⟨by rwa [isNaN_flipSign], by rwa [flush_flipSign, val_flipSign, abs_neg]⟩

end Compare

/-! ### Sums -/

section Sums

variable {a b : F32}

theorem flush_of_isNaN {w : F32} (h : isNaN w = true) : flush w = w := by
  rcases flush_cases w with ⟨hs, _⟩ | ⟨_, he⟩
  · simp [isNaN_of_isSubnormal hs] at h
  · exact he

theorem flush_signedZero (neg : Bool) : flush (signedZero neg) = signedZero neg := by cases neg <;> decide

/-- The sum of flushed words is flushed. -/
theorem flush_sumFlushed (src : NanSource) (ha : flush a = a) (hb : flush b = b) :
    flush (sumFlushed src a b) = sumFlushed src a b := by
  unfold sumFlushed
  simp only
  split_ifs
  · exact flush_of_isNaN (isNaN_someNaN _ _ _)
  · exact flush_of_isNaN (isNaN_someNaN _ _ _)
  · exact ha
  · exact hb
  · exact flush_signedZero _
  · exact flush_roundTo _ _ _

@[simp] theorem flush_fadd (a b : F32) : flush (fadd a b) = fadd a b :=
  flush_sumFlushed _ (flush_flush a) (flush_flush b)

@[simp] theorem flush_fsub (a b : F32) : flush (fsub a b) = fsub a b :=
  flush_sumFlushed _ (flush_flush a) (by rw [flush_flipSign, flush_flush])

/-- The rounding of the other sign. -/
theorem roundTo_not (neg : Bool) (num den : Nat) : roundTo (!neg) num den = flipSign (roundTo neg num den) := by
  have hpack : packBits (!neg) (roundUnits num den) = flipSign (packBits neg (roundUnits num den)) := by
    have hlt := roundUnits_lt num den
    refine eq_of_signBit_of_mod ?_ ?_
    · rw [signBit_flipSign, signBit_packBits hlt, signBit_packBits hlt]
    · rw [flipSign_toNat, toNat_packBits hlt, toNat_packBits hlt]
      cases neg <;> simp
  rw [roundTo, roundTo, hpack, flush_flipSign]

theorem isNaN_sumFlushed_of_isFinite (src : NanSource) (ha : isFinite a = true) (hb : isFinite b = true) :
    isNaN (sumFlushed src a b) = false := by
  rw [sumFlushed_of_finite _ ha hb]
  split_ifs
  · exact isNaN_signedZero _
  · exact isNaN_roundTo _ _ _

theorem isNaN_fadd_of_isFinite (ha : isFinite a = true) (hb : isFinite b = true) : isNaN (fadd a b) = false :=
  isNaN_sumFlushed_of_isFinite _ (isFinite_flush ha) (isFinite_flush hb)

theorem isNaN_fsub_of_isFinite (ha : isFinite a = true) (hb : isFinite b = true) : isNaN (fsub a b) = false :=
  isNaN_sumFlushed_of_isFinite _ (isFinite_flush ha) (by rw [isFinite_flipSign]; exact isFinite_flush hb)

theorem roundsTo_fsub (ha : isFinite a = true) (hb : isFinite b = true) :
    RoundsTo (val (flush a) - val (flush b)) (fsub a b) :=
  (arithmetic_of_finite ha hb).2.1

/-- An infinity subtracted from a finite word is that infinity with the other sign. -/
theorem isInf_fsub (ha : isFinite a = true) (hb : isInf b = true) : isInf (fsub a b) = true := by
  obtain ⟨_, _, _, hsub, _⟩ := arithmetic_of_isInf_of_finite hb ha
  rw [hsub, fneg, flush_of_isInf hb, isInf_flipSign, hb]

/-- The negative of a difference, as a sum of the negatives (the two can differ in the sign of a zero). -/
theorem val_fadd_flipSign (ha : isFinite a = true) (hb : isFinite b = true) :
    val (fadd (flipSign a) b) = -val (fsub a b) := by
  have hna : isFinite (flipSign (flush a)) = true := by rw [isFinite_flipSign]; exact isFinite_flush ha
  have hnb : isFinite (flipSign (flush b)) = true := by rw [isFinite_flipSign]; exact isFinite_flush hb
  rw [fadd, fsub, flush_flipSign, sumFlushed_of_finite _ hna (isFinite_flush hb),
    sumFlushed_of_finite _ (isFinite_flush ha) hnb, units_flipSign, units_flipSign]
  rcases eq_or_ne (units (flush a)) (units (flush b)) with he | hne
  · rw [if_pos (by omega), if_pos (by omega), val_of_isZero (isZero_signedZero _), val_of_isZero (isZero_signedZero _),
      neg_zero]
  · have hneg : decide (-units (flush a) + units (flush b) < 0) = !decide (units (flush a) + -units (flush b) < 0) := by
      rw [← decide_not, decide_eq_decide]
      omega
    rw [if_neg (by omega), if_neg (by omega), hneg, roundTo_not, val_flipSign,
      show (-units (flush a) + units (flush b)).natAbs = (units (flush a) + -units (flush b)).natAbs by omega]

section Rounding

variable {r : ℝ} {y w : F32}

/-- Rounding does not lead over a word. -/
theorem RoundsTo.val_le (h : RoundsTo r y) (hlo : 1 / 2 ^ 126 ≤ |r|) (hhi : |r| < 2 ^ 128 - 2 ^ 103)
    (hw : isFinite w = true) (hr : r ≤ val w) : val y ≤ val w := by
  have hnear := h.nearest hlo hhi w hw
  rw [abs_of_nonneg (by linarith : 0 ≤ val w - r)] at hnear
  linarith [le_abs_self (val y - r)]

theorem RoundsTo.le_val (h : RoundsTo r y) (hlo : 1 / 2 ^ 126 ≤ |r|) (hhi : |r| < 2 ^ 128 - 2 ^ 103)
    (hw : isFinite w = true) (hr : val w ≤ r) : val w ≤ val y := by
  have hnear := h.nearest hlo hhi w hw
  rw [abs_of_nonpos (by linarith : val w - r ≤ 0)] at hnear
  linarith [neg_abs_le (val y - r)]

/-- A word of normal magnitude bounds the rounding of everything beyond it from below. -/
theorem RoundsTo.le_abs_val (h : RoundsTo r y) (hw : isFinite w = true) (hw0 : 1 / 2 ^ 126 ≤ val w) (hr : val w ≤ |r|) :
    val w ≤ |val y| := by
  rcases le_or_gt (2 ^ 128 - 2 ^ 103) |r| with hhuge | hhi
  · rw [abs_val_of_isInf (h.huge hhuge)]
    exact (le_abs_self _).trans (abs_val_lt_of_isFinite hw).le
  rcases le_abs.mp hr with hpos | hneg
  · exact (h.le_val (hw0.trans hr) hhi hw hpos).trans (le_abs_self _)
  · have hle := h.val_le (hw0.trans hr) hhi (w := flipSign w) (by rwa [isFinite_flipSign]) (by rw [val_flipSign]; linarith)
    rw [val_flipSign] at hle
    exact (le_neg.mp hle).trans (neg_le_abs _)

/-- Rounding does not lead out of [-1, 1], whose ends are words. -/
theorem RoundsTo.abs_val_le_one (h : RoundsTo r y) (hr : |r| ≤ 1) : |val y| ≤ 1 := by
  rcases lt_or_ge |r| (1 / 2 ^ 126) with hlt | hge
  · rcases lt_or_ge |r| (1 / 2 ^ 126 - 1 / 2 ^ 150) with htiny | hsmall
    · simp [val_of_isZero (h.tiny htiny)]
    · rw [h.smallest hsmall hlt]
      norm_num
  · have hhi : |r| < 2 ^ 128 - 2 ^ 103 := hr.trans_lt (by norm_num)
    have hle := h.val_le hge hhi (w := lit.one) (by decide) (by rw [val_one]; exact (abs_le.mp hr).2)
    have hge := h.le_val hge hhi (w := lit.negOne) (by decide) (by rw [val_negOne]; exact (abs_le.mp hr).1)
    rw [val_one] at hle
    rw [val_negOne] at hge
    exact abs_le.mpr ⟨hge, hle⟩

end Rounding

theorem val_roundTo_of_dvd (neg : Bool) {num : Nat} (hlo : 2 ^ 23 ≤ num) (hhi : num < (2 ^ 25 - 1) * 2 ^ 252)
    (h : 2 ^ gridExp num 1 ∣ num) : val (roundTo neg num 1) = signOf neg * num / 2 ^ 149 := by
  have hpos : val (roundTo false num 1) = num / 2 ^ 149 := by
    rw [val, units_roundTo_of_dvd hlo hhi h, Int.cast_natCast]
  cases neg
  · rw [hpos, signOf_false, one_mul]
  · rw [show true = !false from rfl, roundTo_not, val_flipSign, hpos]
    simp [neg_div]

/-- A difference on a grid of step `2^e` units whose significand fits 24 bits is exact. -/
theorem fsub_exact {e : Nat} (ha : isFinite a = true) (hb : isFinite b = true) (he : 23 ≤ e)
    (hda : (2 ^ e : ℤ) ∣ units (flush a)) (hdb : (2 ^ e : ℤ) ∣ units (flush b))
    (hlt : (units (flush a) - units (flush b)).natAbs < 2 ^ (24 + e))
    (hmax : (units (flush a) - units (flush b)).natAbs < (2 ^ 25 - 1) * 2 ^ 252) :
    isFinite (fsub a b) = true ∧ val (fsub a b) = val (flush a) - val (flush b) := by
  have hnb : isFinite (flipSign (flush b)) = true := by rw [isFinite_flipSign]; exact isFinite_flush hb
  have hval : val (flush a) - val (flush b) = (units (flush a) - units (flush b) : ℤ) / 2 ^ 149 := by
    rw [val, val, Int.cast_sub, sub_div]
  rw [fsub, sumFlushed_of_finite _ (isFinite_flush ha) hnb, units_flipSign, ← sub_eq_add_neg, hval]
  have hdvd : 2 ^ e ∣ (units (flush a) - units (flush b)).natAbs :=
    Int.natCast_dvd.mp (by exact_mod_cast dvd_sub hda hdb)
  generalize units (flush a) - units (flush b) = z at *
  split_ifs with hz
  · rw [hz, val_of_isZero (isZero_signedZero _)]
    exact ⟨by cases signBit (flush a) && signBit (flipSign (flush b)) <;> decide, by simp⟩
  · have hlo : 2 ^ 23 ≤ z.natAbs :=
      (Nat.pow_le_pow_right (by decide) he).trans (Nat.le_of_dvd (by omega) hdvd)
    refine ⟨isFinite_roundTo _ one_pos (by omega), ?_⟩
    rw [val_roundTo_of_dvd _ hlo hmax ((pow_dvd_pow 2 (gridExp_le hlt)).trans hdvd), signOf_mul_natAbs]

end Sums

end Sys2Proof.Machine
end

section
/-! PROOF. The transfer functions Soft, Hard, Tube and Sine (40_waveshaper_lut.md R121 to R123, R126): their bounds (R129) and
their symmetry (R130), from the symmetry and bounds of the tables (00_scope.md R13). -/

namespace Sys2Proof.Machine

open Sys2Proof.Config

/-! ### The tables -/

section Tables

variable {x : F32}

theorem oddOf_flipSign (f : F32 → F32) (x : F32) : oddOf f (flipSign x) = flipSign (oddOf f x) := by
  unfold oddOf
  rw [signBit_flipSign, flipSign_flipSign]
  cases signBit x <;> simp

theorem inSym_oddOf {f : F32 → F32} (h : ∀ v, inSym (f v) = true) (x : F32) : inSym (oddOf f x) = true := by
  unfold oddOf
  split
  · exact inSym_flipSign (h _)
  · exact h _

theorem inSym_of_isZero {w : F32} (h : isZero w = true) : inSym w = true := by
  have hfin : isFinite w = true := by
    simp only [isZero, isFinite, Bool.and_eq_true, beq_iff_eq] at h ⊢
    simp [h.1]
  refine inSym_iff.mpr ⟨isNaN_of_isFinite hfin, (abs_val_flush_le w).trans ?_⟩
  simp [val_of_isZero h]

theorem tanh_inSym (h : isNaN x = false) : inSym (tanh x) = true := by
  unfold tanh
  simp only [isNaN_flush, h, Bool.false_eq_true, if_false]
  split_ifs with hz _ hs
  · exact inSym_of_isZero hz
  · decide +kernel
  · decide +kernel
  · exact inSym_oddOf (fun v => inSym_of_inUnit (tanhPos_inUnit v)) _

theorem tanh_fneg (h : isNaN x = false) : tanh (fneg x) = flipSign (tanh x) := by
  unfold tanh
  simp only [flush_fneg, isNaN_fneg, isNaN_flush, h, Bool.false_eq_true, if_false]
  simp only [fneg, isZero_flipSign, isInf_flipSign, signBit_flipSign, oddOf_flipSign]
  by_cases hz : isZero (flush x) = true
  · simp only [hz, if_true]
  by_cases hi : isInf (flush x) = true
  · simp only [hz, hi, Bool.false_eq_true, if_true, if_false]
    cases signBit (flush x) <;> decide
  · simp only [hz, hi, Bool.false_eq_true, if_false]

/-- `EXPN` where it is used, at 0 and below (R13). -/
theorem expn_inUnit (h : fle x lit.zero = true) : inUnit (expn x) = true := by
  obtain ⟨hn, hv⟩ := le_zero_iff.mp h
  unfold expn
  simp only [isNaN_flush, hn, Bool.false_eq_true, if_false]
  split_ifs with hz hs hi
  · decide +kernel
  · decide
  · exact held_ok (by decide) _
  · have hzero : val (flush x) = 0 := by
      refine le_antisymm hv ?_
      rw [val_eq_signOf, eq_false_of_ne_true hs, signOf_false]
      positivity
    exact absurd ((val_eq_zero_iff _).mp hzero) hz

theorem sinPos_inSym (x : F32) : inSym (sinPos x) = true := by
  cases hle : fle x lit.pi
  · have h := held_ok (ok := inSym) (dflt := lit.zero) (by decide) (flush (sinTable x))
    simpa [sinPos, hle] using h
  · exact inSym_of_inUnit (sinPos_inUnit hle)

theorem sin_of_isFinite (h : isFinite x = true) : sin x = if isZero (flush x) then flush x else oddOf sinPos (flush x) := by
  have hf := isFinite_flush h
  simp [sin, isNaN_of_isFinite hf, isInf_of_isFinite hf]

theorem isNaN_sin (h : isFinite x = false) : isNaN (sin x) = true := by
  rcases class_cases x with ⟨hn, _, _⟩ | ⟨_, hi, _⟩ | ⟨_, _, hf⟩
  · simp [sin, hn]
  · simp [sin, flush_of_isInf hi, hi]
  · simp [hf] at h

theorem sin_inSym (h : isFinite x = true) : inSym (sin x) = true := by
  rw [sin_of_isFinite h]
  split_ifs with hz
  · exact inSym_of_isZero hz
  · exact inSym_oddOf sinPos_inSym _

theorem sin_flipSign (h : isFinite x = true) : sin (flipSign x) = flipSign (sin x) := by
  rw [sin_of_isFinite h, sin_of_isFinite (by rwa [isFinite_flipSign]), flush_flipSign, isZero_flipSign, oddOf_flipSign]
  split_ifs <;> rfl

end Tables

/-! ### Soft, Tube, Sine -/

section Smooth

variable {x : F32}

theorem wsTube_of_nonneg (h : fle lit.zero x = true) : wsTube x = fsub lit.one (expn (fneg x)) := if_pos h

theorem wsTube_of_neg (h : flt x lit.zero = true) : wsTube x = fadd lit.negOne (expn x) := by
  have hge : fge x lit.zero = false := by
    refine eq_false_of_ne_true fun hge => ?_
    exact (lt_zero_iff.mp h).2.not_ge (zero_le_iff.mp hge).2
  simp [wsTube, hge, h]

theorem wsTube_of_isNaN (h : isNaN x = true) : wsTube x = x := by
  simp [wsTube, fge, fle_nan (.inr h), flt_nan (.inl h)]

/-- The operand of `EXPN` in `WS.TUBE` is 0 or below. -/
theorem fle_fneg_zero (h : fle lit.zero x = true) : fle (fneg x) lit.zero = true := by
  obtain ⟨hn, hv⟩ := zero_le_iff.mp h
  exact le_zero_iff.mpr ⟨by rwa [isNaN_fneg], by rw [flush_fneg, val_fneg]; linarith⟩

theorem fle_of_flt {a b : F32} (h : flt a b = true) : fle a b = true := by
  obtain ⟨ha, hb, hv⟩ := flt_iff.mp h
  exact fle_iff.mpr ⟨ha, hb, hv.le⟩

theorem isFinite_of_inSym {w : F32} (h : inSym w = true) : isFinite w = true := by
  obtain ⟨hn, hv⟩ := inSym_iff.mp h
  exact isFinite_of_flush (isFinite_of_abs_val_lt (by rwa [isNaN_flush]) (hv.trans_lt (by norm_num)))

/-- `1 - e` and `-1 + e` stay in [-1, 1] for `e` in [0, 1] (R129), and are negatives of each other (R130). -/
theorem one_sub_of_inUnit {e : F32} (h : inUnit e = true) :
    inSym (fsub lit.one e) = true ∧ inSym (fadd lit.negOne e) = true ∧
      val (fadd lit.negOne e) = -val (fsub lit.one e) := by
  have hfin := isFinite_of_inSym (inSym_of_inUnit h)
  have hone : isFinite lit.one = true := by decide
  have hnegOne : isFinite lit.negOne = true := by decide
  have hneg : val (fadd lit.negOne e) = -val (fsub lit.one e) := by
    rw [show lit.negOne = flipSign lit.one by decide]
    exact val_fadd_flipSign hone hfin
  obtain ⟨_, hlo, hhi⟩ := inUnit_iff.mp h
  have hround := roundsTo_fsub hone hfin
  rw [flush_one, val_one] at hround
  have hle := hround.abs_val_le_one (abs_le.mpr ⟨by linarith, by linarith⟩)
  exact ⟨inSym_iff.mpr ⟨isNaN_fsub_of_isFinite hone hfin, by rwa [flush_fsub]⟩,
    inSym_iff.mpr ⟨isNaN_fadd_of_isFinite hnegOne hfin, by rwa [flush_fadd, hneg, abs_neg]⟩, hneg⟩

theorem inSym_wsTube (h : isNaN x = false) : inSym (wsTube x) = true := by
  rcases fle_or_flt (a := lit.zero) (by decide) h with hge | hlt
  · rw [wsTube_of_nonneg hge]
    exact (one_sub_of_inUnit (expn_inUnit (fle_fneg_zero hge))).1
  · rw [wsTube_of_neg hlt]
    exact (one_sub_of_inUnit (expn_inUnit (fle_of_flt hlt))).2.1

end Smooth

/-- Settles O32: the formulas are the model's own, the bounds those of the tables and of `one_sub_of_inUnit`. -/
theorem smoothShapersAreBounded : Obligations.SmoothShapersAreBounded := by
  unfold Obligations.SmoothShapersAreBounded
  intro s
  exact ⟨⟨wsSoft s.x, rfl, rfl, tanh_nan, tanh_inSym⟩,
    ⟨wsTube s.x, rfl, wsTube_of_nonneg, wsTube_of_neg, wsTube_of_isNaN, inSym_wsTube⟩,
    ⟨wsSine s.x, rfl, rfl, isNaN_sin, sin_inSym⟩⟩

/-! ### Hard -/

section Hard

variable {x : F32}

theorem wsHard_of_isNaN (h : isNaN x = true) : wsHard x = x := by
  simp [wsHard, fgt, flt_nan (.inr h), flt_nan (.inl h)]

theorem wsHard_of_one_lt (hn : isNaN x = false) (h : 1 < val (flush x)) : wsHard x = lit.one :=
  if_pos (flt_iff.mpr ⟨by decide, hn, by rwa [flush_one, val_one]⟩)

theorem wsHard_of_lt_neg_one (hn : isNaN x = false) (h : val (flush x) < -1) : wsHard x = lit.negOne := by
  have hgt : ¬ fgt x lit.one = true := fun hgt => by
    have hv := (flt_iff.mp hgt).2.2
    rw [flush_one, val_one] at hv
    linarith
  rw [wsHard, if_neg hgt, if_pos (flt_iff.mpr ⟨hn, by decide, by rwa [flush_negOne, val_negOne]⟩)]

theorem wsHard_of_inSym (h : inSym x = true) : wsHard x = x := by
  obtain ⟨_, hv⟩ := inSym_iff.mp h
  rw [abs_le] at hv
  have hgt : ¬ fgt x lit.one = true := fun hgt => by
    have hv' := (flt_iff.mp hgt).2.2
    rw [flush_one, val_one] at hv'
    linarith
  have hlt : ¬ flt x lit.negOne = true := fun hlt => by
    have hv' := (flt_iff.mp hlt).2.2
    rw [flush_negOne, val_negOne] at hv'
    linarith
  rw [wsHard, if_neg hgt, if_neg hlt]

end Hard

/-- Settles O34: flushing keeps every word beyond 1 in magnitude and leads none beyond it. -/
theorem hardClipClamps : Obligations.HardClipClamps := by
  unfold Obligations.HardClipClamps
  intro s
  refine ⟨wsHard s.x, rfl, wsHard_of_isNaN, fun h => ?posInf, fun h => ?negInf, fun hfin => ⟨fun h => ?above, fun h => ?below,
    fun hlo hhi => ?within⟩⟩
  case posInf =>
    rw [h]
    decide +kernel
  case negInf =>
    rw [h]
    decide +kernel
  case above =>
    refine wsHard_of_one_lt (isNaN_of_isFinite hfin) ?_
    rwa [flush_of_le_abs_val (le_trans (by norm_num) (h.le.trans (le_abs_self _)))]
  case below =>
    refine wsHard_of_lt_neg_one (isNaN_of_isFinite hfin) ?_
    rwa [flush_of_le_abs_val (le_trans (by norm_num) ((le_neg.mpr h.le).trans (neg_le_abs _)))]
  case within =>
    exact wsHard_of_inSym (inSym_iff.mpr ⟨isNaN_of_isFinite hfin, (abs_val_flush_le _).trans (abs_le.mpr ⟨hlo, hhi⟩)⟩)

/-! ### Symmetry (R130) -/

/-- The results for `x` and `-x` are NaN together, and negatives of each other as numbers otherwise. -/
def OddAt (f : F32 → F32) (x : F32) : Prop :=
  isNaN (f (fneg x)) = isNaN (f x) ∧ (isNaN (f x) = false → feq (f (fneg x)) (fneg (f x)) = true)

section Odd

variable {f : F32 → F32} {x : F32}

theorem oddAt_of_isNaN (h : isNaN (f x) = true) (h' : isNaN (f (fneg x)) = true) : OddAt f x :=
  ⟨h'.trans h.symm, fun hn => by simp [h] at hn⟩

theorem oddAt_of_val (h : isNaN (f x) = false) (h' : isNaN (f (fneg x)) = false)
    (hv : val (flush (f (fneg x))) = -val (flush (f x))) : OddAt f x :=
  ⟨h'.trans h.symm, fun _ => feq_fneg_iff.mpr ⟨h', h, hv⟩⟩

theorem oddAt_of_flipSign (h : f (fneg x) = flipSign (f x)) : OddAt f x :=
  ⟨by rw [h, isNaN_flipSign], fun hn =>
    feq_fneg_iff.mpr ⟨by rwa [h, isNaN_flipSign], hn, by rw [h, flush_flipSign, val_flipSign]⟩⟩

theorem wsSoft_oddAt (h : isNaN x = false) : OddAt wsSoft x := oddAt_of_flipSign (tanh_fneg h)

theorem wsHard_oddAt (h : isNaN x = false) : OddAt wsHard x := by
  have hn : isNaN (fneg x) = false := by rwa [isNaN_fneg]
  have hv : val (flush (fneg x)) = -val (flush x) := by rw [flush_fneg, val_fneg]
  have hneg : lit.negOne = flipSign lit.one := by decide
  rcases lt_or_ge 1 (val (flush x)) with hgt | hle
  · refine oddAt_of_flipSign ?_
    rw [wsHard_of_one_lt h hgt, wsHard_of_lt_neg_one hn (by linarith), hneg]
  rcases lt_or_ge (val (flush x)) (-1) with hlt | hge
  · refine oddAt_of_flipSign ?_
    rw [wsHard_of_lt_neg_one h hlt, wsHard_of_one_lt hn (by linarith), hneg, flipSign_flipSign]
  · have hx := wsHard_of_inSym (inSym_iff.mpr ⟨h, abs_le.mpr ⟨hge, hle⟩⟩)
    have hx' := wsHard_of_inSym (inSym_iff.mpr ⟨hn, by rw [hv, abs_neg]; exact abs_le.mpr ⟨hge, hle⟩⟩)
    refine oddAt_of_val ?_ ?_ ?_
    · rwa [hx]
    · rwa [hx']
    · rw [hx, hx', hv]

theorem expn_fneg_fneg (x : F32) : expn (fneg (fneg x)) = expn x := by
  have h : flush (fneg (fneg x)) = flush x := by rw [flush_fneg, fneg, flush_fneg, fneg, flipSign_flipSign]
  simp only [expn, h]

/-- R130 for a positive operand: both branches of the shaper read the same `e = EXPN(-x)`. -/
theorem wsTube_fneg_of_pos (h : flt lit.zero x = true) :
    val (flush (wsTube (fneg x))) = -val (flush (wsTube x)) := by
  obtain ⟨hn, hv⟩ := zero_lt_iff.mp h
  have hneg : flt (fneg x) lit.zero = true :=
    lt_zero_iff.mpr ⟨by rwa [isNaN_fneg], by rw [flush_fneg, val_fneg]; linarith⟩
  have hunit := expn_inUnit (fle_fneg_zero (fle_of_flt h))
  rw [wsTube_of_nonneg (fle_of_flt h), wsTube_of_neg hneg, flush_fadd, flush_fsub, (one_sub_of_inUnit hunit).2.2]

theorem wsTube_of_val_zero (hn : isNaN x = false) (h : val (flush x) = 0) : wsTube x = lit.zero := by
  have hge : fle lit.zero x = true := zero_le_iff.mpr ⟨hn, h.ge⟩
  have hz : isZero (fneg x) = true := by rw [fneg, isZero_flipSign]; exact (val_eq_zero_iff _).mp h
  have hexpn : expn (fneg x) = lit.one := by simp [expn, hn, hz]
  rw [wsTube_of_nonneg hge, hexpn]
  decide +kernel

theorem wsTube_oddAt (h : isNaN x = false) : OddAt wsTube x := by
  have hn : isNaN (fneg x) = false := by rwa [isNaN_fneg]
  have hv : val (flush (fneg x)) = -val (flush x) := by rw [flush_fneg, val_fneg]
  refine oddAt_of_val (inSym_iff.mp (inSym_wsTube h)).1 (inSym_iff.mp (inSym_wsTube hn)).1 ?_
  rcases lt_trichotomy (val (flush x)) 0 with hlt | heq | hgt
  · have hpos : flt lit.zero (fneg x) = true := zero_lt_iff.mpr ⟨hn, by linarith⟩
    have hback : wsTube (fneg (fneg x)) = wsTube x := by
      have hneg : flt x lit.zero = true := lt_zero_iff.mpr ⟨h, hlt⟩
      have hneg' : flt (fneg (fneg x)) lit.zero = true := lt_zero_iff.mpr
        ⟨by rwa [isNaN_fneg], by rwa [flush_fneg, val_fneg, hv, neg_neg]⟩
      rw [wsTube_of_neg hneg, wsTube_of_neg hneg', expn_fneg_fneg]
    have := wsTube_fneg_of_pos hpos
    rw [hback] at this
    linarith
  · rw [wsTube_of_val_zero h heq, wsTube_of_val_zero hn (by rw [hv, heq, neg_zero]), flush_zero, val_zero, neg_zero]
  · exact wsTube_fneg_of_pos (zero_lt_iff.mpr ⟨h, hgt⟩)

theorem magUnits_flipSign (w : F32) : magUnits (flipSign w) = magUnits w := by
  rw [magUnits, magUnits, expField_flipSign, fracField_flipSign]

/-- A product changes its sign with its first operand; the second one is finite and no zero. -/
theorem fmul_fneg {b : F32} (h : isNaN x = false) (hb : isFinite b = true) (h0 : val (flush b) ≠ 0) :
    fmul (fneg x) b = flipSign (fmul x b) := by
  have hbne (p q : Bool) : ((!p) != q) = !(p != q) := by cases p <;> cases q <;> rfl
  rcases class_cases x with ⟨hn, _, _⟩ | ⟨_, hi, _⟩ | ⟨_, _, hf⟩
  · simp [h] at hn
  · have hi' : isInf (fneg x) = true := by rwa [fneg, flush_of_isInf hi, isInf_flipSign]
    obtain ⟨_, _, _, _, _, _, _, hmul⟩ := arithmetic_of_isInf_of_finite hi hb
    obtain ⟨_, _, _, _, _, _, _, hmul'⟩ := arithmetic_of_isInf_of_finite hi' hb
    rw [(hmul h0).1, (hmul' h0).1, fneg, signBit_flipSign, signBit_flush]
    cases signBit x <;> cases signBit b <;> decide
  · have hfx := isFinite_flush hf
    have hfb := isFinite_flush hb
    rw [fmul, fmul, flush_fneg, fneg, fmulFlushed_of_finite (by rwa [isFinite_flipSign]) hfb, fmulFlushed_of_finite hfx hfb,
      signBit_flipSign, magUnits_flipSign, hbne, roundTo_not]

theorem wsSine_oddAt (h : isNaN x = false) : OddAt wsSine x := by
  have hmul : fmul (fneg x) lit.pi2 = flipSign (fmul x lit.pi2) := by
    refine fmul_fneg h (by decide) fun h0 => ?_
    have hz := (val_eq_zero_iff _).mp h0
    revert hz
    decide
  cases hf : isFinite (fmul x lit.pi2)
  · refine oddAt_of_isNaN (isNaN_sin hf) (isNaN_sin ?_)
    rw [hmul, isFinite_flipSign, hf]
  · refine oddAt_of_flipSign ?_
    rw [wsSine, hmul, sin_flipSign hf, wsSine]

end Odd

end Sys2Proof.Machine
end

section
/-! PROOF. The foldback primitive (40_waveshaper_lut.md R124, R125): a reflection subtracts without rounding as long as the
sample lies below `2^24` in magnitude, so up to 64.5 the fold is the triangle wave of R124; beyond it, every reflection leaves
more than the reflections that are left can take. -/

namespace Sys2Proof.Machine

open Sys2Proof.Config

/-! ### An exact reflection -/

section Reflection

variable {c v : F32}

/-- `c - v` is exact when `c` lies on the grid of `v`, whose step is at most `2^g` units, and the difference is no larger
than `v`. -/
theorem fsub_exact_of_abs_le {g : Nat} (hc : isFinite c = true) (hv : isFinite v = true)
    (hg : (2 ^ g : ℤ) ∣ units (flush c)) (hlo : 1 / 2 ≤ |val (flush v)|) (hhi : |val (flush v)| < 2 ^ (24 + g) / 2 ^ 149)
    (hle : |val (flush c) - val (flush v)| ≤ |val (flush v)|) :
    isFinite (fsub c v) = true ∧ val (fsub c v) = val (flush c) - val (flush v) := by
  have hlo : 2 ^ 148 ≤ magUnits (flush v) := by
    rw [abs_val, le_div_iff₀ (by positivity)] at hlo
    exact_mod_cast (show (2 : ℝ) ^ 148 = 1 / 2 * 2 ^ 149 by norm_num).trans_le hlo
  have hhi : magUnits (flush v) < 2 ^ (24 + g) := by
    rw [abs_val, div_lt_div_iff_of_pos_right (by positivity)] at hhi
    exact_mod_cast hhi
  have hle : (units (flush c) - units (flush v)).natAbs ≤ magUnits (flush v) := by
    rw [abs_val, val, val, ← sub_div, abs_div, abs_of_pos (show (0 : ℝ) < 2 ^ 149 by positivity),
      div_le_div_iff_of_pos_right (by positivity)] at hle
    have : |units (flush c) - units (flush v)| ≤ magUnits (flush v) := by exact_mod_cast hle
    rw [Int.abs_eq_natAbs] at this
    exact_mod_cast this
  have hmax := magUnits_lt_of_isFinite (isFinite_flush hv)
  obtain ⟨m, e, hm, hm', hmag⟩ := exists_significand (w := v) (by omega)
  have hlt : magUnits (flush v) < 2 ^ (24 + e) := by
    rw [hmag, Nat.pow_add]
    exact Nat.mul_lt_mul_of_pos_right hm' (Nat.two_pow_pos e)
  have he : 23 ≤ e := by
    have := (Nat.pow_lt_pow_iff_right (by decide)).mp (hlo.trans_lt hlt)
    omega
  have heg : e ≤ g := by
    have hstep : 2 ^ (23 + e) ≤ magUnits (flush v) := by
      rw [hmag, Nat.pow_add]
      exact Nat.mul_le_mul_right _ hm
    have := (Nat.pow_lt_pow_iff_right (by decide)).mp (hstep.trans_lt hhi)
    omega
  have hdv : (2 ^ e : ℤ) ∣ units (flush v) := by
    have hdvd : 2 ^ e ∣ (units (flush v)).natAbs := by
      rw [show (units (flush v)).natAbs = magUnits (flush v) by unfold units; split_ifs <;> omega, hmag]
      exact Nat.dvd_mul_left _ _
    exact_mod_cast Int.natCast_dvd.mpr hdvd
  exact fsub_exact hc hv he ((pow_dvd_pow 2 heg).trans hg) hdv (hle.trans_lt hlt) (by omega)

end Reflection

/-! ### The loop -/

section Loop

variable {t tt v : F32}

theorem fgt_threshold (ht : isNaN t = false) (hf : flush t = t) :
    fgt v t = true ↔ isNaN v = false ∧ val t < val (flush v) := by
  rw [fgt, flt_iff, ht, hf]
  tauto

theorem flt_fneg_threshold (ht : isNaN t = false) (hf : flush t = t) :
    flt v (fneg t) = true ↔ isNaN v = false ∧ val (flush v) < -val t := by
  rw [flt_iff, isNaN_fneg, flush_fneg, val_fneg, ht, hf]
  tauto

theorem foldLoop_succ_of_fgt (h : fgt v t = true) (k : Nat) :
    foldLoop t tt (k + 1) v = foldLoop t tt k (fsub tt v) := by
  simp [foldLoop, h]

theorem foldLoop_succ_of_flt (h : ¬ fgt v t = true) (h' : flt v (fneg t) = true) (k : Nat) :
    foldLoop t tt (k + 1) v = foldLoop t tt k (fsub (fneg tt) v) := by
  simp [foldLoop, h, h']

/-- A loop ends on a sample that neither comparison finds outside. -/
theorem foldLoop_of_within (h : ¬ fgt v t = true) (h' : ¬ flt v (fneg t) = true) (k : Nat) :
    foldLoop t tt k v = some v := by
  cases k <;> simp [foldLoop, h, h']

theorem foldLoop_of_abs_le (ht : isNaN t = false) (hf : flush t = t) (h : |val (flush v)| ≤ val t) (k : Nat) :
    foldLoop t tt k v = some v := by
  rw [abs_le] at h
  exact foldLoop_of_within (fun hgt => h.2.not_gt ((fgt_threshold ht hf).mp hgt).2)
    (fun hlt => h.1.not_gt ((flt_fneg_threshold ht hf).mp hlt).2) k

theorem foldLoop_of_isNaN (h : isNaN v = true) (k : Nat) : foldLoop t tt k v = some v :=
  foldLoop_of_within (by simp [fgt, flt_nan (.inr h)]) (by simp [flt_nan (.inl h)]) k

end Loop

/-! ### The transfer threshold -/

theorem val_transferFold : val lit.transferFold = 1 / 2 := by
  rw [val, show units lit.transferFold = 2 ^ 148 by decide +kernel]
  norm_num

theorem isNaN_transferFold : isNaN lit.transferFold = false := by decide
theorem flush_transferFold : flush lit.transferFold = lit.transferFold := by decide

theorem wsFold_eq (x : F32) : wsFold x = foldLoop lit.transferFold lit.one 64 x := by
  rw [wsFold, fold, show fmul lit.two lit.transferFold = lit.one by decide +kernel]

/-- One reflection at the threshold 0.5 (R124). -/
def reflect (v : F32) : F32 := if fgt v lit.transferFold then fsub lit.one v else fsub lit.negOne v

section Transfer

variable {v : F32} {k : Nat}

/-- The word that a sample outside the threshold is subtracted from has its sign. -/
theorem reflect_cases (hn : isNaN v = false) (h : 1 / 2 < |val (flush v)|) :
    (fgt v lit.transferFold = true ∧ 1 / 2 < val (flush v) ∧ reflect v = fsub lit.one v) ∨
    (fgt v lit.transferFold = false ∧ val (flush v) < -(1 / 2) ∧ reflect v = fsub lit.negOne v) := by
  have hiff := fgt_threshold (v := v) isNaN_transferFold flush_transferFold
  rw [val_transferFold] at hiff
  cases hgt : fgt v lit.transferFold
  · have hle : val (flush v) ≤ 1 / 2 := not_lt.mp fun hlt => Bool.false_ne_true (hgt.symm.trans (hiff.mpr ⟨hn, hlt⟩))
    refine .inr ⟨rfl, ?_, by simp [reflect, hgt]⟩
    rcases lt_abs.mp h with h | h <;> linarith
  · exact .inl ⟨rfl, (hiff.mp hgt).2, by simp [reflect, hgt]⟩

/-- A sample outside the threshold diverges with no reflection left, and is reflected otherwise. -/
theorem foldLoop_of_lt_abs (hn : isNaN v = false) (h : 1 / 2 < |val (flush v)|) :
    foldLoop lit.transferFold lit.one 0 v = none ∧
      foldLoop lit.transferFold lit.one (k + 1) v = foldLoop lit.transferFold lit.one k (reflect v) := by
  rcases reflect_cases hn h with ⟨hgt, _, he⟩ | ⟨hgt, hlt, he⟩
  · rw [he, foldLoop_succ_of_fgt hgt]
    simp [foldLoop, hgt]
  · have hlt : flt v (fneg lit.transferFold) = true :=
      (flt_fneg_threshold isNaN_transferFold flush_transferFold).mpr ⟨hn, by rwa [val_transferFold]⟩
    rw [he, foldLoop_succ_of_flt (by simp [hgt]) hlt, show fneg lit.one = lit.negOne by decide]
    simp [foldLoop, hlt]

theorem foldLoop_of_abs_le_half (h : |val (flush v)| ≤ 1 / 2) (k : Nat) :
    foldLoop lit.transferFold lit.one k v = some v :=
  foldLoop_of_abs_le isNaN_transferFold flush_transferFold (by rwa [val_transferFold]) k

end Transfer

/-! ### What a reflection does to the value -/

section Reflect

variable {v : F32}

@[simp] theorem flush_reflect (v : F32) : flush (reflect v) = reflect v := by
  unfold reflect
  split_ifs <;> exact flush_fsub _ _

/-- Below `2^24` a reflection is exact, and takes 1 off the magnitude. -/
theorem reflect_exact (hv : isFinite v = true) (hlo : 1 / 2 < |val (flush v)|) (hhi : |val (flush v)| < 2 ^ 24) :
    isFinite (reflect v) = true ∧ |val (reflect v)| = |(|val (flush v)| - 1)| ∧
      (val (reflect v) = 1 - val (flush v) ∨ val (reflect v) = -1 - val (flush v)) := by
  have hone : isFinite lit.one = true ∧ (2 ^ 149 : ℤ) ∣ units (flush lit.one) := by decide +kernel
  have hneg : isFinite lit.negOne = true ∧ (2 ^ 149 : ℤ) ∣ units (flush lit.negOne) := by decide +kernel
  have hhi' : |val (flush v)| < 2 ^ (24 + 149) / 2 ^ 149 := hhi.trans_eq (by norm_num)
  rcases reflect_cases (isNaN_of_isFinite hv) hlo with ⟨_, h, he⟩ | ⟨_, h, he⟩
  · have habs : |val (flush v)| = val (flush v) := abs_of_pos (by linarith)
    obtain ⟨hfin, hval⟩ := fsub_exact_of_abs_le hone.1 hv hone.2 hlo.le hhi'
      (by rw [flush_one, val_one, habs, abs_le]; constructor <;> linarith)
    rw [flush_one, val_one] at hval
    rw [he]
    exact ⟨hfin, by rw [hval, habs, abs_sub_comm], .inl hval⟩
  · have habs : |val (flush v)| = -val (flush v) := abs_of_neg (by linarith)
    obtain ⟨hfin, hval⟩ := fsub_exact_of_abs_le hneg.1 hv hneg.2 hlo.le hhi'
      (by rw [flush_negOne, val_negOne, habs, abs_le]; constructor <;> linarith)
    rw [flush_negOne, val_negOne] at hval
    rw [he]
    exact ⟨hfin, by rw [hval, habs]; ring_nf, .inr hval⟩

theorem isInf_reflect (h : isInf v = true) : isInf (reflect v) = true := by
  unfold reflect
  split_ifs
  · exact isInf_fsub (by decide) h
  · exact isInf_fsub (by decide) h

theorem val_two_pow_23 : val 0x4B000000 = 2 ^ 23 := by
  rw [val, show units 0x4B000000 = 2 ^ 172 by decide +kernel]
  norm_num

/-- From `2^24` on a reflection may round, but not down to a small magnitude. -/
theorem le_abs_val_reflect (hv : isFinite v = true) (h : 2 ^ 24 ≤ |val (flush v)|) :
    isNaN (reflect v) = false ∧ 2 ^ 23 ≤ |val (reflect v)| := by
  have hsub (c : F32) (hc : isFinite c = true) (hc1 : |val (flush c)| = 1) :
      isNaN (fsub c v) = false ∧ 2 ^ 23 ≤ |val (fsub c v)| := by
    have hround := roundsTo_fsub hc hv
    have hle := hround.le_abs_val (w := 0x4B000000) (by decide) (by rw [val_two_pow_23]; norm_num) (by
      have := abs_sub_abs_le_abs_sub (val (flush v)) (val (flush c))
      rw [abs_sub_comm, hc1] at this
      rw [val_two_pow_23]
      linarith)
    rw [val_two_pow_23] at hle
    exact ⟨isNaN_fsub_of_isFinite hc hv, hle⟩
  unfold reflect
  split_ifs
  · exact hsub _ (by decide) (by rw [flush_one, val_one, abs_one])
  · exact hsub _ (by decide) (by rw [flush_negOne, val_negOne, abs_neg, abs_one])

end Reflect

/-! ### The reach of the fold -/

/-- Beyond `k + 1/2` in magnitude, infinities included, `k` reflections are not enough: each takes off 1. -/
theorem foldLoop_diverges {k : Nat} (hk : k ≤ 64) {v : F32} (hn : isNaN v = false) (h : k + 1 / 2 < |val (flush v)|) :
    foldLoop lit.transferFold lit.one k v = none := by
  induction k generalizing v with
  | zero => exact (foldLoop_of_lt_abs (k := 0) hn (by simpa using h)).1
  | succ k ih =>
    have hk' : (k : ℝ) ≤ 63 := by exact_mod_cast (by omega : k ≤ 63)
    have h0 : (0 : ℝ) ≤ k := Nat.cast_nonneg k
    push_cast at h
    have hhalf : 1 / 2 < |val (flush v)| := by linarith
    rw [(foldLoop_of_lt_abs hn hhalf).2]
    rcases class_cases v with ⟨hn', _, _⟩ | ⟨_, hi, _⟩ | ⟨_, _, hf⟩
    · simp [hn] at hn'
    · have hinf := isInf_reflect hi
      refine ih (by omega) (isNaN_of_isInf hinf) ?_
      rw [flush_reflect, abs_val_of_isInf hinf]
      linarith
    rcases lt_or_ge |val (flush v)| (2 ^ 24) with hsmall | hlarge
    · obtain ⟨hfin, habs, _⟩ := reflect_exact hf hhalf hsmall
      refine ih (by omega) (isNaN_of_isFinite hfin) ?_
      rw [flush_reflect, habs]
      exact lt_of_lt_of_le (by linarith) (le_abs_self _)
    · obtain ⟨hnan, hbig⟩ := le_abs_val_reflect hf hlarge
      refine ih (by omega) hnan ?_
      rw [flush_reflect]
      linarith

/-! ### The closed form -/

/-- The triangle wave of R124 at the threshold 0.5. -/
noncomputable def triangle (r : ℝ) : ℝ := |2 * Int.fract ((r - 0.5) / 2) - 1| - 0.5

theorem triangle_of_abs_le {r : ℝ} (h : |r| ≤ 1 / 2) : triangle r = r := by
  obtain ⟨hlo, hhi⟩ := abs_le.mp h
  rcases hhi.eq_or_lt with rfl | hlt
  · norm_num [triangle]
  · have hfract : Int.fract ((r - 0.5) / 2) = (r - 0.5) / 2 + 1 :=
      Int.fract_eq_iff.mpr ⟨by linarith, by linarith, -1, by push_cast; ring⟩
    rw [triangle, hfract, abs_of_nonneg (by linarith)]
    ring

theorem abs_fract_neg (s : ℝ) : |2 * Int.fract (-s) - 1| = |2 * Int.fract s - 1| := by
  by_cases h0 : Int.fract s = 0
  · rw [h0, Int.fract_neg_eq_zero.mpr h0]
  · rw [Int.fract_neg h0, ← abs_neg]
    ring_nf

/-- Reflection keeps the wave. -/
theorem triangle_one_sub (r : ℝ) : triangle (1 - r) = triangle r := by
  rw [triangle, show (1 - r - 0.5) / 2 = -((r - 0.5) / 2) by ring, abs_fract_neg, triangle]

theorem triangle_neg_one_sub (r : ℝ) : triangle (-1 - r) = triangle r := by
  rw [triangle, show (-1 - r - 0.5) / 2 = -((r - 0.5) / 2) - 1 by ring, Int.fract_sub_one, abs_fract_neg, triangle]

/-- The wave is odd: half a period further it has the other sign. -/
theorem triangle_neg (r : ℝ) : triangle (-r) = -triangle r := by
  have hlo := Int.fract_nonneg ((r - 0.5) / 2)
  have hhi := Int.fract_lt_one ((r - 0.5) / 2)
  have hshift : (-r - 0.5) / 2 = 1 / 2 - Int.fract ((r - 0.5) / 2) - (⌊(r - 0.5) / 2⌋ + 1 : ℤ) := by
    have := Int.self_sub_floor ((r - 0.5) / 2)
    push_cast
    linarith
  rw [triangle, triangle, hshift, Int.fract_sub_intCast]
  generalize Int.fract ((r - 0.5) / 2) = f at *
  rcases le_or_gt f (1 / 2) with hf | hf
  · have hfract : Int.fract (1 / 2 - f) = 1 / 2 - f := Int.fract_eq_self.mpr ⟨by linarith, by linarith⟩
    rw [hfract, abs_of_nonpos (by linarith), abs_of_nonpos (by linarith)]
    ring
  · have hfract : Int.fract (1 / 2 - f) = 1 / 2 - f + 1 :=
      Int.fract_eq_iff.mpr ⟨by linarith, by linarith, -1, by push_cast; ring⟩
    rw [hfract, abs_of_nonneg (by linarith), abs_of_nonneg (by linarith)]
    ring

/-- `y` is what the fold makes of `v`: the wave at its value, as it stands and flushed, in [-0.5, 0.5]. -/
structure FoldsTo (v y : F32) : Prop where
  finite : isFinite y = true
  value : val y = triangle (val v)
  flushed : val (flush y) = triangle (val (flush v))
  bound : |val y| ≤ 1 / 2

theorem FoldsTo.refl {v : F32} (hv : isFinite v = true) (h : |val v| ≤ 1 / 2) : FoldsTo v v :=
  ⟨hv, (triangle_of_abs_le h).symm, (triangle_of_abs_le ((abs_val_flush_le v).trans h)).symm, h⟩

/-- A sample that flushing brings inside the threshold was inside. -/
theorem abs_val_le_half {v : F32} (h : |val (flush v)| ≤ 1 / 2) : |val v| ≤ 1 / 2 := by
  rcases lt_or_ge |val v| (1 / 2 ^ 126) with hlt | hge
  · exact hlt.le.trans (by norm_num)
  · rwa [flush_of_le_abs_val hge] at h

/-- Up to `k + 1/2` in magnitude `k` reflections are enough, and the fold is the wave. -/
theorem foldLoop_completes {k : Nat} (hk : k ≤ 64) {v : F32} (hv : isFinite v = true) (h : |val (flush v)| ≤ k + 1 / 2) :
    ∃ y, foldLoop lit.transferFold lit.one k v = some y ∧ FoldsTo v y := by
  induction k generalizing v with
  | zero =>
    have hhalf : |val (flush v)| ≤ 1 / 2 := by simpa using h
    exact ⟨v, foldLoop_of_abs_le_half hhalf 0, .refl hv (abs_val_le_half hhalf)⟩
  | succ k ih =>
    have hk' : (k : ℝ) ≤ 63 := by exact_mod_cast (by omega : k ≤ 63)
    have h0 : (0 : ℝ) ≤ k := Nat.cast_nonneg k
    push_cast at h
    rcases le_or_gt |val (flush v)| (1 / 2) with hhalf | hhalf
    · exact ⟨v, foldLoop_of_abs_le_half hhalf _, .refl hv (abs_val_le_half hhalf)⟩
    obtain ⟨hfin, habs, hval⟩ := reflect_exact hv hhalf (by linarith)
    have htriangle : triangle (val (reflect v)) = triangle (val (flush v)) := by
      rcases hval with hval | hval
      · rw [hval, triangle_one_sub]
      · rw [hval, triangle_neg_one_sub]
    obtain ⟨y, hy, hfold⟩ := ih (by omega) hfin (by
      rw [flush_reflect, habs, abs_le]
      constructor <;> linarith)
    have hflush : flush v = v := flush_of_le_abs_val_flush (hhalf.le.trans' (by norm_num))
    have hvalue := hfold.value
    have hflushed := hfold.flushed
    rw [htriangle, hflush] at hvalue
    rw [flush_reflect, htriangle] at hflushed
    exact ⟨y, (foldLoop_of_lt_abs (isNaN_of_isFinite hv) hhalf).2.trans hy, hfold.finite, hvalue, hflushed, hfold.bound⟩

/-! ### The Foldback transfer function -/

section Transfer

variable {x : F32}

theorem wsFold_of_isNaN (h : isNaN x = true) : wsFold x = some x := foldLoop_of_isNaN h _

theorem wsFold_completes (h : isFinite x = true) (hle : |val (flush x)| ≤ 64.5) :
    ∃ y, wsFold x = some y ∧ FoldsTo x y := by
  rw [wsFold_eq]
  exact foldLoop_completes le_rfl h (hle.trans_eq (by norm_num))

theorem wsFold_diverges (h : isNaN x = false) (hlt : 64.5 < |val (flush x)|) : wsFold x = none := by
  rw [wsFold_eq]
  exact foldLoop_diverges le_rfl h (lt_of_eq_of_lt (by norm_num) hlt)

end Transfer

/-- Settles O35: 64 exact reflections bring 64.5 to the threshold. -/
theorem foldbackMatchesClosedForm : Obligations.FoldbackMatchesClosedForm := by
  unfold Obligations.FoldbackMatchesClosedForm
  refine ⟨fun s hfin hle => ?_, fun s hn => ?_⟩
  · obtain ⟨y, hy, hfold⟩ := wsFold_completes hfin ((abs_val_flush_le _).trans hle)
    exact ⟨y, by simp [exec, execWsFold, hy], hfold.finite, hfold.value, hfold.bound.trans_eq (by norm_num)⟩
  · simp [exec, execWsFold, wsFold_of_isNaN hn]

/-- Settles O36: what the row answers where the fold diverges is the fault entry, which the laws of `foldDiverge` describe. -/
theorem foldbackDivergesBeyondItsReach : Obligations.FoldbackDivergesBeyondItsReach := by
  unfold Obligations.FoldbackDivergesBeyondItsReach
  intro s hmax hx
  have hnone : wsFold s.x = none := by
    rcases hx with hi | ⟨hf, hlt⟩
    · refine wsFold_diverges (isNaN_of_isInf hi) ?_
      rw [flush_of_isInf hi, abs_val_of_isInf hi]
      norm_num
    · refine wsFold_diverges (isNaN_of_isFinite hf) ?_
      rwa [flush_of_le_abs_val (hlt.le.trans' (by norm_num))]
  refine ⟨foldDiverge s.ds.nch s.ds.maxblk s, by simp [exec, execWsFold, hnone], ?_⟩
  exact ⟨foldDiverge_trap _ _ s, foldDiverge_regs _ _ s, revKept_foldDiverge _ hmax s, foldDiverge_x _ _ s,
    foldDiverge_host _ _ s, foldDiverge_configured _ _ s⟩

/-- A fold of the negative diverges with it, and is its negative otherwise (R130). -/
theorem wsFold_fneg {x : F32} (hn : isNaN x = false) :
    (wsFold x = none → wsFold (fneg x) = none) ∧
      ∀ y, wsFold x = some y → ∃ z, wsFold (fneg x) = some z ∧ feq z (fneg y) = true := by
  have hneg : isNaN (fneg x) = false := by rwa [isNaN_fneg]
  have habs : |val (flush (fneg x))| = |val (flush x)| := by rw [flush_fneg, val_fneg, abs_neg]
  rcases le_or_gt |val (flush x)| 64.5 with hle | hlt
  · have hfin (w : F32) (hw : isNaN w = false) (h : |val (flush w)| ≤ 64.5) : isFinite w = true :=
      isFinite_of_flush (isFinite_of_abs_val_lt (by rwa [isNaN_flush]) (h.trans_lt (by norm_num)))
    obtain ⟨y, hy, hfold⟩ := wsFold_completes (hfin x hn hle) hle
    obtain ⟨z, hz, hfold'⟩ := wsFold_completes (hfin _ hneg (habs.trans_le hle)) (habs.trans_le hle)
    refine ⟨fun h => (Option.some_ne_none y (hy.symm.trans h)).elim, fun y' hy' => ⟨z, hz, ?_⟩⟩
    obtain rfl := Option.some.inj (hy.symm.trans hy')
    refine feq_fneg_iff.mpr ⟨isNaN_of_isFinite hfold'.finite, isNaN_of_isFinite hfold.finite, ?_⟩
    rw [hfold'.flushed, hfold.flushed, flush_fneg, val_fneg, triangle_neg]
  · have hnone := wsFold_diverges hn hlt
    exact ⟨fun _ => wsFold_diverges hneg (habs.symm ▸ hlt), fun y hy => by simp [hnone] at hy⟩

/-- Settles O33: the four functions without a fault one by one, and the fold through the oddness of its wave. -/
theorem waveshapersAreOdd : Obligations.WaveshapersAreOdd := by
  unfold Obligations.WaveshapersAreOdd
  refine ⟨fun f hf x hn => ?_, fun x hn => wsFold_fneg hn⟩
  simp only [List.mem_cons, List.not_mem_nil, or_false] at hf
  rcases hf with rfl | rfl | rfl | rfl
  · exact wsSoft_oddAt hn
  · exact wsHard_oddAt hn
  · exact wsTube_oddAt hn
  · exact wsSine_oddAt hn

end Sys2Proof.Machine
end

section
/-! PROOF. `PROC.D` of type Foldback (45_distortion_pipeline.md R204, R205, 60_exceptions.md R323): a block diverges exactly
when the fold of one of the driven words that the main pass finds does, and what a block leaves alone. -/

namespace Sys2Proof.Machine

open Sys2Proof.Config

/-! ### A sweep that can fault -/

/-- Where only the word decides whether the stage faults, a sweep over disjoint words faults exactly when one of the words it
finds makes the stage fault: no earlier step has rewritten it. -/
theorem sweepFault_eq_none_iff {σ : Type} {addr : Channel → Nat → Nat} {g : Nat → Channel → F32 → σ → Option (F32 × σ)}
    {p : F32 → Prop} (hg : ∀ n c x st, g n c x st = none ↔ p x) {l : List (Nat × Channel)} (hl : l.Nodup)
    (hdis : ∀ q ∈ l, ∀ r ∈ l, q ≠ r → addr q.2 q.1 + 4 ≤ addr r.2 r.1 ∨ addr r.2 r.1 + 4 ≤ addr q.2 q.1)
    (m : Memory) (st : σ) :
    sweepFault addr g l m st = none ↔ ∃ q ∈ l, p (memWord m (addr q.2 q.1)) := by
  induction l generalizing m st with
  | nil => simp [sweepFault]
  | cons q t ih =>
    rw [List.nodup_cons] at hl
    rw [List.exists_mem_cons_iff]
    simp only [sweepFault]
    cases hq : g q.1 q.2 (memWord m (addr q.2 q.1)) st with
    | none => simp [(hg _ _ _ _).mp hq]
    | some r =>
      have hnot : ¬ p (memWord m (addr q.2 q.1)) := fun h => by simp [(hg q.1 q.2 _ st).mpr h] at hq
      have hrest (y : F32) : ∀ u ∈ t, memWord (setWord m (addr q.2 q.1) y) (addr u.2 u.1) = memWord m (addr u.2 u.1) :=
        fun u hu => memWord_setWord_of_disjoint _ _
          (hdis u (List.mem_cons_of_mem _ hu) q List.mem_cons_self fun e => hl.1 (e ▸ hu))
      simp only [hnot, false_or]
      rw [ih hl.2 fun u hu v hv => hdis u (List.mem_cons_of_mem _ hu) v (List.mem_cons_of_mem _ hv)]
      exact exists_congr fun u => and_congr_right fun hu => by rw [hrest _ u hu]

/-! ### The destroy stage never diverges (43_destroy_stage.md R172) -/

theorem val_destroyFold : val lit.destroyFold = 0x99999A / 2 ^ 24 := by
  rw [val, show units lit.destroyFold = 0x99999A * 2 ^ 125 by decide +kernel]
  norm_num

theorem isNaN_destroyFold : isNaN lit.destroyFold = false := by decide
theorem flush_destroyFold : flush lit.destroyFold = lit.destroyFold := by decide

/-- The word that a sample beyond the threshold is subtracted from: twice the threshold, exactly. -/
def destroyTurn : F32 := 0x3F99999A#32

theorem two_mul_destroyFold : fmul lit.two lit.destroyFold = destroyTurn := by decide +kernel

theorem destroyTurn_word :
    isFinite destroyTurn = true ∧ flush destroyTurn = destroyTurn ∧ (2 ^ 126 : ℤ) ∣ units destroyTurn := by decide +kernel

theorem val_destroyTurn : val destroyTurn = 2 * val lit.destroyFold := by
  rw [val_destroyFold, val, show units destroyTurn = 0x99999A * 2 ^ 126 by decide +kernel]
  norm_num

/-- The reflection of a sample of [-1, 1] beyond the threshold is exact, and lies inside it. -/
theorem abs_val_destroyTurn_sub {c v : F32} (hc : c = destroyTurn ∧ val lit.destroyFold < val (flush v) ∨
    c = fneg destroyTurn ∧ val (flush v) < -val lit.destroyFold) (hv : isFinite v = true) (hle : |val (flush v)| ≤ 1) :
    |val (fsub c v)| ≤ val lit.destroyFold := by
  obtain ⟨hfin, hflush, hgrid⟩ := destroyTurn_word
  have ht : (1 / 2 : ℝ) < val lit.destroyFold := by rw [val_destroyFold]; norm_num
  obtain ⟨hlo, hhi⟩ := abs_le.mp hle
  have hexact {c : F32} (hc : isFinite c = true) (hg : (2 ^ 126 : ℤ) ∣ units (flush c)) (hlo : 1 / 2 ≤ |val (flush v)|)
      (h : |val (flush c) - val (flush v)| ≤ |val (flush v)|) : val (fsub c v) = val (flush c) - val (flush v) :=
    (fsub_exact_of_abs_le hc hv hg hlo (hle.trans_lt (by norm_num)) h).2
  rcases hc with ⟨rfl, h⟩ | ⟨rfl, h⟩
  · have habs : |val (flush v)| = val (flush v) := abs_of_pos (by linarith)
    rw [hexact hfin (by rwa [hflush]) (by linarith)
      (by rw [hflush, val_destroyTurn, habs, abs_le]; constructor <;> linarith), hflush, val_destroyTurn, abs_le]
    constructor <;> linarith
  · have habs : |val (flush v)| = -val (flush v) := abs_of_neg (by linarith)
    have hneg : flush (fneg destroyTurn) = flipSign destroyTurn := by rw [flush_fneg, fneg, hflush]
    rw [hexact (by rw [fneg, hflush, isFinite_flipSign, hfin]) (by rw [hneg, units_flipSign]; exact hgrid.neg_right)
      (by linarith) (by rw [hneg, val_flipSign, val_destroyTurn, habs, abs_le]; constructor <;> linarith), hneg,
      val_flipSign, val_destroyTurn, abs_le]
    constructor <;> linarith

/-- One reflection at 0.6 is enough for every sample of [-1, 1]; a NaN needs none. -/
theorem exists_fold_destroyFold {v : F32} (h : isNaN v = false → inSym v = true) : ∃ y, fold v lit.destroyFold = some y := by
  rw [fold, two_mul_destroyFold, show foldIterMax = 63 + 1 from rfl]
  cases hn : isNaN v
  case true => exact ⟨v, foldLoop_of_isNaN hn _⟩
  have hv := h hn
  obtain ⟨_, hle⟩ := inSym_iff.mp hv
  have hinside {c : F32} (hc : c = destroyTurn ∧ val lit.destroyFold < val (flush v) ∨
      c = fneg destroyTurn ∧ val (flush v) < -val lit.destroyFold) :
      foldLoop lit.destroyFold destroyTurn 63 (fsub c v) = some (fsub c v) :=
    foldLoop_of_abs_le isNaN_destroyFold flush_destroyFold
      (by rw [flush_fsub]; exact abs_val_destroyTurn_sub hc (isFinite_of_inSym hv) hle) _
  by_cases hgt : fgt v lit.destroyFold = true
  · have hval := ((fgt_threshold isNaN_destroyFold flush_destroyFold).mp hgt).2
    rw [foldLoop_succ_of_fgt hgt]
    exact ⟨_, hinside (.inl ⟨rfl, hval⟩)⟩
  by_cases hlt : flt v (fneg lit.destroyFold) = true
  · have hval := ((flt_fneg_threshold isNaN_destroyFold flush_destroyFold).mp hlt).2
    rw [foldLoop_succ_of_flt hgt hlt]
    exact ⟨_, hinside (.inr ⟨rfl, hval⟩)⟩
  · exact ⟨v, foldLoop_of_within hgt hlt _⟩

/-- The resonant branch folds a sine, which lies in [-1, 1] or is a NaN (R172). -/
theorem fold_sin_ne_none (u : F32) : fold (sin u) lit.destroyFold ≠ none := by
  have hsin : isNaN (sin u) = false → inSym (sin u) = true := fun hn => by
    cases hf : isFinite u
    · simp [isNaN_sin hf] at hn
    · exact sin_inSym hf
  obtain ⟨y, hy⟩ := exists_fold_destroyFold hsin
  rw [hy]
  exact Option.some_ne_none y

theorem exists_destroyActive (k : DistConsts) (c : Channel) (x : F32) (ds : DistState) :
    ∃ r, destroyActive k c x ds = some r := by
  unfold destroyActive
  simp only
  split
  next h => exact absurd h (fold_sin_ne_none _)
  next => exact ⟨_, rfl⟩

theorem exists_destroy (k : DistConsts) (c : Channel) (x : F32) (ds : DistState) : ∃ r, destroy k c x ds = some r := by
  obtain ⟨r, hr⟩ := exists_destroyActive k c x ds
  unfold destroy
  split
  · exact ⟨_, rfl⟩
  · simp only [hr]
    exact ⟨_, rfl⟩

/-- R205: `CHAIN` faults exactly when its transfer function does. -/
theorem chain_eq_none_iff {p : SnapD} {sel : Instr} {k : DistConsts} {c : Channel} {clean : F32} {ds : DistState} :
    chain p sel k c clean ds = none ↔ ws sel (fmul clean p.drive) = none := by
  unfold chain
  cases hws : ws sel (fmul clean p.drive) with
  | none => simp
  | some x =>
    obtain ⟨r, hr⟩ := exists_destroy k c (tone k c x ds).1 (tone k c x ds).2
    simp [hr]

/-! ### The main pass -/

/-- A main pass diverges exactly when the transfer function does on some word that the pass finds (R204, R323). -/
theorem mainPass_eq_none_iff {sel : Instr} {nch n : Nat} (hn : n ≤ blkCap) (s : State) :
    mainPass sel nch n s = none ↔
      ∃ (c : Channel) (k : Nat), c.val < nch ∧ k < n ∧ ws sel (fmul (memWord s.mem (bufDAddr c k)) s.pd.drive) = none := by
  have hnone : mainPass sel nch n s = none ↔
      sweepFault bufDAddr (fun _ c x ds => chain s.pd sel s.dk c x ds) (positions nch n) s.mem s.ds = none := by
    unfold mainPass
    split <;> simp_all
  have hdis : ∀ q ∈ positions nch n, ∀ r ∈ positions nch n, q ≠ r →
      bufDAddr q.2 q.1 + 4 ≤ bufDAddr r.2 r.1 ∨ bufDAddr r.2 r.1 + 4 ≤ bufDAddr q.2 q.1 := fun q hq r hr hne =>
    bufDAddr_disjoint ((mem_positions.mp hq).1.trans_le hn) ((mem_positions.mp hr).1.trans_le hn) hne
  rw [hnone, sweepFault_eq_none_iff (p := fun x => ws sel (fmul x s.pd.drive) = none) (fun _ _ _ _ => chain_eq_none_iff)
    (nodup_positions nch n) hdis]
  constructor
  · rintro ⟨⟨k, c⟩, hq, h⟩
    exact ⟨c, k, (mem_positions.mp hq).2, (mem_positions.mp hq).1, h⟩
  · rintro ⟨c, k, hc, hk, h⟩
    exact ⟨(k, c), mem_positions.mpr ⟨hk, hc⟩, h⟩

/-! ### What a block leaves alone -/

/-- The entries of the channels from `nch` on are as they were (10_state.md R21). -/
def DeadKept (nch : Nat) (a b : DistState) : Prop :=
  ∀ c : Channel, nch ≤ c.val →
    b.toneY1[c] = a.toneY1[c] ∧ b.dtap[c] = a.dtap[c] ∧ b.gs1[c] = a.gs1[c] ∧ b.gs2[c] = a.gs2[c]

section Dead

variable {nch : Nat} {k : DistConsts} {c : Channel} {x : F32} {ds : DistState} {r : F32 × DistState}

theorem DeadKept.refl (nch : Nat) (a : DistState) : DeadKept nch a a := fun _ _ => ⟨rfl, rfl, rfl, rfl⟩

theorem DeadKept.trans {a b d : DistState} (h : DeadKept nch a b) (h' : DeadKept nch b d) : DeadKept nch a d := fun c hc =>
  have ⟨h1, h2, h3, h4⟩ := h c hc
  have ⟨h1', h2', h3', h4'⟩ := h' c hc
  ⟨h1'.trans h1, h2'.trans h2, h3'.trans h3, h4'.trans h4⟩

theorem getElem_set_of_live {α : Type} (v : PerChannel α) (y : α) (hc : c.val < nch) {d : Channel} (hd : nch ≤ d.val) :
    (v.set c y)[d] = v[d] :=
  Vector.getElem_set_ne _ _ (by omega)

theorem deadKept_ghost (hc : c.val < nch) (k : DistConsts) (x : F32) (ds : DistState) :
    DeadKept nch ds (ghost k c x ds).2 := fun _ hd =>
  ⟨rfl, rfl, getElem_set_of_live _ _ hc hd, getElem_set_of_live _ _ hc hd⟩

theorem deadKept_tone (hc : c.val < nch) (k : DistConsts) (x : F32) (ds : DistState) :
    DeadKept nch ds (tone k c x ds).2 := fun _ hd =>
  ⟨getElem_set_of_live _ _ hc hd, rfl, rfl, rfl⟩

theorem deadKept_destroyActive (hc : c.val < nch) (h : destroyActive k c x ds = some r) : DeadKept nch ds r.2 := by
  unfold destroyActive at h
  simp only at h
  split at h
  · cases h
  · obtain rfl := Option.some.inj h
    exact fun _ hd => ⟨rfl, getElem_set_of_live _ _ hc hd, rfl, rfl⟩

theorem deadKept_destroy (hc : c.val < nch) (h : destroy k c x ds = some r) : DeadKept nch ds r.2 := by
  unfold destroy at h
  split at h
  · obtain rfl := Option.some.inj h
    exact .refl nch ds
  · cases hactive : destroyActive k c x ds with
    | none => simp [hactive] at h
    | some q =>
      simp only [hactive, Option.some.injEq] at h
      obtain rfl := h
      have hq := deadKept_destroyActive hc hactive
      exact hq

theorem deadKept_chain (hc : c.val < nch) {p : SnapD} {sel : Instr} (h : chain p sel k c x ds = some r) :
    DeadKept nch ds r.2 := by
  unfold chain at h
  cases hws : ws sel (fmul x p.drive) with
  | none => simp [hws] at h
  | some y =>
    simp only [hws] at h
    cases hdestroy : destroy k c (tone k c y ds).1 (tone k c y ds).2 with
    | none => simp [hdestroy] at h
    | some z =>
      simp only [hdestroy, Option.some.injEq] at h
      obtain rfl := h
      have hz := deadKept_destroy hc hdestroy
      exact (deadKept_tone hc k y ds).trans hz

end Dead

section Frame

variable {nch len : Nat} {s t : State}

theorem DistBlockFrame.refl (nch len : Nat) (s : State) : DistBlockFrame nch len s s := by
  constructor
  case dead => exact DeadKept.refl nch s.ds
  case outside => exact fun _ _ => rfl
  all_goals rfl

theorem DistBlockFrame.trans {u : State} (h : DistBlockFrame nch len s t) (h' : DistBlockFrame nch len t u) :
    DistBlockFrame nch len s u where
  regs := h'.regs.trans h.regs
  trap := h'.trap.trans h.trap
  seq := h'.seq.trans h.seq
  pr := h'.pr.trans h.pr
  rs := h'.rs.trans h.rs
  rk := h'.rk.trans h.rk
  wet := h'.wet.trans h.wet
  dly := h'.dly.trans h.dly
  rdata := h'.rdata.trans h.rdata
  x := h'.x.trans h.x
  host := h'.host.trans h.host
  draws := h'.draws.trans h.draws
  configured := h'.configured.trans h.configured
  fs := h'.fs.trans h.fs
  nchEq := h'.nchEq.trans h.nchEq
  maxblk := h'.maxblk.trans h.maxblk
  dead := DeadKept.trans h.dead h'.dead
  outside a ha := (h'.outside a ha).trans (h.outside a ha)

/-- A change of `BUF_D` inside the block and of live channels' entries and the ghost phase is within the frame. -/
theorem distBlockFrame_of_block {m : Memory} {ds : DistState} (hds : DistLatched s.ds ds) (hdead : DeadKept nch s.ds ds)
    (p : F32) (hm : ∀ a, ¬ inBlock bufDAddr nch len a → memByte m a = memByte s.mem a) :
    DistBlockFrame nch len s { s with mem := m, ds := { ds with gphase := p } } :=
  { DistBlockFrame.refl nch len s with
    configured := hds.configured
    fs := hds.fs
    nchEq := hds.nch
    maxblk := hds.maxblk
    dead := hdead
    outside := hm }

theorem outside_words {a : Nat} (ha : ¬ inBlock bufDAddr nch len a) :
    ∀ n c, (n, c) ∈ positions nch len → a < bufDAddr c n ∨ bufDAddr c n + 4 ≤ a := fun n c hp => by
  by_contra h
  obtain ⟨hn, hc⟩ := mem_positions.mp hp
  exact ha ⟨c, n, hc, hn, by omega, by omega⟩

theorem distBlockFrame_startBlockD (nch len : Nat) (s : State) : DistBlockFrame nch len s (startBlockD len s) :=
  { DistBlockFrame.refl nch len s with }

theorem distBlockFrame_ghostPass (nch len : Nat) (s : State) : DistBlockFrame nch len s (ghostPass nch len s) := by
  have hkeep := sweep_induct bufDAddr (fun _ c x ds => ghost s.dk c x ds)
    (fun _ ds => DistLatched s.ds ds ∧ DeadKept nch s.ds ds) (positions nch len) s.mem s.ds ⟨.refl _, .refl _ _⟩
    fun _ c _ _ hp h => ⟨h.1.trans (distLatched_ghost s.dk c _ _), h.2.trans (deadKept_ghost (mem_positions.mp hp).2 s.dk _ _)⟩
  unfold ghostPass
  split
  · exact distBlockFrame_of_block hkeep.1 hkeep.2 _ fun a ha =>
      sweep_memByte_of_outside bufDAddr _ _ s.mem s.ds a (outside_words ha)
  · exact .refl nch len s

theorem distBlockFrame_mainPass {sel : Instr} (h : mainPass sel nch len s = some t) : DistBlockFrame nch len s t := by
  obtain ⟨r, hr, rfl⟩ := mainPass_cases h
  have hkeep := sweepFault_induct bufDAddr _ (fun _ ds => DistLatched s.ds ds ∧ DeadKept nch s.ds ds) _ _ _ hr
    ⟨.refl _, .refl _ _⟩ fun _ _ _ _ _ hp h hy =>
      ⟨h.1.trans (distLatched_chain hy), h.2.trans (deadKept_chain (mem_positions.mp hp).2 hy)⟩
  exact distBlockFrame_of_block hkeep.1 hkeep.2 r.2.gphase fun a ha =>
    sweepFault_memByte_of_outside bufDAddr _ _ s.mem s.ds a hr (outside_words ha)

theorem mainPass_pd {sel : Instr} (h : mainPass sel nch len s = some t) : t.pd = s.pd := by
  obtain ⟨_, _, rfl⟩ := mainPass_cases h
  rfl

/-- What a diverging block leaves of the memory (93_implementation_defined.md U2). -/
theorem foldDiverge_memByte_of_outside {a : Nat} (ha : ¬ inBlock bufDAddr nch len a) :
    memByte (foldDiverge nch len s).mem a = memByte s.mem a :=
  sweep_memByte_of_outside bufDAddr _ _ s.mem () a (outside_words ha)

end Frame

/-! ### PROC.D once its checks hold -/

section ProcD

variable {nch n : Nat} {s : State} {sel : Instr}

theorem ghostPass_of_off (h : s.pd.ghost = false) : ghostPass nch n s = s := by
  simp [ghostPass, h]

theorem execProcD_of_checks (hcfg : s.ds.configured = true) (hnch : nch = s.ds.nch) (hn : n ≤ s.ds.maxblk)
    (hsel : decodeDType s.regs.dType = .ok sel) :
    (∃ t, mainPass sel nch n (ghostPass nch n (startBlockD n s)) = some t ∧ execProcD nch n s = .next t) ∨
    (mainPass sel nch n (ghostPass nch n (startBlockD n s)) = none ∧
      execProcD nch n s = .next (foldDiverge nch n (ghostPass nch n (startBlockD n s)))) := by
  have hok : blockOk nch n s.ds.nch s.ds.maxblk = true := decide_eq_true ⟨hnch, hn⟩
  rcases execProcD_cases nch n s with ⟨h, _⟩ | ⟨_, h, _⟩ | ⟨_, _, ⟨e, h⟩, _⟩ | ⟨sel', _, _, h, hrun⟩
  · simp [hcfg] at h
  · simp [hok] at h
  · cases hsel.symm.trans h
  · obtain rfl := Except.ok.inj (hsel.symm.trans h)
    exact hrun

theorem distBlockFrame_start (nch n : Nat) (s : State) :
    DistBlockFrame nch n s (ghostPass nch n (startBlockD n s)) :=
  (distBlockFrame_startBlockD nch n s).trans (distBlockFrame_ghostPass nch n _)

/-- A block whose main pass meets no divergence completes, with the snapshot of its registers, inside the frame. -/
theorem execProcD_completes (hcfg : s.ds.configured = true) (hnch : nch = s.ds.nch) (hn : n ≤ s.ds.maxblk)
    (hsel : decodeDType s.regs.dType = .ok sel)
    (hmain : mainPass sel nch n (ghostPass nch n (startBlockD n s)) ≠ none) :
    ∃ t, exec (.procD nch n) s = .next t ∧ DistBlockFrame nch n s t ∧ t.pd = snapshotD s.regs := by
  rcases execProcD_of_checks hcfg hnch hn hsel with ⟨t, ht, he⟩ | ⟨h, _⟩
  · exact ⟨t, he, (distBlockFrame_start nch n s).trans (distBlockFrame_mainPass ht), by rw [mainPass_pd ht]; simp⟩
  · exact absurd h hmain

end ProcD

/-! ### Foldback blocks -/

theorem decodeDType_fold {w : Word} (h : w = 3) : decodeDType w = .ok .wsFold := by
  rw [h]
  rfl

theorem val_reach : val 0x42810000 = 64.5 := by
  rw [val, show units 0x42810000 = 129 * 2 ^ 148 by decide +kernel]
  norm_num

theorem reach_word : isNaN 0x42810000 = false ∧ flush 0x42810000 = 0x42810000 := by decide

/-- Within the reach of the fold the transfer function answers. -/
theorem wsFold_ne_none {z : F32} (h : isNaN z = true ∨ fle (fabs z) 0x42810000 = true) : wsFold z ≠ none := by
  rcases h with hn | hle
  · rw [wsFold_of_isNaN hn]
    exact Option.some_ne_none z
  · obtain ⟨hn, _, hv⟩ := fle_iff.mp hle
    rw [isNaN_fabs] at hn
    rw [val_flush_fabs, reach_word.2, val_reach] at hv
    have hfin : isFinite z = true :=
      isFinite_of_flush (isFinite_of_abs_val_lt (by rwa [isNaN_flush]) (hv.trans_lt (by norm_num)))
    obtain ⟨y, hy, _⟩ := wsFold_completes hfin hv
    rw [hy]
    exact Option.some_ne_none y

/-- Beyond it, it does not. -/
theorem wsFold_eq_none {z : F32} (h : flt 0x42810000 (fabs z) = true) : wsFold z = none := by
  obtain ⟨_, hn, hv⟩ := flt_iff.mp h
  rw [isNaN_fabs] at hn
  rw [val_flush_fabs, reach_word.2, val_reach] at hv
  exact wsFold_diverges hn hv

theorem start_drive (nch n : Nat) (s : State) : (ghostPass nch n (startBlockD n s)).pd.drive = s.regs.dDrive := by
  simp [snapshotD]

/-- Settles O24: no driven word diverges, and nothing else in the chain can. -/
theorem procDFoldbackCompletes : Obligations.ProcDFoldbackCompletes := by
  unfold Obligations.ProcDFoldbackCompletes
  intro nch n s hcfg hnch hn hmax htype
  refine ⟨fun hoff => ?off, fun hwords => ?completes⟩
  case off =>
    rw [ghostPass_of_off (by rw [startBlockD_pd]; exact hoff), startBlockD_mem]
  case completes =>
    have hmain : mainPass .wsFold nch n (ghostPass nch n (startBlockD n s)) ≠ none := fun hnone => by
      obtain ⟨c, k, hc, hk, h⟩ := (mainPass_eq_none_iff (hn.trans hmax) _).mp hnone
      rw [start_drive] at h
      exact wsFold_ne_none (hwords c k hc hk) h
    exact execProcD_completes hcfg hnch hn (decodeDType_fold htype) hmain

/-- Settles O25: the main pass finds the diverging word, and ends in the fault entry. -/
theorem procDFoldbackDiverges : Obligations.ProcDFoldbackDiverges := by
  unfold Obligations.ProcDFoldbackDiverges
  intro nch n s c k hcfg hnch hn hmax htype hc hk hword
  have hnone : mainPass .wsFold nch n (ghostPass nch n (startBlockD n s)) = none :=
    (mainPass_eq_none_iff (hn.trans hmax) _).mpr ⟨c, k, hc, hk, by rw [start_drive]; exact wsFold_eq_none hword⟩
  have hframe := distBlockFrame_start nch n s
  rcases execProcD_of_checks hcfg hnch hn (decodeDType_fold htype) with ⟨t, ht, _⟩ | ⟨_, he⟩
  · simp [hnone] at ht
  · refine ⟨_, he, ?_, hframe.regs, execProcD_keeps hmax he, hframe.host, hframe.rdata, ?_, fun a ha => ?_⟩
    · rw [foldDiverge_trap, hframe.trap]
    · rw [foldDiverge_configured, hframe.configured, hcfg]
    · rw [foldDiverge_memByte_of_outside ha, hframe.outside a ha]

end Sys2Proof.Machine
end

section
/-! PROOF. The one-pole stage (41_one_pole_lowpass.md R140, R143): with tone 0 its product with 1 rounds nothing and its other
product is a zero of the state word's sign, so the sum has the input's value. -/

namespace Sys2Proof.Machine

open Sys2Proof.Config

/-! ### Rounding the value of a word -/

section RoundWord

variable {w y : F32}

theorem isFinite_of_isZero (h : isZero w = true) : isFinite w = true := by
  simp only [isZero, Bool.and_eq_true, beq_iff_eq] at h
  simp [isFinite, h.1]

/-- No value lies between a zero and the smallest normal magnitude once a word is flushed. -/
theorem val_flush_eq_zero_or_le (w : F32) : val (flush w) = 0 ∨ 1 / 2 ^ 126 ≤ |val (flush w)| := by
  rcases Nat.eq_zero_or_pos (magUnits (flush w)) with h0 | hpos
  · exact .inl (by simp [val_eq_signOf, h0])
  · right
    obtain ⟨m, e, hm, _, he⟩ := exists_significand hpos.ne'
    have hmag : 2 ^ 23 ≤ magUnits (flush w) := he ▸ hm.trans (Nat.le_mul_of_pos_right m (Nat.two_pow_pos e))
    have hmag : (2 ^ 23 : ℝ) ≤ magUnits (flush w) := by exact_mod_cast hmag
    rw [abs_val, le_div_iff₀ (by positivity)]
    exact le_trans (by norm_num) hmag

theorem abs_val_le_of_isFinite (h : isFinite w = true) : |val w| ≤ 2 ^ 128 - 2 ^ 104 := by
  have hmag : (magUnits w : ℝ) ≤ ((2 ^ 24 - 1) * 2 ^ 253 : ℕ) := by exact_mod_cast magUnits_lt_of_isFinite h
  rw [abs_val, div_le_iff₀ (by positivity)]
  exact hmag.trans (by norm_num)

/-- The value of a flushed finite word is its own rounding. -/
theorem RoundsTo.val_eq_of_word (h : RoundsTo (val (flush w)) y) (hw : isFinite w = true) :
    isFinite y = true ∧ val y = val (flush w) := by
  have hfin := isFinite_flush hw
  rcases val_flush_eq_zero_or_le w with h0 | hlo
  · have hy : isZero y = true := h.tiny (by rw [h0]; norm_num)
    exact ⟨isFinite_of_isZero hy, by rw [h0, val_of_isZero hy]⟩
  · have hhi : |val (flush w)| < 2 ^ 128 - 2 ^ 103 := (abs_val_le_of_isFinite hfin).trans_lt (by norm_num)
    have hnear := h.nearest hlo hhi _ hfin
    rw [sub_self, abs_zero] at hnear
    exact ⟨h.normal hlo hhi, sub_eq_zero.mp (abs_nonpos_iff.mp hnear)⟩

end RoundWord

/-! ### Products with 1 and with 0, and the sum with a zero -/

section Products

variable {x a : F32}

theorem eq_signedInf_of_isInf (h : isInf x = true) : x = signedInf (signBit x) := by
  refine eq_of_signBit_of_mod (signBit_signedInf _).symm ?_
  have hmod : ∀ b, (signedInf b).toNat % 2 ^ 31 = 255 * 2 ^ 23 := by decide
  simp only [isInf, expField, fracField, Bool.and_eq_true, beq_iff_eq] at h
  rw [hmod]
  omega

theorem flush_fmul_of_isFinite (hx : isFinite x = true) (ha : isFinite a = true) : flush (fmul a x) = fmul a x := by
  rw [fmul, fmulFlushed_of_finite (isFinite_flush ha) (isFinite_flush hx), flush_roundTo]

theorem val_fmul_one (hx : isFinite x = true) :
    isFinite (fmul lit.one x) = true ∧ val (fmul lit.one x) = val (flush x) := by
  obtain ⟨_, _, hmul, _⟩ := arithmetic_of_finite (a := lit.one) (by decide) hx
  rw [flush_one, val_one, one_mul] at hmul
  exact hmul.val_eq_of_word hx

theorem fmul_one_of_isInf (hx : isInf x = true) : fmul lit.one x = x := by
  have h1 : val (flush lit.one) ≠ 0 := by rw [flush_one, val_one]; exact one_ne_zero
  obtain ⟨_, _, _, _, _, _, _, hmul⟩ := arithmetic_of_isInf_of_finite (b := lit.one) hx (by decide)
  rw [(hmul h1).2, show signBit lit.one = false by decide, Bool.bne_false, ← eq_signedInf_of_isInf hx]

/-- The product of +0 and a finite word is a zero of that word's sign. -/
theorem fmul_zero_of_isFinite (ha : isFinite a = true) : fmul lit.zero a = signedZero (signBit a) := by
  have hzero : ∀ b, roundTo b 0 (2 ^ 149) = signedZero b := by decide +kernel
  rw [fmul, fmulFlushed_of_finite (by decide) (isFinite_flush ha), show magUnits (flush lit.zero) = 0 by decide,
    Nat.zero_mul, hzero, signBit_flush, signBit_flush, show signBit lit.zero = false by decide, Bool.false_bne]

theorem isNaN_fmul_zero (ha : isFinite a = false) : isNaN (fmul lit.zero a) = true := by
  rcases class_cases a with ⟨hn, _, _⟩ | ⟨_, hi, _⟩ | ⟨_, _, hf⟩
  · exact isNaN_fmul (.inr hn)
  · obtain ⟨_, _, _, _, _, _, hmul, _⟩ := arithmetic_of_isInf_of_finite (b := lit.zero) hi (by decide)
    exact (hmul (by rw [flush_zero, val_zero])).2
  · rw [ha] at hf
    cases hf

theorem isFinite_signedZero (neg : Bool) : isFinite (signedZero neg) = true := isFinite_of_isZero (isZero_signedZero neg)

/-- A zero of either sign added to a finite word leaves its value. -/
theorem val_fadd_signedZero (ha : isFinite a = true) (neg : Bool) :
    isFinite (fadd a (signedZero neg)) = true ∧ val (fadd a (signedZero neg)) = val (flush a) := by
  obtain ⟨hadd, _⟩ := arithmetic_of_finite ha (isFinite_signedZero neg)
  rw [flush_signedZero, val_of_isZero (isZero_signedZero neg), add_zero] at hadd
  exact hadd.val_eq_of_word ha

/-- `1 * x` plus a zero of either sign is the number `x`. -/
theorem feq_one_mul_add_signedZero (hx : isNaN x = false) (neg : Bool) :
    feq (fadd (fmul lit.one x) (signedZero neg)) x = true := by
  rcases class_cases x with ⟨hn, _, _⟩ | ⟨_, hi, _⟩ | ⟨_, _, hf⟩
  · rw [hx] at hn
    cases hn
  · obtain ⟨hadd, _⟩ := arithmetic_of_isInf_of_finite hi (isFinite_signedZero neg)
    rw [fmul_one_of_isInf hi, hadd]
    exact feq_iff.mpr ⟨hx, hx, rfl⟩
  · obtain ⟨hmul, hval⟩ := val_fmul_one hf
    obtain ⟨hadd, hsum⟩ := val_fadd_signedZero hmul neg
    rw [flush_fmul_of_isFinite hf (by decide), hval] at hsum
    exact feq_iff.mpr ⟨isNaN_of_isFinite hadd, hx, by rw [flush_fadd, hsum]⟩

end Products

/-! ### The stage with tone 0 -/

theorem deriveTone_zero (k : DistConsts) : deriveTone 0 k = { k with alpha := lit.zero, beta := lit.one } := by
  have halpha : fmul 0 lit.toneScale = lit.zero := by decide +kernel
  have hbeta : fsub lit.one lit.zero = lit.one := by decide +kernel
  rw [deriveTone, halpha, hbeta]

theorem tone_zero (k : DistConsts) (c : Channel) (x : F32) (ds : DistState) :
    (tone (deriveTone 0 k) c x ds).1 = fadd (fmul lit.one x) (fmul lit.zero ds.toneY1[c]) := by
  rw [deriveTone_zero]
  rfl

theorem tone_zero_of_isFinite (k : DistConsts) {c : Channel} (x : F32) {ds : DistState}
    (h : isFinite ds.toneY1[c] = true) :
    (tone (deriveTone 0 k) c x ds).1 = fadd (fmul lit.one x) (signedZero (signBit ds.toneY1[c])) := by
  rw [tone_zero, fmul_zero_of_isFinite h]

/-- Settles O38: a finite state word adds a zero, any other one adds a NaN. -/
theorem toneAtZeroPassesInput : Obligations.ToneAtZeroPassesInput := by
  unfold Obligations.ToneAtZeroPassesInput
  refine ⟨fun _ _ _ _ => rfl, fun k c x ds => ⟨?alpha, ?beta, ?number, ?nan, ?negativeZero, ?notFinite⟩⟩
  case alpha => rw [deriveTone_zero]; rfl
  case beta => rw [deriveTone_zero]; rfl
  case number =>
    intro hy hx
    rw [tone_zero_of_isFinite k x hy]
    exact feq_one_mul_add_signedZero hx _
  case nan =>
    intro _ hx
    rw [tone_zero]
    exact isNaN_fadd (.inl (isNaN_fmul (.inr hx)))
  case negativeZero =>
    intro hy hsign hx
    rw [tone_zero_of_isFinite k x hy, hsign, hx]
    decide +kernel
  case notFinite =>
    intro hy
    rw [tone_zero]
    exact isNaN_fadd (.inr (isNaN_fmul_zero hy))

end Sys2Proof.Machine
end

section
/-! PROOF. A biquad section from zero taps (42_biquad_iir_cascade.md R150, R155): the product of a finite coefficient and a zero
tap is a zero, so the four accumulations after `b0 * x` add or subtract zeros and leave its value. -/

namespace Sys2Proof.Machine

open Sys2Proof.Config

/-! ### Zero operands -/

section ZeroOperand

variable {a z : F32}

theorem val_flush_of_isZero (h : isZero z = true) : val (flush z) = 0 := by
  have hle := abs_val_flush_le z
  rw [val_of_isZero h, abs_zero] at hle
  exact abs_nonpos_iff.mp hle

theorem isZero_fmul_of_isFinite_of_isZero (ha : isFinite a = true) (hz : isZero z = true) : isZero (fmul a z) = true := by
  obtain ⟨_, _, hmul, _⟩ := arithmetic_of_finite ha (isFinite_of_isZero hz)
  rw [val_flush_of_isZero hz, mul_zero] at hmul
  exact hmul.tiny (by norm_num)

theorem feq_trans {b c : F32} (h : feq a b = true) (h' : feq b c = true) : feq a c = true := by
  obtain ⟨ha, _, hab⟩ := feq_iff.mp h
  obtain ⟨_, hc, hbc⟩ := feq_iff.mp h'
  exact feq_iff.mpr ⟨ha, hc, hab.trans hbc⟩

/-- A rounding of a finite word's flushed value is the same number. -/
theorem RoundsTo.feq_of_word {y : F32} (h : RoundsTo (val (flush a)) y) (ha : isFinite a = true) (hy : flush y = y) :
    feq y a = true := by
  obtain ⟨hfin, hval⟩ := h.val_eq_of_word ha
  exact feq_iff.mpr ⟨isNaN_of_isFinite hfin, isNaN_of_isFinite ha, by rw [hy, hval]⟩

/-- Adding or subtracting a zero of either sign leaves the number, an infinity included. -/
theorem feq_add_sub_of_isZero (ha : isNaN a = false) (hz : isZero z = true) :
    feq (fadd a z) a = true ∧ feq (fsub a z) a = true := by
  have hzfin := isFinite_of_isZero hz
  rcases class_cases a with ⟨hn, _, _⟩ | ⟨_, hinf, _⟩ | ⟨_, _, hfin⟩
  · rw [ha] at hn
    cases hn
  · obtain ⟨hadd, _, hsub, _⟩ := arithmetic_of_isInf_of_finite hinf hzfin
    rw [hadd, hsub]
    have hself : feq a a = true := feq_iff.mpr ⟨ha, ha, rfl⟩
    exact ⟨hself, hself⟩
  · obtain ⟨hadd, hsub, _⟩ := arithmetic_of_finite hfin hzfin
    rw [val_flush_of_isZero hz, add_zero] at hadd
    rw [val_flush_of_isZero hz, sub_zero] at hsub
    exact ⟨hadd.feq_of_word hfin (flush_fadd a z), hsub.feq_of_word hfin (flush_fsub a z)⟩

theorem isNaN_of_feq (h : feq z a = true) : isNaN z = false := (feq_iff.mp h).1

end ZeroOperand

/-! ### The section (R150) -/

theorem bq_output (t : Taps) (k : Coefs) (x : F32) :
    (bq t k x).1 =
      fsub (fsub (fadd (fadd (fmul k.b0 x) (fmul k.b1 t.x1)) (fmul k.b2 t.x2)) (fmul k.a1 t.y1)) (fmul k.a2 t.y2) := rfl

theorem bq_taps (t : Taps) (k : Coefs) (x : F32) : (bq t k x).2 = ⟨x, t.x1, (bq t k x).1, t.y1⟩ := rfl

theorem flush_bq_output (t : Taps) (k : Coefs) (x : F32) : flush (bq t k x).1 = (bq t k x).1 := by
  rw [bq_output, flush_fsub]

/-- The products of the taps are zeros, so the accumulations keep the number `b0 * x`. -/
theorem feq_bq_output {t : Taps} {k : Coefs} {x : F32} (h1 : isZero (fmul k.b1 t.x1) = true)
    (h2 : isZero (fmul k.b2 t.x2) = true) (h3 : isZero (fmul k.a1 t.y1) = true) (h4 : isZero (fmul k.a2 t.y2) = true)
    (hx : isNaN (fmul k.b0 x) = false) : feq (bq t k x).1 (fmul k.b0 x) = true := by
  have e1 := (feq_add_sub_of_isZero hx h1).1
  have e2 := (feq_add_sub_of_isZero (isNaN_of_feq e1) h2).1
  have e3 := (feq_add_sub_of_isZero (isNaN_of_feq e2) h3).2
  have e4 := (feq_add_sub_of_isZero (isNaN_of_feq e3) h4).2
  rw [bq_output]
  exact feq_trans e4 (feq_trans e3 (feq_trans e2 e1))

/-- Settles O42: the output has the value of `b0 * x`, which is a zero for a zero input. -/
theorem sectionsKeepSilence : Obligations.SectionsKeepSilence := by
  unfold Obligations.SectionsKeepSilence
  intro k hb0 hb1 hb2 ha1 ha2 t hx1 hx2 hy1 hy2
  have hout : ∀ x, isNaN (fmul k.b0 x) = false → feq (bq t k x).1 (fmul k.b0 x) = true := fun x =>
    feq_bq_output (isZero_fmul_of_isFinite_of_isZero hb1 hx1) (isZero_fmul_of_isFinite_of_isZero hb2 hx2)
      (isZero_fmul_of_isFinite_of_isZero ha1 hy1) (isZero_fmul_of_isFinite_of_isZero ha2 hy2)
  refine ⟨fun x hx => ?silence, hout⟩
  case silence =>
    have hprod := isZero_fmul_of_isFinite_of_isZero hb0 hx
    obtain ⟨_, _, hval⟩ := feq_iff.mp (hout x (isNaN_of_isFinite (isFinite_of_isZero hprod)))
    rw [flush_bq_output, val_flush_of_isZero hprod, val_eq_zero_iff] at hval
    rw [bq_taps]
    exact ⟨hval, hx, hx1, hval, hy1⟩

end Sys2Proof.Machine
end

section
/-! PROOF. The dry and the wet block of `PROC.R` (42_biquad_iir_cascade.md R151, 49_reverb_pipeline_and_system.md R283): the
filter pass runs `CUTS` over each channel's samples, the passes between it and the mix leave `BUF_R` and the taps alone, and
the mix combines each word of `BUF_R` with the same word of `WET_R`. -/

namespace Sys2Proof.Machine

open Sys2Proof.Config

/-! ### A sweep without state -/

/-- A sweep of a stage without state rewrites each of its words by itself. -/
theorem memWord_sweep_stateless {addr : Channel → Nat → Nat} (f : Nat → Channel → F32 → Unit → F32 × Unit)
    {l : List (Nat × Channel)} (hl : l.Nodup)
    (hdis : ∀ p ∈ l, ∀ q ∈ l, p ≠ q → addr p.2 p.1 + 4 ≤ addr q.2 q.1 ∨ addr q.2 q.1 + 4 ≤ addr p.2 p.1)
    {n : Nat} {c : Channel} (hp : (n, c) ∈ l) (m : Memory) :
    memWord (sweep addr f l m ()).1 (addr c n) = (f n c (memWord m (addr c n)) ()).1 := by
  induction l generalizing m with
  | nil => cases hp
  | cons q t ih =>
    obtain ⟨k, c'⟩ := q
    obtain ⟨hnotMem, ht⟩ := List.nodup_cons.mp hl
    have hhead : ∀ p ∈ t, addr c' k + 4 ≤ addr p.2 p.1 ∨ addr p.2 p.1 + 4 ≤ addr c' k := fun p hpt =>
      hdis (k, c') List.mem_cons_self p (List.mem_cons_of_mem _ hpt) fun e => hnotMem (e ▸ hpt)
    rw [sweep_cons]
    rcases List.mem_cons.mp hp with heq | hpt
    · obtain ⟨rfl, rfl⟩ := Prod.mk.inj heq
      rw [sweep_memWord_of_disjoint _ _ _ _ _ _ fun k' c'' hq => hhead (k', c'') hq, memWord_setWord_same]
    · rw [ih ht (fun p hp q hq => hdis p (List.mem_cons_of_mem _ hp) q (List.mem_cons_of_mem _ hq)) hpt,
        memWord_setWord_of_disjoint _ _ (hhead (n, c) hpt).symm]

/-! ### The mix (R283 step 8) -/

section Mix

variable {nch len : Nat} {c : Channel}

theorem memWord_mixPass (hc : c.val < nch) (hlen : len ≤ blkCap) {n : Nat} (hn : n < len) (s : State) :
    memWord (mixPass nch len s).mem (bufRAddr c n) =
      mixSample s.pr.mix (memWord s.mem (bufRAddr c n)) (memWord s.wet (wetAddr c n)) :=
  memWord_sweep_stateless _ (nodup_positions nch len)
    (fun _ hp _ hq => bufRAddr_disjoint ((mem_positions.mp hp).1.trans_le hlen) ((mem_positions.mp hq).1.trans_le hlen))
    (mem_positions.mpr ⟨hn, hc⟩) s.mem

/-- The mixed words of a channel, from its words of `BUF_R` and of `WET_R` before the mix. -/
theorem channelWords_mixPass (hc : c.val < nch) (hlen : len ≤ blkCap) (s : State) :
    channelWords bufRAddr c len (mixPass nch len s).mem =
      List.zipWith (mixSample s.pr.mix) (channelWords bufRAddr c len s.mem) (channelWords wetAddr c len s.wet) := by
  simp only [channelWords, List.zipWith_map, List.zipWith_self]
  exact List.map_congr_left fun n hn => memWord_mixPass hc hlen (List.mem_range.mp hn) s

end Mix

/-! ### The taps after the filter pass -/

/-- The two engines hold the same taps of both cuts. -/
def SameTaps (a b : RevState) : Prop := b.lc = a.lc ∧ b.hc = a.hc

theorem predelayPass_sameTaps (nch len : Nat) (s : State) : SameTaps s.rs (predelayPass nch len s).rs := by
  unfold predelayPass
  split
  · exact sweep_induct wetAddr (fun _ c x st => pop s.rk.dlyD c x st) (fun _ st => SameTaps s.rs st.1) _ _ _ ⟨rfl, rfl⟩
      fun _ _ _ _ _ h => h
  · exact ⟨rfl, rfl⟩

theorem modulationPass_sameTaps (nch len : Nat) (s : State) : SameTaps s.rs (modulationPass nch len s).rs := by
  rcases modulationPass_cases nch len s with h | ⟨_, _, h⟩ <;> rw [h] <;> exact ⟨rfl, rfl⟩

/-- After the filter pass no pass steps a cut. -/
theorem reverbPasses_sameTaps (nch len : Nat) (s : State) : SameTaps (filterPass nch len s).rs (reverbPasses nch len s).rs := by
  have hpre := predelayPass_sameTaps nch len (copyPass nch len (filterPass nch len s))
  have hmod := modulationPass_sameTaps nch len
    (externalCall nch len (predelayPass nch len (copyPass nch len (filterPass nch len s))))
  exact ⟨hmod.1.trans hpre.1, hmod.2.trans hpre.2⟩

/-! ### The block -/

section Block

variable {nch len : Nat} {c : Channel}

/-- The filter pass runs `CUTS` over each live channel's samples (R283 step 3). -/
theorem filterPass_channel (hc : c.val < nch) (hlen : len ≤ blkCap) (s : State) :
    channelWords bufRAddr c len (filterPass nch len s).mem = (cutsRun s.rk c (channelWords bufRAddr c len s.mem) s.rs).1 ∧
    (filterPass nch len s).rs.lc[c] = (cutsRun s.rk c (channelWords bufRAddr c len s.mem) s.rs).2.lc[c] ∧
    (filterPass nch len s).rs.hc[c] = (cutsRun s.rk c (channelWords bufRAddr c len s.mem) s.rs).2.hc[c] :=
  cuts_sweep s.rk hc hlen s.mem s.rs

/-- The block of one channel: `CUTS` over its samples, mixed with what the passes leave in `WET_R`. -/
theorem channelWords_reverbPasses (hc : c.val < nch) (hlen : len ≤ blkCap) (s : State) :
    channelWords bufRAddr c len (reverbPasses nch len s).mem =
      List.zipWith (mixSample s.pr.mix) (cutsRun s.rk c (channelWords bufRAddr c len s.mem) s.rs).1
        (channelWords wetAddr c len (reverbPasses nch len s).wet) := by
  rw [reverbPasses, channelWords_mixPass hc hlen, ← (filterPass_channel hc hlen s).1]
  simp

theorem reverbPasses_taps (hc : c.val < nch) (hlen : len ≤ blkCap) (s : State) :
    (reverbPasses nch len s).rs.lc[c] = (cutsRun s.rk c (channelWords bufRAddr c len s.mem) s.rs).2.lc[c] ∧
    (reverbPasses nch len s).rs.hc[c] = (cutsRun s.rk c (channelWords bufRAddr c len s.mem) s.rs).2.hc[c] := by
  obtain ⟨hlc, hhc⟩ := reverbPasses_sameTaps nch len s
  rw [hlc, hhc]
  exact (filterPass_channel hc hlen s).2

/-- A `PROC.R` that leaves no fault recorded passed its checks and ran the block. -/
theorem procR_of_trap_none {s t : State} (h : exec (.procR nch len) s = .next t) (ht : t.trap = none) :
    len ≤ s.rs.maxblk ∧ ∃ sel d, t = reverbPasses nch len (startBlockR sel d s) := by
  have hfault : ∀ cause, execProcR nch len s ≠ .next (raiseFault cause s) := fun cause hf => by
    obtain rfl := Host.Outcome.next.inj (h.symm.trans hf)
    rw [raiseFault_trap] at ht
    cases ht
  rcases execProcR_cases nch len s with ⟨_, hf⟩ | ⟨_, _, hf⟩ | ⟨_, _, _, hf⟩ | ⟨_, _, _, _, _, hf⟩ |
    ⟨sel, d, _, hblock, _, _, hrun⟩
  · exact absurd hf (hfault _)
  · exact absurd hf (hfault _)
  · exact absurd hf (hfault _)
  · exact absurd hf (hfault _)
  · exact ⟨(of_decide_eq_true hblock).2, sel, d, Host.Outcome.next.inj (h.symm.trans hrun)⟩

end Block

/-- Settles O41: the filter pass is the run of `CUTS` on each channel, and only the mix writes `BUF_R` after it. -/
theorem cutsFilterTheDryBlock : Obligations.CutsFilterTheDryBlock := by
  unfold Obligations.CutsFilterTheDryBlock
  refine ⟨fun t k x => ⟨bq_output t k x, bq_taps t k x⟩, fun _ _ _ _ => ⟨rfl, rfl⟩, ?block⟩
  case block =>
    intro nch n s t _ hmax hexec htrap c hc
    obtain ⟨hn, sel, d, rfl⟩ := procR_of_trap_none hexec htrap
    have hlen : n ≤ blkCap := hn.trans hmax
    rw [reverbPasses_rk]
    exact ⟨channelWords_reverbPasses hc hlen (startBlockR sel d s), reverbPasses_taps hc hlen (startBlockR sel d s)⟩

end Sys2Proof.Machine
end

section
/-! PROOF. The DestroyStage (43_destroy_stage.md R171, R172): the bypass and the NaN amount, and the active path line by
line, whose fold at 0.6 is one reflection at most because it folds a sine. -/

namespace Sys2Proof.Machine

open Sys2Proof.Config

/-! ### The fold at 0.6 (R172, 40_waveshaper_lut.md R124) -/

/-- One reflection at the threshold 0.6 for a sample outside it, none inside. -/
def destroyReflect (v : F32) : F32 :=
  if fgt v lit.destroyFold then fsub destroyTurn v
  else if flt v (fneg lit.destroyFold) then fsub (fneg destroyTurn) v
  else v

/-- The reflection with the words of R172's 0.6 and its double written out. -/
theorem destroyReflect_eq (v : F32) :
    destroyReflect v =
      if flt 0x3F19999A v then fsub 0x3F99999A v else if flt v 0xBF19999A then fsub 0xBF99999A v else v := by
  rw [destroyReflect, show fneg lit.destroyFold = 0xBF19999A by decide, show fneg destroyTurn = 0xBF99999A by decide]
  rfl

theorem fold_destroyFold_eq (v : F32) : fold v lit.destroyFold = foldLoop lit.destroyFold destroyTurn (63 + 1) v := by
  rw [fold, two_mul_destroyFold]

/-- A sample of [-1, 1] needs one reflection at most, which brings it inside the threshold; a NaN needs none. -/
theorem fold_destroyFold {v : F32} (h : isNaN v = false → inSym v = true) :
    fold v lit.destroyFold = some (destroyReflect v) := by
  have hreflected {c : F32} (hn : isNaN v = false) (hc : c = destroyTurn ∧ val lit.destroyFold < val (flush v) ∨
      c = fneg destroyTurn ∧ val (flush v) < -val lit.destroyFold) :
      foldLoop lit.destroyFold destroyTurn 63 (fsub c v) = some (fsub c v) := by
    have hle := abs_val_destroyTurn_sub hc (isFinite_of_inSym (h hn)) (inSym_iff.mp (h hn)).2
    exact foldLoop_of_abs_le isNaN_destroyFold flush_destroyFold (by rwa [flush_fsub]) 63
  rw [fold_destroyFold_eq, destroyReflect]
  split_ifs with hgt hlt
  · obtain ⟨hn, hval⟩ := (fgt_threshold isNaN_destroyFold flush_destroyFold).mp hgt
    rw [foldLoop_succ_of_fgt hgt, hreflected hn (.inl ⟨rfl, hval⟩)]
  · obtain ⟨hn, hval⟩ := (flt_fneg_threshold isNaN_destroyFold flush_destroyFold).mp hlt
    rw [foldLoop_succ_of_flt hgt hlt, hreflected hn (.inr ⟨rfl, hval⟩)]
  · exact foldLoop_of_within hgt hlt _

/-- `SIN` is a NaN or lies in [-1, 1] (00_scope.md R13). -/
theorem inSym_sin {u : F32} (h : isNaN (sin u) = false) : inSym (sin u) = true := by
  cases hu : isFinite u with
  | false => simp [isNaN_sin hu] at h
  | true => exact sin_inSym hu

theorem fold_sin (u : F32) : fold (sin u) lit.destroyFold = some (destroyReflect (sin u)) := fold_destroyFold inSym_sin

/-! ### The active path (R172) -/

/-- The low branch of the sample gained by `k_in`. -/
def destroyLow (k : DistConsts) (x : F32) : F32 := fmul (tanh (fmul (fmul x k.kIn) lit.lowPreScale)) k.kLow

/-- The resonant branch before its fold, from the section's output. -/
def destroyResonant (k : DistConsts) (b : F32) : F32 :=
  sin (fmul (tanh (fmul (fmul (fmul b k.kRes) k.kPre) lit.resTanhScale)) lit.pi2)

/-- The mix of the low branch with the folded resonant branch, its saturation and its rescaling. -/
def destroyMixed (k : DistConsts) (low f : F32) : F32 :=
  tanh (fmul (tanh (fmul (fmul (fadd (fmul low k.kMixlow) (fmul f k.kMixres)) k.kSat) lit.satFactor)) k.kResc)

/-- The active path in closed form: the fold of R172 is the one reflection. -/
theorem destroyActive_eq (k : DistConsts) (c : Channel) (x : F32) (ds : DistState) :
    destroyActive k c x ds =
      some (destroyMixed k (destroyLow k x) (destroyReflect (destroyResonant k (bq ds.dtap[c] k.dcoef (fmul x k.kIn)).1)),
        { ds with dtap := ds.dtap.set c (bq ds.dtap[c] k.dcoef (fmul x k.kIn)).2 }) := by
  simp only [destroyActive, fold_sin]
  rfl

/-- `TANH` is a NaN or lies in [-1, 1] (00_scope.md R13). -/
theorem isNaN_or_inSym_tanh (u : F32) : isNaN (tanh u) = true ∨ inSym (tanh u) = true := by
  cases hu : isNaN u with
  | true => exact .inl (tanh_nan hu)
  | false => exact .inr (tanh_inSym hu)

/-- Settles O40: the closed form of the active path, with the taps of `bq_taps` and the bound of its last `TANH`. -/
theorem destroyActiveIsBounded : Obligations.DestroyActiveIsBounded := by
  unfold Obligations.DestroyActiveIsBounded
  rintro k c x ds g low b r f o y rfl rfl rfl rfl rfl rfl rfl
  refine ⟨?value, isNaN_or_inSym_tanh _⟩
  case value =>
    rw [← destroyReflect_eq, destroyActive_eq, bq_taps]
    rfl

/-! ### The bypass and the NaN amount (R171) -/

theorem destroy_of_amount_le_zero {k : DistConsts} (h : fle k.amount lit.zero = true) (c : Channel) (x : F32)
    (ds : DistState) : destroy k c x ds = some (x, ds) := if_pos h

/-- A NaN amount compares with nothing, so the active path runs; only its value is replaced (log 14). -/
theorem destroy_of_isNaN_amount {k : DistConsts} {c : Channel} {x : F32} {ds : DistState} {r : F32 × DistState}
    (h : isNaN k.amount = true) (hactive : destroyActive k c x ds = some r) :
    destroy k c x ds = some (someNaN .destroy k.amount x, r.2) := by
  simp [destroy, fle_nan (.inl h), hactive, h]

/-- R223: the later derivations of a block keep the amount. -/
theorem deriveDist_amount (p : SnapD) (len : Nat) (ds : DistState) (k : DistConsts) :
    (deriveDist p len ds k).amount = fdiv p.destroy lit.destroyDivisor := by
  simp only [deriveDist]
  split_ifs <;> rfl

/-- Settles O39: a NaN parameter divides to a NaN amount, with which the active path answers by `destroyActive_eq`. -/
theorem destroyPassthrough : Obligations.DestroyPassthrough := by
  unfold Obligations.DestroyPassthrough
  refine ⟨fun k c x ds h => destroy_of_amount_le_zero h c x ds, fun p len ds0 k0 c x ds hp => ?nan⟩
  case nan =>
    have hamount : isNaN (deriveDist p len ds0 k0).amount = true := by
      rw [deriveDist_amount]
      exact isNaN_fdiv (.inl hp)
    have hactive := destroyActive_eq (deriveDist p len ds0 k0) c x ds
    exact ⟨_, _, _, destroy_of_isNaN_amount hamount hactive, isNaN_someNaN _ _ _, hactive⟩

end Sys2Proof.Machine
end

section
/-! PROOF. The GhostStage (44_ghost_stage.md): what the main pass leaves of the ghost state, the pass that does not run (R191),
one sample and each channel's samples (R187 to R189), and silence, along which every product is a zero and every sum +0
(R193). -/

namespace Sys2Proof.Machine

open Sys2Proof.Config

/-! ### The engine after the main pass (45_distortion_pipeline.md R204, R205) -/

section MainPass

variable {sel : Instr} {k : DistConsts} {c : Channel} {x : F32} {ds : DistState} {r : F32 × DistState}

/-- The destroy stage steps the taps of its resonant section only. -/
theorem destroy_state (h : destroy k c x ds = some r) : ∃ taps, r.2 = { ds with dtap := taps } := by
  unfold destroy at h
  split at h
  · obtain rfl := Option.some.inj h
    exact ⟨ds.dtap, rfl⟩
  · rw [destroyActive_eq] at h
    obtain rfl := Option.some.inj h
    exact ⟨_, rfl⟩

/-- A sample through `CHAIN` steps the tone words and the destroy taps only. -/
theorem chain_state {p : SnapD} (h : chain p sel k c x ds = some r) :
    ∃ y1 taps, r.2 = { ds with toneY1 := y1, dtap := taps } := by
  unfold chain at h
  cases hws : ws sel (fmul x p.drive) with
  | none => simp [hws] at h
  | some y =>
    simp only [hws] at h
    cases hdestroy : destroy k c (tone k c y ds).1 (tone k c y ds).2 with
    | none => simp [hdestroy] at h
    | some z =>
      simp only [hdestroy, Option.some.injEq] at h
      obtain ⟨taps, hz⟩ := destroy_state hdestroy
      obtain rfl := h
      exact ⟨_, taps, hz⟩

variable {nch n : Nat} {s t : State}

/-- The main pass writes `BUF_D`, the tone words and the destroy taps; the ghost state and the constants stay. -/
theorem mainPass_state (h : mainPass sel nch n s = some t) :
    ∃ m y1 taps, t = { s with mem := m, ds := { s.ds with toneY1 := y1, dtap := taps } } := by
  obtain ⟨r, hr, rfl⟩ := mainPass_cases h
  have hds : ∃ y1 taps, r.2 = { s.ds with toneY1 := y1, dtap := taps } :=
    sweepFault_induct bufDAddr _ (fun _ ds => ∃ y1 taps, ds = { s.ds with toneY1 := y1, dtap := taps }) _ _ _ hr
      ⟨_, _, rfl⟩ fun _ _ _ _ _ _ ⟨_, _, hst⟩ hy => by
        obtain ⟨y1, taps, he⟩ := chain_state hy
        exact ⟨y1, taps, by rw [he, hst]⟩
  obtain ⟨y1, taps, he⟩ := hds
  exact ⟨r.1, y1, taps, by rw [he]⟩

/-- A `PROC.D` that leaves no fault recorded passed its checks and ran its main pass to the end. -/
theorem procD_of_trap_none (h : exec (.procD nch n) s = .next t) (ht : t.trap = none) :
    n ≤ s.ds.maxblk ∧ ∃ sel, mainPass sel nch n (ghostPass nch n (startBlockD n s)) = some t := by
  have hfault : ∀ u : State, execProcD nch n s = .next u → u.trap = none := fun u hu => by
    obtain rfl := Host.Outcome.next.inj (h.symm.trans hu)
    exact ht
  rcases execProcD_cases nch n s with ⟨_, hf⟩ | ⟨_, _, hf⟩ | ⟨_, _, _, hf⟩ |
    ⟨sel, _, hblock, _, ⟨u, hmain, hrun⟩ | ⟨_, hf⟩⟩
  · cases hfault _ hf
  · cases hfault _ hf
  · cases hfault _ hf
  · obtain rfl := Host.Outcome.next.inj (h.symm.trans hrun)
    exact ⟨(of_decide_eq_true hblock).2, sel, hmain⟩
  · cases hfault _ hf

/-- After such a `PROC.D` the constants are those of the block, and the ghost state is what the ghost pass left. -/
theorem procD_ghostState (h : exec (.procD nch n) s = .next t) (ht : t.trap = none) :
    n ≤ s.ds.maxblk ∧ t.dk = (startBlockD n s).dk ∧ t.ds.gs1 = (ghostPass nch n (startBlockD n s)).ds.gs1 ∧
      t.ds.gs2 = (ghostPass nch n (startBlockD n s)).ds.gs2 ∧
      t.ds.gphase = (ghostPass nch n (startBlockD n s)).ds.gphase := by
  obtain ⟨hn, sel, hmain⟩ := procD_of_trap_none h ht
  obtain ⟨m, y1, taps, rfl⟩ := mainPass_state hmain
  exact ⟨hn, ghostPass_dk nch n _, rfl, rfl, rfl⟩

end MainPass

/-! ### Ghost off (R191) -/

/-- With ghost off the derivations keep the five ghost constants (46_parameter_mapper.md R226 to R228; log 22). -/
theorem deriveDist_of_ghost_off {p : SnapD} (h : p.ghost = false) (len : Nat) (ds : DistState) (k : DistConsts) :
    (deriveDist p len ds k).gfc = k.gfc ∧ (deriveDist p len ds k).gg = k.gg ∧ (deriveDist p len ds k).gR2 = k.gR2 ∧
      (deriveDist p len ds k).gh = k.gh ∧ (deriveDist p len ds k).ginc = k.ginc := by
  have hskip : ¬ p.ghost = true := by rw [h]; exact Bool.false_ne_true
  simp only [deriveDist, if_neg hskip]
  split_ifs <;> exact ⟨rfl, rfl, rfl, rfl, rfl⟩

/-- Settles O28: the pass is the identity, and neither the derivations nor the main pass write a ghost word. -/
theorem ghostOffTouchesNoGhostState : Obligations.GhostOffTouchesNoGhostState := by
  unfold Obligations.GhostOffTouchesNoGhostState
  intro nch n s t _ hoff hexec htrap
  obtain ⟨_, hdk, h1, h2, hphase⟩ := procD_ghostState hexec htrap
  rw [ghostPass_of_off (s := startBlockD n s) hoff] at h1 h2 hphase ⊢
  rw [hdk]
  exact ⟨rfl, rfl, h1, h2, hphase, deriveDist_of_ghost_off hoff n s.ds s.dk⟩

/-! ### Each channel by itself (R189) -/

/-- With ghost on the pass runs `GHOST` over each live channel's samples, from that channel's filter words. -/
theorem ghostPass_channel {nch n : Nat} {c : Channel} {s : State} (hon : s.pd.ghost = true) (hc : c.val < nch)
    (hn : n ≤ blkCap) :
    channelWords bufDAddr c n (ghostPass nch n s).mem = (ghostRun s.dk c (channelWords bufDAddr c n s.mem) s.ds).1 ∧
    (ghostPass nch n s).ds.gs1[c] = (ghostRun s.dk c (channelWords bufDAddr c n s.mem) s.ds).2.gs1[c] ∧
    (ghostPass nch n s).ds.gs2[c] = (ghostRun s.dk c (channelWords bufDAddr c n s.mem) s.ds).2.gs2[c] := by
  rw [ghostPass, if_pos hon]
  exact ghost_sweep s.dk hc hn s.mem s.ds

/-! ### Silence (R193) -/

section Silence

variable {a z : F32}

/-- +0 is the sum of a zero of either sign and +0, and the difference of +0 and such a zero. -/
theorem add_sub_zero_of_isZero (hz : isZero z = true) : fadd z 0 = 0 ∧ fsub 0 z = 0 := by
  have hfin := isFinite_of_isZero hz
  have h0 : isZero 0 = true := by decide
  obtain ⟨_, _, _, _, hadd, _⟩ := arithmetic_of_finite hfin (isFinite_of_isZero h0)
  obtain ⟨_, _, _, _, _, hsub, _⟩ := arithmetic_of_finite (isFinite_of_isZero h0) hfin
  rw [val_flush_of_isZero hz, val_flush_of_isZero h0] at hadd hsub
  exact ⟨by rw [hadd (add_zero 0), show signBit 0 = false by decide, Bool.and_false]; rfl,
    by rw [hsub (sub_zero 0), show signBit 0 = false by decide, Bool.false_and]; rfl⟩

theorem isZero_fmul_of_isZero_of_isFinite (hz : isZero z = true) (ha : isFinite a = true) : isZero (fmul z a) = true := by
  obtain ⟨_, _, hmul, _⟩ := arithmetic_of_finite (isFinite_of_isZero hz) ha
  rw [val_flush_of_isZero hz, zero_mul] at hmul
  exact hmul.tiny (by norm_num)

end Silence

/-- The blend of the band-pass output and the sample; the state is the filter's (R188). -/
theorem ghost_eq (k : DistConsts) (c : Channel) (x : F32) (ds : DistState) :
    ghost k c x ds =
      (fadd (fmul lit.ghostWet (tanh (fmul (svf k c x ds).1 lit.ghostTanhScale))) (fmul lit.ghostDry x),
        (svf k c x ds).2) := rfl

/-- From zero filter words the filter answers +0 with +0 and keeps its words. -/
theorem svf_silence {k : DistConsts} {c : Channel} {ds : DistState} (hsum : isFinite (fadd k.gg k.gR2) = true)
    (hgg : isFinite k.gg = true) (hgh : isFinite k.gh = true) (h1 : ds.gs1[c] = 0) (h2 : ds.gs2[c] = 0) :
    svf k c 0 ds = (0, ds) := by
  have h0 : isZero 0 = true := by decide
  have herror : fsub (fsub 0 (fmul 0 (fadd k.gg k.gR2))) 0 = 0 := by
    rw [(add_sub_zero_of_isZero (isZero_fmul_of_isZero_of_isFinite h0 hsum)).2]
    exact (add_sub_zero_of_isZero h0).2
  have hband : fadd (fmul (fmul k.gh 0) k.gg) 0 = 0 :=
    (add_sub_zero_of_isZero
      (isZero_fmul_of_isZero_of_isFinite (isZero_fmul_of_isFinite_of_isZero hgh h0) hgg)).1
  have hlow : fadd (fmul 0 k.gg) 0 = 0 := (add_sub_zero_of_isZero (isZero_fmul_of_isZero_of_isFinite h0 hgg)).1
  have hkeep {v : PerChannel F32} (h : v[c] = 0) : v.set c 0 = v := by
    rw [← h]
    exact Vector.set_getElem_self _
  simp only [svf, h1, h2, herror, hband, hlow, hkeep h1, hkeep h2]

/-- Settles O29: one sample by definition, the pass channel by channel, and silence through the filter and the blend. -/
theorem ghostKeepsSilence : Obligations.GhostKeepsSilence := by
  unfold Obligations.GhostKeepsSilence
  refine ⟨?sample, ?pass, ?silence⟩
  case sample =>
    rintro k c x ds e t bp u rfl rfl rfl rfl
    rfl
  case pass =>
    intro nch n s t _ hmax hon hexec htrap c hc
    obtain ⟨hn, hdk, h1, h2, _⟩ := procD_ghostState hexec htrap
    rw [hdk, h1, h2]
    exact ghostPass_channel (s := startBlockD n s) hon hc (hn.trans hmax)
  case silence =>
    intro k c ds hsum hgg hgh h1 h2
    have hblend : fadd (fmul lit.ghostWet (tanh (fmul 0 lit.ghostTanhScale))) (fmul lit.ghostDry 0) = 0 := by decide +kernel
    rw [ghost_eq, svf_silence hsum hgg hgh h1 h2, hblend]

end Sys2Proof.Machine
end

section
/-! PROOF. The checks of `CFG` and of `PROC.D` (45_distortion_pipeline.md R201, R202, 60_exceptions.md R312 to R315): the rate
range as real bounds, each failing check, and that no type but Foldback can leave a block unfinished. -/

namespace Sys2Proof.Machine

open Sys2Proof.Config

/-! ### The operands of a CFG (R201, R290) -/

/-- The ends of the rate range are whole numbers of Hz, exactly. -/
theorem rate_ends : isNaN (f32OfNat fsMin) = false ∧ isNaN (f32OfNat fsMax) = false ∧
    val (flush (f32OfNat fsMin)) = 44100 ∧ val (flush (f32OfNat fsMax)) = 192000 := by
  refine ⟨by decide +kernel, by decide +kernel, ?_, ?_⟩
  · rw [val, show units (flush (f32OfNat fsMin)) = 44100 * 2 ^ 149 by decide +kernel]
    norm_num
  · rw [val, show units (flush (f32OfNat fsMax)) = 192000 * 2 ^ 149 by decide +kernel]
    norm_num

/-- The rate check in the flushed value that the comparisons see. -/
theorem rateOk_iff_flush {fs : F32} :
    rateOk fs = true ↔ isNaN fs = false ∧ 44100 ≤ val (flush fs) ∧ val (flush fs) ≤ 192000 := by
  obtain ⟨hmin, hmax, hlo, hhi⟩ := rate_ends
  rw [rateOk, fge, Bool.and_eq_true, fle_iff, fle_iff, hlo, hhi]
  tauto

/-- A legal rate is far from the subnormals and from the infinities, so flushing does not change it (R201). -/
theorem rateOk_iff {fs : F32} : rateOk fs = true ↔ isFinite fs = true ∧ 44100 ≤ val fs ∧ val fs ≤ 192000 := by
  constructor
  · intro h
    obtain ⟨_, hlo, hhi⟩ := rateOk_iff_flush.mp h
    have hflush : flush fs = fs :=
      flush_of_le_abs_val_flush (le_trans (by norm_num) (hlo.trans (le_abs_self _)))
    rw [hflush] at hlo hhi
    exact ⟨(rateOk_bounds h).1, hlo, hhi⟩
  · rintro ⟨hfin, hlo, hhi⟩
    have hflush : flush fs = fs := flush_of_le_abs_val (le_trans (by norm_num) (hlo.trans (le_abs_self _)))
    exact rateOk_iff_flush.mpr ⟨isNaN_of_isFinite hfin, by rwa [hflush], by rwa [hflush]⟩

/-- One operand out of range fails the check of a `CFG`. -/
theorem configOk_eq_false {nch maxblk : Nat} {fs : F32}
    (h : ¬(1 ≤ nch ∧ nch ≤ 2) ∨ ¬(1 ≤ maxblk ∧ maxblk ≤ 8192) ∨ rateOk fs = false) : configOk nch maxblk fs = false := by
  refine eq_false_of_ne_true fun hok => ?_
  obtain ⟨hnch, hmax, hrate⟩ := configOk_bounds hok
  rcases h with h | h | h
  · exact h hnch
  · exact h hmax
  · exact Bool.false_ne_true (h.symm.trans hrate)

/-- Settles O20: the rate check by values, and the branch of either `CFG` that a failed check takes. -/
theorem configurationRangesAreChecked : Obligations.ConfigurationRangesAreChecked := by
  unfold Obligations.ConfigurationRangesAreChecked
  refine ⟨fun fs => rateOk_iff, fun nch maxblk s h => ?cfgD, fun nch maxblk s h => ?cfgR⟩
  case cfgD =>
    rcases execCfgD_cases nch maxblk s with ⟨hok, _⟩ | ⟨_, he⟩
    · exact absurd ((configOk_eq_false h).symm.trans hok) Bool.false_ne_true
    · exact he
  case cfgR =>
    rcases execCfgR_cases nch maxblk s with ⟨hok, _⟩ | ⟨_, he⟩
    · exact absurd ((configOk_eq_false h).symm.trans hok) Bool.false_ne_true
    · exact he

/-! ### The checks of PROC.D in their order (R202) -/

theorem decodeDType_error_iff (w : Word) : (∃ e, decodeDType w = .error e) ↔ 5 ≤ w.toNat :=
  decode_selector_error_iff (f := .dtype) nofun w

theorem exists_decodeDType {w : Word} (h : w.toNat < 5) : ∃ sel, decodeDType w = .ok sel := by
  cases hd : decodeDType w with
  | ok sel => exact ⟨sel, rfl⟩
  | error e => exact absurd ((decodeDType_error_iff w).mp ⟨e, hd⟩) (by omega)

theorem blockOk_eq_true {nch len cfgNch cfgMaxblk : Nat} (h : blockOk nch len cfgNch cfgMaxblk = true) :
    ¬(nch ≠ cfgNch ∨ cfgMaxblk < len) := fun hne =>
  Bool.false_ne_true ((blockOk_eq_false.mpr hne).symm.trans h)

/-- Settles O22: each branch of the command, with what the passes leave of the fault state. -/
theorem procDChecksInOrder : Obligations.ProcDChecksInOrder := by
  unfold Obligations.ProcDChecksInOrder
  intro nch n s
  rcases execProcD_cases nch n s with ⟨hcfg, he⟩ | ⟨hcfg, hblock, he⟩ | ⟨hcfg, hblock, htype, he⟩ |
    ⟨sel, hcfg, hblock, htype, hrun⟩
  · rw [if_pos hcfg]
    exact he
  all_goals rw [if_neg (by simp [hcfg])]
  · rw [if_pos (blockOk_eq_false.mp hblock)]
    exact he
  all_goals rw [if_neg (blockOk_eq_true hblock)]
  · rw [if_pos ((decodeDType_error_iff _).mp htype)]
    exact he
  · have hlt : ¬ 5 ≤ s.regs.dType.toNat := fun h => by
      obtain ⟨e, herr⟩ := (decodeDType_error_iff _).mpr h
      cases herr.symm.trans htype
    rw [if_neg hlt]
    have hstart := (distBlockFrame_start nch n s).trap
    rcases hrun with ⟨t, hmain, he⟩ | ⟨_, he⟩
    · exact ⟨t, he, .inl ((distBlockFrame_mainPass hmain).trap.trans hstart)⟩
    · exact ⟨_, he, .inr (by rw [foldDiverge_trap, hstart])⟩

/-! ### The types that cannot diverge (R206, 60_exceptions.md R323) -/

/-- A sweep whose stage always answers ends. -/
theorem sweepFault_ne_none {σ : Type} {addr : Channel → Nat → Nat} {g : Nat → Channel → F32 → σ → Option (F32 × σ)}
    (hg : ∀ n c x st, g n c x st ≠ none) (l : List (Nat × Channel)) (m : Memory) (st : σ) :
    sweepFault addr g l m st ≠ none := by
  induction l generalizing m st with
  | nil => exact Option.some_ne_none _
  | cons p t ih =>
    simp only [sweepFault]
    split
    next hnone => exact absurd hnone (hg _ _ _ _)
    next r _ => exact ih _ r.2

/-- Every transfer function but Foldback answers for every sample (40_waveshaper_lut.md R121 to R126). -/
theorem ws_ne_none {sel : Instr} (h : sel ≠ .wsFold) (x : F32) : ws sel x ≠ none := by
  cases sel with
  | wsFold => exact absurd rfl h
  | _ => exact Option.some_ne_none _

theorem mainPass_ne_none {sel : Instr} (h : sel ≠ .wsFold) (nch n : Nat) (s : State) : mainPass sel nch n s ≠ none := by
  have hsweep := sweepFault_ne_none (addr := bufDAddr) (g := fun _ c x ds => chain s.pd sel s.dk c x ds)
    (fun _ _ x _ hnone => ws_ne_none h _ (chain_eq_none_iff.mp hnone)) (positions nch n) s.mem s.ds
  unfold mainPass
  split
  next hnone => exact absurd hnone hsweep
  next => exact Option.some_ne_none _

/-- Only the selector value 3 names Foldback (30_encoding.md R96). -/
theorem ne_wsFold_of_decodeDType {w : Word} {sel : Instr} (h : decodeDType w = .ok sel) (hw : w.toNat ≠ 3) :
    sel ≠ .wsFold := by
  rintro rfl
  obtain ⟨_, henc⟩ := (decode_selector_eq_ok_iff (f := .dtype) nofun).mp h
  rw [← henc] at hw
  exact hw rfl

/-- Settles O23: the selector is not Foldback, so the main pass ends, whatever the words are. -/
theorem procDCompletes : Obligations.ProcDCompletes := by
  unfold Obligations.ProcDCompletes
  intro nch n s hcfg hnch hn htype hfold
  obtain ⟨sel, hsel⟩ := exists_decodeDType htype
  exact execProcD_completes hcfg hnch hn hsel (mainPass_ne_none (ne_wsFold_of_decodeDType hsel hfold) nch n _)

end Sys2Proof.Machine
end

section
/-! PROOF. `CHAIN` (45_distortion_pipeline.md R204, R205, R207, R211): its formula; its ends at mix 0 and 1, where one product
is a zero and the other operand keeps its value; and the main pass as `CHAIN` over each channel by itself, because a sample
reads and writes the tone word and the taps of its own channel only. -/

namespace Sys2Proof.Machine

open Sys2Proof.Config

/-! ### Operations on equal numbers -/

section EqualNumbers

variable {a b c z : F32}

/-- Of two equal magnitudes with significands of 24 bits neither has the larger exponent. -/
theorem exponent_le_of_significand {m m' e e' : Nat} (hm : m < 2 ^ 24) (hm' : 2 ^ 23 ≤ m') (h : m * 2 ^ e = m' * 2 ^ e') :
    e' ≤ e := by
  by_contra hlt
  have hlow : m * 2 ^ e < m' * 2 ^ e' := calc
    m * 2 ^ e < 2 ^ 24 * 2 ^ e := Nat.mul_lt_mul_of_pos_right hm (Nat.two_pow_pos e)
    _ = 2 ^ 23 * 2 ^ (e + 1) := by ring
    _ ≤ m' * 2 ^ e' := Nat.mul_le_mul hm' (Nat.pow_le_pow_right (by decide) (by omega))
  omega

/-- A normal word's magnitude by its fields. -/
theorem fields_of_val_flush_ne (h : val (flush a) ≠ 0) : expField (flush a) ≠ 0 ∧
    magUnits (flush a) = (2 ^ 23 + fracField (flush a)) * 2 ^ (expField (flush a) - 1) := by
  have hexp : expField (flush a) ≠ 0 := fun he => by
    have hsub := isSubnormal_flush a
    have hzero := isZero_eq_false_of_val_ne h
    simp_all [isSubnormal, isZero]
  exact ⟨hexp, if_neg hexp⟩

theorem sign_and_magnitude_of_units_eq (h : units a = units b) (h0 : 0 < magUnits a) :
    signBit a = signBit b ∧ magUnits a = magUnits b := by
  unfold units at h
  split_ifs at h with hsa hsb hsb
  · exact ⟨hsa.trans hsb.symm, by omega⟩
  · omega
  · omega
  · exact ⟨(Bool.eq_false_iff.mpr hsa).trans (Bool.eq_false_iff.mpr hsb).symm, by omega⟩

/-- A flushed word that is no zero is determined by its value. -/
theorem flush_eq_of_val_eq (h : val (flush a) = val (flush b)) (h0 : val (flush a) ≠ 0) : flush a = flush b := by
  obtain ⟨hea, hma⟩ := fields_of_val_flush_ne h0
  obtain ⟨heb, hmb⟩ := fields_of_val_flush_ne (h ▸ h0)
  have hfa : fracField (flush a) < 2 ^ 23 := Nat.mod_lt _ (by decide)
  have hfb : fracField (flush b) < 2 ^ 23 := Nat.mod_lt _ (by decide)
  obtain ⟨hsign, hmag⟩ := sign_and_magnitude_of_units_eq (val_eq_val_iff.mp h) (magUnits_pos_of_val_ne h0)
  rw [hma, hmb] at hmag
  have hexp : expField (flush a) - 1 = expField (flush b) - 1 :=
    le_antisymm (exponent_le_of_significand (by omega) (by omega) hmag.symm)
      (exponent_le_of_significand (by omega) (by omega) hmag)
  rw [hexp] at hmag
  have hfrac := Nat.eq_of_mul_eq_mul_right (Nat.two_pow_pos _) hmag
  refine eq_of_signBit_of_mod hsign ?_
  unfold expField at hexp hea heb
  unfold fracField at hfrac
  omega

/-- Equal numbers have equal products with a third word, unless those are no numbers. -/
theorem feq_fmul (h : feq a b = true) (hc : isNaN (fmul b c) = false) : feq (fmul a c) (fmul b c) = true := by
  obtain ⟨ha, hb, hval⟩ := feq_iff.mp h
  have hflush (w : F32) : fmul (flush w) c = fmul w c := by rw [fmul, fmul, flush_flush]
  rw [← hflush b] at hc ⊢
  rw [← hflush a]
  by_cases h0 : val (flush a) = 0
  · have hza := (val_eq_zero_iff _).mp h0
    have hzb := (val_eq_zero_iff _).mp (hval ▸ h0)
    have hfin : isFinite c = true := by
      rcases class_cases c with ⟨hn, _, _⟩ | ⟨_, hinf, _⟩ | ⟨_, _, hfin⟩
      · simp [isNaN_fmul (a := flush b) (.inr hn)] at hc
      · obtain ⟨_, _, _, _, _, _, hmul, _⟩ := arithmetic_of_isInf_of_finite hinf (isFinite_of_isZero hzb)
        simp [(hmul (val_flush_of_isZero hzb)).2] at hc
      · exact hfin
    have hpa := isZero_fmul_of_isZero_of_isFinite hza hfin
    have hpb := isZero_fmul_of_isZero_of_isFinite hzb hfin
    exact feq_iff.mpr ⟨isNaN_of_isFinite (isFinite_of_isZero hpa), hc,
      by rw [val_flush_of_isZero hpa, val_flush_of_isZero hpb]⟩
  · rw [flush_eq_of_val_eq hval h0]
    exact feq_iff.mpr ⟨hc, hc, rfl⟩

theorem feq_fmul_one (ha : isNaN a = false) : feq (fmul a lit.one) a = true := by
  have hone : isFinite lit.one = true := by decide
  rcases class_cases a with ⟨hn, _, _⟩ | ⟨_, hinf, _⟩ | ⟨_, _, hfin⟩
  · rw [ha] at hn
    cases hn
  · obtain ⟨_, _, _, _, _, _, _, hmul⟩ := arithmetic_of_isInf_of_finite hinf hone
    obtain ⟨hright, hleft⟩ := hmul (by rw [flush_one, val_one]; exact one_ne_zero)
    rw [hright, ← hleft, fmul_one_of_isInf hinf]
    exact feq_iff.mpr ⟨ha, ha, rfl⟩
  · obtain ⟨_, _, hmul, _⟩ := arithmetic_of_finite hfin hone
    rw [flush_one, val_one, mul_one] at hmul
    exact hmul.feq_of_word hfin (flush_fmul_of_isFinite hone hfin)

theorem feq_zero_add (hz : isZero z = true) (ha : isNaN a = false) : feq (fadd z a) a = true := by
  have hzfin := isFinite_of_isZero hz
  rcases class_cases a with ⟨hn, _, _⟩ | ⟨_, hinf, _⟩ | ⟨_, _, hfin⟩
  · rw [ha] at hn
    cases hn
  · obtain ⟨_, hadd, _⟩ := arithmetic_of_isInf_of_finite hinf hzfin
    rw [hadd]
    exact feq_iff.mpr ⟨ha, ha, rfl⟩
  · obtain ⟨hadd, _⟩ := arithmetic_of_finite hzfin hfin
    rw [val_flush_of_isZero hz, zero_add] at hadd
    exact hadd.feq_of_word hfin (flush_fadd z a)

end EqualNumbers

/-! ### The mix at its ends (R207) -/

section Mix

variable {clean x o : F32}

theorem isNaN_left_of_fmul {a b : F32} (h : isNaN (fmul a b) = false) : isNaN a = false :=
  eq_false_of_ne_true fun ha => Bool.false_ne_true (h.symm.trans (isNaN_fmul (.inl ha)))

/-- At mix +0.0 the wet product is a zero. -/
theorem feq_mix_zero (hx : isFinite x = true) (hn : isNaN (fmul clean o) = false) :
    feq (fmul (fadd (fmul clean (fsub lit.one 0)) (fmul x 0)) o) (fmul clean o) = true := by
  have hdry : fsub lit.one 0 = lit.one := by decide +kernel
  have hclean := feq_fmul_one (isNaN_left_of_fmul hn)
  have hwet : isZero (fmul x 0) = true := isZero_fmul_of_isFinite_of_isZero hx (by decide)
  rw [hdry]
  exact feq_fmul (feq_trans (feq_add_sub_of_isZero (isNaN_of_feq hclean) hwet).1 hclean) hn

/-- At mix 1.0 the dry product is a zero. -/
theorem feq_mix_one (hclean : isFinite clean = true) (hn : isNaN (fmul x o) = false) :
    feq (fmul (fadd (fmul clean (fsub lit.one lit.one)) (fmul x lit.one)) o) (fmul x o) = true := by
  have hdry : fsub lit.one lit.one = lit.zero := by decide +kernel
  have hzero : isZero (fmul clean lit.zero) = true := isZero_fmul_of_isFinite_of_isZero hclean (by decide)
  have hwet := feq_fmul_one (isNaN_left_of_fmul hn)
  rw [hdry]
  exact feq_fmul (feq_trans (feq_zero_add hzero (isNaN_of_feq hwet)) hwet) hn

end Mix

/-! ### One sample (R205) -/

section Chain

variable {p : SnapD} {sel : Instr} {k : DistConsts} {c : Channel} {x : F32} {a b ds : DistState} {r : F32 × DistState}

/-- A sample that completes went through the three stages, whose state it leaves, and the mix. -/
theorem exists_stages_of_chain (h : chain p sel k c x ds = some r) :
    ∃ v z, ws sel (fmul x p.drive) = some v ∧ destroy k c (tone k c v ds).1 (tone k c v ds).2 = some z ∧
      r = (fmul (fadd (fmul x (fsub lit.one p.mix)) (fmul z.1 p.mix)) p.output, z.2) := by
  unfold chain at h
  cases hws : ws sel (fmul x p.drive) with
  | none => simp [hws] at h
  | some v =>
    simp only [hws] at h
    cases hdestroy : destroy k c (tone k c v ds).1 (tone k c v ds).2 with
    | none => simp [hdestroy] at h
    | some z =>
      simp only [hdestroy, Option.some.injEq] at h
      exact ⟨v, z, rfl, hdestroy, h.symm⟩

/-- The destroy stage reads the taps of its channel only, and puts new ones there. -/
theorem destroy_local (h : a.dtap[c] = b.dtap[c]) (k : DistConsts) (x : F32) :
    ∃ y taps, destroy k c x a = some (y, { a with dtap := a.dtap.set c taps }) ∧
      destroy k c x b = some (y, { b with dtap := b.dtap.set c taps }) := by
  have hkeep (d : DistState) : { d with dtap := d.dtap.set c d.dtap[c] } = d :=
    congrArg (fun v => { d with dtap := v }) (Vector.set_getElem_self _)
  unfold destroy
  split_ifs with hle hnan
  · exact ⟨x, a.dtap[c], by rw [hkeep], by rw [h, hkeep]⟩
  all_goals
    simp only [destroyActive_eq, h]
    exact ⟨_, _, rfl, rfl⟩

/-- Two engine states agree on what `CHAIN` reads of channel `c`: its tone word and its taps. -/
def ChannelAgree (c : Channel) (a b : DistState) : Prop := a.toneY1[c] = b.toneY1[c] ∧ a.dtap[c] = b.dtap[c]

/-- The engine after a sample of channel `c`: its tone word and its taps are new. -/
def putChannel (c : Channel) (y1 : F32) (taps : Taps) (ds : DistState) : DistState :=
  { ds with toneY1 := ds.toneY1.set c y1, dtap := ds.dtap.set c taps }

theorem channelAgree_put_same (c : Channel) (y1 : F32) (taps : Taps) (a b : DistState) :
    ChannelAgree c (putChannel c y1 taps a) (putChannel c y1 taps b) := by
  simp [ChannelAgree, putChannel]

theorem channelAgree_put_other {c' : Channel} (hne : c' ≠ c) (h : ChannelAgree c a b) (y1 : F32) (taps : Taps) :
    ChannelAgree c (putChannel c' y1 taps a) b := by
  have hval : c'.val ≠ c.val := fun e => hne (Fin.ext e)
  simpa [ChannelAgree, putChannel, Vector.getElem_set_ne _ _ hval] using h

/-- `CHAIN` reads and puts the tone word and the taps of its channel only. -/
theorem chain_local (h : ChannelAgree c a b) (p : SnapD) (sel : Instr) (k : DistConsts) (x : F32) :
    (chain p sel k c x a = none ∧ chain p sel k c x b = none) ∨
    ∃ y y1 taps, chain p sel k c x a = some (y, putChannel c y1 taps a) ∧
      chain p sel k c x b = some (y, putChannel c y1 taps b) := by
  obtain ⟨hy1, htaps⟩ := h
  cases hws : ws sel (fmul x p.drive) with
  | none => exact .inl ⟨chain_eq_none_iff.mpr hws, chain_eq_none_iff.mpr hws⟩
  | some v =>
    have htone : (tone k c v a).1 = (tone k c v b).1 := by simp only [tone, hy1]
    obtain ⟨z, taps, ha, hb⟩ := destroy_local (a := (tone k c v a).2) (b := (tone k c v b).2) htaps k (tone k c v b).1
    refine .inr ⟨fmul (fadd (fmul x (fsub lit.one p.mix)) (fmul z p.mix)) p.output, (tone k c v b).1, taps, ?_, ?_⟩
    · simp only [chain, hws, htone, ha]
      rw [← htone]
      rfl
    · simp only [chain, hws, hb]
      rfl

end Chain

/-! ### A channel's samples in order (R204, R211) -/

section Run

variable {p : SnapD} {sel : Instr} {k : DistConsts} {c : Channel}

/-- The answer of a stage that can fault, and the operand with the state unchanged where it has none. -/
def answerOf {σ : Type} (g : F32 → σ → Option (F32 × σ)) (x : F32) (st : σ) : F32 × σ := (g x st).getD (x, st)

/-- A sweep that meets no fault is the sweep of the answers. -/
theorem sweep_answerOf {σ : Type} {addr : Channel → Nat → Nat} {g : Channel → F32 → σ → Option (F32 × σ)}
    {l : List (Nat × Channel)} {m : Memory} {st : σ} {r : Memory × σ}
    (h : sweepFault addr (fun _ c x st => g c x st) l m st = some r) :
    sweep addr (fun _ c x st => answerOf (g c) x st) l m st = r := by
  induction l generalizing m st with
  | nil => exact Option.some.inj h
  | cons q t ih =>
    obtain ⟨n, c⟩ := q
    simp only [sweepFault] at h
    cases hq : g c (memWord m (addr c n)) st with
    | none => simp [hq] at h
    | some y =>
      simp only [hq] at h
      rw [sweep_cons]
      simp only [answerOf, hq, Option.getD_some]
      exact ih h

/-- A run none of whose samples diverges is the run of the answers. -/
theorem chainRun_eq {xs : List F32} (h : ∀ x ∈ xs, ws sel (fmul x p.drive) ≠ none) (ds : DistState) :
    chainRun p sel k c xs ds = some (stageRun (answerOf (chain p sel k c)) xs ds) := by
  induction xs generalizing ds with
  | nil => rfl
  | cons x xs ih =>
    obtain ⟨hx, hxs⟩ := List.forall_mem_cons.mp h
    obtain ⟨r, hr⟩ := Option.ne_none_iff_exists'.mp (mt chain_eq_none_iff.mp hx : chain p sel k c x ds ≠ none)
    simp only [chainRun, hr, ih hxs, stageRun_cons, answerOf, Option.getD_some]

theorem answerOf_chain_own (p : SnapD) (sel : Instr) (k : DistConsts) (c : Channel) (x : F32) (a b : DistState)
    (h : ChannelAgree c a b) :
    (answerOf (chain p sel k c) x a).1 = (answerOf (chain p sel k c) x b).1 ∧
      ChannelAgree c (answerOf (chain p sel k c) x a).2 (answerOf (chain p sel k c) x b).2 := by
  rcases chain_local h p sel k x with ⟨ha, hb⟩ | ⟨y, y1, taps, ha, hb⟩ <;> simp only [answerOf, ha, hb]
  · exact ⟨rfl, h⟩
  · exact ⟨rfl, channelAgree_put_same c y1 taps a b⟩

theorem answerOf_chain_other (p : SnapD) (sel : Instr) (k : DistConsts) (c c' : Channel) (x : F32) (a b : DistState)
    (hne : c' ≠ c) (h : ChannelAgree c a b) : ChannelAgree c (answerOf (chain p sel k c') x a).2 b := by
  rcases chain_local (c := c') (a := a) (b := a) ⟨rfl, rfl⟩ p sel k x with ⟨ha, _⟩ | ⟨y, y1, taps, ha, _⟩ <;>
    simp only [answerOf, ha]
  · exact h
  · exact channelAgree_put_other hne h y1 taps

/-- A main pass that ends runs `CHAIN` over each live channel by itself: neither the loop nest nor the other channel can be
seen (92_eei_decisions.md D43). -/
theorem mainPass_channel {nch n : Nat} {s t : State} (hn : n ≤ blkCap) (h : mainPass sel nch n s = some t)
    (hc : c.val < nch) :
    ∃ ds', chainRun s.pd sel s.dk c (channelWords bufDAddr c n s.mem) s.ds = some (channelWords bufDAddr c n t.mem, ds') ∧
      t.ds.toneY1[c] = ds'.toneY1[c] ∧ t.ds.dtap[c] = ds'.dtap[c] := by
  have hwords : ∀ x ∈ channelWords bufDAddr c n s.mem, ws sel (fmul x s.pd.drive) ≠ none := fun x hx hnone => by
    obtain ⟨i, hi, rfl⟩ := List.mem_map.mp hx
    have hdiv := (mainPass_eq_none_iff hn s).mpr ⟨c, i, hc, List.mem_range.mp hi, hnone⟩
    cases hdiv.symm.trans h
  obtain ⟨r, hr, rfl⟩ := mainPass_cases h
  obtain ⟨hout, hagree⟩ := sweep_positions (addr := bufDAddr) (len := n) (fun c => answerOf (chain s.pd sel s.dk c))
    ChannelAgree (answerOf_chain_own s.pd sel s.dk) (answerOf_chain_other s.pd sel s.dk) hc
    (fun i i' c c' hi hi' => bufDAddr_disjoint (hi.trans_le hn) (hi'.trans_le hn)) s.mem s.ds s.ds ⟨rfl, rfl⟩
  rw [sweep_answerOf hr] at hout hagree
  exact ⟨_, by rw [chainRun_eq hwords, hout], hagree⟩

end Run

/-! ### The block -/

/-- A `PROC.D` that leaves no fault recorded ran the main pass of its selector to the end. -/
theorem procD_mainPass {nch n : Nat} {s t : State} {sel : Instr} (h : exec (.procD nch n) s = .next t) (ht : t.trap = none)
    (hsel : decodeDType s.regs.dType = .ok sel) :
    n ≤ s.ds.maxblk ∧ mainPass sel nch n (ghostPass nch n (startBlockD n s)) = some t := by
  have hfault (c : Cause) : ¬ exec (.procD nch n) s = .next (raiseFault c s) := fun hc => by
    obtain rfl := Host.Outcome.next.inj (h.symm.trans hc)
    cases ht
  have horder := procDChecksInOrder
  unfold Obligations.ProcDChecksInOrder at horder
  specialize horder nch n s
  split_ifs at horder with hcfg hblock htype
  · exact absurd horder (hfault _)
  · exact absurd horder (hfault _)
  · exact absurd horder (hfault _)
  · obtain ⟨hnch, hn⟩ : nch = s.ds.nch ∧ n ≤ s.ds.maxblk := by omega
    rcases execProcD_of_checks (Bool.eq_true_of_not_eq_false hcfg) hnch hn hsel with ⟨u, hmain, he⟩ | ⟨_, he⟩
    · obtain rfl := Host.Outcome.next.inj (h.symm.trans he)
      exact ⟨hn, hmain⟩
    · obtain rfl := Host.Outcome.next.inj (h.symm.trans he)
      cases ht

/-- Settles O26: the stages and the mix of one sample, and the main pass channel by channel. -/
theorem procDRunsChainPerChannel : Obligations.ProcDRunsChainPerChannel := by
  unfold Obligations.ProcDRunsChainPerChannel
  refine ⟨fun p sel k c clean ds => ⟨chain_eq_none_iff, ?sample⟩, ?block⟩
  case sample =>
    intro y ds' h
    obtain ⟨v, ⟨x, dsx⟩, hws, hdestroy, hr⟩ := exists_stages_of_chain h
    obtain ⟨rfl, rfl⟩ := Prod.mk.inj hr
    refine ⟨v, x, hws, hdestroy, rfl, fun hmix hx hn => ?_, fun hmix hclean hn => ?_⟩
    · rw [hmix]
      exact feq_mix_zero hx hn
    · rw [hmix]
      exact feq_mix_one hclean hn
  case block =>
    intro nch n s t sel _ hmax hexec htrap hsel
    obtain ⟨hn, hmain⟩ := procD_mainPass hexec htrap hsel
    obtain ⟨_, hdk, _⟩ := procD_ghostState hexec htrap
    refine ⟨hdk, fun c hc => ?_⟩
    have hrun := mainPass_channel (hn.trans hmax) hmain hc
    rwa [ghostPass_pd, startBlockD_pd, ghostPass_dk, ← hdk] at hrun

end Sys2Proof.Machine
end

section
/-! PROOF. Two blocks of `PROC.D` in full: the empty one (45_distortion_pipeline.md R209), whose only trace is a ghost phase
advanced by a zero, and one sample through a chain of neutral parameters (R210). -/

namespace Sys2Proof.Machine

open Sys2Proof.Config

/-! ### The empty block (R209, 44_ghost_stage.md R193) -/

section Empty

variable {p i fs : F32}

/-- The step of an empty block is a zero, of the sign of `GHOST_RATE_HZ`. -/
theorem isZero_ghostStep_empty (h : rateOk fs = true) : isZero (fdiv (fmul (f32OfNat 0) ghostRateHz) fs) = true := by
  obtain ⟨hfin, _⟩ := rateOk_bounds h
  obtain ⟨_, hlo, _⟩ := rateOk_iff_flush.mp h
  have hnum : isZero (fmul (f32OfNat 0) ghostRateHz) = true :=
    isZero_fmul_of_isZero_of_isFinite (by decide +kernel) ghostRateHz_ok.1
  obtain ⟨_, _, _, hdiv, _⟩ := arithmetic_of_finite (isFinite_of_isZero hnum) hfin
  have hquot := hdiv (by linarith)
  rw [val_flush_of_isZero hnum, zero_div] at hquot
  exact hquot.tiny (by norm_num)

/-- A phase advanced by a zero is the same number: the wrap takes nothing from it. -/
theorem feq_ghostPhaseAfter_zero (hp : phaseOk p = true) (hi : isZero i = true) : feq (ghostPhaseAfter p i) p = true := by
  have hifin := isFinite_of_isZero hi
  have hnan := isNaN_of_isFinite (isFinite_of_phaseOk hp)
  have hi0 : fle lit.zero i = true := zero_le_iff.mpr ⟨isNaN_of_isFinite hifin, (val_flush_of_isZero hi).ge⟩
  obtain ⟨hfin, hle⟩ := fadd_phase hp hifin hi0
  obtain ⟨hwrap0, hflush, hwrap⟩ := wrap01_exact hfin hle
  obtain ⟨_, _, hsum⟩ := feq_iff.mp (feq_add_sub_of_isZero hnan hi).1
  obtain ⟨hp0, hp1⟩ := phaseOk_iff.mp hp
  rw [val_eq_val_iff] at hsum
  rw [hsum, Int.emod_eq_of_lt (fle_zero_iff.mp hp0).2 hp1] at hwrap
  rw [ghostPhaseAfter_of_finite (isInf_of_isFinite hifin)]
  exact feq_iff.mpr ⟨(fle_zero_iff.mp hwrap0).1, hnan, by rw [hflush, val_eq_val_iff, hwrap]⟩

theorem mainPass_empty (sel : Instr) (nch : Nat) (s : State) : mainPass sel nch 0 s = some s := rfl

/-- The ghost pass of an empty block writes nothing but the phase. -/
theorem ghostPass_empty (nch : Nat) (s : State) :
    ghostPass nch 0 s = { s with ds := { s.ds with gphase := (ghostPass nch 0 s).ds.gphase } } := by
  unfold ghostPass
  split_ifs <;> rfl

theorem ghostPass_empty_phase_on {s : State} (h : s.pd.ghost = true) (nch : Nat) :
    (ghostPass nch 0 s).ds.gphase = ghostPhaseAfter s.ds.gphase s.dk.ginc := by
  rw [ghostPass, if_pos h]
  rfl

/-- With ghost on or off, an empty block leaves the number that the phase was. -/
theorem feq_ghostPass_empty {s : State} (hrate : rateOk s.ds.fs = true) (hphase : phaseOk s.ds.gphase = true) (nch : Nat) :
    feq (ghostPass nch 0 (startBlockD 0 s)).ds.gphase s.ds.gphase = true := by
  cases hon : (snapshotD s.regs).ghost with
  | true =>
    have hstep := isZero_ghostStep_empty hrate
    rw [← deriveDist_ginc hon 0 s.ds s.dk] at hstep
    rw [ghostPass_empty_phase_on (by rw [startBlockD_pd, hon]), startBlockD_ds, startBlockD_dk]
    exact feq_ghostPhaseAfter_zero hphase hstep
  | false =>
    have hnan := isNaN_of_isFinite (isFinite_of_phaseOk hphase)
    rw [ghostPass_of_off (by rw [startBlockD_pd, hon]), startBlockD_ds]
    exact feq_iff.mpr ⟨hnan, hnan, rfl⟩

/-- R222: the later derivations of a block keep the tone coefficients. -/
theorem deriveDist_tone (p : SnapD) (len : Nat) (ds : DistState) (k : DistConsts) :
    (deriveDist p len ds k).alpha = (deriveTone p.tone k).alpha ∧
      (deriveDist p len ds k).beta = (deriveTone p.tone k).beta := by
  simp only [deriveDist]
  split_ifs <;> exact ⟨rfl, rfl⟩

end Empty

/-- Settles O30: no pass meets a sample, and the phase's step is a zero. -/
theorem emptyDistortionBlock : Obligations.EmptyDistortionBlock := by
  unfold Obligations.EmptyDistortionBlock
  intro s hcfg htype hrate hphase
  obtain ⟨sel, hsel⟩ := exists_decodeDType htype
  rcases execProcD_of_checks (n := 0) hcfg rfl (Nat.zero_le _) hsel with ⟨t, hmain, he⟩ | ⟨hmain, _⟩
  · rw [mainPass_empty] at hmain
    obtain rfl := Option.some.inj hmain
    have halpha := (deriveDist_tone (snapshotD s.regs) 0 s.ds s.dk).1
    have hds := congrArg State.ds (ghostPass_empty s.ds.nch (startBlockD 0 s))
    have hmem := congrArg State.mem (ghostPass_empty s.ds.nch (startBlockD 0 s))
    exact ⟨_, he, hmem, by simp, by simp, by rw [ghostPass_dk, startBlockD_dk, halpha]; rfl, hds,
      feq_ghostPass_empty hrate hphase s.ds.nch⟩
  · rw [mainPass_empty] at hmain
    cases hmain

/-! ### Neutral parameters (R210) -/

section Neutral

variable {sel : Instr} {k : DistConsts} {c : Channel} {w v y z : F32} {s : State} {ds : DistState}

/-- Drive, mix and output 1, tone and destroy 0: the parameters of both scenarios. -/
structure NeutralSnap (p : SnapD) : Prop where
  drive : p.drive = lit.one
  mix : p.mix = lit.one
  output : p.output = lit.one
  tone : p.tone = 0
  destroy : p.destroy = 0

theorem neutral_amount {p : SnapD} (h : NeutralSnap p) (len : Nat) (ds : DistState) (k : DistConsts) :
    fle (deriveDist p len ds k).amount lit.zero = true := by
  rw [deriveDist_amount, h.destroy]
  decide +kernel

/-- From a zero tone word, a sample `w` that the transfer function takes to `v` leaves the tone stage as the word `y`. -/
theorem chain_neutral {p : SnapD} (h : NeutralSnap p) (hws : ws sel (fmul w lit.one) = some v)
    (hy : fadd (fmul lit.one v) (fmul lit.zero 0) = y) (h0 : ds.toneY1[c] = 0) (len : Nat) (ds0 : DistState) :
    chain p sel (deriveDist p len ds0 k) c w ds =
      some (fmul (fadd (fmul w (fsub lit.one lit.one)) (fmul y lit.one)) lit.one, { ds with toneY1 := ds.toneY1.set c y }) := by
  have htone : tone (deriveDist p len ds0 k) c v ds = (y, { ds with toneY1 := ds.toneY1.set c y }) := by
    obtain ⟨halpha, hbeta⟩ := deriveDist_tone p len ds0 k
    rw [h.tone, deriveTone_zero] at halpha hbeta
    simp only [tone, halpha, hbeta, h0, hy]
  simp only [chain, h.drive, h.mix, h.output, hws, htone, destroy_of_amount_le_zero (neutral_amount h len ds0 k)]

/-- The one sample of a block of neutral parameters, with ghost off, on an engine whose tone word is zero. -/
theorem procD_neutral (hcfg : s.ds.configured = true) (hnch : 1 = s.ds.nch) (hmax : 1 ≤ s.ds.maxblk)
    (hghost : s.regs.dGhost.getLsbD 0 = false) (hp : NeutralSnap (snapshotD s.regs)) (h0 : s.ds.toneY1[(0 : Channel)] = 0)
    (hsel : decodeDType s.regs.dType = .ok sel) (hfold : sel ≠ .wsFold) (hword : memWord s.mem 0x10000 = w)
    (hws : ws sel (fmul w lit.one) = some v) (hy : fadd (fmul lit.one v) (fmul lit.zero 0) = y)
    (hz : fmul (fadd (fmul w (fsub lit.one lit.one)) (fmul y lit.one)) lit.one = z) :
    ∃ t, exec (.procD 1 1) s = .next t ∧ memWord t.mem 0x10000 = z ∧ t.ds.toneY1[(0 : Channel)] = y ∧
      DistBlockFrame 1 1 s t := by
  have hone (m : Memory) : channelWords bufDAddr 0 1 m = [memWord m 0x10000] := rfl
  rcases execProcD_of_checks hcfg hnch hmax hsel with ⟨t, hmain, he⟩ | ⟨hmain, _⟩
  · have hframe := (distBlockFrame_start 1 1 s).trans (distBlockFrame_mainPass hmain)
    obtain ⟨ds', hrun, htone, _⟩ := mainPass_channel (c := 0) (by decide) hmain (by decide)
    rw [ghostPass_of_off (by rw [startBlockD_pd]; exact hghost), hone, hone, startBlockD_mem, startBlockD_pd, startBlockD_dk,
      startBlockD_ds, hword] at hrun
    simp only [chainRun, chain_neutral hp hws hy h0, Option.some.injEq, Prod.mk.injEq, List.cons.injEq, and_true] at hrun
    obtain ⟨hout, rfl⟩ := hrun
    exact ⟨t, he, hout.symm.trans hz, by rw [htone]; exact Vector.getElem_set_self _, hframe⟩
  · exact absurd hmain (mainPass_ne_none hfold 1 1 _)

end Neutral

/-- Settles O31: the two samples through the neutral chain, by its arithmetic on words. -/
theorem documentScenarios : Obligations.DocumentScenarios := by
  unfold Obligations.DocumentScenarios
  intro s fs maxblk hmax hds hghost hdrive hout htone hmix hdestroy
  have hp : NeutralSnap (snapshotD s.regs) := ⟨hdrive, hmix, hout, htone, hdestroy⟩
  have h0 : s.ds.toneY1[(0 : Channel)] = 0 := by rw [hds]; rfl
  have hcfg : s.ds.configured = true := by rw [hds]; rfl
  have hnch : 1 = s.ds.nch := by rw [hds]; rfl
  have hlen : 1 ≤ s.ds.maxblk := by rw [hds]; exact hmax
  refine ⟨fun htype hword => ?hard, fun htype hword => ?soft⟩
  case hard =>
    have hclip : ws .wsHard (fmul 0x3FC00000 lit.one) = some lit.one := by decide +kernel
    have hsel : decodeDType s.regs.dType = .ok .wsHard := by rw [htype]; rfl
    exact procD_neutral hcfg hnch hlen hghost hp h0 hsel nofun hword hclip (by decide +kernel) (by decide +kernel)
  case soft =>
    have hsilent : ws .wsSoft (fmul 0 lit.one) = some 0 := by decide +kernel
    have hsel : decodeDType s.regs.dType = .ok .wsSoft := by rw [htype]; rfl
    exact procD_neutral hcfg hnch hlen hghost hp h0 hsel nofun hword hsilent (by decide +kernel) (by decide +kernel)

end Sys2Proof.Machine
end

section
/-! PROOF. The parameter mapper (46_parameter_mapper.md): its rows (R234), the predelay length (R232), and the coefficients of a
second-order section with their divisor (R229, R237). -/

namespace Sys2Proof.Machine

open Sys2Proof.Config

/-! ### Results are flushed -/

theorem flush_signedInf (neg : Bool) : flush (signedInf neg) = signedInf neg := flush_of_isInf (isInf_signedInf neg)

@[simp] theorem flush_fmul (a b : F32) : flush (fmul a b) = fmul a b := by
  unfold fmul fmulFlushed
  simp only
  split_ifs
  · exact flush_of_isNaN (isNaN_someNaN _ _ _)
  · exact flush_of_isNaN (isNaN_someNaN _ _ _)
  · exact flush_signedInf _
  · exact flush_roundTo _ _ _

@[simp] theorem flush_fdiv (a b : F32) : flush (fdiv a b) = fdiv a b := by
  unfold fdiv fdivFlushed
  simp only
  split_ifs
  · exact flush_of_isNaN (isNaN_someNaN _ _ _)
  · exact flush_of_isNaN (isNaN_someNaN _ _ _)
  · exact flush_signedInf _
  · exact flush_signedZero _
  · exact flush_of_isNaN (isNaN_someNaN _ _ _)
  · exact flush_signedInf _
  · exact flush_roundTo _ _ _

/-! ### The rows (R234) -/

/-- Rounding does not lead a product out of [0, 1]. -/
theorem inUnit_fmul {a b : F32} (ha : inUnit a = true) (hb : inUnit b = true) : inUnit (fmul a b) = true := by
  have hafin := isFinite_of_inSym (inSym_of_inUnit ha)
  have hbfin := isFinite_of_inSym (inSym_of_inUnit hb)
  obtain ⟨hna, ha0, ha1⟩ := inUnit_iff.mp ha
  obtain ⟨hnb, hb0, hb1⟩ := inUnit_iff.mp hb
  obtain ⟨hn, h0⟩ := zero_le_iff.mp
    (fle_zero_fmul hafin hbfin (zero_le_iff.mpr ⟨hna, ha0⟩) (zero_le_iff.mpr ⟨hnb, hb0⟩))
  obtain ⟨_, _, hround, _⟩ := arithmetic_of_finite hafin hbfin
  have h1 : |val (flush a) * val (flush b)| ≤ 1 := by
    rw [abs_of_nonneg (mul_nonneg ha0 hb0)]
    exact mul_le_one₀ ha1 hb0 hb1
  exact inUnit_iff.mpr ⟨hn, h0, by rw [flush_fmul]; exact (abs_le.mp (hround.abs_val_le_one h1)).2⟩

/-- An open row is held to finite words (log 19). -/
theorem finiteRow_isFinite (r : MapRow) :
    isFinite (finiteRow r).size = true ∧ isFinite (finiteRow r).damping = true ∧ isFinite (finiteRow r).width = true :=
  have h (w : F32) : isFinite (held isFinite lit.zero w) = true := held_ok (by decide) w
  ⟨h r.size, h r.damping, h r.width⟩

/-- A row of words of [0, 1] keeps a size and a damping there. -/
theorem mapRowInto_inUnit {r : MapRow} (hr : inUnit r.size = true ∧ inUnit r.damping = true ∧ inUnit r.width = true)
    {size damping : F32} (hs : inUnit size = true) (hd : inUnit damping = true) (ra : ReverbParams) :
    inUnit (mapRowInto r size damping ra).roomSize = true ∧ inUnit (mapRowInto r size damping ra).damping = true ∧
      inUnit (mapRowInto r size damping ra).width = true :=
  have ⟨hsize, hdamping, hwidth⟩ := hr
  ⟨inUnit_fmul hs hsize, inUnit_fmul hd hdamping, hwidth⟩

/-- Settles O43: each instruction is its row's own effect, and the words of Room and Hall lie in [0, 1]. -/
theorem mapRowsScaleSizeAndDamping : Obligations.MapRowsScaleSizeAndDamping := by
  unfold Obligations.MapRowsScaleSizeAndDamping
  refine ⟨fun s => ?rows, fun r hr => ?openRow, fun r hr size damping ra hs hd => ?closedRow, fun w hw => ?reserved⟩
  case rows =>
    exact ⟨exec_mapperRow rfl s, exec_mapperRow rfl s, exec_mapperRow rfl s, exec_mapperRow rfl s, exec_mapperRow rfl s⟩
  case openRow =>
    simp only [List.mem_cons, List.not_mem_nil, or_false] at hr
    rcases hr with rfl | rfl | rfl
    · exact finiteRow_isFinite mapPlate
    · exact finiteRow_isFinite mapSpring
    · exact finiteRow_isFinite mapShimmer
  case closedRow =>
    simp only [List.mem_cons, List.not_mem_nil, or_false] at hr
    rcases hr with rfl | rfl
    · exact mapRowInto_inUnit (by decide +kernel) hs hd ra
    · exact mapRowInto_inUnit (by decide +kernel) hs hd ra
  case reserved => exact (decode_selector_error_iff (f := .rtype) nofun w).mpr hw

/-! ### The predelay (R232) -/

section Predelay

variable {pre fs u : F32}

theorem predelayOf_of_off (h : fgt pre lit.zero = false) (fs : F32) : predelayOf pre fs = some (false, 0) := by
  simp [predelayOf, h]

theorem predelayOf_of_on (h : fgt pre lit.zero = true) (fs : F32) :
    predelayOf pre fs = if flt (fdiv (fmul pre fs) lit.msPerSecond) 0x49000000 then
      some (true, floorNat (fdiv (fmul pre fs) lit.msPerSecond)) else none := by
  rw [predelayOf, if_pos h, f32OfNat_delayCap]
  rfl

/-- The product of a positive word, an infinity included, and a positive finite one is not below 0. -/
theorem fle_zero_fmul_of_pos {a b : F32} (ha : flt lit.zero a = true) (hb : isFinite b = true)
    (hpos : 0 < units (flush b)) : fle lit.zero (fmul a b) = true := by
  have ha0 := fle_of_flt ha
  obtain ⟨hsb, hzb, _⟩ := fields_of_units_pos hpos
  have hb0 : fle lit.zero b = true := fle_zero_iff.mpr ⟨isNaN_of_isFinite hb, hpos.le⟩
  rcases class_cases a with ⟨hn, _, _⟩ | ⟨hn, hinf, _⟩ | ⟨_, _, hfin⟩
  · rw [(zero_lt_iff.mp ha).1] at hn
    cases hn
  · have hsa : signBit a = false := (signBit_or_magUnits ha0).resolve_right fun h0 => by
      have hval := (zero_lt_iff.mp ha).2
      simp [val_eq_signOf, h0] at hval
    rw [fmul, flush_of_isInf hinf, fmulFlushed_of_isInf hn (by rwa [isNaN_flush, isNaN_of_isFinite]) (.inl hinf),
      isZero_of_isInf hinf, hzb, signBit_flush, hsa, hsb]
    exact (by decide +kernel : fle lit.zero (signedInf false) = true)
  · exact fle_zero_fmul hfin hb ha0 hb0

/-- `floorNat` is the floor of the value, for a word of 0 or more. -/
theorem floorNat_eq_floor (h : fle lit.zero u = true) : (floorNat u : ℤ) = ⌊val (flush u)⌋ := by
  have hcast : val (flush u) = (units (flush u) : ℝ) / (2 ^ 149 : ℕ) := by rw [val]; norm_num
  have hpos := Int.ediv_nonneg (fle_zero_iff.mp h).2 (by norm_num : (0 : ℤ) ≤ 2 ^ 149)
  rw [hcast, Int.floor_div_natCast, Int.floor_intCast, floorNat, Int.toNat_of_nonneg hpos]
  rfl

end Predelay

/-- Settles O45: a length that passes the check is not below 0, so its whole part is its floor. -/
theorem predelayLengthIsFloored : Obligations.PredelayLengthIsFloored := by
  unfold Obligations.PredelayLengthIsFloored
  intro pre fs hrate
  refine ⟨fun hoff => predelayOf_of_off hoff fs, fun hon hlong => ?long, fun hon hshort => ?short⟩
  case long =>
    rw [predelayOf_of_on hon]
    exact if_neg (by rw [Bool.not_eq_true]; exact hlong)
  case short =>
    have hd := (predelayOf_of_on hon fs).trans (if_pos hshort)
    obtain ⟨hfin, hfs⟩ := rateOk_bounds hrate
    have hu : fle lit.zero (fdiv (fmul pre fs) lit.msPerSecond) = true :=
      fle_zero_fdiv (fle_zero_fmul_of_pos hon hfin (by omega)) (by decide) (by decide +kernel)
    have hfloor := floorNat_eq_floor hu
    rw [flush_fdiv] at hfloor
    exact ⟨_, hd, predelayOf_lt hd, hfloor⟩

/-! ### The divisor of a section (R229, R237) -/

/-- Rounding does not lead out of an interval between two finite words, the lower one of normal magnitude. -/
theorem RoundsTo.between {r : ℝ} {y a b : F32} (h : RoundsTo r y) (ha : isFinite a = true) (hb : isFinite b = true)
    (hlo : 1 / 2 ^ 126 ≤ val a) (har : val a ≤ r) (hrb : r ≤ val b) :
    isFinite y = true ∧ val a ≤ val y ∧ val y ≤ val b := by
  have hr : |r| = r := abs_of_nonneg (le_trans (by positivity) (hlo.trans har))
  have hnormal : 1 / 2 ^ 126 ≤ |r| := by
    rw [hr]
    exact hlo.trans har
  have hmax := (le_abs_self _).trans (abs_val_le_of_isFinite hb)
  have hhi : |r| < 2 ^ 128 - 2 ^ 103 := by
    rw [hr]
    exact (hrb.trans hmax).trans_lt (by norm_num)
  exact ⟨h.normal hnormal hhi, h.le_val hnormal hhi ha har, h.val_le hnormal hhi hb hrb⟩

section Divisor

variable {f0 fs x : F32}

/-- The sine of an angle from 0 to `PI` lies in [0, 1] (00_scope.md R13; log 11). -/
theorem sin_inUnit (h0 : fle lit.zero x = true) (hpi : fle x lit.pi = true) (hfin : isFinite x = true) :
    inUnit (sin x) = true := by
  rw [sin_of_isFinite hfin]
  split_ifs with hz
  · have hv := val_of_isZero hz
    exact inUnit_iff.mpr ⟨by rw [isNaN_flush, isNaN_of_isFinite hfin], by rw [flush_flush, hv], by simp [hv]⟩
  · have hsign : signBit (flush x) = false := by
      rw [signBit_flush]
      refine (signBit_or_magUnits h0).resolve_right fun hm => hz ?_
      exact (val_eq_zero_iff _).mp (by simp [val_eq_signOf, hm])
    have hle : fle (flush x) lit.pi = true := by
      rw [fle_iff, isNaN_flush, flush_flush]
      exact fle_iff.mp hpi
    rw [oddOf, hsign]
    exact sinPos_inUnit hle

/-- A cutoff of 20 to 20000 Hz, by its value. -/
theorem cutoff_bounds (h : inRange 0x41A00000 0x469C4000 f0 = true) :
    isFinite f0 = true ∧ 20 ≤ val (flush f0) ∧ val (flush f0) ≤ 20000 := by
  have hlo : val (flush 0x41A00000) = 20 := by
    rw [val, show units (flush 0x41A00000) = 20 * 2 ^ 149 by decide +kernel]
    norm_num
  have hhi : val (flush 0x469C4000) = 20000 := by
    rw [val, show units (flush 0x469C4000) = 20000 * 2 ^ 149 by decide +kernel]
    norm_num
  rw [inRange, Bool.and_eq_true, fle_iff, fle_iff, hlo, hhi] at h
  obtain ⟨⟨_, hn, h20⟩, _, _, h20000⟩ := h
  refine ⟨isFinite_of_flush (isFinite_of_abs_val_lt (by rwa [isNaN_flush]) ?_), h20, h20000⟩
  rw [abs_of_nonneg (by linarith)]
  linarith [show (20000 : ℝ) < 2 ^ 107 by norm_num]

theorem val_twoPi : val lit.twoPi = 0xC90FDB / 2 ^ 21 := by
  rw [val, show units lit.twoPi = 0xC90FDB * 2 ^ 128 by decide +kernel]
  norm_num

theorem val_pi : val lit.pi = 0xC90FDB / 2 ^ 22 := by
  rw [val, show units lit.pi = 0xC90FDB * 2 ^ 127 by decide +kernel]
  norm_num

/-- For a legal rate and cutoff the angle lies between 2^-18 and `PI`: the full turn times 20 to 20000 Hz is between 1 and
2^17. -/
theorem cutoff_angle (hrate : rateOk fs = true) (hcut : inRange 0x41A00000 0x469C4000 f0 = true) :
    isFinite (fdiv (fmul lit.twoPi f0) fs) = true ∧ 1 / 2 ^ 18 ≤ val (fdiv (fmul lit.twoPi f0) fs) ∧
      val (fdiv (fmul lit.twoPi f0) fs) ≤ val lit.pi := by
  obtain ⟨hf0, h20, h20000⟩ := cutoff_bounds hcut
  obtain ⟨_, h44100, h192000⟩ := rateOk_iff_flush.mp hrate
  obtain ⟨hfs, _⟩ := rateOk_bounds hrate
  have hbig : val 0x48000000 = 2 ^ 17 := by
    rw [val, show units 0x48000000 = 2 ^ 17 * 2 ^ 149 by decide +kernel]
    norm_num
  have hsmall : val 0x36800000 = 1 / 2 ^ 18 := by
    rw [val, show units 0x36800000 = 2 ^ 131 by decide +kernel]
    norm_num
  have hturn : flush lit.twoPi = lit.twoPi := by decide
  obtain ⟨_, _, hmul, _⟩ := arithmetic_of_finite (a := lit.twoPi) (by decide) hf0
  rw [hturn, val_twoPi] at hmul
  obtain ⟨hpfin, hp1, hp2⟩ := hmul.between (a := lit.one) (b := 0x48000000) (by decide) (by decide)
    (by rw [val_one]; norm_num) (by rw [val_one]; linarith) (by rw [hbig]; linarith)
  rw [val_one] at hp1
  rw [hbig] at hp2
  obtain ⟨_, _, _, hdiv, _⟩ := arithmetic_of_finite hpfin hfs
  rw [← hsmall]
  refine (hdiv (by linarith)).between (by decide) (by decide) (by rw [hsmall]; norm_num) ?_ ?_
  · rw [hsmall, flush_fmul, le_div_iff₀ (by linarith)]
    linarith
  · rw [val_pi, flush_fmul, div_le_iff₀ (by linarith)]
    linarith

/-- Twice `CUT_Q` is a word of value 1 or more. -/
theorem two_mul_cutQ : isFinite (fmul lit.two lit.cutQ) = true ∧ 1 ≤ val (fmul lit.two lit.cutQ) := by
  refine ⟨by decide +kernel, ?_⟩
  rw [val, show units (fmul lit.two lit.cutQ) = 0xB504F3 * 2 ^ 126 by decide +kernel]
  norm_num

/-- A word of [0, 1] divided by one of 1 or more stays in [0, 1]. -/
theorem inUnit_fdiv {a b : F32} (ha : inUnit a = true) (hb : isFinite b = true) (h1 : 1 ≤ val (flush b)) :
    inUnit (fdiv a b) = true := by
  have hafin := isFinite_of_inSym (inSym_of_inUnit ha)
  obtain ⟨hn, ha0, ha1⟩ := inUnit_iff.mp ha
  have hpos : 0 < units (flush b) := by
    have h := (val_lt_val_iff (a := lit.zero)).mp (by rw [val_zero]; linarith : val lit.zero < val (flush b))
    rwa [units_of_isZero (by decide)] at h
  obtain ⟨hn', h0⟩ := zero_le_iff.mp (fle_zero_fdiv (zero_le_iff.mpr ⟨hn, ha0⟩) hb hpos)
  obtain ⟨_, _, _, hdiv, _⟩ := arithmetic_of_finite hafin hb
  have hround := (hdiv (by linarith)).abs_val_le_one (by
    rw [abs_of_nonneg (by positivity), div_le_one (by linarith)]
    linarith)
  exact inUnit_iff.mpr ⟨hn', h0, by rw [flush_fdiv]; exact (abs_le.mp hround).2⟩

/-- 1 plus a word of [0, 1] is 1 or more. -/
theorem one_le_one_add (h : inUnit x = true) : fle lit.one (fadd lit.one x) = true := by
  have hone : isFinite lit.one = true := by decide
  have hfin := isFinite_of_inSym (inSym_of_inUnit h)
  obtain ⟨_, h0, h1⟩ := inUnit_iff.mp h
  obtain ⟨hadd, _⟩ := arithmetic_of_finite hone hfin
  rw [flush_one, val_one] at hadd
  have htwo : val lit.two = 2 := by
    rw [val, show units lit.two = 2 * 2 ^ 149 by decide +kernel]
    norm_num
  obtain ⟨_, hle, _⟩ := hadd.between (a := lit.one) (b := lit.two) hone (by decide) (by rw [val_one]; norm_num)
    (by rw [val_one]; linarith) (by rw [htwo]; linarith)
  exact fle_iff.mpr ⟨by decide, isNaN_fadd_of_isFinite hone hfin, by rwa [flush_one, flush_fadd]⟩

/-- R237: the divisor of either cut for a legal rate and cutoff. -/
theorem one_le_cutDivisor (hrate : rateOk fs = true) (hcut : inRange 0x41A00000 0x469C4000 f0 = true) :
    fle lit.one (fadd lit.one (fdiv (sin (fdiv (fmul lit.twoPi f0) fs)) (fmul lit.two lit.cutQ))) = true := by
  obtain ⟨hfin, hlo, hhi⟩ := cutoff_angle hrate hcut
  have hn := isNaN_of_isFinite hfin
  have h0 : fle lit.zero (fdiv (fmul lit.twoPi f0) fs) = true :=
    zero_le_iff.mpr ⟨hn, by rw [flush_fdiv]; exact le_trans (by positivity) hlo⟩
  have hpi : fle (fdiv (fmul lit.twoPi f0) fs) lit.pi = true :=
    fle_iff.mpr ⟨hn, by decide, by rwa [flush_fdiv, show flush lit.pi = lit.pi by decide]⟩
  obtain ⟨hq, hq1⟩ := two_mul_cutQ
  exact one_le_one_add (inUnit_fdiv (sin_inUnit h0 hpi hfin) hq (by rwa [flush_fmul]))

end Divisor

/-- Settles O44: the quotients are the model's own, and the sine of the bounded angle is not below 0. -/
theorem normaliserIsAtLeastOne : Obligations.NormaliserIsAtLeastOne := by
  unfold Obligations.NormaliserIsAtLeastOne
  rintro f0 q fs w0 cw al a0 rfl rfl rfl rfl
  refine ⟨rfl, rfl, rfl, fun hq hrate hcut => ?_⟩
  subst hq
  exact one_le_cutDivisor hrate hcut

end Sys2Proof.Machine
end

section
/-! PROOF. The block constants of `PROC.D` (46_parameter_mapper.md R222 to R228, R236): which derivation each comes from, what a
block does not derive keeps its value (log 22), and the ghost phase moves once (44_ghost_stage.md R190). -/

namespace Sys2Proof.Machine

open Sys2Proof.Config

section Derivations

variable {p : SnapD} (len : Nat) (ds : DistState) (k : DistConsts)

/-! ### The Destroy constants (R224, R225) -/

/-- The nine Destroy constants of the two agree. -/
structure SameDestroy (a b : DistConsts) : Prop where
  dcoef : b.dcoef = a.dcoef
  kIn : b.kIn = a.kIn
  kLow : b.kLow = a.kLow
  kRes : b.kRes = a.kRes
  kPre : b.kPre = a.kPre
  kMixlow : b.kMixlow = a.kMixlow
  kMixres : b.kMixres = a.kMixres
  kSat : b.kSat = a.kSat
  kResc : b.kResc = a.kResc

/-- For an amount above 0 they are the resonant section and the eight gains of that amount. -/
theorem deriveDist_destroy_of_pos (h : fgt (deriveDist p len ds k).amount lit.zero = true) :
    SameDestroy (deriveDestroyGains (deriveDestroyFilter ds.fs (deriveAmount p.destroy k))) (deriveDist p len ds k) := by
  rw [deriveDist_amount] at h
  have hpos : fgt (deriveAmount p.destroy (deriveTone p.tone k)).amount lit.zero = true := h
  simp only [deriveDist, if_pos hpos]
  split_ifs <;> constructor <;> rfl

/-- For any other amount, a NaN included, they keep their values. -/
theorem deriveDist_destroy_of_not_pos (h : fgt (deriveDist p len ds k).amount lit.zero = false) :
    SameDestroy k (deriveDist p len ds k) := by
  rw [deriveDist_amount] at h
  have hskip : ¬ fgt (deriveAmount p.destroy (deriveTone p.tone k)).amount lit.zero = true :=
    ne_true_of_eq_false h
  simp only [deriveDist, if_neg hskip]
  split_ifs <;> constructor <;> rfl

/-! ### The ghost constants (R226, R227) -/

theorem ghostR2_word : fdiv lit.one lit.ghostQ = 0x3E4CCCCD := by decide +kernel

/-- With ghost on they are derived from the phase at the start of the block. -/
theorem deriveDist_ghost (h : p.ghost = true) :
    (deriveDist p len ds k).gfc = fadd lit.ghostBase (fmul (ncoSin ds.gphase) lit.ghostDepth) ∧
    (deriveDist p len ds k).gg = tan (fdiv (fmul lit.pi (deriveDist p len ds k).gfc) ds.fs) ∧
    (deriveDist p len ds k).gR2 = fdiv lit.one lit.ghostQ ∧
    (deriveDist p len ds k).gh =
      fdiv lit.one (fadd (fadd lit.one (fmul (deriveDist p len ds k).gR2 (deriveDist p len ds k).gg))
        (fmul (deriveDist p len ds k).gg (deriveDist p len ds k).gg)) := by
  simp only [deriveDist, if_pos h]
  exact ⟨rfl, rfl, rfl, rfl⟩

end Derivations

/-- With ghost on the pass moves the phase once, by the block's step (44_ghost_stage.md R190). -/
theorem ghostPass_phase {s : State} (h : s.pd.ghost = true) (nch len : Nat) :
    (ghostPass nch len s).ds.gphase = ghostPhaseAfter s.ds.gphase s.dk.ginc := by
  rcases ghostPass_cases nch len s with ⟨_, hoff⟩ | ⟨_, _, _, _, _, he⟩
  · cases h.symm.trans hoff
  · rw [he]

/-- Settles O27: nothing after the derivations writes a constant, and only the ghost pass the phase. -/
theorem procDDerivesBlockConstants : Obligations.ProcDDerivesBlockConstants := by
  unfold Obligations.ProcDDerivesBlockConstants
  intro nch n s t _ hexec htrap
  obtain ⟨_, hdk, _, _, hphase⟩ := procD_ghostState hexec htrap
  rw [startBlockD_dk] at hdk
  obtain ⟨halpha, hbeta⟩ := deriveDist_tone (snapshotD s.regs) n s.ds s.dk
  rw [hdk]
  refine ⟨halpha, by rw [hbeta, halpha]; rfl, deriveDist_amount _ _ _ _, fun hpos => ?pos, fun hpos => ?notPos,
    fun hon => ?ghost⟩
  case pos =>
    have hd := deriveDist_destroy_of_pos n s.ds s.dk hpos
    rw [deriveDist_amount]
    exact ⟨hd.dcoef, hd.kIn, hd.kLow, hd.kRes, hd.kPre, hd.kMixlow, hd.kMixres, hd.kSat, hd.kResc⟩
  case notPos =>
    have hd := deriveDist_destroy_of_not_pos n s.ds s.dk hpos
    exact ⟨hd.dcoef, hd.kIn, hd.kLow, hd.kRes, hd.kPre, hd.kMixlow, hd.kMixres, hd.kSat, hd.kResc⟩
  case ghost =>
    obtain ⟨hfc, hg, hr2, hh⟩ := deriveDist_ghost (p := snapshotD s.regs) n s.ds s.dk hon
    rw [ghostPass_phase hon, startBlockD_ds, startBlockD_dk] at hphase
    rw [hphase]
    exact ⟨hfc, hg, hr2, hr2.trans ghostR2_word, hh, deriveDist_ginc hon n s.ds s.dk, ghostPhaseAfter_of_finite,
      phaseOk_ghostPhaseAfter_of_isInf _⟩

end Sys2Proof.Machine
end

section
/-! PROOF. `PROC.R` once its checks hold (49_reverb_pipeline_and_system.md R281 to R284): every pass stays inside the frame of the
block, and the passes keep the snapshot and the constants of its start (46_parameter_mapper.md R230 to R232, R235). -/

namespace Sys2Proof.Machine

open Sys2Proof.Config

/-! ### The entries of channels that are not live (10_state.md R21) -/

/-- The taps and the cursors of the channels from `nch` on are as they were. -/
def DeadRevKept (nch : Nat) (a b : RevState) : Prop :=
  ∀ c : Channel, nch ≤ c.val → b.lc[c] = a.lc[c] ∧ b.hc[c] = a.hc[c] ∧ b.wcur[c] = a.wcur[c]

/-- So are their words of `DLY`. -/
def DeadDlyKept (nch : Nat) (m m' : Memory) : Prop :=
  ∀ c : Channel, nch ≤ c.val → ∀ i, i < delayCap → memWord m' (dlyAddr c i) = memWord m (dlyAddr c i)

section Dead

variable {nch : Nat} {c : Channel}

theorem DeadRevKept.refl (nch : Nat) (a : RevState) : DeadRevKept nch a a := fun _ _ => ⟨rfl, rfl, rfl⟩

theorem DeadRevKept.trans {a b d : RevState} (h : DeadRevKept nch a b) (h' : DeadRevKept nch b d) : DeadRevKept nch a d :=
  fun c hc =>
    have ⟨h1, h2, h3⟩ := h c hc
    have ⟨h1', h2', h3'⟩ := h' c hc
    ⟨h1'.trans h1, h2'.trans h2, h3'.trans h3⟩

theorem deadRevKept_cuts (hc : c.val < nch) (k : RevConsts) (x : F32) (rs : RevState) :
    DeadRevKept nch rs (cuts k c x rs).2 := fun _ hd =>
  ⟨getElem_set_of_live _ _ hc hd, getElem_set_of_live _ _ hc hd, rfl⟩

theorem deadRevKept_pop (hc : c.val < nch) (d : Nat) (x : F32) (st : RevState × Memory) :
    DeadRevKept nch st.1 (pop d c x st).2.1 := fun _ hd =>
  ⟨rfl, rfl, getElem_set_of_live _ _ hc hd⟩

theorem DeadDlyKept.refl (nch : Nat) (m : Memory) : DeadDlyKept nch m m := fun _ _ _ _ => rfl

theorem DeadDlyKept.trans {m m' m'' : Memory} (h : DeadDlyKept nch m m') (h' : DeadDlyKept nch m' m'') :
    DeadDlyKept nch m m'' := fun c hc i hi => (h' c hc i hi).trans (h c hc i hi)

/-- `POP` writes a word of its own channel, as long as the cursor is below the capacity. -/
theorem deadDlyKept_pop (hc : c.val < nch) (d : Nat) (x : F32) {st : RevState × Memory} (hcur : CursorsOk st.1) :
    DeadDlyKept nch st.2 (pop d c x st).2.2 := fun c' hc' i hi => by
  have hne : (i, c') ≠ (st.1.wcur[c], c) := fun he => by
    have := congrArg (fun p : Nat × Channel => p.2.val) he
    simp only at this
    omega
  exact memWord_setWord_of_disjoint _ _ (dlyAddr_disjoint hi (hcur c) hne)

end Dead

/-! ### The frame of the passes -/

section Frame

variable {nch len : Nat} {s t : State}

theorem outside_positions {addr : Channel → Nat → Nat} {a : Nat} (ha : ¬ inBlock addr nch len a) :
    ∀ n c, (n, c) ∈ positions nch len → a < addr c n ∨ addr c n + 4 ≤ a := fun n c hp => by
  by_contra h
  obtain ⟨hn, hc⟩ := mem_positions.mp hp
  exact ha ⟨c, n, hc, hn, by omega, by omega⟩

/-- A sweep over the block leaves every byte outside it. -/
theorem sweep_outside_block {σ : Type} (addr : Channel → Nat → Nat) (f : Nat → Channel → F32 → σ → F32 × σ) (m : Memory)
    (st : σ) {a : Nat} (ha : ¬ inBlock addr nch len a) :
    memByte (sweep addr f (positions nch len) m st).1 a = memByte m a :=
  sweep_memByte_of_outside addr f _ m st a (outside_positions ha)

theorem RevBlockFrame.refl (nch len : Nat) (s : State) : RevBlockFrame nch len s s := by
  constructor
  case dead => exact DeadRevKept.refl nch s.rs
  case deadDly => exact fun _ => DeadDlyKept.refl nch s.dly
  case wetOutside => exact fun _ _ => rfl
  case outside => exact fun _ _ => rfl
  all_goals rfl

/-- The frames of two passes in a row, the first of which keeps every cursor below the capacity. -/
theorem RevBlockFrame.trans {u : State} (h : RevBlockFrame nch len s t) (hcur : CursorsOk s.rs → CursorsOk t.rs)
    (h' : RevBlockFrame nch len t u) : RevBlockFrame nch len s u where
  regs := by rw [h'.regs, h.regs]
  trap := h'.trap.trans h.trap
  seq := h'.seq.trans h.seq
  pd := h'.pd.trans h.pd
  ds := h'.ds.trans h.ds
  dk := h'.dk.trans h.dk
  rdata := h'.rdata.trans h.rdata
  x := h'.x.trans h.x
  host := h'.host.trans h.host
  draws := h'.draws.trans h.draws
  configured := h'.configured.trans h.configured
  fs := h'.fs.trans h.fs
  nchEq := h'.nchEq.trans h.nchEq
  maxblk := h'.maxblk.trans h.maxblk
  inc := h'.inc.trans h.inc
  dead := DeadRevKept.trans h.dead h'.dead
  deadDly hs := DeadDlyKept.trans (h.deadDly hs) (h'.deadDly (hcur hs))
  wetOutside a ha := (h'.wetOutside a ha).trans (h.wetOutside a ha)
  outside a ha := (h'.outside a ha).trans (h.outside a ha)

/-- A change of live channels' entries and the phase, of their words of `DLY`, and of the two blocks is within the frame. -/
theorem revBlockFrame_of_block {m wet dly : Memory} {rs : RevState} (hrs : RevLatched s.rs rs)
    (hdead : DeadRevKept nch s.rs rs) (p : F32) (hdly : CursorsOk s.rs → DeadDlyKept nch s.dly dly)
    (hwet : ∀ a, ¬ inBlock wetAddr nch len a → memByte wet a = memByte s.wet a)
    (hm : ∀ a, ¬ inBlock bufRAddr nch len a → memByte m a = memByte s.mem a) :
    RevBlockFrame nch len s { s with mem := m, wet := wet, dly := dly, rs := { rs with mphase := p } } :=
  { RevBlockFrame.refl nch len s with
    configured := hrs.configured
    fs := hrs.fs
    nchEq := hrs.nch
    maxblk := hrs.maxblk
    inc := hrs.inc
    dead := hdead
    deadDly := hdly
    wetOutside := hwet
    outside := hm }

/-- A change of the block in `WET_R` alone. -/
theorem revBlockFrame_of_wet {wet : Memory} {rs : RevState} (hrs : RevLatched s.rs rs) (hdead : DeadRevKept nch s.rs rs)
    (p : F32) (hwet : ∀ a, ¬ inBlock wetAddr nch len a → memByte wet a = memByte s.wet a) :
    RevBlockFrame nch len s { s with wet := wet, rs := { rs with mphase := p } } :=
  revBlockFrame_of_block hrs hdead p (fun _ => .refl nch s.dly) hwet fun _ _ => rfl

/-- A change of the block in `BUF_R` alone. -/
theorem revBlockFrame_of_buffer {m : Memory} {rs : RevState} (hrs : RevLatched s.rs rs) (hdead : DeadRevKept nch s.rs rs)
    (hm : ∀ a, ¬ inBlock bufRAddr nch len a → memByte m a = memByte s.mem a) :
    RevBlockFrame nch len s { s with mem := m, rs := rs } :=
  revBlockFrame_of_block hrs hdead rs.mphase (fun _ => .refl nch s.dly) (fun _ _ => rfl) hm

theorem revBlockFrame_startBlockR (nch len : Nat) (sel : Instr) (d : Bool × Nat) (s : State) :
    RevBlockFrame nch len s (startBlockR sel d s) :=
  { RevBlockFrame.refl nch len s with regs := rfl }

theorem revBlockFrame_filterPass (nch len : Nat) (s : State) : RevBlockFrame nch len s (filterPass nch len s) := by
  have hdead := sweep_induct bufRAddr (fun _ c x rs => cuts s.rk c x rs) (fun _ rs => DeadRevKept nch s.rs rs)
    (positions nch len) s.mem s.rs (.refl _ _) fun _ _ _ _ hp h => h.trans (deadRevKept_cuts (mem_positions.mp hp).2 s.rk _ _)
  exact revBlockFrame_of_buffer (filterPass_latched nch len s).1 hdead fun _ ha => sweep_outside_block bufRAddr _ _ _ ha

theorem revBlockFrame_copyPass (nch len : Nat) (s : State) : RevBlockFrame nch len s (copyPass nch len s) :=
  revBlockFrame_of_wet (.refl s.rs) (.refl _ _) s.rs.mphase fun _ ha => sweep_outside_block wetAddr _ _ _ ha

/-- The predelay pass moves the cursors of live channels, keeps them below the capacity, and writes their words of `DLY`. -/
theorem predelayPass_dead (nch len : Nat) (s : State) :
    DeadRevKept nch s.rs (predelayPass nch len s).rs ∧
      (CursorsOk s.rs → CursorsOk (predelayPass nch len s).rs ∧ DeadDlyKept nch s.dly (predelayPass nch len s).dly) := by
  unfold predelayPass
  split
  · refine sweep_induct wetAddr (fun _ c x st => pop s.rk.dlyD c x st)
      (fun _ st => DeadRevKept nch s.rs st.1 ∧ (CursorsOk s.rs → CursorsOk st.1 ∧ DeadDlyKept nch s.dly st.2))
      _ _ _ ⟨.refl _ _, fun hcur => ⟨hcur, .refl _ _⟩⟩ ?_
    rintro n c m st hp ⟨hdead, hlive⟩
    have hc := (mem_positions.mp hp).2
    refine ⟨hdead.trans (deadRevKept_pop hc _ _ st), fun hs => ?_⟩
    obtain ⟨hcur, hdly⟩ := hlive hs
    exact ⟨cursorsOk_pop hcur, hdly.trans (deadDlyKept_pop hc _ _ hcur)⟩
  · exact ⟨.refl _ _, fun hcur => ⟨hcur, .refl _ _⟩⟩

theorem predelayPass_wetOutside {a : Nat} (ha : ¬ inBlock wetAddr nch len a) :
    memByte (predelayPass nch len s).wet a = memByte s.wet a := by
  unfold predelayPass
  split
  · exact sweep_outside_block wetAddr _ _ _ ha
  · rfl

/-- The predelay pass writes `WET_R`, `DLY` and the engine's state only. -/
theorem predelayPass_eq (nch len : Nat) (s : State) :
    predelayPass nch len s = { s with
      wet := (predelayPass nch len s).wet, rs := (predelayPass nch len s).rs, dly := (predelayPass nch len s).dly } := by
  unfold predelayPass
  split <;> rfl

theorem revBlockFrame_predelayPass (nch len : Nat) (s : State) : RevBlockFrame nch len s (predelayPass nch len s) := by
  obtain ⟨hdead, hdly⟩ := predelayPass_dead nch len s
  rw [predelayPass_eq]
  exact revBlockFrame_of_block (predelayPass_latched nch len s) hdead _ (fun hs => (hdly hs).2)
    (fun _ ha => predelayPass_wetOutside ha) fun _ _ => rfl

theorem revBlockFrame_externalCall (nch len : Nat) (s : State) : RevBlockFrame nch len s (externalCall nch len s) :=
  revBlockFrame_of_wet (externalCall_latched nch len s).1 (fun _ _ => ⟨rfl, rfl, rfl⟩) s.rs.mphase
    fun _ ha => sweep_outside_block wetAddr _ _ _ ha

/-- The frames of the modulation leave every byte of `WET_R` outside the block. -/
theorem modFrames_wetOutside {mod inc : F32} (st : Memory × F32) {a : Nat} (ha : ¬ inBlock wetAddr nch len a) :
    memByte (modFrames nch mod inc (List.range len) st).1 a = memByte st.1 a := by
  refine modFrames_induct (fun st' => memByte st'.1 a = memByte st.1 a) mod inc _ st rfl fun n st' hn h => ?_
  refine (sweep_memByte_of_outside wetAddr _ _ _ _ a fun k c hp => ?_).trans h
  obtain ⟨c', hc', he⟩ := List.mem_map.mp hp
  obtain ⟨rfl, rfl⟩ := Prod.mk.inj he
  exact outside_positions ha n c' (mem_positions.mpr ⟨List.mem_range.mp hn, mem_channels.mp hc'⟩)

theorem revBlockFrame_modulationPass (nch len : Nat) (s : State) : RevBlockFrame nch len s (modulationPass nch len s) := by
  rcases modulationPass_cases nch len s with he | ⟨_, rfl, he⟩ <;> rw [he]
  · exact .refl nch len s
  · exact revBlockFrame_of_wet (.refl s.rs) (.refl _ _) _ fun _ ha => modFrames_wetOutside _ ha

theorem revBlockFrame_mixPass (nch len : Nat) (s : State) : RevBlockFrame nch len s (mixPass nch len s) :=
  revBlockFrame_of_buffer (.refl s.rs) (.refl _ _) fun _ ha => sweep_outside_block bufRAddr _ _ _ ha

theorem modulationPass_wcur (nch len : Nat) (s : State) : (modulationPass nch len s).rs.wcur = s.rs.wcur := by
  rcases modulationPass_cases nch len s with he | ⟨_, _, he⟩ <;> rw [he]

theorem CursorsOk.congr {a b : RevState} (h : CursorsOk a) (he : b.wcur = a.wcur) : CursorsOk b := fun c => by
  rw [he]
  exact h c

/-- All the passes of a block stay inside its frame (R283). -/
theorem revBlockFrame_reverbPasses (nch len : Nat) (s : State) : RevBlockFrame nch len s (reverbPasses nch len s) :=
  (revBlockFrame_filterPass nch len s).trans (fun h => h.congr (filterPass_latched nch len s).2) <|
  (revBlockFrame_copyPass nch len _).trans id <|
  (revBlockFrame_predelayPass nch len _).trans (fun h => ((predelayPass_dead nch len _).2 h).1) <|
  (revBlockFrame_externalCall nch len _).trans id <|
  (revBlockFrame_modulationPass nch len _).trans (fun h => h.congr (modulationPass_wcur nch len _)) <|
  revBlockFrame_mixPass nch len _

end Frame

/-! ### The command -/

theorem exists_decodeRType {w : Word} (h : w.toNat < 5) : ∃ sel, decodeRType w = .ok sel := by
  cases hd : decodeRType w with
  | ok sel => exact ⟨sel, rfl⟩
  | error e => exact absurd ((decode_selector_error_iff (f := .rtype) nofun w).mp ⟨e, hd⟩) (by omega)

/-- A predelay that is off, or whose length is below the capacity, passes the check (R281). -/
theorem exists_predelayOf {pre fs : F32}
    (h : fgt pre lit.zero = true → flt (fdiv (fmul pre fs) lit.msPerSecond) 0x49000000 = true) :
    ∃ d, predelayOf pre fs = some d := by
  cases hon : fgt pre lit.zero with
  | false => exact ⟨_, predelayOf_of_off hon fs⟩
  | true => exact ⟨_, (predelayOf_of_on hon fs).trans (if_pos (h hon))⟩

theorem execProcR_of_checks {nch n : Nat} {s : State} {sel : Instr} {d : Bool × Nat} (hcfg : s.rs.configured = true)
    (hnch : nch = s.rs.nch) (hn : n ≤ s.rs.maxblk) (hsel : decodeRType s.regs.rType = .ok sel)
    (hd : predelayOf s.regs.rPredelay s.rs.fs = some d) :
    execProcR nch n s = .next (reverbPasses nch n (startBlockR sel d s)) := by
  have hok : blockOk nch n s.rs.nch s.rs.maxblk = true := decide_eq_true ⟨hnch, hn⟩
  rcases execProcR_cases nch n s with ⟨h, _⟩ | ⟨_, h, _⟩ | ⟨_, _, ⟨e, h⟩, _⟩ | ⟨_, _, _, _, h, _⟩ |
    ⟨sel', d', _, _, hsel', hd', hrun⟩
  · cases hcfg.symm.trans h
  · cases hok.symm.trans h
  · cases hsel.symm.trans h
  · cases hd.symm.trans h
  · obtain rfl := Except.ok.inj (hsel.symm.trans hsel')
    obtain rfl := Option.some.inj (hd.symm.trans hd')
    exact hrun

/-- Settles O47: the start of the block writes the snapshot and the constants, which no pass writes again. -/
theorem procRCompletes : Obligations.ProcRCompletes := by
  unfold Obligations.ProcRCompletes
  intro nch n s hcfg hnch hn htype hpre
  obtain ⟨sel, hsel⟩ := exists_decodeRType htype
  obtain ⟨d, hd⟩ := exists_predelayOf hpre
  have hframe := (revBlockFrame_startBlockR nch n sel d s).trans id (revBlockFrame_reverbPasses nch n _)
  refine ⟨_, execProcR_of_checks hcfg hnch hn hsel hd, hframe, ?_⟩
  rw [reverbPasses_pr, reverbPasses_rk, reverbPasses_regs, startBlockR_pr, startBlockR_ra]
  exact ⟨rfl, rfl, rfl, hd, rfl, rfl, rfl, rfl⟩

end Sys2Proof.Machine
end

section
/-! PROOF. Faults (60_exceptions.md R316 to R326, 70_reset_and_hazards.md R340): fault entry in an idle and in a busy block,
what keeps a recorded cause, the write of `CMD` that is turned away, and the precision of every fault but `FOLD_DIVERGE`. -/

namespace Sys2Proof.Machine

open Sys2Proof.Config

/-! ### Fault entry (R316) -/

section Entry

variable {s : State} (cause : Cause)

theorem raiseFault_of_none (h : s.trap = none) :
    raiseFault cause s = { s with trap := some cause, seq := { s.seq with busy := false } } := by
  simp [raiseFault, h]

theorem raiseFault_of_some {first : Cause} (h : s.trap = some first) :
    raiseFault cause s = { s with seq := { s.seq with busy := false } } := by
  have hkept : some (s.trap.getD cause) = s.trap := by rw [h, Option.getD_some]
  rw [raiseFault, hkept]

/-- A first fault of an idle block records its cause and changes nothing else. -/
theorem raiseFault_of_idle (htrap : s.trap = none) (hidle : s.seq.busy = false) :
    raiseFault cause s = { s with trap := some cause } := by
  simp [raiseFault_of_none cause htrap, ← hidle]

end Entry

/-- Settles O17. -/
theorem faultEntryKeepsFirstCause : Obligations.FaultEntryKeepsFirstCause := by
  unfold Obligations.FaultEntryKeepsFirstCause
  exact fun cause s => ⟨raiseFault_of_none cause, fun _ => raiseFault_of_some cause⟩

/-! ### A write of `CMD` that runs nothing (R317 to R320) -/

section Issue

variable {run : Instr → State → Host.Outcome State Fault Refusal} {w : Word} {s : State}

theorem issueCommand_faulted (h : s.trap.isSome = true) : issueCommand run w s = .next s := if_pos h

theorem issueCommand_busy (htrap : s.trap = none) (hbusy : s.seq.busy = true) :
    issueCommand run w s = .next (raiseFault .cmdWhileBusy (abandonRunning s)) := by
  simp [issueCommand, htrap, hbusy]

theorem issueCommand_undecoded {e : Reject} (htrap : s.trap = none) (hidle : s.seq.busy = false)
    (he : decodeCmd w = .error e) : issueCommand run w s = .next (raiseFault .illegalCmd s) := by
  simp [issueCommand, htrap, hidle, he]

end Issue

/-- Settles O7. -/
theorem undecodedCommandFaults : Obligations.UndecodedCommandFaults := by
  unfold Obligations.UndecodedCommandFaults
  intro s w rest e hhost htrap hidle he
  rw [step_command hhost, issueCommand_undecoded (s := { s with host := rest }) htrap hidle he,
    raiseFault_of_idle (s := { s with host := rest }) _ htrap hidle]

/-! ### A command abandoned while it runs (R320) -/

section Abandon

variable {s : State}

theorem not_runsDist_of_runsRev (h : runsRev s = true) : runsDist s = false := by
  cases hphase : s.seq.phase <;> simp_all [runsRev, runsDist]

theorem abandonRunning_of_runsDist (h : runsDist s = true) : abandonRunning s = losesDist nchMax blkCap s := if_pos h

theorem abandonRunning_of_runsRev (h : runsRev s = true) : abandonRunning s = losesRev s := by
  simp [abandonRunning, not_runsDist_of_runsRev h, h]

/-- What an abandoned command loses is words of one engine and of its buffer. -/
theorem abandonRunning_keeps (s : State) :
    (abandonRunning s).trap = s.trap ∧ (abandonRunning s).seq = s.seq ∧ (abandonRunning s).regs = s.regs ∧
      (abandonRunning s).host = s.host := by
  unfold abandonRunning
  split_ifs <;> exact ⟨rfl, rfl, rfl, rfl⟩

theorem revKept_losesDist (nch : Nat) {len : Nat} (hlen : len ≤ blkCap) (s : State) : RevKept s (losesDist nch len s) :=
  { revKept_foldDiverge nch hlen s with }

/-- Losing words of `BUF_R` leaves `BUF_D` alone. -/
theorem agreeOn_freeBlock_bufR (d nch : Nat) {len : Nat} (hlen : len ≤ blkCap) (m : Memory) :
    AgreeOn 0x10000 0x20000 (freeBlock bufRAddr d nch len m) m :=
  agreeOn_sweep_of_disjoint _ (wordsIn_bufR hlen) (.inr le_rfl) m ()

theorem losesRev_mem (s : State) : (losesRev s).mem = freeBlock bufRAddr (s.draws + 1) nchMax blkCap s.mem := by
  simp only [losesRev]

theorem distKept_losesRev (s : State) : DistKept s (losesRev s) where
  regs := ⟨rfl, rfl, rfl⟩
  pd := rfl
  ds := rfl
  dk := rfl
  buffer := by
    rw [losesRev_mem]
    exact agreeOn_freeBlock_bufR (s.draws + 1) nchMax le_rfl s.mem

/-- The engine that is not running keeps its share. -/
theorem abandonRunning_keeps_other (s : State) :
    (runsDist s = true → RevKept s (abandonRunning s)) ∧ (runsRev s = true → DistKept s (abandonRunning s)) := by
  refine ⟨fun h => ?_, fun h => ?_⟩
  · rw [abandonRunning_of_runsDist h]
    exact revKept_losesDist nchMax le_rfl s
  · rw [abandonRunning_of_runsRev h]
    exact distKept_losesRev s

theorem step_command_busy {w : Word} {rest : List HostAction} (hhost : s.host = .write 0 4 w :: rest)
    (htrap : s.trap = none) (hbusy : s.seq.busy = true) :
    step s = .next (raiseFault .cmdWhileBusy (abandonRunning { s with host := rest })) :=
  (step_command hhost).trans (issueCommand_busy htrap hbusy)

end Abandon

/-- Settles O16: the engine that is not running keeps its share, and fault entry touches neither. -/
theorem commandWhileBusyFaults : Obligations.CommandWhileBusyFaults := by
  unfold Obligations.CommandWhileBusyFaults
  intro s w rest hhost htrap hbusy
  obtain ⟨hcause, hseq, hregs, hqueue⟩ := abandonRunning_keeps { s with host := rest }
  obtain ⟨hdist, hrev⟩ := abandonRunning_keeps_other { s with host := rest }
  refine ⟨_, step_command_busy hhost htrap hbusy, ?cause, ?seq, hregs, hqueue, fun hrun => ?rev, fun hrun => ?dist⟩
  case cause => rw [raiseFault_trap, hcause, htrap, Option.getD_none]
  case seq => exact congrArg (fun q : Seq => { q with busy := false }) hseq
  case rev => exact { (hdist hrun).trans (revKept_raiseFault .cmdWhileBusy _) with }
  case dist => exact { (hrev hrun).trans (distKept_raiseFault .cmdWhileBusy _) with }

/-! ### `NOP` (49_reverb_pipeline_and_system.md R295) -/

theorem decodeCmd_eq_nop_iff (w : Word) : decodeCmd w = .ok .nop ↔ w = 0 := by
  rw [decodeCmd_eq_ok_iff_encode rfl]
  exact ⟨fun h => h.2.symm, fun h => ⟨rfl, h.symm⟩⟩

/-- Settles O19: the word 0 decodes to `NOP`, whose meaning is the identity. -/
theorem nopChangesNothing : Obligations.NopChangesNothing := by
  unfold Obligations.NopChangesNothing
  refine ⟨decodeCmd_eq_nop_iff, fun s => rfl, fun s rest hhost => ⟨fun h => ?quiet, fun htrap hbusy => ?busy⟩⟩
  case quiet =>
    by_cases htrap : s.trap.isSome = true
    · exact (step_command hhost).trans (issueCommand_faulted htrap)
    · have hnone : s.trap = none := Option.not_isSome_iff_eq_none.mp htrap
      exact step_decoded hhost hnone (h.resolve_left htrap) ((decodeCmd_eq_nop_iff 0).mpr rfl)
  case busy =>
    refine ⟨_, step_command_busy hhost htrap hbusy, ?_⟩
    rw [raiseFault_trap, (abandonRunning_keeps { s with host := rest }).1, htrap, Option.getD_none]

/-! ### A recorded cause (R316, R318, R325) -/

section Recorded

variable {s : State} {c : Cause} (h : s.trap = some c)

include h

theorem raiseFault_keeps_cause (cause : Cause) : (raiseFault cause s).trap = some c := by
  rw [raiseFault_trap, h, Option.getD_some]

theorem busRead_keeps_cause (addr : Word) (size : Nat) : (busRead addr size s).trap = some c := by
  unfold busRead
  cases target addr size with
  | none => exact raiseFault_keeps_cause (s := { s with rdata := 0 }) h _
  | some tgt =>
    cases tgt with
    | reg r => exact h
    | bufD a => dsimp only; split <;> exact h
    | bufR a => dsimp only; split <;> exact h

theorem busWrite_keeps_cause (run : Instr → State → Host.Outcome State Fault Refusal) (addr : Word) (size : Nat) (v : Word) :
    ∃ t, busWrite run addr size v s = .next t ∧ t.trap = some c := by
  by_cases h0 : addr = 0
  · subst h0
    by_cases h4 : size = 4
    · subst h4
      exact ⟨s, (busWrite_cmd run v s).trans (issueCommand_faulted (by simp [h])), h⟩
    · have ht : target 0 size = none := by simp [target, h4]
      exact ⟨_, busWrite_bad run ht v s, raiseFault_keeps_cause h _⟩
  · rcases busWrite_cases run addr size v s h0 with ⟨_, he⟩ | ⟨_, _, _, he⟩ | ⟨_, _, _, he⟩ | ⟨_, _, _, he⟩ | ⟨_, _, he⟩
    · exact ⟨_, he, raiseFault_keeps_cause h _⟩
    all_goals exact ⟨_, he, h⟩

/-- Every step but the hardware reset keeps the cause. -/
theorem step_keeps_cause (hreset : ∀ rest, s.host ≠ .resetPin :: rest) : ∃ t, step s = .next t ∧ t.trap = some c := by
  cases hhost : s.host with
  | nil => exact ⟨s, step_nil hhost, h⟩
  | cons a rest =>
    rw [step_cons hhost]
    cases a with
    | read addr size => exact ⟨_, rfl, busRead_keeps_cause (s := { s with host := rest }) h addr size⟩
    | write addr size v => exact busWrite_keeps_cause (s := { s with host := rest }) h exec addr size v
    | resetPin => exact absurd hhost (hreset rest)

end Recorded

/-- Settles O15: every other host action keeps the cause, and the reset is the state of R42 with new draws. -/
theorem onlyTheHardwareResetClearsAFault : Obligations.OnlyTheHardwareResetClearsAFault := by
  unfold Obligations.OnlyTheHardwareResetClearsAFault
  refine ⟨fun s c htrap => ⟨fun w rest hhost => ?ignored, step_keeps_cause htrap⟩, fun s rest hhost => ?reset⟩
  case ignored => exact (step_command hhost).trans (issueCommand_faulted (by simp [htrap]))
  case reset => exact ⟨_, step_cons hhost, rfl, rfl, rfl, rfl, rfl, rfl, rfl, rfl, rfl, rfl⟩

/-! ### Precision (R326) -/

/-- A write that is no command word is a host access. -/
theorem hostAccess_busWrite_of_not_command {s : State} (hidle : s.seq.busy = false)
    (run : Instr → State → Host.Outcome State Fault Refusal) {addr : Word} {size : Nat} (h : ¬(addr = 0 ∧ size = 4))
    (v : Word) : ∃ t, busWrite run addr size v s = .next t ∧ HostAccess s t := by
  by_cases h0 : addr = 0
  · exact hostAccess_busWrite_size run (fun h4 => h ⟨h0, h4⟩) addr v
  · exact hostAccess_busWrite hidle run h0 size v

/-- Between an idle, unfaulted block and the state after an action: a cause other than `FOLD_DIVERGE` is all that differs, but
for the read data. -/
def PreciseFault (s t : State) : Prop :=
  ∀ c, t.trap = some c → c ≠ .foldDiverge → t = { s with trap := some c, rdata := t.rdata }

section Precise

variable {s t : State}

theorem preciseFault_of_trap_none (h : t.trap = none) : PreciseFault s t := fun _ hc _ => by
  cases h.symm.trans hc

theorem preciseFault_of_foldDiverge (h : t.trap = some .foldDiverge) : PreciseFault s t := fun _ hc hne =>
  absurd (Option.some.inj (hc.symm.trans h)) hne

variable (htrap : s.trap = none) (hidle : s.seq.busy = false)

include htrap hidle

theorem preciseFault_raiseFault (cause : Cause) (v : Word) :
    PreciseFault s (raiseFault cause { s with rdata := v }) := fun _ hc _ => by
  rw [raiseFault_of_idle (s := { s with rdata := v }) cause htrap hidle] at hc ⊢
  obtain rfl := Option.some.inj hc
  rfl

/-- A host access of an idle block faults with the access alone. -/
theorem HostAccess.preciseFault (h : HostAccess s t) : PreciseFault s t := by
  cases h with
  | bad v => exact preciseFault_raiseFault htrap hidle .badAccess v
  | read v => exact preciseFault_of_trap_none htrap
  | register r v => exact preciseFault_of_trap_none htrap
  | buffer a v _ _ => exact preciseFault_of_trap_none htrap

theorem execCfgD_preciseFault {nch maxblk : Nat} (h : execCfgD nch maxblk s = .next t) : PreciseFault s t := by
  rcases execCfgD_cases nch maxblk s with ⟨_, he⟩ | ⟨_, he⟩ <;> obtain rfl := Host.Outcome.next.inj (he.symm.trans h)
  · exact preciseFault_of_trap_none htrap
  · exact preciseFault_raiseFault htrap hidle _ s.rdata

theorem execCfgR_preciseFault {nch maxblk : Nat} (h : execCfgR nch maxblk s = .next t) : PreciseFault s t := by
  rcases execCfgR_cases nch maxblk s with ⟨_, he⟩ | ⟨_, he⟩ <;> obtain rfl := Host.Outcome.next.inj (he.symm.trans h)
  · exact preciseFault_of_trap_none htrap
  · exact preciseFault_raiseFault htrap hidle _ s.rdata

/-- `PROC.D` makes its checks before it changes anything (45_distortion_pipeline.md R202); after them only a fold diverges. -/
theorem execProcD_preciseFault {nch n : Nat} (h : execProcD nch n s = .next t) : PreciseFault s t := by
  have hstart : (ghostPass nch n (startBlockD n s)).trap = none := (distBlockFrame_start nch n s).trap.trans htrap
  rcases execProcD_cases nch n s with ⟨_, he⟩ | ⟨_, _, he⟩ | ⟨_, _, _, he⟩ | ⟨sel, _, _, _, ⟨u, hmain, he⟩ | ⟨_, he⟩⟩ <;>
    obtain rfl := Host.Outcome.next.inj (he.symm.trans h)
  · exact preciseFault_raiseFault htrap hidle _ s.rdata
  · exact preciseFault_raiseFault htrap hidle _ s.rdata
  · exact preciseFault_raiseFault htrap hidle _ s.rdata
  · exact preciseFault_of_trap_none ((distBlockFrame_mainPass hmain).trap.trans hstart)
  · exact preciseFault_of_foldDiverge (by rw [foldDiverge_trap, hstart, Option.getD_none])

/-- `PROC.R` makes its checks before it changes anything (49_reverb_pipeline_and_system.md R281), and no pass faults. -/
theorem execProcR_preciseFault {nch n : Nat} (h : execProcR nch n s = .next t) : PreciseFault s t := by
  rcases execProcR_cases nch n s with ⟨_, he⟩ | ⟨_, _, he⟩ | ⟨_, _, _, he⟩ | ⟨_, _, _, _, _, he⟩ |
      ⟨sel, d, _, _, _, _, he⟩ <;>
    obtain rfl := Host.Outcome.next.inj (he.symm.trans h)
  · exact preciseFault_raiseFault htrap hidle _ s.rdata
  · exact preciseFault_raiseFault htrap hidle _ s.rdata
  · exact preciseFault_raiseFault htrap hidle _ s.rdata
  · exact preciseFault_raiseFault htrap hidle _ s.rdata
  · exact preciseFault_of_trap_none (by rw [reverbPasses_trap, startBlockR_trap, htrap])

theorem exec_decoded_preciseFault {w : Word} {i : Instr} (hi : decodeCmd w = .ok i) (h : exec i s = .next t) :
    PreciseFault s t := by
  rcases decodeCmd_cases hi with rfl | ⟨nch, len, _, rfl | rfl | rfl | rfl⟩
  · obtain rfl := Host.Outcome.next.inj h
    exact preciseFault_of_trap_none htrap
  · exact execCfgD_preciseFault htrap hidle h
  · exact execCfgR_preciseFault htrap hidle h
  · exact execProcD_preciseFault htrap hidle h
  · exact execProcR_preciseFault htrap hidle h

theorem issueCommand_preciseFault {w : Word} (h : issueCommand exec w s = .next t) : PreciseFault s t := by
  cases hi : decodeCmd w with
  | error e =>
    obtain rfl := Host.Outcome.next.inj ((issueCommand_undecoded htrap hidle hi).symm.trans h)
    exact preciseFault_raiseFault htrap hidle _ s.rdata
  | ok i => exact exec_decoded_preciseFault htrap hidle hi ((issueCommand_decoded exec htrap hidle hi).symm.trans h)

theorem busWrite_preciseFault {addr : Word} {size : Nat} {v : Word} (h : busWrite exec addr size v s = .next t) :
    PreciseFault s t := by
  by_cases hcmd : addr = 0 ∧ size = 4
  · obtain ⟨rfl, rfl⟩ := hcmd
    exact issueCommand_preciseFault htrap hidle ((busWrite_cmd exec v s).symm.trans h)
  · obtain ⟨u, hu, hacc⟩ := hostAccess_busWrite_of_not_command hidle exec hcmd v
    obtain rfl := Host.Outcome.next.inj (hu.symm.trans h)
    exact hacc.preciseFault htrap hidle

/-- Every host action of an idle, unfaulted block. -/
theorem hostAction_preciseFault {a : HostAction} (h : hostAction exec a s = .next t) : PreciseFault s t := by
  cases a with
  | read addr size =>
    obtain rfl := Host.Outcome.next.inj h
    exact (hostAccess_busRead hidle addr size).preciseFault htrap hidle
  | write addr size v => exact busWrite_preciseFault htrap hidle h
  | resetPin =>
    obtain rfl := Host.Outcome.next.inj h
    exact preciseFault_of_trap_none rfl

end Precise

/-- Settles O18: every host action faults precisely on the state in which only the queue has moved on. -/
theorem preciseFaultsChangeNothingElse : Obligations.PreciseFaultsChangeNothingElse := by
  unfold Obligations.PreciseFaultsChangeNothingElse
  intro s t c htrap hidle h hc hne
  cases hhost : s.host with
  | nil =>
    obtain rfl := Host.Outcome.next.inj ((step_nil hhost).symm.trans h)
    cases htrap.symm.trans hc
  | cons a rest =>
    rw [step_cons hhost] at h
    exact hostAction_preciseFault (s := { s with host := rest }) htrap hidle h c hc hne

end Sys2Proof.Machine
end

section
/-! PROOF. The reverb commands as a whole: `CFG.D` and `CFG.R` (70_reset_and_hazards.md R342), the checks of `PROC.R`
(49_reverb_pipeline_and_system.md R281), its empty block (R291), and its mix (R283 step 8, R285). -/

namespace Sys2Proof.Machine

open Sys2Proof.Config

/-! ### Configuration (R342) -/

section Configure

variable {nch maxblk : Nat} {s : State}

theorem configOk_of_ranges {fs : F32} (hn : 1 ≤ nch) (hn' : nch ≤ 2) (hm : 1 ≤ maxblk) (hm' : maxblk ≤ 8192)
    (hfs : rateOk fs = true) : configOk nch maxblk fs = true := by
  rw [configOk, hfs, decide_eq_true ⟨hn, hn'⟩, decide_eq_true ⟨hm, hm'⟩]
  rfl

theorem execCfgD_of_configOk (h : configOk nch maxblk s.regs.fsD = true) :
    execCfgD nch maxblk s = .next { s with ds := configuredDist s.regs.fsD nch maxblk } := if_pos h

theorem execCfgR_of_configOk (h : configOk nch maxblk s.regs.fsR = true) :
    execCfgR nch maxblk s = .next { s with rs := configuredRev s.regs.fsR nch maxblk, dly := clearedDelay } := if_pos h

end Configure

theorem memByte_clearedDelay (a : Nat) : memByte clearedDelay a = 0 := rfl

theorem memWord_clearedDelay (a : Nat) : memWord clearedDelay a = 0 := by
  simp only [memWord, memByte_clearedDelay]
  rfl

/-- Settles O21: the new state keeps the rate register, so that the second command finds the operands of the first. -/
theorem configureResetsOneEngine : Obligations.ConfigureResetsOneEngine := by
  unfold Obligations.ConfigureResetsOneEngine
  refine ⟨fun nch maxblk s hn hn' hm hm' hfs => ?cfgD, fun nch maxblk s hn hn' hm hm' hfs => ?cfgR⟩
  case cfgD =>
    have hok := configOk_of_ranges hn hn' hm hm' hfs
    exact ⟨_, execCfgD_of_configOk hok,
      execCfgD_of_configOk (s := { s with ds := configuredDist s.regs.fsD nch maxblk }) hok, rfl⟩
  case cfgR =>
    have hok := configOk_of_ranges hn hn' hm hm' hfs
    exact ⟨_, execCfgR_of_configOk hok,
      execCfgR_of_configOk (s := { s with rs := configuredRev s.regs.fsR nch maxblk, dly := clearedDelay }) hok, rfl,
      fun c i _ => memWord_clearedDelay (dlyAddr c i)⟩

/-! ### The checks of PROC.R in their order (R281) -/

theorem decodeRType_error_iff (w : Word) : (∃ e, decodeRType w = .error e) ↔ 5 ≤ w.toNat :=
  decode_selector_error_iff (f := .rtype) nofun w

/-- The predelay check fails exactly on a predelay that is on and whose length is not below the capacity
(46_parameter_mapper.md R232). -/
theorem predelayOf_eq_none_iff {pre fs : F32} :
    predelayOf pre fs = none ↔
      fgt pre 0 = true ∧ flt (fdiv (fmul pre fs) 0x447A0000) 0x49000000 = false := by
  cases hon : fgt pre 0 with
  | false => simp [predelayOf_of_off hon]
  | true =>
    rw [predelayOf_of_on hon, show lit.msPerSecond = 0x447A0000 from rfl]
    simp

/-- Settles O46: each branch of the command; the passes leave the fault state alone. -/
theorem procRChecksInOrder : Obligations.ProcRChecksInOrder := by
  unfold Obligations.ProcRChecksInOrder
  intro nch n s
  rcases execProcR_cases nch n s with ⟨hcfg, he⟩ | ⟨hcfg, hblock, he⟩ | ⟨hcfg, hblock, htype, he⟩ |
    ⟨sel, hcfg, hblock, htype, hpre, he⟩ | ⟨sel, d, hcfg, hblock, htype, hpre, he⟩
  · rw [if_pos hcfg]
    exact he
  all_goals rw [if_neg (by simp [hcfg])]
  · rw [if_pos (blockOk_eq_false.mp hblock)]
    exact he
  all_goals rw [if_neg (blockOk_eq_true hblock)]
  · rw [if_pos ((decodeRType_error_iff _).mp htype)]
    exact he
  all_goals
    have hlt : ¬ 5 ≤ s.regs.rType.toNat := fun h => by
      obtain ⟨e, herr⟩ := (decodeRType_error_iff _).mpr h
      cases herr.symm.trans htype
    rw [if_neg hlt]
  · rw [if_pos (predelayOf_eq_none_iff.mp hpre)]
    exact he
  · have hok : ¬(fgt s.regs.rPredelay 0 = true ∧
        flt (fdiv (fmul s.regs.rPredelay s.rs.fs) 0x447A0000) 0x49000000 = false) := fun h => by
      cases (predelayOf_eq_none_iff.mpr h).symm.trans hpre
    rw [if_neg hok]
    exact ⟨_, he, by rw [reverbPasses_trap, startBlockR_trap]⟩

/-! ### The empty block (R291) -/

section Empty

variable (nch : Nat) (s : State)

theorem predelayPass_empty : predelayPass nch 0 s = s := by
  unfold predelayPass
  split <;> rfl

theorem modulationPass_empty : modulationPass nch 0 s = s := by
  unfold modulationPass
  split <;> rfl

theorem wetBlock_empty (wet : Memory) : wetBlock nch 0 wet = [] := by simp [wetBlock]

theorem externalCall_empty :
    externalCall nch 0 s = { s with rs := { s.rs with rvb := reverbRunState s.rk.ra nch 0 [] s.rs.rvb } } := by
  unfold externalCall
  rw [wetBlock_empty]
  rfl

/-- With no frame only the call of the external algorithm is left of the passes. -/
theorem reverbPasses_empty : reverbPasses nch 0 s = externalCall nch 0 s := by
  have hcopy : copyPass nch 0 (filterPass nch 0 s) = s := rfl
  unfold reverbPasses
  rw [hcopy, predelayPass_empty, modulationPass_empty]
  rfl

end Empty

/-- Settles O51: the start of the block writes the registers, and the external call is all that runs. -/
theorem emptyReverbBlock : Obligations.EmptyReverbBlock := by
  unfold Obligations.EmptyReverbBlock
  intro s hcfg htype hpre
  obtain ⟨sel, hsel⟩ := exists_decodeRType htype
  obtain ⟨d, hd⟩ := exists_predelayOf hpre
  refine ⟨_, execProcR_of_checks hcfg rfl (Nat.zero_le _) hsel hd, ?_⟩
  rw [reverbPasses_empty, externalCall_empty]
  exact ⟨rfl, rfl, rfl, rfl, rfl, rfl⟩

/-! ### The mix at its ends (R285) -/

section MixEnds

variable {dry wet : F32}

/-- At mix +0.0 the wet product is a zero. -/
theorem feq_mixSample_zero (hdry : isNaN dry = false) (hwet : isFinite wet = true) :
    feq (mixSample 0 dry wet) dry = true := by
  have hone : fsub lit.one 0 = lit.one := by decide +kernel
  have hzero : isZero (fmul wet 0) = true := isZero_fmul_of_isFinite_of_isZero hwet (by decide)
  have hprod := feq_fmul_one hdry
  rw [mixSample, hone]
  exact feq_trans (feq_add_sub_of_isZero (isNaN_of_feq hprod) hzero).1 hprod

/-- At mix 1.0 the dry product is a zero. -/
theorem feq_mixSample_one (hdry : isFinite dry = true) (hwet : isNaN wet = false) :
    feq (mixSample lit.one dry wet) wet = true := by
  have hzeroMix : fsub lit.one lit.one = lit.zero := by decide +kernel
  have hzero : isZero (fmul dry lit.zero) = true := isZero_fmul_of_isFinite_of_isZero hdry (by decide)
  have hprod := feq_fmul_one hwet
  rw [mixSample, hzeroMix]
  exact feq_trans (feq_zero_add hzero (isNaN_of_feq hprod)) hprod

end MixEnds

/-- Settles O52: each word of the mix by itself, and its two ends. -/
theorem reverbMixLaws : Obligations.ReverbMixLaws := by
  unfold Obligations.ReverbMixLaws
  exact ⟨fun nch n u c k hc hk hn => memWord_mixPass hc hn hk u, fun _ _ => feq_mixSample_zero,
    fun _ _ => feq_mixSample_one⟩

end Sys2Proof.Machine
end

section
/-! PROOF. The predelay line (47_circular_delay_buffer.md): one `POP` (R251, R254), and the law of a stream of them (R257), by
the invariant that the channel's memory, read backwards from the cursor, is the history of its inputs. -/

namespace Sys2Proof.Machine

open Sys2Proof.Config

/-! ### One POP (R251) -/

section Pop

variable {c : Channel} {rs : RevState} (d : Nat) (x : F32) (m : Memory)

theorem pop_output : (pop d c x (rs, m)).1 =
    memWord (setWord m (dlyAddr c rs.wcur[c]) x) (dlyAddr c (delayIndex rs.wcur[c] d)) := rfl

theorem pop_state : (pop d c x (rs, m)).2 =
    ({ rs with wcur := rs.wcur.set c ((rs.wcur[c] + 1) % delayCap) }, setWord m (dlyAddr c rs.wcur[c]) x) := rfl

/-- The read index without a subtraction below 0 (R252). -/
theorem delayIndex_eq {w d : Nat} (hw : w < delayCap) (hd : d < delayCap) :
    delayIndex w d = (w + delayCap - d) % delayCap := by
  unfold delayIndex
  simp only [delayCap] at *
  omega

/-- A delay of 0 returns the operand (R254). -/
theorem pop_output_zero (hw : rs.wcur[c] < delayCap) : (pop 0 c x (rs, m)).1 = x := by
  rw [pop_output, delayIndex_eq hw (by decide), Nat.sub_zero, Nat.add_mod_right, Nat.mod_eq_of_lt hw, memWord_setWord_same]

end Pop

/-- Settles O49. -/
theorem popWritesThenReads : Obligations.PopWritesThenReads := by
  unfold Obligations.PopWritesThenReads
  intro d c x rs m hw hd
  refine ⟨_, pop_state d x m, memWord_setWord_same _ _ _, fun b hb => memByte_setWord_of_outside m x hb, ?read,
    fun h0 => ?zero⟩
  case read => rw [pop_output, delayIndex_eq hw hd]
  case zero =>
    subst h0
    exact pop_output_zero x m hw

/-! ### The history of a channel (R257) -/

/-- The channel's memory holds the inputs before the cursor, the latest first, and +0.0 beyond them. -/
def HoldsHistory (c : Channel) (hist : List F32) (rs : RevState) (m : Memory) : Prop :=
  ∀ j, j < delayCap → memWord m (dlyAddr c ((rs.wcur[c] + delayCap - 1 - j) % delayCap)) = hist.getD j 0

section History

variable {c : Channel} {hist : List F32} {rs : RevState} {m : Memory}

theorem holdsHistory_nil (h : ∀ i, i < delayCap → memWord m (dlyAddr c i) = 0) :
    HoldsHistory c [] rs m := fun _ _ => h _ (Nat.mod_lt _ (by decide))

/-- After a `POP` the word `j` places behind the written one is entry `j` of the longer history. -/
theorem HoldsHistory.word_behind (h : HoldsHistory c hist rs m) (hw : rs.wcur[c] < delayCap) (x : F32) {j : Nat}
    (hj : j < delayCap) :
    memWord (setWord m (dlyAddr c rs.wcur[c]) x) (dlyAddr c ((rs.wcur[c] + delayCap - j) % delayCap)) =
      (x :: hist).getD j 0 := by
  cases j with
  | zero => rw [Nat.sub_zero, Nat.add_mod_right, Nat.mod_eq_of_lt hw, memWord_setWord_same, List.getD_cons_zero]
  | succ j =>
    have hlt : (rs.wcur[c] + delayCap - (j + 1)) % delayCap < delayCap := Nat.mod_lt _ (by decide)
    have hne : (rs.wcur[c] + delayCap - (j + 1)) % delayCap ≠ rs.wcur[c] := by
      simp only [delayCap] at *
      omega
    rw [memWord_setWord_of_disjoint _ _ (dlyAddr_disjoint hlt hw fun e => hne (Prod.mk.inj e).1), List.getD_cons_succ,
      ← h j (by omega), Nat.sub_sub, Nat.add_comm 1 j]

/-- A `POP` puts its operand in front of the history and returns the entry of its delay. -/
theorem HoldsHistory.pop (h : HoldsHistory c hist rs m) (hw : rs.wcur[c] < delayCap) {d : Nat} (hd : d < delayCap) (x : F32) :
    (pop d c x (rs, m)).1 = (x :: hist).getD d 0 ∧
      HoldsHistory c (x :: hist) (pop d c x (rs, m)).2.1 (pop d c x (rs, m)).2.2 ∧
      (pop d c x (rs, m)).2.1.wcur[c] < delayCap := by
  have hcur : (Machine.pop d c x (rs, m)).2.1.wcur[c] = (rs.wcur[c] + 1) % delayCap := by simp [pop_state]
  refine ⟨?output, fun j hj => ?history, ?cursor⟩
  case output => rw [pop_output, delayIndex_eq hw hd, h.word_behind hw x hd]
  case history =>
    have hindex : ((rs.wcur[c] + 1) % delayCap + delayCap - 1 - j) % delayCap = (rs.wcur[c] + delayCap - j) % delayCap := by
      simp only [delayCap] at *
      omega
    rw [hcur, hindex, ← h.word_behind hw x hj, pop_state]
  case cursor =>
    rw [hcur]
    exact Nat.mod_lt _ (by decide)

/-- Output `k` of a stream is the entry of its delay in the inputs up to `k`, backwards, and the history before them. -/
theorem popRun_getElem (h : HoldsHistory c hist rs m) (hw : rs.wcur[c] < delayCap) {calls : List (Nat × F32)}
    (hd : ∀ p ∈ calls, p.1 < delayCap) {k : Nat} {p : Nat × F32} (hk : calls[k]? = some p) :
    (popRun c calls (rs, m))[k]? = some ((((calls.take (k + 1)).map Prod.snd).reverse ++ hist).getD p.1 0) := by
  induction calls generalizing hist rs m k with
  | nil => cases hk
  | cons q t ih =>
    obtain ⟨hout, hhist, hcur⟩ := h.pop hw (hd q List.mem_cons_self) q.2
    rw [popRun_cons]
    cases k with
    | zero =>
      obtain rfl := Option.some.inj hk
      exact congrArg some hout
    | succ k =>
      rw [List.getElem?_cons_succ, ih hhist hcur (fun p hp => hd p (List.mem_cons_of_mem _ hp)) hk]
      simp

end History

/-- Entry `d` of the inputs up to `k`, backwards, is input `k - d`. -/
theorem getD_reverse_take {xs : List F32} {k : Nat} (hk : k < xs.length) (d : Nat) :
    (xs.take (k + 1)).reverse.getD d 0 = if d ≤ k then xs[k - d]?.getD 0 else 0 := by
  have hlen : (xs.take (k + 1)).length = k + 1 := List.length_take_of_le hk
  rw [List.getD_eq_getElem?_getD]
  split_ifs with h
  · rw [List.getElem?_reverse (by omega), hlen, List.getElem?_take_of_lt (by omega), Nat.add_sub_cancel]
  · rw [List.getElem?_eq_none (by rw [List.length_reverse]; omega), Option.getD_none]

/-- Settles O50: the cleared memory is the empty history. -/
theorem delayLineDelays : Obligations.DelayLineDelays := by
  unfold Obligations.DelayLineDelays
  intro c calls rs m hw hzero hd
  refine ⟨stageRun_length _ _ _, fun k p hk => ?_⟩
  obtain ⟨hlt, _⟩ := List.getElem?_eq_some_iff.mp hk
  rw [popRun_getElem (holdsHistory_nil hzero) hw hd hk, List.append_nil, List.map_take,
    getD_reverse_take (by rwa [List.length_map]), List.getElem?_map]

end Sys2Proof.Machine
end

section
/-! PROOF. The values of the phase wrap and of the modulation gain (48_nco_modulation_lut.md R266, R267): the wrap is the
fractional part, and the gain lies between the roundings of 1 minus and 1 plus the modulation depth, since rounding keeps
order. -/

namespace Sys2Proof.Machine

open Sys2Proof.Config

/-! ### The wrap (R266) -/

/-- The wrap of a finite word of 0 or more has the fractional part of its value. -/
theorem val_wrap01 {v : F32} (hv : isFinite v = true) (h0 : fle lit.zero v = true) :
    val (wrap01 v) = Int.fract (val (flush v)) := by
  have hcast (z : ℤ) : (z : ℝ) / 2 ^ 149 = z / (2 ^ 149 : ℕ) := by norm_num
  rw [val, val, (wrap01_exact hv h0).2.2, hcast, hcast, Int.fract_div_intCast_eq_div_intCast_mod]
  norm_cast

/-- Settles O53. -/
theorem phaseWrapIsExact : Obligations.PhaseWrapIsExact := by
  unfold Obligations.PhaseWrapIsExact
  intro v hv h0
  have hphase := phaseOk_wrap01 hv h0
  exact ⟨isFinite_of_phaseOk hphase, val_wrap01 hv h0, hphase⟩

/-! ### Rounding keeps order -/

section Order

variable {r r' : ℝ} {y y' w : F32}

/-- The roundings of two different numbers of the normal range are in their order: were they not, neither could be as near to
its own number as the other rounding is. -/
theorem RoundsTo.val_le_of_lt (h : RoundsTo r y) (h' : RoundsTo r' y') (hlo : 1 / 2 ^ 126 ≤ |r|)
    (hhi : |r| < 2 ^ 128 - 2 ^ 103) (hlo' : 1 / 2 ^ 126 ≤ |r'|) (hhi' : |r'| < 2 ^ 128 - 2 ^ 103) (hlt : r < r') :
    val y ≤ val y' := by
  by_contra hgt
  have hnear := sq_le_sq.mpr (h.nearest hlo hhi y' (h'.normal hlo' hhi'))
  have hnear' := sq_le_sq.mpr (h'.nearest hlo' hhi' y (h.normal hlo hhi))
  nlinarith [mul_pos (sub_pos.mpr (not_le.mp hgt)) (sub_pos.mpr hlt)]

/-- Rounding does not lead out of an interval around 0 whose ends are words of normal magnitude. -/
theorem RoundsTo.abs_val_le (h : RoundsTo r y) (hw : isFinite w = true) (hw0 : 1 / 2 ^ 126 ≤ val w) (hr : |r| ≤ val w) :
    |val y| ≤ val w := by
  rcases lt_or_ge |r| (1 / 2 ^ 126) with hlt | hge
  · rcases lt_or_ge |r| (1 / 2 ^ 126 - 1 / 2 ^ 150) with htiny | hsmall
    · rw [val_of_isZero (h.tiny htiny), abs_zero]
      exact le_trans (by positivity) hw0
    · rw [h.smallest hsmall hlt]
      exact hw0
  · have hmax := hr.trans ((le_abs_self _).trans (abs_val_le_of_isFinite hw))
    have hhi : |r| < 2 ^ 128 - 2 ^ 103 := hmax.trans_lt (by norm_num)
    obtain ⟨hr1, hr2⟩ := abs_le.mp hr
    have hle := h.le_val hge hhi (w := flipSign w) (by rwa [isFinite_flipSign]) (by rwa [val_flipSign])
    rw [val_flipSign] at hle
    exact abs_le.mpr ⟨hle, h.val_le hge hhi hw hr2⟩

end Order

/-! ### 1 plus a small word -/

section OneAdd

variable {t t' : F32}

theorem val_fadd_one_of_zero (h0 : val (flush t) = 0) : val (fadd lit.one t) = 1 := by
  have hflush : fadd lit.one t = fadd lit.one (flush t) := by rw [fadd, fadd, flush_flush]
  have hfeq := (feq_add_sub_of_isZero (a := lit.one) (by decide) ((val_eq_zero_iff _).mp h0)).1
  have hval := (feq_iff.mp hfeq).2.2
  rwa [flush_fadd, flush_one, val_one, ← hflush] at hval

/-- Adding to 1 keeps the order of words of at most 1/2 in magnitude. -/
theorem val_fadd_one_le (ht : isFinite t = true) (ht' : isFinite t' = true) (hb : |val (flush t)| ≤ 1 / 2)
    (hb' : |val (flush t')| ≤ 1 / 2) (h : val (flush t) ≤ val (flush t')) :
    val (fadd lit.one t) ≤ val (fadd lit.one t') := by
  rcases h.lt_or_eq with hlt | heq
  · obtain ⟨hsum, _⟩ := arithmetic_of_finite (a := lit.one) (by decide) ht
    obtain ⟨hsum', _⟩ := arithmetic_of_finite (a := lit.one) (by decide) ht'
    rw [flush_one, val_one] at hsum hsum'
    have hnear {u : ℝ} (hu : |u| ≤ 1 / 2) : 1 / 2 ^ 126 ≤ |1 + u| ∧ |1 + u| < 2 ^ 128 - 2 ^ 103 := by
      obtain ⟨h1, h2⟩ := abs_le.mp hu
      rw [abs_of_nonneg (by linarith : 0 ≤ 1 + u)]
      norm_num
      constructor <;> linarith
    exact hsum.val_le_of_lt hsum' (hnear hb).1 (hnear hb).2 (hnear hb').1 (hnear hb').2 (by linarith)
  · by_cases h0 : val (flush t) = 0
    · rw [val_fadd_one_of_zero h0, val_fadd_one_of_zero (heq ▸ h0)]
    · rw [fadd, flush_eq_of_val_eq heq h0]
      rfl

end OneAdd

/-! ### The gain (R267) -/

/-- The sine of a phase lies in [-1, 1] (00_scope.md R13). -/
theorem inSym_ncoSin {p : F32} (h : phaseOk p = true) : inSym (ncoSin p) = true := by
  have hflush : (fle lit.zero (flush p) && flt (flush p) lit.one) = true := by
    simpa [phaseOk, fle, flt] using h
  unfold ncoSin
  simp only [hflush, if_true]
  split
  · decide
  · exact held_ok (by decide) _

theorem val_modDepth : val lit.modDepth = 0x83126F / 2 ^ 32 := by
  rw [val, show units lit.modDepth = 0x83126F * 2 ^ 117 by decide +kernel]
  norm_num

/-- A product of finite words of at most the value of a word of (0, 1] keeps that bound. -/
theorem isFinite_fmul_of_abs_le {a b w : F32} (ha : isFinite a = true) (hb : isFinite b = true) (hw : isFinite w = true)
    (hw0 : 1 / 2 ^ 126 ≤ val w) (hw1 : val w ≤ 1) (h : |val (flush a) * val (flush b)| ≤ val w) :
    isFinite (fmul a b) = true ∧ |val (fmul a b)| ≤ val w := by
  obtain ⟨_, _, hround, _⟩ := arithmetic_of_finite ha hb
  have hle := hround.abs_val_le hw hw0 h
  have hn : isNaN (fmul a b) = false := by
    rw [fmul, fmulFlushed_of_finite (isFinite_flush ha) (isFinite_flush hb)]
    exact isNaN_roundTo _ _ _
  exact ⟨isFinite_of_abs_val_lt hn ((hle.trans hw1).trans_lt (by norm_num)), hle⟩

theorem modGain_eq (phase mod : F32) :
    modGain phase mod = fadd lit.one (fmul (fmul (ncoSin phase) mod) lit.modDepth) := rfl

/-- What the gain adds to 1 is no more than the modulation depth. -/
theorem abs_val_modTerm {s mod : F32} (hs : inSym s = true) (hmod : inUnit mod = true) :
    isFinite (fmul (fmul s mod) lit.modDepth) = true ∧
      |val (fmul (fmul s mod) lit.modDepth)| ≤ val lit.modDepth := by
  obtain ⟨_, hm0, hm1⟩ := inUnit_iff.mp hmod
  have hle : |val (flush s) * val (flush mod)| ≤ 1 := by
    rw [abs_mul, abs_of_nonneg hm0]
    exact mul_le_one₀ (inSym_iff.mp hs).2 hm0 hm1
  obtain ⟨hfin, hprod⟩ := isFinite_fmul_of_abs_le (w := lit.one) (isFinite_of_inSym hs)
    (isFinite_of_inSym (inSym_of_inUnit hmod)) (by decide) (by rw [val_one]; norm_num) val_one.le (by rwa [val_one])
  rw [val_one] at hprod
  refine isFinite_fmul_of_abs_le hfin (by decide) (by decide) (by rw [val_modDepth]; norm_num)
    (by rw [val_modDepth]; norm_num) ?_
  have hdepth : 0 ≤ val lit.modDepth := by rw [val_modDepth]; norm_num
  rw [flush_fmul, show flush lit.modDepth = lit.modDepth by decide, abs_mul, abs_of_nonneg hdepth]
  exact mul_le_of_le_one_left hdepth hprod

/-- The gains of the smallest and of the largest term, the first as 1 plus the negated depth. -/
theorem fadd_one_modDepth :
    fadd lit.one (fneg lit.modDepth) = 0x3F7F7CEE ∧ fadd lit.one lit.modDepth = 0x3F804189 := by decide +kernel

/-- For a phase and a depth in range the gain lies between those two. -/
theorem modGain_bounds {phase mod : F32} (hmod : inUnit mod = true) (hphase : phaseOk phase = true) :
    inRange 0x3F7F7CEE 0x3F804189 (modGain phase mod) = true := by
  obtain ⟨hfin, hterm⟩ := abs_val_modTerm (inSym_ncoSin hphase) hmod
  obtain ⟨hlo, hhi⟩ := abs_le.mp hterm
  have hflush : flush lit.modDepth = lit.modDepth := by decide
  have hsmall : val lit.modDepth ≤ 1 / 2 := by rw [val_modDepth]; norm_num
  have hneg : val (flush (fneg lit.modDepth)) = -val lit.modDepth := by rw [flush_fneg, val_fneg, hflush]
  have hdepth : |val (flush lit.modDepth)| ≤ 1 / 2 := by
    rw [hflush, val_modDepth]
    norm_num [abs_of_nonneg]
  have hbound : |val (flush (fmul (fmul (ncoSin phase) mod) lit.modDepth))| ≤ 1 / 2 := by
    rw [flush_fmul]
    exact hterm.trans hsmall
  have hge := val_fadd_one_le (t := fneg lit.modDepth) (by decide) hfin (by rwa [hneg, abs_neg, ← hflush]) hbound
    (by rw [hneg, flush_fmul]; exact hlo)
  have hle := val_fadd_one_le (t' := lit.modDepth) hfin (by decide) hbound hdepth
    (by rw [flush_fmul, hflush]; exact hhi)
  obtain ⟨hmin, hmax⟩ := fadd_one_modDepth
  have hn := isNaN_fadd_of_isFinite (a := lit.one) (by decide) hfin
  rw [modGain_eq, inRange, ← hmin, ← hmax, Bool.and_eq_true, fle_iff, fle_iff, flush_fadd, flush_fadd, flush_fadd]
  exact ⟨⟨by decide +kernel, hn, hge⟩, hn, by decide +kernel, hle⟩

/-- At phase +0 the term is a zero. -/
theorem modGain_zero {mod : F32} (hmod : inUnit mod = true) : modGain 0 mod = lit.one := by
  have hsin : ncoSin 0 = lit.zero := by decide
  have hterm : ∀ neg, fadd lit.one (fmul (signedZero neg) lit.modDepth) = lit.one := by decide +kernel
  rw [modGain_eq, hsin, fmul_zero_of_isFinite (isFinite_of_inSym (inSym_of_inUnit hmod)), hterm]

/-- Settles O54: between the gains of the two extreme terms rounding keeps that of every other one. -/
theorem modulationGainIsBounded : Obligations.ModulationGainIsBounded := by
  unfold Obligations.ModulationGainIsBounded
  exact ⟨modGain_eq, fun _ _ hmod => ⟨modGain_bounds hmod, modGain_zero hmod⟩⟩

end Sys2Proof.Machine
end

section
/-! PROOF. The wet path of `PROC.R` (49_reverb_pipeline_and_system.md R283 steps 4 to 7, R286): what the predelay pass makes of
the filtered block (47_circular_delay_buffer.md R251, R255), what the external algorithm is handed and answers, and what the
modulation pass makes of the answer (48_nco_modulation_lut.md R268, R269). -/

namespace Sys2Proof.Machine

open Sys2Proof.Config

/-! ### Cursors (47_circular_delay_buffer.md R251) -/

section Cursor

variable (d : Nat) {c c' : Channel} (x : F32) (st : RevState × Memory)

theorem pop_wcur_same : (pop d c x st).2.1.wcur[c] = (st.1.wcur[c] + 1) % delayCap := by simp [pop]

theorem pop_wcur_other (h : c' ≠ c) : (pop d c' x st).2.1.wcur[c] = st.1.wcur[c] := by
  have hval : c'.val ≠ c.val := fun e => h (Fin.ext e)
  simp [pop, hval]

/-- A sweep of `POP` moves a channel's cursor once per sample of that channel. -/
theorem sweep_pop_wcur (addr : Channel → Nat → Nat) (l : List (Nat × Channel)) (m : Memory) (hw : st.1.wcur[c] < delayCap) :
    (sweep addr (fun _ c x st => pop d c x st) l m st).2.1.wcur[c] = (st.1.wcur[c] + (framesOf c l).length) % delayCap := by
  induction l generalizing m st with
  | nil => exact (Nat.mod_eq_of_lt hw).symm
  | cons p t ih =>
    obtain ⟨n, c'⟩ := p
    rw [sweep_cons]
    by_cases hc : c' = c
    · subst hc
      have hnext := pop_wcur_same d (c := c') (memWord m (addr c' n)) st
      rw [ih _ _ (by rw [hnext]; exact Nat.mod_lt _ (by decide)), hnext, framesOf_cons_same, List.length_cons,
        Nat.mod_add_mod, Nat.add_assoc, Nat.add_comm 1]
    · have hkept := pop_wcur_other d (memWord m (addr c' n)) st hc
      rw [ih _ _ (by rwa [hkept]), hkept, framesOf_cons_other hc]

end Cursor

/-- `POP` reads the cursors of the engine and the delay memory, and nothing else. -/
theorem stageRun_pop_congr (d : Nat) (c : Channel) (xs : List F32) {p q : RevState × Memory} (hcur : p.1.wcur = q.1.wcur)
    (hdly : p.2 = q.2) :
    (stageRun (pop d c) xs p).1 = (stageRun (pop d c) xs q).1 ∧
      (stageRun (pop d c) xs p).2.2 = (stageRun (pop d c) xs q).2.2 := by
  induction xs generalizing p q with
  | nil => exact ⟨rfl, hdly⟩
  | cons x xs ih =>
    have hout : (pop d c x p).1 = (pop d c x q).1 := by simp only [pop, hcur, hdly]
    obtain ⟨hrest, hend⟩ := ih (p := (pop d c x p).2) (q := (pop d c x q).2) (by simp only [pop, hcur])
      (by simp only [pop, hcur, hdly])
    rw [stageRun_cons, stageRun_cons, hout, hrest]
    exact ⟨rfl, hend⟩

/-! ### Words of a block of `WET_R` -/

section Wet

variable {nch len : Nat} {c : Channel}

/-- A sweep without state rewrites each word of the block in `WET_R` by itself. -/
theorem memWord_sweep_wet (f : Nat → Channel → F32 → Unit → F32 × Unit) (hc : c.val < nch) (hlen : len ≤ blkCap) {k : Nat}
    (hk : k < len) (m : Memory) :
    memWord (sweep wetAddr f (positions nch len) m ()).1 (wetAddr c k) = (f k c (memWord m (wetAddr c k)) ()).1 :=
  memWord_sweep_stateless f (nodup_positions nch len)
    (fun _ hp _ hq => wetAddr_disjoint ((mem_positions.mp hp).1.trans_le hlen) ((mem_positions.mp hq).1.trans_le hlen))
    (mem_positions.mpr ⟨hk, hc⟩) m

/-- Step 4 copies the block. -/
theorem channelWords_copyPass (hc : c.val < nch) (hlen : len ≤ blkCap) (s : State) :
    channelWords wetAddr c len (copyPass nch len s).wet = channelWords bufRAddr c len s.mem :=
  List.map_congr_left fun _ hk => memWord_sweep_wet _ hc hlen (List.mem_range.mp hk) s.wet

/-- Step 6 puts the answer of the external algorithm into the block. -/
theorem memWord_externalCall (hc : c.val < nch) (hlen : len ≤ blkCap) {k : Nat} (hk : k < len) (s : State) :
    memWord (externalCall nch len s).wet (wetAddr c k) =
      reverbRunWet s.rk.ra nch len (wetBlock nch len s.wet) s.rs.rvb c.val k :=
  memWord_sweep_wet _ hc hlen hk s.wet

end Wet

/-! ### Before the external call (steps 3 to 5) -/

/-- The state that the external call finds. -/
def beforeCall (nch len : Nat) (s : State) : State := predelayPass nch len (copyPass nch len (filterPass nch len s))

/-- The filtered block of a channel. -/
def filteredWords (len : Nat) (s : State) (c : Channel) : List F32 :=
  (cutsRun s.rk c (channelWords bufRAddr c len s.mem) s.rs).1

/-- The calls of `POP` that a channel's filtered block makes. -/
def filteredCalls (len : Nat) (s : State) (c : Channel) : List (Nat × F32) := blockCalls s.rk.dlyD (filteredWords len s c)

section Before

variable {nch len : Nat} {s : State} {c : Channel}

theorem beforeCall_of_off (h : s.rk.dlyOn = false) :
    beforeCall nch len s = copyPass nch len (filterPass nch len s) := by
  simp [beforeCall, predelayPass, h]

/-- With the predelay on, the pass is one sweep over the copied block. -/
theorem beforeCall_of_on (h : s.rk.dlyOn = true) :
    ((beforeCall nch len s).wet, (beforeCall nch len s).rs, (beforeCall nch len s).dly) =
      sweep wetAddr (fun _ c x st => pop s.rk.dlyD c x st) (positions nch len) (copyPass nch len (filterPass nch len s)).wet
        ((filterPass nch len s).rs, s.dly) := by
  simp [beforeCall, predelayPass, h]

theorem beforeCall_latched (nch len : Nat) (s : State) : RevLatched s.rs (beforeCall nch len s).rs :=
  (filterPass_latched nch len s).1.trans (predelayPass_latched nch len (copyPass nch len (filterPass nch len s)))

theorem beforeCall_rk (nch len : Nat) (s : State) : (beforeCall nch len s).rk = s.rk := by simp [beforeCall]

theorem beforeCall_rvb (nch len : Nat) (s : State) : (beforeCall nch len s).rs.rvb = s.rs.rvb := by
  have hfilter : (filterPass nch len s).rs.rvb = s.rs.rvb :=
    sweep_induct bufRAddr (fun _ c x rs => cuts s.rk c x rs) (fun _ rs => rs.rvb = s.rs.rvb) _ _ _ rfl fun _ _ _ _ _ h => h
  unfold beforeCall predelayPass
  split
  · exact sweep_induct wetAddr (fun _ c x st => pop s.rk.dlyD c x st) (fun _ st => st.1.rvb = s.rs.rvb) _ _ _ hfilter
      fun _ _ _ _ _ h => h
  · exact hfilter

/-- The cursor of a live channel moves by the length of the block. -/
theorem beforeCall_wcur (h : s.rk.dlyOn = true) (hc : c.val < nch) (hw : s.rs.wcur[c] < delayCap) :
    (beforeCall nch len s).rs.wcur[c] = (s.rs.wcur[c] + len) % delayCap := by
  have hkept := (filterPass_latched nch len s).2
  have hmove := sweep_pop_wcur s.rk.dlyD (c := c) ((filterPass nch len s).rs, s.dly) wetAddr (positions nch len)
    (copyPass nch len (filterPass nch len s)).wet (by simpa only [hkept] using hw)
  rwa [← beforeCall_of_on h, framesOf_positions hc, List.length_range, hkept] at hmove

/-- With the predelay on, the block of a live channel is what its calls of `POP` return, and its words of `DLY` are what they
leave. -/
theorem beforeCall_channel_on (h : s.rk.dlyOn = true) (hcur : CursorsOk s.rs) (hc : c.val < nch) (hlen : len ≤ blkCap) :
    channelWords wetAddr c len (beforeCall nch len s).wet = popRun c (filteredCalls len s c) (s.rs, s.dly) ∧
      ∀ i, i < delayCap → memWord (beforeCall nch len s).dly (dlyAddr c i) =
        memWord (popCalls c (filteredCalls len s c) (s.rs, s.dly)).2.2 (dlyAddr c i) := by
  have hkept := (filterPass_latched nch len s).2
  have hsweep := pop_sweep s.rk.dlyD hc hlen (copyPass nch len (filterPass nch len s)).wet (filterPass nch len s).rs s.dly
    (hcur.congr hkept)
  rw [← beforeCall_of_on h, channelWords_copyPass hc hlen, (filterPass_channel hc hlen s).1] at hsweep
  obtain ⟨hout, hdly⟩ := stageRun_pop_congr s.rk.dlyD c (filteredWords len s c) (p := ((filterPass nch len s).rs, s.dly))
    (q := (s.rs, s.dly)) hkept rfl
  rw [popRun, filteredCalls, popCalls_blockCalls, ← hout, ← hdly]
  exact hsweep

/-- With the predelay off, it is the filtered block. -/
theorem beforeCall_channel_off (h : s.rk.dlyOn = false) (hc : c.val < nch) (hlen : len ≤ blkCap) :
    channelWords wetAddr c len (beforeCall nch len s).wet = filteredWords len s c := by
  rw [beforeCall_of_off h, channelWords_copyPass hc hlen]
  exact (filterPass_channel hc hlen s).1

/-- R255: with the predelay off `DLY` and the cursors stay. -/
theorem beforeCall_off_keeps (h : s.rk.dlyOn = false) :
    (beforeCall nch len s).dly = s.dly ∧ (beforeCall nch len s).rs.wcur = s.rs.wcur := by
  rw [beforeCall_of_off h]
  exact ⟨rfl, (filterPass_latched nch len s).2⟩

/-- The block that the external algorithm is handed (R286). -/
theorem wetBlock_beforeCall (hcur : CursorsOk s.rs) (hlen : len ≤ blkCap) :
    wetBlock nch len (beforeCall nch len s).wet = (channels nch).flatMap fun c =>
      if s.rk.dlyOn = true then popRun c (filteredCalls len s c) (s.rs, s.dly)
      else (filteredCalls len s c).map Prod.snd := by
  refine List.flatMap_congr fun c hc => ?_
  have hlive := mem_channels.mp hc
  split_ifs with h
  · exact (beforeCall_channel_on h hcur hlive hlen).1
  · rw [filteredCalls, blockCalls_snd]
    exact beforeCall_channel_off (eq_false_of_ne_true h) hlive hlen

end Before

/-! ### The modulation pass (48_nco_modulation_lut.md R268, R269) -/

section Modulation

variable {nch : Nat} {mod inc : F32}

theorem modFrames_append (l l' : List Nat) (st : Memory × F32) :
    modFrames nch mod inc (l ++ l') st = modFrames nch mod inc l' (modFrames nch mod inc l st) := by
  induction l generalizing st with
  | nil => rfl
  | cons n t ih => exact ih _

theorem modFrames_range_succ (len : Nat) (st : Memory × F32) :
    modFrames nch mod inc (List.range (len + 1)) st =
      modFrame nch mod inc len (modFrames nch mod inc (List.range len) st) := by
  rw [List.range_succ, modFrames_append]
  rfl

theorem modFrames_phase (l : List Nat) (st : Memory × F32) :
    (modFrames nch mod inc l st).2 = phaseAfter inc l.length st.2 := by
  induction l generalizing st with
  | nil => rfl
  | cons n t ih => exact ih _

/-- One frame multiplies its words by the gain of the phase, and leaves the words of the other frames. -/
theorem memWord_modFrame {c : Channel} (hc : c.val < nch) {n k : Nat} (hn : n < blkCap) (hk : k < blkCap)
    (st : Memory × F32) :
    memWord (modFrame nch mod inc n st).1 (wetAddr c k) =
      if k = n then fmul (memWord st.1 (wetAddr c k)) (modGain st.2 mod) else memWord st.1 (wetAddr c k) := by
  have hframe : ∀ p ∈ (channels nch).map fun c => (n, c), p.1 = n := fun p hp => by
    obtain ⟨c', _, rfl⟩ := List.mem_map.mp hp
    rfl
  have hlt : ∀ p ∈ (channels nch).map fun c => (n, c), p.1 < blkCap := fun p hp => (hframe p hp).trans_lt hn
  unfold modFrame
  split_ifs with h
  · subst h
    exact memWord_sweep_stateless _ ((nodup_channels nch).map fun _ _ he => (Prod.mk.inj he).2)
      (fun p hp q hq => wetAddr_disjoint (hlt p hp) (hlt q hq)) (List.mem_map.mpr ⟨c, mem_channels.mpr hc, rfl⟩) st.1
  · exact sweep_memWord_of_disjoint _ _ _ _ _ _ fun n' c' hp =>
      wetAddr_disjoint hk (hlt _ hp) fun he => h ((Prod.mk.inj he).1.trans (hframe _ hp))

/-- The frames of a block multiply each of its words by the gain of its frame's phase. -/
theorem memWord_modFrames {c : Channel} (hc : c.val < nch) {len k : Nat} (hlen : len ≤ blkCap) (hk : k < blkCap)
    (st : Memory × F32) :
    memWord (modFrames nch mod inc (List.range len) st).1 (wetAddr c k) =
      if k < len then fmul (memWord st.1 (wetAddr c k)) (modGain (phaseAfter inc k st.2) mod)
      else memWord st.1 (wetAddr c k) := by
  induction len with
  | zero => rfl
  | succ len ih =>
    rw [modFrames_range_succ, memWord_modFrame hc hlen hk, ih (Nat.le_of_succ_le hlen), modFrames_phase, List.length_range]
    rcases lt_trichotomy k len with h | rfl | h
    · rw [if_neg h.ne, if_pos h, if_pos (h.trans (Nat.lt_succ_self len))]
    · rw [if_pos rfl, if_neg (lt_irrefl k), if_pos (Nat.lt_succ_self k)]
    · rw [if_neg h.ne', if_neg h.not_gt, if_neg (by omega)]

/-- R269: with the modulation off the pass leaves the state. -/
theorem modulationPass_of_off {u : State} (h : fgt u.pr.mod lit.zero = false) (nch len : Nat) :
    modulationPass nch len u = u := by
  simp [modulationPass, h]

theorem modulationPass_of_on {u : State} (h : fgt u.pr.mod lit.zero = true) (nch len : Nat) :
    modulationPass nch len u = { u with
      wet := (modFrames nch u.pr.mod u.rs.inc (List.range len) (u.wet, u.rs.mphase)).1
      rs := { u.rs with mphase := (modFrames nch u.pr.mod u.rs.inc (List.range len) (u.wet, u.rs.mphase)).2 } } := by
  simp [modulationPass, h]

theorem modulationPass_mphase_on {u : State} (h : fgt u.pr.mod lit.zero = true) (nch len : Nat) :
    (modulationPass nch len u).rs.mphase = phaseAfter u.rs.inc len u.rs.mphase := by
  rw [modulationPass_of_on h]
  exact (modFrames_phase _ _).trans (by rw [List.length_range])

theorem modulationPass_rvb (nch len : Nat) (u : State) : (modulationPass nch len u).rs.rvb = u.rs.rvb := by
  rcases modulationPass_cases nch len u with h | ⟨_, _, h⟩ <;> rw [h]

/-- A word of the block after the pass. -/
theorem memWord_modulationPass {c : Channel} (hc : c.val < nch) {len k : Nat} (hlen : len ≤ blkCap) (hk : k < len)
    (u : State) :
    memWord (modulationPass nch len u).wet (wetAddr c k) =
      if fgt u.pr.mod lit.zero = true then
        fmul (memWord u.wet (wetAddr c k)) (modGain (phaseAfter u.rs.inc k u.rs.mphase) u.pr.mod)
      else memWord u.wet (wetAddr c k) := by
  split_ifs with h
  · rw [modulationPass_of_on h]
    exact (memWord_modFrames hc hlen (hk.trans_le hlen) _).trans (if_pos hk)
  · rw [modulationPass_of_off (eq_false_of_ne_true h)]

end Modulation

/-! ### The block -/

section Block

variable (nch len : Nat) (s : State)

/-- After the external call the passes leave `DLY`, the cursors and `RS.rvb`. -/
theorem reverbPasses_after_call :
    (reverbPasses nch len s).dly = (beforeCall nch len s).dly ∧
      (reverbPasses nch len s).rs.wcur = (beforeCall nch len s).rs.wcur ∧
      (reverbPasses nch len s).rs.rvb = (externalCall nch len (beforeCall nch len s)).rs.rvb := by
  refine ⟨?_, modulationPass_wcur nch len _, modulationPass_rvb nch len _⟩
  rw [reverbPasses, mixPass_dly, modulationPass_dly, externalCall_dly]
  rfl

/-- The modulation pass finds the snapshot, the phase and its step as they were at the start of the passes. -/
theorem afterCall_inputs :
    (externalCall nch len (beforeCall nch len s)).pr = s.pr ∧
      (externalCall nch len (beforeCall nch len s)).rs.inc = s.rs.inc ∧
      (externalCall nch len (beforeCall nch len s)).rs.mphase = s.rs.mphase :=
  ⟨by simp [beforeCall], (beforeCall_latched nch len s).inc, (beforeCall_latched nch len s).mphase⟩

theorem reverbPasses_mphase :
    (reverbPasses nch len s).rs.mphase =
      if fgt s.pr.mod lit.zero = true then phaseAfter s.rs.inc len s.rs.mphase else s.rs.mphase := by
  obtain ⟨hpr, hinc, hphase⟩ := afterCall_inputs nch len s
  change (modulationPass nch len (externalCall nch len (beforeCall nch len s))).rs.mphase = _
  split_ifs with h
  · rw [modulationPass_mphase_on (by rwa [hpr]), hinc, hphase]
  · rw [modulationPass_of_off (by rw [hpr]; exact eq_false_of_ne_true h), hphase]

/-- The new state of the external algorithm, for the block it is handed. -/
theorem reverbPasses_rvb :
    (reverbPasses nch len s).rs.rvb =
      reverbRunState s.rk.ra nch len (wetBlock nch len (beforeCall nch len s).wet) s.rs.rvb := by
  rw [(reverbPasses_after_call nch len s).2.2, externalCall, beforeCall_rk, beforeCall_rvb]

variable {nch len}

/-- A word of `WET_R` at the end of the block: the answer of the external algorithm, times the gain of the frame when the
modulation is on. -/
theorem memWord_reverbPasses_wet {c : Channel} (hc : c.val < nch) (hlen : len ≤ blkCap) {k : Nat} (hk : k < len) :
    memWord (reverbPasses nch len s).wet (wetAddr c k) =
      if fgt s.pr.mod lit.zero = true then
        fmul (reverbRunWet s.rk.ra nch len (wetBlock nch len (beforeCall nch len s).wet) s.rs.rvb c.val k)
          (modGain (phaseAfter s.rs.inc k s.rs.mphase) s.pr.mod)
      else reverbRunWet s.rk.ra nch len (wetBlock nch len (beforeCall nch len s).wet) s.rs.rvb c.val k := by
  obtain ⟨hpr, hinc, hphase⟩ := afterCall_inputs nch len s
  have hword := memWord_modulationPass hc hlen hk (externalCall nch len (beforeCall nch len s))
  rwa [hpr, hinc, hphase, memWord_externalCall hc hlen hk, beforeCall_rk, beforeCall_rvb] at hword

end Block

/-! ### The command -/

/-- The predelay is on exactly when `P.predelay` is above 0 (46_parameter_mapper.md R232). -/
theorem predelayOf_fst {pre fs : F32} {d : Bool × Nat} (h : predelayOf pre fs = some d) : d.1 = fgt pre lit.zero := by
  cases hon : fgt pre lit.zero with
  | false => rw [← Option.some.inj ((predelayOf_of_off hon fs).symm.trans h)]
  | true =>
    rw [predelayOf_of_on hon] at h
    split_ifs at h
    rw [← Option.some.inj h]

/-- A `PROC.R` that leaves no fault recorded ran its passes from the start of the block, the predelay on when its register is
above 0. -/
theorem procR_passes {nch n : Nat} {s t : State} (h : exec (.procR nch n) s = .next t) (ht : t.trap = none) :
    ∃ sel d, d.1 = fgt s.regs.rPredelay lit.zero ∧ t = reverbPasses nch n (startBlockR sel d s) := by
  rcases execProcR_cases nch n s with ⟨_, he⟩ | ⟨_, _, he⟩ | ⟨_, _, _, he⟩ | ⟨_, _, _, _, _, he⟩ |
      ⟨sel, d, _, _, _, hd, he⟩ <;>
    obtain rfl := Host.Outcome.next.inj (he.symm.trans h)
  · cases ht
  · cases ht
  · cases ht
  · cases ht
  · exact ⟨sel, d, predelayOf_fst hd, rfl⟩

section Command

variable {nch n : Nat} {s t : State} (h : exec (.procR nch n) s = .next t) (ht : t.trap = none)

include h ht

/-- What each bypass keeps, and what the cursors and the phase do where it is not taken. -/
theorem procR_bypasses :
    (fgt s.regs.rPredelay 0 = false → t.dly = s.dly ∧ t.rs.wcur = s.rs.wcur) ∧
    (fgt s.regs.rPredelay 0 = true → ∀ c : Channel, s.rs.wcur[c] < 524288 →
      t.rs.wcur[c] = if c.val < nch then (s.rs.wcur[c] + n) % 524288 else s.rs.wcur[c]) ∧
    t.rs.mphase = if fgt s.regs.rMod 0 = true then phaseAfter s.rs.inc n s.rs.mphase else s.rs.mphase := by
  obtain ⟨sel, d, hd, rfl⟩ := procR_passes h ht
  obtain ⟨hdly, hwcur, _⟩ := reverbPasses_after_call nch n (startBlockR sel d s)
  refine ⟨fun hoff => ?off, fun hon c hw => ?on, reverbPasses_mphase nch n (startBlockR sel d s)⟩
  case off =>
    rw [hdly, hwcur]
    exact beforeCall_off_keeps (s := startBlockR sel d s) (hd.trans hoff)
  case on =>
    split_ifs with hc
    · rw [hwcur]
      exact beforeCall_wcur (s := startBlockR sel d s) (hd.trans hon) hc hw
    · exact ((revBlockFrame_reverbPasses nch n (startBlockR sel d s)).dead c (not_lt.mp hc)).2.2

/-- The wet path of a block, from the calls of `POP` that its filtered words make. -/
theorem procR_wetPath (hmax : s.rs.maxblk ≤ 8192) (hcur : CursorsOk s.rs) (calls : Channel → List (Nat × F32))
    (wet : List F32)
    (hcalls : ∀ c, calls c = blockCalls t.rk.dlyD (cutsRun t.rk c (channelWords bufRAddr c n s.mem) s.rs).1)
    (hwet : wet = (channels nch).flatMap fun c =>
      if fgt s.regs.rPredelay 0 = true then popRun c (calls c) (s.rs, s.dly) else (calls c).map Prod.snd) :
    t.rs.rvb = reverbRunState t.rk.ra nch n wet s.rs.rvb ∧
    ∀ c : Channel, c.val < nch →
      channelWords wetAddr c n t.wet = (List.range n).map (fun k =>
        if fgt s.regs.rMod 0 = true then
          fmul (reverbRunWet t.rk.ra nch n wet s.rs.rvb c.val k)
            (modGain (phaseAfter s.rs.inc k s.rs.mphase) s.regs.rMod)
        else reverbRunWet t.rk.ra nch n wet s.rs.rvb c.val k) ∧
      (fgt s.regs.rPredelay 0 = true → ∀ i, i < 524288 →
        memWord t.dly (dlyAddr c i) = memWord (popCalls c (calls c) (s.rs, s.dly)).2.2 (dlyAddr c i)) := by
  have hlen : n ≤ blkCap := (procR_of_trap_none h ht).1.trans hmax
  obtain ⟨sel, d, hd, rfl⟩ := procR_passes h ht
  rw [reverbPasses_rk] at hcalls ⊢
  obtain rfl : calls = filteredCalls n (startBlockR sel d s) := funext hcalls
  have hswitch : (startBlockR sel d s).rk.dlyOn = fgt s.regs.rPredelay 0 := hd
  have hblock : wetBlock nch n (beforeCall nch n (startBlockR sel d s)).wet = wet := by
    rw [wetBlock_beforeCall (s := startBlockR sel d s) hcur hlen, hwet, hswitch]
    rfl
  refine ⟨?state, fun c hc => ⟨List.map_congr_left fun k hk => ?answer, fun hon i hi => ?delay⟩⟩
  case state =>
    rw [← hblock]
    exact reverbPasses_rvb nch n (startBlockR sel d s)
  case answer =>
    rw [← hblock]
    exact memWord_reverbPasses_wet (startBlockR sel d s) hc hlen (List.mem_range.mp hk)
  case delay =>
    rw [(reverbPasses_after_call nch n (startBlockR sel d s)).1]
    exact (beforeCall_channel_on (s := startBlockR sel d s) (hd.trans hon) hcur hc hlen).2 i hi

end Command

/-- Settles O48. -/
theorem procRBypassesKeepState : Obligations.ProcRBypassesKeepState := by
  unfold Obligations.ProcRBypassesKeepState
  refine ⟨fun nch n s t _ h ht => ?bypasses, fun nch n s t _ hmax hcur h ht => procR_wetPath h ht hmax hcur⟩
  case bypasses =>
    obtain ⟨hoff, hon, hphase⟩ := procR_bypasses h ht
    refine ⟨hoff, hon, fun hmod => ?_, fun u hu => modulationPass_of_off hu nch n, fun hmod => hphase.trans (if_pos hmod)⟩
    exact hphase.trans (if_neg (by rw [hmod]; exact Bool.false_ne_true))

end Sys2Proof.Machine
end
